-- ==== Sys2Proof/Word.lean ====
section
/-! DEFINITION. The words the SZ48 exchanges: bytes of frames and 32-bit card words. -/

namespace Sys2Proof

/-- One byte of a frame, a tag, a designation or a craft code. -/
abbrev Byte := BitVec 8

/-- One 32-bit word of a line card (01, section 1.1). -/
abbrev Word := BitVec 32

end Sys2Proof
end

