-- ==== Sys2Proof/Config.lean ====
section
/-! DEFINITION. What the SZ48 fixes (00_scope.md, Device summary) and the one value the manual leaves open. -/

namespace Sys2Proof.Config

/-- R171: the edit list never holds more than 32 edits. -/
def editListMax : Nat := 32
/-- R174: the commit list holds up to 4 marks. -/
def commitMax : Nat := 4
/-- R61: the move order list holds up to 8 orders. -/
def orderMax : Nat := 8
/-- R50: the candidate list holds up to 8 entries. -/
def candidateMax : Nat := 8
/-- R146: 95 places of the alarm table are for ordinary entries. -/
def ordinaryMax : Nat := 95
/-- R150: TABLE-FULL is removed when the used count falls to 88 or fewer. -/
def tableFullClearsAt : Nat := 88
/-- R155: the alarm history holds up to 64 records. -/
def historyMax : Nat := 64
/-- R191: a notice queue holds up to 16 notices. -/
def queueMax : Nat := 16
/-- R164, R167: the failed-unlock limit. -/
def unlockMax : Nat := 5
/-- R9: each transfer may be retried 3 times. -/
def retryMax : Nat := 3
/-- R15: the scanner's wait count stops the other grants at 8. -/
def waitMax : Nat := 8
/-- R32: the degrade window holds at most 8 samples. -/
def windowMax : Nat := 8
/-- R58: the fibre records hold up to 16 completion edits. -/
def heldRecordsMax : Nat := 16
/-- R99, R138: the protection engine and the timing selector hold up to 8 edits each. -/
def heldOthersMax : Nat := 8
/-- Frame table of 12.7: a body has 0 to 248 bytes. -/
def bodyMax : Nat := 248

/-- FREE VALUE (log entry 11): the part revision that Identify reports (R185), which the manual does not state. -/
opaque partRevision : Byte

end Sys2Proof.Config
end

