-- ==== Sys2Proof/Syntax.lean ====
section
/-! DEFINITION. The commands of the SZ48, one constructor of `Instr` per row of spec/opcode_table.json, and the types
of their operands. -/

namespace Sys2Proof

/-- The two host links (R193). -/
inductive Link
  | a | b
deriving DecidableEq, Repr

/-- A port, 0 to 47 (00_scope.md). -/
abbrev PortNo := Fin 48
/-- A card slot, 0 to 11. -/
abbrev SlotNo := Fin 12
/-- A protection group, 0 to 7. -/
abbrev GroupNo := Fin 8
/-- A timing reference index: BC1 0, BC2 1, LINE1 to LINE3 2 to 4, INT 5 (R122). -/
abbrev RefNo := Fin 6

/-- A card's answer to a transfer (R8). The word is the word read; for a write it means nothing. -/
inductive CardAnswer
  | ack (w : Word)
  | retry
  | fault
deriving DecidableEq, Repr

/-- The two building clock inputs (R125). -/
inductive BuildingInput
  | bc1 | bc2
deriving DecidableEq, Repr

/-- What an alarm condition is reported against (R141). -/
inductive Obj
  | shelf
  | slot (n : SlotNo)
  | group (n : GroupNo)
  | ref (n : RefNo)
  | port (n : PortNo)
deriving DecidableEq, Repr

/-- The 24 alarm conditions, in the order of R141's table. -/
inductive Cond
  | tableFull | storeFault | freeRun | holdover | sparePoolLow | busFault | scanOverrun
  | cardFailed | cardMissing
  | selectorFault | farEndSilent | protectUnavailable | barred | pinned
  | referenceLost
  | lossOfLight | lossOfFrame | degraded | tagMismatch | misPatch | patchUnprotected
  | condemnedNoSpare | lightOnSpare | moveExpired
deriving DecidableEq, Repr

/-- The commands. A request of a host link carries the link, the frame's tag byte and the frame's body. -/
inductive Instr
  | powerOnReset
  | hardReset
  | linkReset (l : Link)
  | lineReturnsToMark (l : Link)
  | interByteTimeout (l : Link)
  /-- Bytes that arrive on the link's line, the discarded frame among them. -/
  | frameDiscarded (l : Link) (bytes : List Byte)
  | overrun (l : Link)
  | unknownKind (l : Link) (kind tag : Byte) (body : List Byte)
  | transmitEnd (l : Link)
  | identify (l : Link) (tag : Byte) (body : List Byte)
  | linkStatus (l : Link) (tag : Byte) (body : List Byte)
  | claim (l : Link) (tag : Byte) (body : List Byte)
  | release (l : Link) (tag : Byte) (body : List Byte)
  | setTime (l : Link) (tag : Byte) (body : List Byte)
  | arm (l : Link) (tag : Byte) (body : List Byte)
  | restart (l : Link) (tag : Byte) (body : List Byte)
  | lockStatus (l : Link) (tag : Byte) (body : List Byte)
  | setCraftCode (l : Link) (tag : Byte) (body : List Byte)
  | clearCraftCode (l : Link) (tag : Byte) (body : List Byte)
  | unlock (l : Link) (tag : Byte) (body : List Byte)
  | lock (l : Link) (tag : Byte) (body : List Byte)
  | freeze (l : Link) (tag : Byte) (body : List Byte)
  | readPort (l : Link) (tag : Byte) (body : List Byte)
  | setScan (l : Link) (tag : Byte) (body : List Byte)
  | scanStatus (l : Link) (tag : Byte) (body : List Byte)
  | setDegradeThresholds (l : Link) (tag : Byte) (body : List Byte)
  | readSlots (l : Link) (tag : Byte) (body : List Byte)
  | readBusFault (l : Link) (tag : Byte) (body : List Byte)
  | clearBusFault (l : Link) (tag : Byte) (body : List Byte)
  | readPortRecord (l : Link) (tag : Byte) (body : List Byte)
  | editPortRecord (l : Link) (tag : Byte) (body : List Byte)
  | readSpares (l : Link) (tag : Byte) (body : List Byte)
  | condemnPort (l : Link) (tag : Byte) (body : List Byte)
  | setReassign (l : Link) (tag : Byte) (body : List Byte)
  | setShelfIdentity (l : Link) (tag : Byte) (body : List Byte)
  | openMoveOrder (l : Link) (tag : Byte) (body : List Byte)
  | cancelMoveOrder (l : Link) (tag : Byte) (body : List Byte)
  | readMoveOrders (l : Link) (tag : Byte) (body : List Byte)
  | defineGroup (l : Link) (tag : Byte) (body : List Byte)
  | deleteGroup (l : Link) (tag : Byte) (body : List Byte)
  | readGroup (l : Link) (tag : Byte) (body : List Byte)
  | bar (l : Link) (tag : Byte) (body : List Byte)
  | pin (l : Link) (tag : Byte) (body : List Byte)
  | operatorSwitch (l : Link) (tag : Byte) (body : List Byte)
  | clearRequests (l : Link) (tag : Byte) (body : List Byte)
  | clearGroupFault (l : Link) (tag : Byte) (body : List Byte)
  | defineReference (l : Link) (tag : Byte) (body : List Byte)
  | readTiming (l : Link) (tag : Byte) (body : List Byte)
  | lockOutReference (l : Link) (tag : Byte) (body : List Byte)
  | forceReference (l : Link) (tag : Byte) (body : List Byte)
  | setTimingOptions (l : Link) (tag : Byte) (body : List Byte)
  | readAlarms (l : Link) (tag : Byte) (body : List Byte)
  | acknowledge (l : Link) (tag : Byte) (body : List Byte)
  | cutOff (l : Link) (tag : Byte) (body : List Byte)
  | readHistory (l : Link) (tag : Byte) (body : List Byte)
  | setCondition (l : Link) (tag : Byte) (body : List Byte)
  | commit (l : Link) (tag : Byte) (body : List Byte)
  | storeStatus (l : Link) (tag : Byte) (body : List Byte)
  | setStartOptions (l : Link) (tag : Byte) (body : List Byte)
  | cardAnswer (a : CardAnswer)
  | transferTimeout
  | exchangeValuesReturned
  | reprobeTimerExpiry (n : SlotNo)
  | cardAttention (n : SlotNo)
  | periodTimerExpiry
  | batteryRunningChange (asserted : Bool)
  | candidateMemoryExpiry (p : PortNo)
  | condemnTimerExpiry (p : PortNo)
  /-- The order is named by its number, 1 to 255 (R61). -/
  | darkLimitExpiry (num : Nat)
  | lightLimitExpiry (num : Nat)
  | verifyTimerExpiry (num : Nat)
  | holdOffTimerExpiry (p : PortNo)
  | wtrTimerExpiry (g : GroupNo)
  | confirmTimerExpiry (g : GroupNo)
  | retryWaitExpiry (g : GroupNo)
  | clearRetryExpiry
  | buildingClockInputChange (i : BuildingInput) (present : Bool)
  | qualificationTimerExpiry (r : RefNo)
  | acquireTimerExpiry
  | lockedTimerExpiry
  | holdoverTimerExpiry
  | raiseSoakExpiry (o : Obj) (c : Cond)
  | clearSoakExpiry (o : Obj) (c : Cond)
  | storeWriteComplete
  | storeWriteFailed
  | armingDelayExpiry
deriving DecidableEq, Repr

end Sys2Proof
end

