-- ==== Sys2Proof/WellFormed.lean ====
section
/-! DEFINITION. Which terms of `Instr` are commands that can arrive: lengths, kinds and pairings the types do not fix. -/

namespace Sys2Proof

/-- The request kinds of the kind table of 12.7. -/
def requestCodes : List Nat :=
  [0x01, 0x02, 0x03, 0x04, 0x05, 0x06, 0x07] ++ [0x10, 0x11, 0x12, 0x13, 0x14, 0x15]
  ++ [0x20, 0x21, 0x22, 0x23] ++ [0x28, 0x29, 0x2A] ++ [0x30, 0x31, 0x32, 0x33, 0x34, 0x35]
  ++ [0x38, 0x39, 0x3A] ++ [0x40, 0x41, 0x42, 0x43, 0x44, 0x45, 0x46, 0x47]
  ++ [0x50, 0x51, 0x52, 0x53, 0x54] ++ [0x60, 0x61, 0x62, 0x63, 0x64] ++ [0x70, 0x71, 0x72]

/-- Frame table of 12.7: a body has 0 to 248 bytes. -/
def bodyWellFormed (body : List Byte) : Bool := decide (body.length ≤ Config.bodyMax)

/-- R189 check 1: a request frame (kind below 0x80) whose kind is not a request kind. -/
def unknownKindWellFormed (kind : Byte) (body : List Byte) : Bool :=
  decide (kind.toNat < 0x80) && !requestCodes.contains kind.toNat && bodyWellFormed body

/-- R61: orders are numbered 1 to 255. -/
def orderNumberWellFormed (num : Nat) : Bool := decide (1 ≤ num) && decide (num ≤ 255)

/-- R141: the condition is one of those of the object's kind. -/
def conditionWellFormed : Obj → Cond → Bool
  | .shelf, c => [Cond.tableFull, .storeFault, .freeRun, .holdover, .sparePoolLow, .busFault, .scanOverrun].contains c
  | .slot _, c => [Cond.cardFailed, .cardMissing].contains c
  | .group _, c => [Cond.selectorFault, .farEndSilent, .protectUnavailable, .barred, .pinned].contains c
  | .ref _, c => [Cond.referenceLost].contains c
  | .port _, c =>
    [Cond.lossOfLight, .lossOfFrame, .degraded, .tagMismatch, .misPatch, .patchUnprotected, .condemnedNoSpare,
     .lightOnSpare, .moveExpired].contains c

/-- The check of one command: every constructor is named. -/
def Instr.wf : Instr → Bool
  | .powerOnReset | .hardReset | .linkReset _ | .lineReturnsToMark _ | .interByteTimeout _ | .overrun _
  | .transmitEnd _ => true
  | .frameDiscarded _ bytes => decide (bytes ≠ [])
  | .unknownKind _ kind _ body => unknownKindWellFormed kind body
  | .identify _ _ b | .linkStatus _ _ b | .claim _ _ b | .release _ _ b | .setTime _ _ b | .arm _ _ b
  | .restart _ _ b | .lockStatus _ _ b | .setCraftCode _ _ b | .clearCraftCode _ _ b | .unlock _ _ b
  | .lock _ _ b | .freeze _ _ b | .readPort _ _ b | .setScan _ _ b | .scanStatus _ _ b
  | .setDegradeThresholds _ _ b | .readSlots _ _ b | .readBusFault _ _ b | .clearBusFault _ _ b
  | .readPortRecord _ _ b | .editPortRecord _ _ b | .readSpares _ _ b | .condemnPort _ _ b
  | .setReassign _ _ b | .setShelfIdentity _ _ b | .openMoveOrder _ _ b | .cancelMoveOrder _ _ b
  | .readMoveOrders _ _ b | .defineGroup _ _ b | .deleteGroup _ _ b | .readGroup _ _ b | .bar _ _ b
  | .pin _ _ b | .operatorSwitch _ _ b | .clearRequests _ _ b | .clearGroupFault _ _ b
  | .defineReference _ _ b | .readTiming _ _ b | .lockOutReference _ _ b | .forceReference _ _ b
  | .setTimingOptions _ _ b | .readAlarms _ _ b | .acknowledge _ _ b | .cutOff _ _ b | .readHistory _ _ b
  | .setCondition _ _ b | .commit _ _ b | .storeStatus _ _ b | .setStartOptions _ _ b => bodyWellFormed b
  | .cardAnswer _ | .transferTimeout | .exchangeValuesReturned | .reprobeTimerExpiry _ | .cardAttention _
  | .periodTimerExpiry | .batteryRunningChange _ | .candidateMemoryExpiry _ | .condemnTimerExpiry _ => true
  | .darkLimitExpiry n | .lightLimitExpiry n | .verifyTimerExpiry n => orderNumberWellFormed n
  | .holdOffTimerExpiry _ | .wtrTimerExpiry _ | .confirmTimerExpiry _ | .retryWaitExpiry _ | .clearRetryExpiry
  | .buildingClockInputChange _ _ => true
  /- INT is never QUALIFYING (R122). -/
  | .qualificationTimerExpiry r => decide (r.val ≤ 4)
  | .acquireTimerExpiry | .lockedTimerExpiry | .holdoverTimerExpiry => true
  | .raiseSoakExpiry o c => conditionWellFormed o c && decide (c ≠ .tableFull)
  | .clearSoakExpiry o c => conditionWellFormed o c && decide (c ≠ .tableFull)
  | .storeWriteComplete | .storeWriteFailed | .armingDelayExpiry => true

end Sys2Proof
end

