-- ==== Sys2Proof/Decode.lean ====
section
/-! DEFINITION. The commands that spec/opcode_table.json spells in bits. It gives no row any bits ("fields" is empty in
every row, and 98_reader.md counts no row with fixed bits), so no word spells a command. -/

namespace Sys2Proof

/-- The command that a word spells by the table's bits: none, since the table gives no row bits. -/
def decodeTableWord (_nbits _w : Nat) : Option Instr := none

end Sys2Proof
end

