-- ==== Sys2Proof/Machine/State.lean ====
section
/-! DEFINITION. The state of the SZ48: every register, list, timer, mode and pin the manual gives it, as plain data, and
the state after a power-on reset. INVENTORY.md lists each field with its rule. -/

namespace Sys2Proof.Machine

/-! ### Backplane controller (chapter 1) -/

/-- R1. -/
inductive SlotState
  | unknown | empty | present | failed
deriving DecidableEq, Repr

/-- R1: one slot record. -/
structure SlotRec where
  state : SlotState
  kind : Option Byte
  rev : Option Byte
  faults : Nat
deriving DecidableEq, Repr

/-- R18: who asked for a transaction. BACKPLANE stands for the controller's own probes. -/
inductive Requester
  | backplane | executor | timing | records | scanner
deriving DecidableEq, Repr

/-- R8, R9: how a transfer ends in fault. -/
inductive BusAnswer
  | fault | timeout | retryLimit
deriving DecidableEq, Repr

/-- R18. -/
inductive TxnKind
  | singleRead | singleWrite | blockRead | exchange
deriving DecidableEq, Repr

/-- R18: one part of the bus fault record. -/
structure BusFault where
  requester : Requester
  kind : TxnKind
  slot : SlotNo
  offset : Nat
  answer : BusAnswer
deriving DecidableEq, Repr

/-- Section 1.5: a transaction as its requester states it. Offsets are word offsets within the card. -/
inductive Txn
  | read (slot : SlotNo) (off : Nat)
  | write (slot : SlotNo) (off : Nat) (value : Word)
  | block (slot : SlotNo) (off : Nat)
  | exchange (words : List (SlotNo × Nat))
deriving DecidableEq, Repr

/-- The transaction in progress: words read so far in order, writes completed, retries used by the current transfer
(R9), and the values of a locked exchange once they have been returned (R12). -/
structure BusUse where
  req : Requester
  txn : Txn
  reads : List Word
  writes : Nat
  retries : Nat
  values : Option (List Word)
deriving DecidableEq, Repr

structure Backplane where
  slots : Vector SlotRec 12
  /-- R4: the re-probe timers, in elapsed ms. -/
  reprobe : Vector (Option Nat) 12
  /-- R4: the timer has run out and its probe has not ended. -/
  reprobeDue : Vector Bool 12
  /-- R4, R14: the controller's probe waiting at the arbiter. -/
  probeWaiting : Option SlotNo
  bus : Option BusUse
  waitExecutor : Option Txn
  waitTiming : Option Txn
  waitRecords : Option Txn
  waitScanner : Option Txn
  /-- R15. -/
  waitCount : Nat
  /-- R16. -/
  attention : List SlotNo
  /-- R16: the card attention lines, asserted or released. -/
  attLine : Vector Bool 12
  firstCause : Option BusFault
  lastFault : Option BusFault
deriving DecidableEq, Repr

/-! ### Port scanner (chapter 2) -/

/-- Port conditions (R33). -/
inductive PortCond
  | unknown | unmonitored | absent | dark | failed | degraded | clean
deriving DecidableEq, Repr

/-- Clock grades (section 7.1). -/
inductive Grade
  | g1 | g2 | g3 | g4 | g5 | gx
deriving DecidableEq, Repr

/-- The ten request classes, in order of rank (R84). -/
inductive ReqClass
  | barred | protectFailed | pinned | patchHold | lineFailed | lineDegraded | operator | settling | remain | idle
deriving DecidableEq, Repr

/-- The group kind of a protection word (R105). -/
inductive LineKind
  | none | pair | shared
deriving DecidableEq, Repr

/-- A received protection word (R105). -/
structure ProtWord where
  cls : ReqClass
  chan : Nat
  bridged : Nat
  kind : LineKind
deriving DecidableEq, Repr

/-- The observation of one port (R31 to R37). -/
structure Obs where
  cond : PortCond
  light : Option Bool
  frame : Option Bool
  window : List Nat
  degraded : Bool
  carry : Nat
  resume : Bool
  tagOwed : Bool
  rxTag : Option (List Byte)
  rxProt : Option ProtWord
  rxGrade : Option Grade
deriving DecidableEq, Repr

/-- R22: a scan setup. -/
structure ScanSetup where
  first : PortNo
  count : Nat
  up : Bool
  period : Nat
  quiet : Bool
deriving DecidableEq, Repr

/-- R26, R27: the scan cycle. `running n asked` is a cycle with `n` ports visited; `asked` says that attention work has
been asked for before the coming visit. -/
inductive Cycle
  | stopped
  | running (visited : Nat) (asked : Bool)
  | waiting
deriving DecidableEq, Repr

/-- What the scanner's read in hand is for (R27, R28, R30). -/
inductive ScanJob
  | cyclic (p : PortNo)
  | attention (p : PortNo)
  /-- A received tag read that follows a cyclic read (`true`) or an attention read (`false`). -/
  | tag (p : PortNo) (cyclic : Bool)
deriving DecidableEq, Repr

/-- R32. -/
structure Thresholds where
  degrade : Nat
  clear : Nat
deriving DecidableEq, Repr

structure Scanner where
  setup : ScanSetup
  pending : Option ScanSetup
  dropped : Bool
  cycle : Cycle
  /-- R26: the period timer expired while the cycle was running. -/
  late : Bool
  /-- R26: the period timer, in elapsed ms. -/
  period : Option Nat
  /-- SCAN-OVERRUN is being reported present. -/
  overrun : Bool
  /-- R28: the ports of the slot being served by attention that are still to be read. -/
  serving : List PortNo
  job : Option ScanJob
  thresholds : Thresholds
  obs : Vector Obs 48
deriving DecidableEq, Repr

/-! ### Stored items (chapter 10) and the records they hold -/

/-- R40. -/
inductive ServiceClass
  | inService | spare | condemned | parked
deriving DecidableEq, Repr

/-- R40: the stored fields of a port record. -/
structure PortRec where
  cls : ServiceClass
  desig : Option (List Byte)
  tag : Option (List Byte)
deriving DecidableEq, Repr

/-- R49. -/
structure Reassign where
  on : Bool
  mark : Nat
  minutes : Nat
deriving DecidableEq, Repr

/-- R80: a group definition. `working` lists the working ports of channels 1 to N. -/
structure GroupDef where
  shared : Bool
  protect : PortNo
  working : List PortNo
  revertive : Bool
  holdOff : Nat
  wtr : Nat
deriving DecidableEq, Repr

/-- R122. -/
inductive Binding
  | none
  | port (p : PortNo)
  | group (g : GroupNo)
deriving DecidableEq, Repr

/-- R122: the definition of a reference. -/
structure RefDef where
  binding : Binding
  priority : Nat
  override : Option Grade
deriving DecidableEq, Repr

/-- R137: the timing options, in seconds and hours. -/
structure TimingOptions where
  revertive : Bool
  qualify : Nat
  holdover : Nat
deriving DecidableEq, Repr

/-- R181: the start options. -/
structure StartOptions where
  delay : Nat
  retain : Bool
deriving DecidableEq, Repr

/-- R141: severities, highest first. -/
inductive Severity
  | critical | major | minor | warning
deriving DecidableEq, Repr

/-- R142: raise soak in tenths of a second, clear soak in seconds. -/
structure CondSetting where
  sev : Severity
  raise : Nat
  clear : Nat
deriving DecidableEq, Repr

/-- R170: one change to one stored item, with the item's whole new value. -/
inductive ItemValue
  | identity (v : List Byte)
  | craftCode (v : Option (List Byte))
  | portRecord (p : PortNo) (v : PortRec)
  | groupDef (g : GroupNo) (v : Option GroupDef)
  | refDef (r : RefNo) (v : RefDef)
  | conditions (v : Vector CondSetting 24)
  | thresholds (v : Thresholds)
  | reassign (v : Reassign)
  | timing (v : TimingOptions)
  | start (v : StartOptions)
deriving DecidableEq, Repr

/-- R170: the name of a stored item. -/
inductive Item
  | identity | craftCode
  | portRecord (p : PortNo)
  | groupDef (g : GroupNo)
  | refDef (r : RefNo)
  | conditions | thresholds | reassign | timing | start
deriving DecidableEq, Repr

/-- R177: why an item was lost. -/
inductive LostReason
  | check | blank | dependent
deriving DecidableEq, Repr

structure LostItem where
  item : Item
  reason : LostReason
deriving DecidableEq, Repr

/-- One item of the nonvolatile memory: never written, failing its check, or holding a value (R177). -/
inductive Stored (α : Type)
  | blank
  | badCheck
  | value (v : α)
deriving DecidableEq, Repr

/-- R170: the 69 stored items as the nonvolatile memory holds them. -/
structure Nvm where
  identity : Stored (List Byte)
  craftCode : Stored (Option (List Byte))
  ports : Vector (Stored PortRec) 48
  groups : Vector (Stored (Option GroupDef)) 8
  refs : Vector (Stored RefDef) 6
  conditions : Stored (Vector CondSetting 24)
  thresholds : Stored Thresholds
  reassign : Stored Reassign
  timing : Stored TimingOptions
  start : Stored StartOptions
deriving DecidableEq, Repr

/-- R170: an edit. -/
structure Edit where
  num : Nat
  value : ItemValue
deriving DecidableEq, Repr

/-- R172, R176. -/
inductive Writer
  | idle | writing | retrying | stopped
deriving DecidableEq, Repr

structure Store where
  nvm : Nvm
  list : List Edit
  counter : Nat
  writer : Writer
  writtenThrough : Option Nat
  failed : Nat
  marks : List Nat
  /-- R173: the spare pool count and the low-water mark as last reported. -/
  poolCount : Nat
  lowMark : Nat
  writeThrough : Bool
  lost : List LostItem
  /-- The model's own: numbers the held edits of the three blocks in order of offering (R171). -/
  offers : Nat
deriving DecidableEq, Repr

/-- An edit a block holds until the edit list has room, with its place in the order of offering (R171). -/
structure HeldEdit where
  seq : Nat
  value : ItemValue
deriving DecidableEq, Repr

/-! ### Fibre records (chapter 3) -/

/-- R40. -/
inductive CondemnKind
  | manual | automatic
deriving DecidableEq, Repr

/-- R40, R53, R56: the condemn-pending flag of a port, with what its order will be opened with. -/
structure Condemn where
  kind : CondemnKind
  unprotected : Bool
  dark : Nat
  light : Nat
deriving DecidableEq, Repr

/-- R51. -/
structure CondemnTimer where
  running : Bool
  ms : Nat
  due : Bool
deriving DecidableEq, Repr

/-- R50: entry time in shelf time. -/
structure Candidate where
  port : PortNo
  time : Nat
deriving DecidableEq, Repr

/-- R45, R46: the tag write in progress. -/
structure TagWrite where
  port : PortNo
  word : Nat
  changed : Bool
deriving DecidableEq, Repr

structure Records where
  recs : Vector PortRec 48
  condemn : Vector (Option Condemn) 48
  timers : Vector CondemnTimer 48
  identity : List Byte
  tagList : List PortNo
  tagWrite : Option TagWrite
  reassign : Reassign
  candidates : List Candidate
  held : List HeldEdit
deriving DecidableEq, Repr

/-! ### Move order list (chapter 4) -/

/-- R61. -/
inductive Origin
  | host | reassign
deriving DecidableEq, Repr

/-- R61. -/
inductive Stage
  | queued | holding | awaitDark | awaitLight | verifying | completing
deriving DecidableEq, Repr

/-- R61: a move order. `stageMs` is the time in the present stage (the dark timer and the verify timer), `lightMs` the
time since the light start time. -/
structure Order where
  num : Nat
  origin : Origin
  src : PortNo
  dst : PortNo
  circuit : Option (GroupNo × Nat)
  unprotected : Bool
  dark : Nat
  light : Nat
  stage : Stage
  stageStart : Nat
  lightStart : Option Nat
  granted : Bool
  stageMs : Nat
  lightMs : Nat
deriving DecidableEq, Repr

structure Orders where
  list : List Order
  next : Nat
  expired : Vector Bool 48
deriving DecidableEq, Repr

/-- The events of an Order Notice (R77). -/
inductive OrderEvent
  | opened | stage | holdLost | holdRegained | completed | completedSelectorFault | expired | cancelled
deriving DecidableEq, Repr

/-! ### Protection engine (chapter 5) and switch executor (chapter 6) -/

/-- R84, R100: an entry of a request list. `order` and `granted` belong to a Patch Hold. -/
structure ReqEntry where
  cls : ReqClass
  chan : Nat
  order : Option Nat
  granted : Bool
deriving DecidableEq, Repr

/-- R83: the run-time record of a group. -/
structure GroupRun where
  sel : Nat
  list : List ReqEntry
  active : Option (ReqClass × Nat)
  plan : Option Nat
  far : Option (ReqClass × Nat)
  restoreDue : Bool
  stuck : Bool
  wtr : Option Nat
deriving DecidableEq, Repr

/-- R83. -/
inductive GroupState
  | stuck | awaitFar | switching | settling | onProtect | idle
deriving DecidableEq, Repr

/-- R101. -/
inductive GroupEvent
  | switched | adopted | fault | stuck | unstuck
deriving DecidableEq, Repr

structure Engine where
  defs : Vector (Option GroupDef) 8
  run : Vector GroupRun 8
  /-- R85: the hold-off timers, in elapsed ms. -/
  holdOff : Vector (Option Nat) 48
  held : List HeldEdit
deriving DecidableEq, Repr

/-- R108, R117, R119: what an exchange of a group is for. `substDest` names the destination alone. -/
inductive XKind
  | bridge | select | release | restore | subst | substDest
deriving DecidableEq, Repr

/-- R106. -/
inductive XStep
  | queued | atBus | retryWait | recovery | confirmWait
deriving DecidableEq, Repr

/-- R106, R108: a plan. `next` is its exchange due; `goesFirst` says that no substitution was pending when it was asked
for (R119). -/
structure XPlan where
  target : Nat
  cls : ReqClass
  chan : Nat
  next : XKind
  goesFirst : Bool
deriving DecidableEq, Repr

/-- The exchange in hand of a group: its ports in the stated order, each with the channel it had in the group as the
exchange was formed, its attempt, and the bus answer of an attempt that is being recovered (R112). -/
structure XJob where
  kind : XKind
  ports : List (PortNo × Nat)
  attempt : Nat
  fault : Option BusAnswer
deriving DecidableEq, Repr

/-- R119. -/
structure Subst where
  chan : Nat
  src : PortNo
  dst : PortNo
deriving DecidableEq, Repr

/-- R116: a due word. For a protect port the outgoing request is kept as class and channel codes; `prepared` is the due word
of the protect port of a SHARED group in its preparation, whose outgoing request is settled by the word that the exchange
reads. -/
inductive Due
  | working (bridgeOut selectOut : Bool)
  | protect (shared : Bool) (bridge carry : Nat) (cls chan : Nat)
  | prepared
deriving DecidableEq, Repr

/-- R106: the executor's record of a group. `carried` is the present carried channel of R116 and R119: the protect port's
carry channel as the executor last wrote or adopted it (log entry 37). -/
structure GroupExec where
  bridged : Option Nat
  carried : Nat
  plan : Option XPlan
  step : XStep
  job : Option XJob
  saved : List (PortNo × Word)
  owed : List (PortNo × Due)
  prepareDue : Bool
  subst : Option Subst
  confirm : Option Nat
  retry : Option Nat
  /-- R115: an adoption waits for the plan or the substitution to end, or for the adoption at the bus, which may have
  passed the member whose card is now PRESENT. -/
  adoptDue : Bool
deriving DecidableEq, Repr

/-- R107. -/
inductive Task
  | exchange (g : GroupNo)
  | adoption (g : GroupNo)
  | clear
deriving DecidableEq, Repr

/-- The task in hand. An adoption keeps the members still to be read and what was read (`none` for a blank). -/
inductive ActiveTask
  | exchange (g : GroupNo)
  | adoption (g : GroupNo) (rest : List PortNo) (got : List (PortNo × Option Word))
  | clear (ports : List PortNo)
deriving DecidableEq, Repr

structure Executor where
  groups : Vector GroupExec 8
  tasks : List Task
  active : Option ActiveTask
  clearList : List PortNo
  clearWait : Option Nat
  arming : List GroupNo
deriving DecidableEq, Repr

/-! ### Timing selector (chapter 7) -/

/-- R122. -/
inductive RefState
  | disabled | unusable | qualifying | usable
deriving DecidableEq, Repr

/-- R122, R124: a reference record. -/
structure Ref where
  defn : RefDef
  locked : Bool
  state : RefState
  qual : Option Nat
  deriv : Option PortNo
deriving DecidableEq, Repr

/-- R129. -/
inductive SelState
  | freeRun | acquiring | locked | holdover
deriving DecidableEq, Repr

structure Timing where
  refs : Vector Ref 6
  st : SelState
  sel : Option RefNo
  forced : Option RefNo
  /-- R127, R139: the forced reference has been USABLE since it was forced or kept; clear where none is forced (log entry
  10). -/
  forceSeen : Bool
  acquire : Option Nat
  lockedFor : Option Nat
  holdFor : Option Nat
  valid : Bool
  last : Option Grade
  opts : TimingOptions
  planned : Vector Grade 48
  written : Vector (Option Grade) 48
  list : List PortNo
  writing : Option (PortNo × Grade)
  held : List HeldEdit
deriving DecidableEq, Repr

/-! ### Alarm unit (chapter 8) -/

/-- R146. -/
inductive EntryState
  | rising | raised | falling
deriving DecidableEq, Repr

/-- R146: an entry of the alarm table. -/
structure AlarmEntry where
  obj : Obj
  cond : Cond
  sev : Severity
  state : EntryState
  acked : Bool
  raiseTime : Option Nat
  count : Nat
  soak : Option Nat
deriving DecidableEq, Repr

/-- R155. -/
inductive Transition
  | raised | cleared | masked | evicted | acknowledged
deriving DecidableEq, Repr

/-- R155: a history record; object ALL is `none`. -/
structure HistRec where
  seq : Nat
  time : Nat
  obj : Option Obj
  cond : Option Cond
  sev : Option Severity
  trans : Transition
deriving DecidableEq, Repr

structure Alarms where
  settings : Vector CondSetting 24
  /-- R143: the objects and conditions whose told state is present. -/
  told : List (Obj × Cond)
  /-- R143: those whose effective state is present. -/
  eff : List (Obj × Cond)
  table : List AlarmEntry
  history : List HistRec
  nextSeq : Nat
  /-- The model's own: the counter has passed 4294967295 since the last reset, so the order of making is no longer the
  order of the numbers (R158; log entry 38). -/
  lapped : Bool
  cutOff : Bool
deriving DecidableEq, Repr

/-- R152, R153: the outputs after an event. -/
structure Outputs where
  critical : Bool
  major : Bool
  minor : Bool
  audible : Bool
  cutOff : Bool
deriving DecidableEq, Repr

/-! ### Readiness controller (chapter 11) -/

/-- R179. -/
inductive Phase
  | discovery | watch | arming | armed
deriving DecidableEq, Repr

/-- R183. -/
inductive ResetCause
  | powerOn | pin | restart
deriving DecidableEq, Repr

/-- R185. -/
inductive ArmCause
  | arm | request | delay
deriving DecidableEq, Repr

structure Readiness where
  phase : Phase
  cause : ResetCause
  armCause : Option ArmCause
  /-- R180: the arming delay timer, in elapsed ms. -/
  armingFor : Option Nat
  opts : StartOptions
  /-- R184: the base of shelf time. -/
  base : Nat
  /-- R184: the time counted since the last reset, in ms. -/
  ms : Nat
deriving DecidableEq, Repr

/-! ### Claim and work lock (chapter 9) -/

/-- R160. -/
inductive Holder
  | none | linkA | linkB
deriving DecidableEq, Repr

/-- R162. -/
inductive ClaimCause
  | claim | release | linkReset
deriving DecidableEq, Repr

/-- R164. -/
inductive LockMode
  | unguarded | opened | locked
deriving DecidableEq, Repr

structure WorkLock where
  holder : Holder
  code : Option (List Byte)
  mode : LockMode
  frozen : Bool
  count : Nat
deriving DecidableEq, Repr

/-! ### Notices and link units (chapter 12) -/

/-- The eight notices of 12.7, by their named fields. -/
inductive Notice
  | startUp (phase : Phase) (cause : ResetCause) (time : Nat) (slots : List SlotState) (lost : List LostItem)
      (stuckGroups : Nat) (armCause : Option ArmCause)
  | alarm (rec : HistRec) (entry : Option (Bool × Nat)) (outputs : Outputs) (used : Nat) (full : Bool)
  | group (event : GroupEvent) (g : GroupNo) (state : GroupState) (sel : Nat) (active far : Option (ReqClass × Nat))
      (fault : Option (Option BusAnswer × Nat × Bool))
  | order (event : OrderEvent) (num : Nat) (origin : Origin) (src dst : PortNo) (circuit : Option (GroupNo × Nat))
      (stage : Stage) (granted : Bool)
  | timing (st : SelState) (sel : Option RefNo) (grade : Grade) (valid : Bool) (forced : Option RefNo)
      (refs : List (RefState × Grade))
  | claim (holder : Holder) (cause : ClaimCause)
  | commit (mark : Nat) (written : Bool) (occupancy : Nat)
  | slot (n : SlotNo) (state : SlotState) (kind rev : Option Byte)
deriving DecidableEq, Repr

/-- R191: a queued notice with the lost count copied into its first body byte. -/
structure QNotice where
  lost : Nat
  notice : Notice
deriving DecidableEq, Repr

/-- The outcomes of 12.7. -/
inductive Outcome
  | done | accepted | unknownKind | badForm | badValue | absent | notReady | notClaimed | locked | frozen | expired
  | conflict | full | outranked | stuck | storeFault
deriving DecidableEq, Repr

/-- R189: a reply: its outcome and its data. -/
structure Reply where
  outcome : Outcome
  data : List Byte
deriving DecidableEq, Repr

/-- R188: where the held request stands. -/
inductive HeldStatus
  /-- its reply is being formed in the step that took it -/
  | forming
  /-- its reply waits for the write of the edit (R173) -/
  | awaiting (edit : Nat) (reply : Reply)
  /-- its reply is pending (R190) -/
  | ready (reply : Reply)
  /-- its reply is being sent -/
  | sending
deriving DecidableEq, Repr

structure HeldRequest where
  kind : Byte
  tag : Byte
  /-- R183: a Restart that replied DONE. -/
  restart : Bool
  status : HeldStatus
deriving DecidableEq, Repr

/-- R187, R192: the receiver. `inFrame` keeps the bytes of the frame after its sync byte. -/
inductive Receiver
  | hunting
  | inFrame (bytes : List Byte)
  | heldReset
deriving DecidableEq, Repr

/-- R190: the frame being sent, from its sync byte to its last check byte. -/
structure TxFrame where
  isReply : Bool
  bytes : List Byte
deriving DecidableEq, Repr

structure LinkUnit where
  rx : Receiver
  /-- R193: the receive line is at space. -/
  atSpace : Bool
  held : Option HeldRequest
  tx : Option TxFrame
  queue : List QNotice
  lost : Nat
  discarded : Nat
  overrun : Nat
  resets : Nat
deriving DecidableEq, Repr

/-! ### The whole -/

/-- The input pins whose level the SZ48 reads (R25, R125). -/
structure Pins where
  battery : Bool
  bc1 : Bool
  bc2 : Bool
deriving DecidableEq, Repr

/-- The ten blocks between the cards and the links, and the notices of the step being made. -/
structure Shelf where
  bp : Backplane
  scan : Scanner
  recs : Records
  ords : Orders
  eng : Engine
  exe : Executor
  tim : Timing
  alm : Alarms
  sto : Store
  rdy : Readiness
  pins : Pins
  /-- The model's own: the notices made so far in the step, oldest first; empty between steps (log entry 9). -/
  out : List Notice
deriving DecidableEq, Repr

/-- The state of the SZ48 and the queue of commands that wait for it. -/
structure State where
  shelf : Shelf
  lock : WorkLock
  linkA : LinkUnit
  linkB : LinkUnit
  pending : List Instr
deriving DecidableEq, Repr

/-- Why a run would stop with a fault. The manual gives the SZ48 no behaviour that ends its run, so the type has no
constructor: no command faults (log entry 1, safe). -/
inductive Fault
deriving DecidableEq, Repr

/-- Why a command would be refused. -/
inductive Refusal
  /-- Raised by `exec` for a row with no meaning yet (none is left); safe. -/
  | notModelled (mnemonic : String)
deriving DecidableEq, Repr

/-! ### Reset values -/

/-- The defaults of R141 and R142, in the order of R141's table. -/
def defaultSettings : Vector CondSetting 24 :=
  ⟨⟨[⟨.major, 0, 0⟩, ⟨.critical, 25, 10⟩, ⟨.critical, 25, 10⟩, ⟨.major, 25, 10⟩, ⟨.major, 25, 10⟩, ⟨.minor, 25, 10⟩,
     ⟨.warning, 25, 10⟩, ⟨.critical, 25, 10⟩, ⟨.major, 25, 10⟩, ⟨.critical, 25, 10⟩, ⟨.major, 25, 10⟩,
     ⟨.minor, 25, 10⟩, ⟨.warning, 25, 10⟩, ⟨.warning, 25, 10⟩, ⟨.minor, 25, 10⟩, ⟨.major, 25, 10⟩,
     ⟨.major, 25, 10⟩, ⟨.minor, 25, 10⟩, ⟨.major, 25, 10⟩, ⟨.major, 25, 10⟩, ⟨.major, 25, 10⟩,
     ⟨.major, 25, 10⟩, ⟨.minor, 25, 10⟩, ⟨.minor, 25, 10⟩]⟩, rfl⟩

/-- R47: the default identity, eight spaces. -/
def blankIdentity : List Byte := List.replicate 8 0x20#8

/-- R39: an observation after a power-on or hard reset. -/
def Obs.reset : Obs := ⟨.unknown, none, none, [], false, 0, false, false, none, none, none⟩

/-- R22: the default setup. -/
def ScanSetup.default : ScanSetup := ⟨0, 48, true, 100, false⟩

/-- R60: the default port record. -/
def PortRec.default : PortRec := ⟨.parked, none, none⟩

/-- R170: the default reference definition. -/
def RefDef.default : RefDef := ⟨.none, 0, none⟩

/-- R83, R103: the run-time record of a group that starts afresh. -/
def GroupRun.fresh : GroupRun := ⟨0, [], none, none, none, false, false, none⟩

/-- R106: the executor's record of a group after a reset. -/
def GroupExec.fresh : GroupExec := ⟨none, 0, none, .queued, none, [], [], false, none, none, none, false⟩

/-- The items of a part leaving manufacture: never written (R177). -/
def Nvm.manufactured : Nvm where
  identity := .blank
  craftCode := .blank
  ports := Vector.replicate 48 .blank
  groups := Vector.replicate 8 .blank
  refs := Vector.replicate 6 .blank
  conditions := .blank
  thresholds := .blank
  reassign := .blank
  timing := .blank
  start := .blank

/-- Every stored item, in the order of R170's table. -/
def allItems : List Item :=
  [.identity, .craftCode] ++ (List.finRange 48).map Item.portRecord ++ (List.finRange 8).map Item.groupDef
  ++ (List.finRange 6).map Item.refDef ++ [.conditions, .thresholds, .reassign, .timing, .start]

/-- The identity word's offset (card words of 12.7). -/
def identityOffset : Nat := 0x00

/-- R1, R2, R4, R14 to R16, R18, R21: after a reset every slot is UNKNOWN and the probe of slot 0 is in progress. -/
def Backplane.reset (attLine : Vector Bool 12) : Backplane where
  slots := Vector.replicate 12 ⟨.unknown, none, none, 0⟩
  reprobe := Vector.replicate 12 none
  reprobeDue := Vector.replicate 12 false
  probeWaiting := none
  bus := some ⟨.backplane, .read 0 identityOffset, [], 0, 0, none⟩
  waitExecutor := none
  waitTiming := none
  waitRecords := none
  waitScanner := none
  waitCount := 0
  attention := []
  attLine := attLine
  firstCause := none
  lastFault := none

def Scanner.reset (setup : ScanSetup) (t : Thresholds) : Scanner where
  setup := setup
  pending := none
  dropped := false
  cycle := .stopped
  late := false
  period := none
  overrun := false
  serving := []
  job := none
  thresholds := t
  obs := Vector.replicate 48 Obs.reset

/-- R60: the fibre records after a reset, over the records, the identity and the settings loaded or kept. -/
def Records.reset (recs : Vector PortRec 48) (identity : List Byte) (ra : Reassign) : Records where
  recs := recs
  condemn := Vector.replicate 48 none
  timers := Vector.replicate 48 ⟨false, 0, false⟩
  identity := identity
  tagList := []
  tagWrite := none
  reassign := ra
  candidates := []
  held := []

/-- R79. -/
def Orders.reset : Orders := ⟨[], 1, Vector.replicate 48 false⟩

/-- R121. -/
def Executor.reset : Executor := ⟨Vector.replicate 8 GroupExec.fresh, [], none, [], none, []⟩

/-- R192: a link unit after a power-on or hard reset; the line itself is an input. -/
def LinkUnit.reset (atSpace : Bool) : LinkUnit := ⟨.hunting, atSpace, none, none, [], 0, 0, 0, 0⟩

/-- The shelf's ten blocks right after a power-on reset of a part leaving manufacture (log entries 5 and 6). -/
def Shelf.reset : Shelf where
  bp := Backplane.reset (Vector.replicate 12 false)
  scan := Scanner.reset ScanSetup.default ⟨800, 100⟩
  recs := Records.reset (Vector.replicate 48 PortRec.default) blankIdentity ⟨false, 2, 15⟩
  ords := Orders.reset
  eng := ⟨Vector.replicate 8 none, Vector.replicate 8 GroupRun.fresh, Vector.replicate 48 none, []⟩
  exe := Executor.reset
  tim :=
    { refs := Vector.replicate 6 ⟨RefDef.default, false, .disabled, none, none⟩
      st := .freeRun
      sel := none
      forced := none
      forceSeen := false
      acquire := none
      lockedFor := none
      holdFor := none
      valid := false
      last := none
      opts := ⟨false, 10, 24⟩
      planned := Vector.replicate 48 .g5
      written := Vector.replicate 48 none
      list := []
      writing := none
      held := [] }
  alm :=
    { settings := defaultSettings
      told := [(.shelf, .sparePoolLow)]
      eff := [(.shelf, .sparePoolLow)]
      table := [⟨.shelf, .sparePoolLow, .major, .rising, false, none, 0, some 0⟩]
      history := []
      nextSeq := 1
      lapped := false
      cutOff := false }
  sto :=
    { nvm := Nvm.manufactured
      list := []
      counter := 1
      writer := .idle
      writtenThrough := none
      failed := 0
      marks := []
      poolCount := 0
      lowMark := 2
      writeThrough := true
      lost := allItems.map (fun i => ⟨i, .blank⟩)
      offers := 0 }
  rdy := ⟨.discovery, .powerOn, none, none, ⟨30, false⟩, 0, 0⟩
  pins := ⟨false, false, false⟩
  out := []

/-- The machine right after reset: power applied to a part leaving manufacture (R179, R177; log entry 5). -/
def State.reset : State where
  shelf := Shelf.reset
  lock := ⟨.none, none, .unguarded, false, 0⟩
  linkA := LinkUnit.reset false
  linkB := LinkUnit.reset false
  pending := []

end Sys2Proof.Machine
end

