-- ==== Sys2Proof/Machine/Ops.lean ====
section
/-! DEFINITION. The named operations over the tables, lists, counts and times that every block uses. -/

namespace Sys2Proof.Machine

/-- Read the entry of a table. -/
def at' {α : Type} {n : Nat} (v : Vector α n) (i : Fin n) : α := v[i.val]

/-- Change one entry of a table. -/
def upd {α : Type} {n : Nat} (v : Vector α n) (i : Fin n) (f : α → α) : Vector α n := v.set i.val (f v[i.val]) i.isLt

/-- Set one entry of a table. -/
def put {α : Type} {n : Nat} (v : Vector α n) (i : Fin n) (a : α) : Vector α n := v.set i.val a i.isLt

/-- Change every entry of a table. -/
def mapAll {α β : Type} {n : Nat} (f : α → β) (v : Vector α n) : Vector β n :=
  ⟨⟨v.toList.map f⟩, by simp⟩

/-- Build a table from its index. -/
def tabulate {α : Type} (n : Nat) (f : Fin n → α) : Vector α n :=
  ⟨⟨(List.finRange n).map f⟩, by simp⟩

/-- Every port, in port order. -/
def allPorts : List PortNo := List.finRange 48
/-- Every slot, slot 0 first. -/
def allSlots : List SlotNo := List.finRange 12
/-- Every group, in number order. -/
def allGroups : List GroupNo := List.finRange 8
/-- Every reference, in index order. -/
def allRefs : List RefNo := List.finRange 6

/-- 00_scope.md: port p is on slot p div 4. -/
def slotOf (p : PortNo) : SlotNo := ⟨p.val / 4, by omega⟩

/-- 00_scope.md: port p is at position p mod 4. -/
def posOf (p : PortNo) : Nat := p.val % 4

/-- The port at a position of a slot. -/
def portAt (n : SlotNo) (q : Fin 4) : PortNo := ⟨4 * n.val + q.val, by omega⟩

/-- The four ports of a slot, in order of position. -/
def portsOf (n : SlotNo) : List PortNo := (List.finRange 4).map (portAt n)

/-- Join a list at the tail, without a duplicate. -/
def joinTail {α : Type} [DecidableEq α] (x : α) (l : List α) : List α := if x ∈ l then l else l ++ [x]

/-- Leave a list. -/
def leave {α : Type} [DecidableEq α] (x : α) (l : List α) : List α := l.filter (fun y => decide (y ≠ x))

/-- Insert a port in port order, without a duplicate. -/
def joinInOrder (p : PortNo) : List PortNo → List PortNo
  | [] => [p]
  | q :: rest => if p = q then q :: rest else if p.val < q.val then p :: q :: rest else q :: joinInOrder p rest

/-- A saturating count: stops at its largest value (00_scope.md, Counts). -/
def bump (most n : Nat) : Nat := if n < most then n + 1 else n

/-- A running timer advances by `d` ms; a stopped one does not. -/
def advance (d : Nat) (t : Option Nat) : Option Nat := t.map (· + d)

/-- R184: the seconds counted since the last reset. -/
def secondsCounted (s : Shelf) : Nat := s.rdy.ms / 1000

/-- R184: shelf time, wrapping past 4294967295. -/
def shelfTime (s : Shelf) : Nat := (secondsCounted s + s.rdy.base) % 4294967296

/-- A notice is made; it is delivered to both link units at the end of the step (R191; log entry 9). -/
def tell (n : Notice) (s : Shelf) : Shelf := { s with out := s.out ++ [n] }

/-- Slot state of a port's slot. -/
def slotStateOf (s : Shelf) (n : SlotNo) : SlotState := (at' s.bp.slots n).state

/-- The slot is PRESENT. -/
def isPresent (s : Shelf) (n : SlotNo) : Bool := decide (slotStateOf s n = .present)

/-- The port's slot is PRESENT. -/
def portPresent (s : Shelf) (p : PortNo) : Bool := isPresent s (slotOf p)

/-- The port's condition (R33). -/
def condOf (s : Shelf) (p : PortNo) : PortCond := (at' s.scan.obs p).cond

/-- The port's record (R40). -/
def recOf (s : Shelf) (p : PortNo) : PortRec := at' s.recs.recs p

/-- The port's service class. -/
def classOf (s : Shelf) (p : PortNo) : ServiceClass := (recOf s p).cls

/-- Lit and framed: DEGRADED or CLEAN. -/
def PortCond.lit : PortCond → Bool
  | .degraded | .clean => true
  | .unknown | .unmonitored | .absent | .dark | .failed => false

end Sys2Proof.Machine
end

