-- ==== Sys2Proof/Machine/Operands.lean ====
section
/-! DEFINITION. Every encoding of section 12.7: the fields of request bodies, replies and notices, the frame and its
check, and the words of the cards. -/

namespace Sys2Proof.Machine

/-! ### Fields of bodies -/

def byte1 (n : Nat) : Byte := BitVec.ofNat 8 n

/-- Multi-byte fields are sent most significant byte first (00_scope.md, Layouts). -/
def bytes2 (n : Nat) : List Byte := [byte1 (n / 256), byte1 n]

def bytes4 (n : Nat) : List Byte := [byte1 (n / 16777216), byte1 (n / 65536), byte1 (n / 256), byte1 n]

def flagByte (b : Bool) : Byte := if b then 1#8 else 0#8

/-- A number of a port, slot, group, channel, reference or order: 0xFF for absent or none. -/
def numByte : Option Nat → Byte
  | none => 0xFF#8
  | some n => byte1 n

/-- A list in a reply: a count byte, then the items. -/
def listBytes {α : Type} (f : α → List Byte) (l : List α) : List Byte := byte1 l.length :: l.flatMap f

/-- The items of a list in order, as far as they go whole into a number of bytes. -/
def fitting (room : Nat) : List (List Byte) → List (List Byte)
  | [] => []
  | x :: rest => if x.length ≤ room then x :: fitting (room - x.length) rest else []

/-- An optional designation or tag: a presence byte, then the characters, sent in both cases. -/
def optChars (width : Nat) : Option (List Byte) → List Byte
  | none => 0#8 :: List.replicate width 0x20#8
  | some cs => 1#8 :: cs

/-- Byte `i` of a body as a number (0 past its end; every body has the length of its kind by R189). -/
def byteAt (b : List Byte) (i : Nat) : Nat := (b.getD i 0#8).toNat

def nat2At (b : List Byte) (i : Nat) : Nat := byteAt b i * 256 + byteAt b (i + 1)

def nat4At (b : List Byte) (i : Nat) : Nat :=
  byteAt b i * 16777216 + byteAt b (i + 1) * 65536 + byteAt b (i + 2) * 256 + byteAt b (i + 3)

/-- Flags are 0 or 1; other values are BAD-VALUE. -/
def flagAt (b : List Byte) (i : Nat) : Option Bool :=
  if byteAt b i = 0 then some false else if byteAt b i = 1 then some true else none

def finOf (n k : Nat) : Option (Fin n) := if h : k < n then some ⟨k, h⟩ else none

def portOfByte (b : List Byte) (i : Nat) : Option PortNo := finOf 48 (byteAt b i)

def groupOfByte (b : List Byte) (i : Nat) : Option GroupNo := finOf 8 (byteAt b i)

/-- Characters are byte values 0x20 to 0x7E (00_scope.md, Characters). -/
def isChar (c : Byte) : Bool := decide (0x20 ≤ c.toNat) && decide (c.toNat ≤ 0x7E)

/-- An optional designation or tag of a request: `none` is BAD-VALUE, and so is a presence byte other than 0 and 1
(log entry 10). The characters are ignored when absent. -/
def optCharsAt (b : List Byte) (i width : Nat) : Option (Option (List Byte)) :=
  match flagAt b i with
  | none => none
  | some false => some none
  | some true =>
    let cs := (b.drop (i + 1)).take width
    if cs.all isChar then some (some cs) else none

/-! ### Enumerated values -/

def ServiceClass.code : ServiceClass → Nat
  | .inService => 0 | .spare => 1 | .condemned => 2 | .parked => 3

def ServiceClass.ofCode : Nat → Option ServiceClass
  | 0 => some .inService | 1 => some .spare | 2 => some .condemned | 3 => some .parked | _ => none

def SlotState.code : SlotState → Nat
  | .unknown => 0 | .empty => 1 | .present => 2 | .failed => 3

def Requester.code : Requester → Nat
  | .backplane => 0 | .executor => 1 | .timing => 2 | .records => 3 | .scanner => 4

def TxnKind.code : TxnKind → Nat
  | .singleRead => 0 | .singleWrite => 1 | .blockRead => 2 | .exchange => 3

def BusAnswer.code : BusAnswer → Nat
  | .fault => 0 | .timeout => 1 | .retryLimit => 2

/-- The code of a port condition in a reply: its place in the glossary of 00_scope.md (log entry 10). -/
def PortCond.code : PortCond → Nat
  | .unknown => 0 | .unmonitored => 1 | .absent => 2 | .dark => 3 | .failed => 4 | .degraded => 5 | .clean => 6

/-- Grades: 1 to 5 for G1 to G5, 15 for GX. -/
def Grade.code : Grade → Nat
  | .g1 => 1 | .g2 => 2 | .g3 => 3 | .g4 => 4 | .g5 => 5 | .gx => 15

def Grade.ofCode : Nat → Option Grade
  | 1 => some .g1 | 2 => some .g2 | 3 => some .g3 | 4 => some .g4 | 5 => some .g5 | 15 => some .gx | _ => none

/-- Grade field: 0 for absent. -/
def gradeByte : Option Grade → Byte
  | none => 0#8
  | some g => byte1 g.code

/-- R84: the rank of a class, 1 (Barred) to 10 (Idle). -/
def ReqClass.rank : ReqClass → Nat
  | .barred => 1 | .protectFailed => 2 | .pinned => 3 | .patchHold => 4 | .lineFailed => 5 | .lineDegraded => 6
  | .operator => 7 | .settling => 8 | .remain => 9 | .idle => 10

def ReqClass.ofRank : Nat → Option ReqClass
  | 1 => some .barred | 2 => some .protectFailed | 3 => some .pinned | 4 => some .patchHold | 5 => some .lineFailed
  | 6 => some .lineDegraded | 7 => some .operator | 8 => some .settling | 9 => some .remain | 10 => some .idle
  | _ => none

def LineKind.code : LineKind → Nat
  | .none => 0 | .pair => 1 | .shared => 2

def LineKind.ofCode : Nat → Option LineKind
  | 0 => some .none | 1 => some .pair | 2 => some .shared | _ => Option.none

def Origin.code : Origin → Nat
  | .host => 0 | .reassign => 1

def Stage.code : Stage → Nat
  | .queued => 0 | .holding => 1 | .awaitDark => 2 | .awaitLight => 3 | .verifying => 4 | .completing => 5

def OrderEvent.code : OrderEvent → Nat
  | .opened => 0 | .stage => 1 | .holdLost => 2 | .holdRegained => 3 | .completed => 4 | .completedSelectorFault => 5
  | .expired => 6 | .cancelled => 7

def GroupState.code : GroupState → Nat
  | .stuck => 0 | .awaitFar => 1 | .switching => 2 | .settling => 3 | .onProtect => 4 | .idle => 5

def GroupEvent.code : GroupEvent → Nat
  | .switched => 0 | .adopted => 1 | .fault => 2 | .stuck => 3 | .unstuck => 4

def CondemnKind.code : CondemnKind → Nat
  | .manual => 0 | .automatic => 1

def RefState.code : RefState → Nat
  | .disabled => 0 | .unusable => 1 | .qualifying => 2 | .usable => 3

def SelState.code : SelState → Nat
  | .freeRun => 0 | .acquiring => 1 | .locked => 2 | .holdover => 3

def Severity.code : Severity → Nat
  | .critical => 0 | .major => 1 | .minor => 2 | .warning => 3

def Severity.ofCode : Nat → Option Severity
  | 0 => some .critical | 1 => some .major | 2 => some .minor | 3 => some .warning | _ => none

def EntryState.code : EntryState → Nat
  | .rising => 0 | .raised => 1 | .falling => 2

def Transition.code : Transition → Nat
  | .raised => 0 | .cleared => 1 | .masked => 2 | .evicted => 3 | .acknowledged => 4

def Phase.code : Phase → Nat
  | .discovery => 0 | .watch => 1 | .arming => 2 | .armed => 3

def ResetCause.code : ResetCause → Nat
  | .powerOn => 0 | .pin => 1 | .restart => 2

def ArmCause.code : ArmCause → Nat
  | .arm => 0 | .request => 1 | .delay => 2

def Holder.code : Holder → Nat
  | .none => 0 | .linkA => 1 | .linkB => 2

def ClaimCause.code : ClaimCause → Nat
  | .claim => 0 | .release => 1 | .linkReset => 2

def LockMode.code : LockMode → Nat
  | .unguarded => 0 | .opened => 1 | .locked => 2

def Writer.code : Writer → Nat
  | .idle => 0 | .writing => 1 | .retrying => 2 | .stopped => 3

def LostReason.code : LostReason → Nat
  | .check => 0 | .blank => 1 | .dependent => 2

/-- Item kind and number, by the order of R170's table; an item of which there is only one has the number 0 (log entry 10). -/
def Item.code : Item → Nat × Nat
  | .identity => (0, 0) | .craftCode => (1, 0) | .portRecord p => (2, p.val) | .groupDef g => (3, g.val)
  | .refDef r => (4, r.val) | .conditions => (5, 0) | .thresholds => (6, 0) | .reassign => (7, 0) | .timing => (8, 0)
  | .start => (9, 0)

def Binding.code : Binding → Nat × Option Nat
  | .none => (0, Option.none) | .port p => (1, some p.val) | .group g => (2, some g.val)

/-- The position of a condition in R141's table, from 0. -/
def Cond.code : Cond → Fin 24
  | .tableFull => 0 | .storeFault => 1 | .freeRun => 2 | .holdover => 3 | .sparePoolLow => 4 | .busFault => 5
  | .scanOverrun => 6 | .cardFailed => 7 | .cardMissing => 8 | .selectorFault => 9 | .farEndSilent => 10
  | .protectUnavailable => 11 | .barred => 12 | .pinned => 13 | .referenceLost => 14 | .lossOfLight => 15
  | .lossOfFrame => 16 | .degraded => 17 | .tagMismatch => 18 | .misPatch => 19 | .patchUnprotected => 20
  | .condemnedNoSpare => 21 | .lightOnSpare => 22 | .moveExpired => 23

/-- The 24 conditions in the order of R141's table. -/
def allConds : List Cond :=
  [.tableFull, .storeFault, .freeRun, .holdover, .sparePoolLow, .busFault, .scanOverrun, .cardFailed, .cardMissing,
   .selectorFault, .farEndSilent, .protectUnavailable, .barred, .pinned, .referenceLost, .lossOfLight, .lossOfFrame,
   .degraded, .tagMismatch, .misPatch, .patchUnprotected, .condemnedNoSpare, .lightOnSpare, .moveExpired]

def Cond.ofCode (n : Nat) : Option Cond := allConds[n]?

/-- Object kind and number; object ALL is kind 5. -/
def objBytes : Option Obj → List Byte
  | none => [5#8, 0xFF#8]
  | some .shelf => [0#8, 0#8]
  | some (.slot n) => [1#8, byte1 n.val]
  | some (.group n) => [2#8, byte1 n.val]
  | some (.ref n) => [3#8, byte1 n.val]
  | some (.port n) => [4#8, byte1 n.val]

/-- An object from its kind and number: `none` where the kind is unknown or the number out of range. -/
def objOf (kind num : Nat) : Option Obj :=
  match kind with
  | 0 => if num = 0 then some .shelf else none
  | 1 => (finOf 12 num).map Obj.slot
  | 2 => (finOf 8 num).map Obj.group
  | 3 => (finOf 6 num).map Obj.ref
  | 4 => (finOf 48 num).map Obj.port
  | _ => none

def Outcome.code : Outcome → Byte
  | .done => 0x00 | .accepted => 0x01 | .unknownKind => 0x10 | .badForm => 0x11 | .badValue => 0x12 | .absent => 0x13
  | .notReady => 0x20 | .notClaimed => 0x21 | .locked => 0x22 | .frozen => 0x23 | .expired => 0x24 | .conflict => 0x30
  | .full => 0x31 | .outranked => 0x32 | .stuck => 0x33 | .storeFault => 0x34

/-! ### The frame and its check -/

/-- R186: one bit of the CRC-16 with polynomial x^16 + x^12 + x^5 + 1. -/
def crcShift (c : BitVec 16) : BitVec 16 := if c.msb then (c <<< 1) ^^^ 0x1021#16 else c <<< 1

/-- R186: one byte enters the computation, most significant bit first. -/
def crcByte (c : BitVec 16) (b : Byte) : BitVec 16 := Nat.repeat crcShift 8 (c ^^^ (b.setWidth 16 <<< 8))

/-- R186: the check over the length byte, the kind, the tag and the body. -/
def crc16 (bytes : List Byte) : BitVec 16 := bytes.foldl crcByte 0xFFFF#16

/-- The two check bytes, most significant first. -/
def checkBytes (bytes : List Byte) : List Byte := bytes2 (crc16 bytes).toNat

/-- A whole frame. A body longer than a frame can carry is cut at 248 bytes (log entry 10). -/
def frameBytes (kind tag : Byte) (body : List Byte) : List Byte :=
  let b := body.take Config.bodyMax
  let inner := byte1 (2 + b.length) :: kind :: tag :: b
  0xA7#8 :: inner ++ checkBytes inner

/-- What the receiver makes of the next byte (R187). -/
inductive RxResult
  | more (rx : Receiver)
  | discard
  | frame (kind tag : Byte) (body : List Byte)
deriving DecidableEq, Repr

/-- R187: a complete frame is compared with its check; one of kind 0x80 or above is discarded. -/
def judgeFrame (bytes : List Byte) : RxResult :=
  let inner := bytes.take (bytes.length - 2)
  if checkBytes inner ≠ bytes.drop (bytes.length - 2) then .discard
  else
    match inner with
    | _ :: kind :: tag :: body => if kind.toNat < 0x80 then .frame kind tag body else .discard
    | _ => .discard

/-- R187: the receiver takes one byte. -/
def rxByte (rx : Receiver) (b : Byte) : RxResult :=
  match rx with
  | .heldReset => .more .heldReset
  | .hunting => .more (if b = 0xA7#8 then .inFrame [] else .hunting)
  | .inFrame [] => if b.toNat < 2 ∨ 250 < b.toNat then .discard else .more (.inFrame [b])
  | .inFrame (len :: got) =>
    let bytes := (len :: got) ++ [b]
    if bytes.length = len.toNat + 3 then judgeFrame bytes else .more (.inFrame bytes)

/-! ### Request kinds -/

/-- The request kinds of 12.7, in table order. -/
inductive ReqKind
  | identify | linkStatus | claim | release | setTime | arm | restart | lockStatus | setCraftCode | clearCraftCode
  | unlock | lock | freeze | readPort | setScan | scanStatus | setDegradeThresholds | readSlots | readBusFault
  | clearBusFault | readPortRecord | editPortRecord | readSpares | condemnPort | setReassign | setShelfIdentity
  | openMoveOrder | cancelMoveOrder | readMoveOrders | defineGroup | deleteGroup | readGroup | bar | pin
  | operatorSwitch | clearRequests | clearGroupFault | defineReference | readTiming | lockOutReference
  | forceReference | setTimingOptions | readAlarms | acknowledge | cutOff | readHistory | setCondition | commit
  | storeStatus | setStartOptions
deriving DecidableEq, Repr

/-- W, A and the G mark of the kind table. -/
inductive ReqType
  | watch | act | gated
deriving DecidableEq, Repr

/-- One row of the kind table: code, type and body length; Define Group's length is given by its count byte. -/
structure KindRow where
  code : Byte
  type : ReqType
  len : Nat
deriving DecidableEq, Repr

/-- The kind table of 12.7 (R165 gives the same types). -/
def ReqKind.row : ReqKind → KindRow
  | .identify => ⟨0x01, .watch, 0⟩
  | .linkStatus => ⟨0x02, .watch, 0⟩
  | .claim => ⟨0x03, .watch, 0⟩
  | .release => ⟨0x04, .watch, 0⟩
  | .setTime => ⟨0x05, .act, 4⟩
  | .arm => ⟨0x06, .act, 0⟩
  | .restart => ⟨0x07, .gated, 0⟩
  | .lockStatus => ⟨0x10, .watch, 0⟩
  | .setCraftCode => ⟨0x11, .act, 8⟩
  | .clearCraftCode => ⟨0x12, .act, 8⟩
  | .unlock => ⟨0x13, .act, 8⟩
  | .lock => ⟨0x14, .act, 0⟩
  | .freeze => ⟨0x15, .act, 0⟩
  | .readPort => ⟨0x20, .watch, 1⟩
  | .setScan => ⟨0x21, .act, 6⟩
  | .scanStatus => ⟨0x22, .watch, 0⟩
  | .setDegradeThresholds => ⟨0x23, .gated, 4⟩
  | .readSlots => ⟨0x28, .watch, 0⟩
  | .readBusFault => ⟨0x29, .watch, 0⟩
  | .clearBusFault => ⟨0x2A, .act, 0⟩
  | .readPortRecord => ⟨0x30, .watch, 1⟩
  | .editPortRecord => ⟨0x31, .gated, 32⟩
  | .readSpares => ⟨0x32, .watch, 0⟩
  | .condemnPort => ⟨0x33, .gated, 6⟩
  | .setReassign => ⟨0x34, .gated, 3⟩
  | .setShelfIdentity => ⟨0x35, .gated, 8⟩
  | .openMoveOrder => ⟨0x38, .gated, 7⟩
  | .cancelMoveOrder => ⟨0x39, .gated, 1⟩
  | .readMoveOrders => ⟨0x3A, .watch, 0⟩
  | .defineGroup => ⟨0x40, .gated, 9⟩
  | .deleteGroup => ⟨0x41, .gated, 1⟩
  | .readGroup => ⟨0x42, .watch, 1⟩
  | .bar => ⟨0x43, .gated, 1⟩
  | .pin => ⟨0x44, .gated, 2⟩
  | .operatorSwitch => ⟨0x45, .act, 2⟩
  | .clearRequests => ⟨0x46, .act, 1⟩
  | .clearGroupFault => ⟨0x47, .gated, 1⟩
  | .defineReference => ⟨0x50, .gated, 5⟩
  | .readTiming => ⟨0x51, .watch, 0⟩
  | .lockOutReference => ⟨0x52, .act, 2⟩
  | .forceReference => ⟨0x53, .gated, 1⟩
  | .setTimingOptions => ⟨0x54, .gated, 3⟩
  | .readAlarms => ⟨0x60, .watch, 1⟩
  | .acknowledge => ⟨0x61, .act, 3⟩
  | .cutOff => ⟨0x62, .act, 0⟩
  | .readHistory => ⟨0x63, .watch, 4⟩
  | .setCondition => ⟨0x64, .gated, 6⟩
  | .commit => ⟨0x70, .act, 0⟩
  | .storeStatus => ⟨0x71, .watch, 0⟩
  | .setStartOptions => ⟨0x72, .gated, 3⟩

/-- Every request kind, in table order. -/
def allKinds : List ReqKind :=
  [.identify, .linkStatus, .claim, .release, .setTime, .arm, .restart, .lockStatus, .setCraftCode, .clearCraftCode,
   .unlock, .lock, .freeze, .readPort, .setScan, .scanStatus, .setDegradeThresholds, .readSlots, .readBusFault,
   .clearBusFault, .readPortRecord, .editPortRecord, .readSpares, .condemnPort, .setReassign, .setShelfIdentity,
   .openMoveOrder, .cancelMoveOrder, .readMoveOrders, .defineGroup, .deleteGroup, .readGroup, .bar, .pin,
   .operatorSwitch, .clearRequests, .clearGroupFault, .defineReference, .readTiming, .lockOutReference,
   .forceReference, .setTimingOptions, .readAlarms, .acknowledge, .cutOff, .readHistory, .setCondition, .commit,
   .storeStatus, .setStartOptions]

/-- The request kind of a code, or none for UNKNOWN-KIND (R189). -/
def ReqKind.ofCode (c : Byte) : Option ReqKind := allKinds.find? (fun k => k.row.code == c)

/-- R189 check 2: the body length fits the kind. For Define Group it is 9 + N with N the count byte, 10 to 15. -/
def bodyFits (k : ReqKind) (body : List Byte) : Bool :=
  match k with
  | .defineGroup =>
    decide (body.length = 9 + byteAt body 3) && decide (10 ≤ body.length) && decide (body.length ≤ 15)
  | _ => decide (body.length = k.row.len)

/-! ### Card words -/

/-- `len` bits of a word from bit `lo` up. -/
def field (w : Word) (lo len : Nat) : Nat := ((w >>> lo) &&& BitVec.ofNat 32 (2 ^ len - 1)).toNat

/-- A word with `len` bits from bit `lo` up replaced; the other bits stay. -/
def setField (w : Word) (lo len v : Nat) : Word :=
  let mask : Word := BitVec.ofNat 32 (2 ^ len - 1) <<< lo
  (w &&& ~~~mask) ||| ((BitVec.ofNat 32 v <<< lo) &&& mask)

def bitOf (w : Word) (i : Nat) : Bool := w.getLsbD i

/-- Offsets of the card words (12.7); q is the port position. -/
def statusOffset (p : PortNo) : Nat := 0x10 + 4 * posOf p
def rxTagOffset (p : PortNo) : Nat := 0x20 + 4 * posOf p
def txTagOffset (p : PortNo) (word : Nat) : Nat := 0x30 + 4 * posOf p + word
def controlOffset (p : PortNo) : Nat := 0x40 + posOf p
def gradeOffset (p : PortNo) : Nat := 0x44 + posOf p

/-- The status words of a card lie at offsets 0x10 to 0x1F. -/
def isStatusOffset (off : Nat) : Bool := decide (0x10 ≤ off) && decide (off < 0x20)

/-- The received protection word of a status block: absent where a field is outside the format tables (R29). -/
def protWordOf (w : Word) : Option ProtWord :=
  match ReqClass.ofRank (field w 0 4), LineKind.ofCode (field w 12 2) with
  | some cls, some kind =>
    if field w 4 3 = 7 ∨ field w 8 3 = 7 then none
    else some ⟨cls, field w 4 3, field w 8 3, kind⟩
  | _, _ => none

/-- A received grade outside G1 to G5 and GX is held as GX (R29). -/
def gradeOf (w : Word) : Grade := (Grade.ofCode (field w 0 4)).getD .gx

/-- Four characters of a tag word, the first in bits 31-24. -/
def charsOf (w : Word) : List Byte :=
  [byte1 (field w 24 8), byte1 (field w 16 8), byte1 (field w 8 8), byte1 (field w 0 8)]

/-- The empty tag, 16 spaces. -/
def emptyTag : List Byte := List.replicate 16 0x20#8

/-- R30: the received tag of a tag block; a block with any byte outside 0x20 to 0x7E is the empty tag. -/
def tagOf (ws : List Word) : List Byte :=
  let cs := ws.flatMap charsOf
  if cs.all isChar then cs else emptyTag

/-- Word `i` of an outgoing tag block. -/
def tagWord (tag : List Byte) (i : Nat) : Word :=
  let c := fun j => (tag.getD (4 * i + j) 0x20#8).setWidth 32
  (c 0 <<< 24) ||| (c 1 <<< 16) ||| (c 2 <<< 8) ||| c 3

/-! Fields of the control word (R104, 12.7). -/
def roleNone : Nat := 0
def roleWorking : Nat := 1
def rolePair : Nat := 2
def roleShared : Nat := 3

def roleOf (w : Word) : Nat := field w 0 2
def bridgeOutOf (w : Word) : Bool := bitOf w 4
def selectOutOf (w : Word) : Bool := bitOf w 5
def bridgeChanOf (w : Word) : Nat := field w 8 3
def carryChanOf (w : Word) : Nat := field w 12 3
def selectFlagOf (w : Word) : Bool := bitOf w 15
def outClassOf (w : Word) : Nat := field w 16 4
def outChanOf (w : Word) : Nat := field w 20 3

def setRole (r : Nat) (w : Word) : Word := setField w 0 2 r
def setBridgeOut (b : Bool) (w : Word) : Word := setField w 4 1 b.toNat
def setSelectOut (b : Bool) (w : Word) : Word := setField w 5 1 b.toNat
def setBridgeChan (c : Nat) (w : Word) : Word := setField w 8 3 c
def setCarryChan (c : Nat) (w : Word) : Word := setField w 12 3 c
def setSelectFlag (b : Bool) (w : Word) : Word := setField w 15 1 b.toNat
def setOutRequest (cls chan : Nat) (w : Word) : Word := setField (setField w 16 4 cls) 20 3 chan

end Sys2Proof.Machine
end

