-- ==== Sys2Proof/Machine/Flags.lean ====
section
/-! DEFINITION. The derived values: what the manual computes from other state (group membership, tag match, the spare
pool, alarm masks, lamps, the write-through flag). Each rests on the one home of its facts (log entry 13). -/

namespace Sys2Proof.Machine

/-! ### Groups -/

/-- R80: the members of a group: its protect port, then its working ports by channel. -/
def GroupDef.members (d : GroupDef) : List PortNo := d.protect :: d.working

/-- The channel of a member: 0 for the protect port, else the working channel from 1. -/
def GroupDef.channelOf (d : GroupDef) (p : PortNo) : Option Nat :=
  if p = d.protect then some 0
  else
    let i := d.working.idxOf p
    if i < d.working.length then some (i + 1) else none

/-- The port of a channel: the protect port of channel 0. -/
def GroupDef.portOf (d : GroupDef) (c : Nat) : Option PortNo :=
  if c = 0 then some d.protect else d.working[c - 1]?

def defOf (s : Shelf) (g : GroupNo) : Option GroupDef := at' s.eng.defs g

/-- R40: the group of which a port is a member, with its channel there. -/
def memberOf (s : Shelf) (p : PortNo) : Option (GroupNo × Nat) :=
  allGroups.findSome? (fun g => (defOf s g).bind (fun d => (d.channelOf p).map (fun c => (g, c))))

def isMember (s : Shelf) (p : PortNo) : Bool := (memberOf s p).isSome

/-! ### Orders -/

/-- The order that names a port as source or destination (R61: at most one). -/
def orderNaming (s : Shelf) (p : PortNo) : Option Order :=
  s.ords.list.find? (fun o => decide (o.src = p) || decide (o.dst = p))

def inOrder (s : Shelf) (p : PortNo) : Bool := (orderNaming s p).isSome

/-- The port is the source of an order in the list. -/
def isSource (s : Shelf) (p : PortNo) : Bool := s.ords.list.any (fun o => decide (o.src = p))

/-- R61: protected when the circuit group is present and the unprotected flag is clear. -/
def Order.protected (o : Order) : Bool := o.circuit.isSome && !o.unprotected

/-- HOLDING to VERIFYING: the stages in which an order masks alarms (R75). -/
def Stage.masks : Stage → Bool
  | .holding | .awaitDark | .awaitLight | .verifying => true
  | .queued | .completing => false

/-- AWAIT-DARK to COMPLETING: the stages whose ports are move ports (R76). -/
def Stage.moves : Stage → Bool
  | .awaitDark | .awaitLight | .verifying | .completing => true
  | .queued | .holding => false

/-- AWAIT-DARK to VERIFYING: the stages in which PATCH-UNPROTECTED is reported (R66). -/
def Stage.patching : Stage → Bool
  | .awaitDark | .awaitLight | .verifying => true
  | .queued | .holding | .completing => false

/-- HOLDING to COMPLETING: the stages of a started order (R64). -/
def Stage.started : Stage → Bool
  | .queued => false
  | .holding | .awaitDark | .awaitLight | .verifying | .completing => true

/-- R76: the port is a move port. -/
def isMovePort (s : Shelf) (p : PortNo) : Bool :=
  s.ords.list.any (fun o => o.stage.moves && (decide (o.src = p) || decide (o.dst = p)))

/-! ### Records and the spare pool -/

/-- R42: tag match states. -/
inductive TagMatch
  | unverified | noTag | matched | mismatched
deriving DecidableEq, Repr

/-- The code of a tag match state: its place among the names of R42's table, each counted once (log entry 10). -/
def TagMatch.code : TagMatch → Nat
  | .unverified => 0 | .noTag => 1 | .matched => 2 | .mismatched => 3

/-- R42. -/
def tagMatch (rx expected : Option (List Byte)) : TagMatch :=
  match rx with
  | none => .unverified
  | some t =>
    if t = emptyTag then .noTag
    else
      match expected with
      | none => .unverified
      | some e => if t = e then .matched else .mismatched

def rxTagOf (s : Shelf) (p : PortNo) : Option (List Byte) := (at' s.scan.obs p).rxTag

def tagMatchOf (s : Shelf) (p : PortNo) : TagMatch := tagMatch (rxTagOf s p) (recOf s p).tag

/-- R43. -/
def tagMismatch (s : Shelf) (p : PortNo) : Bool :=
  decide (classOf s p = .inService) && decide (tagMatchOf s p = .mismatched)

/-- R43. -/
def lightOnSpare (s : Shelf) (p : PortNo) : Bool :=
  (decide (classOf s p = .spare) || decide (classOf s p = .condemned))
  && match condOf s p with
     | .failed | .degraded | .clean => true
     | .unknown | .unmonitored | .absent | .dark => false

/-- R44: the outgoing tag of an IN-SERVICE port: identity, P, two digits, five spaces. -/
def ownTag (identity : List Byte) (p : PortNo) : List Byte :=
  identity ++ [0x50#8, byte1 (0x30 + p.val / 10), byte1 (0x30 + p.val % 10)] ++ List.replicate 5 0x20#8

/-- R44: the tag owed to a port. -/
def owedTag (s : Shelf) (p : PortNo) : List Byte :=
  if classOf s p = .inService then ownTag s.recs.identity p else emptyTag

/-- R48. -/
def inPool (s : Shelf) (p : PortNo) : Bool := decide (classOf s p = .spare) && !inOrder s p

/-- R48: the spare pool, in port number order. -/
def poolPorts (s : Shelf) : List PortNo := allPorts.filter (inPool s)

def poolCount (s : Shelf) : Nat := (poolPorts s).length

def condemnOf (s : Shelf) (p : PortNo) : Option Condemn := at' s.recs.condemn p

/-- R54, R55: condemn-pending and not the source of an order. -/
def isWaiting (s : Shelf) (p : PortNo) : Bool := (condemnOf s p).isSome && !isSource s p

/-- R51: the conditions under which a condemn timer runs. -/
def condemnTimerHolds (s : Shelf) (p : PortNo) : Bool :=
  decide (s.rdy.phase ≠ .discovery) && decide (classOf s p = .inService) && isMember s p
  && (decide (condOf s p = .dark) || decide (condOf s p = .failed))
  && !isSource s p && (condemnOf s p).isNone

/-! ### Alarms -/

def settingOf (s : Shelf) (c : Cond) : CondSetting := at' s.alm.settings (Cond.code c)

def isTold (s : Shelf) (o : Obj) (c : Cond) : Bool := decide ((o, c) ∈ s.alm.told)

/-- R75, R144: an order masks the condition on the port. -/
def orderMasks (o : Order) (p : PortNo) (c : Cond) : Bool :=
  o.stage.masks
  && (((decide (c = .lossOfLight) || decide (c = .lossOfFrame)) && (decide (o.src = p) || decide (o.dst = p)))
      || (decide (c = .lightOnSpare) && decide (o.dst = p)))

/-- R144: the condition is masked on the object. -/
def masked (s : Shelf) (o : Obj) (c : Cond) : Bool :=
  match o with
  | .port p =>
    (match condOf s p with
     | .unknown | .unmonitored | .absent => true
     | .dark | .failed | .degraded | .clean => false)
    || decide (classOf s p = .parked)
    || ((decide (c = .lossOfFrame) || decide (c = .degraded) || decide (c = .tagMismatch))
        && isTold s (.port p) .lossOfLight)
    || s.ords.list.any (fun ord => orderMasks ord p c)
  | .shelf | .slot _ | .group _ | .ref _ => false

/-- R146: the used count, the ordinary entries of the table. -/
def usedCount (table : List AlarmEntry) : Nat := (table.filter (fun e => decide (e.cond ≠ .tableFull))).length

def tableFullStands (table : List AlarmEntry) : Bool := table.any (fun e => decide (e.cond = .tableFull))

/-- R152: a lamp is on while an entry of its severity is RAISED or FALLING. -/
def lampOn (table : List AlarmEntry) (sev : Severity) : Bool :=
  table.any (fun e => decide (e.sev = sev) && decide (e.state ≠ .rising))

/-- A Critical or Major severity. -/
def Severity.sounds : Severity → Bool
  | .critical | .major => true
  | .minor | .warning => false

/-- R153: the audible alarm output. -/
def audibleOn (table : List AlarmEntry) (cutOff : Bool) : Bool :=
  !cutOff && table.any (fun e => decide (e.state = .raised) && !e.acked && e.sev.sounds)

/-- R152, R153: the outputs. -/
def outputsOf (a : Alarms) : Outputs where
  critical := lampOn a.table .critical
  major := lampOn a.table .major
  minor := lampOn a.table .minor
  audible := audibleOn a.table a.cutOff
  cutOff := a.cutOff

/-- The outputs byte of 12.7: bit 0 Critical, 1 Major, 2 Minor, 3 audible, 4 cut-off. -/
def outputsByte (o : Outputs) : Byte :=
  byte1 (o.critical.toNat + 2 * o.major.toNat + 4 * o.minor.toNat + 8 * o.audible.toNat + 16 * o.cutOff.toNat)

def entryOf (s : Shelf) (o : Obj) (c : Cond) : Option AlarmEntry :=
  s.alm.table.find? (fun e => decide (e.obj = o) && decide (e.cond = c))

/-- The conditions of an object's kind, in table order (R141). -/
def condsOf : Obj → List Cond
  | .shelf => [.tableFull, .storeFault, .freeRun, .holdover, .sparePoolLow, .busFault, .scanOverrun]
  | .slot _ => [.cardFailed, .cardMissing]
  | .group _ => [.selectorFault, .farEndSilent, .protectUnavailable, .barred, .pinned]
  | .ref _ => [.referenceLost]
  | .port _ =>
    [.lossOfLight, .lossOfFrame, .degraded, .tagMismatch, .misPatch, .patchUnprotected, .condemnedNoSpare,
     .lightOnSpare, .moveExpired]

/-- R141: the objects in object order. -/
def allObjs : List Obj :=
  .shelf :: allSlots.map Obj.slot ++ allGroups.map Obj.group ++ allRefs.map Obj.ref ++ allPorts.map Obj.port

/-- R141: the combined order of objects and conditions. -/
def objectOrder : List (Obj × Cond) := allObjs.flatMap (fun o => (condsOf o).map (fun c => (o, c)))

/-- R149: the effective state is present and there is no entry. -/
def isLeftOut (s : Shelf) (oc : Obj × Cond) : Bool := (entryOf s oc.1 oc.2).isNone

/-- R149: the number of left-out conditions. -/
def leftOutCount (s : Shelf) : Nat := (s.alm.eff.filter (isLeftOut s)).length

end Sys2Proof.Machine
end

