-- ==== Sys2Proof/Machine/Alarms.lean ====
section
/-! DEFINITION. The alarm unit (chapter 8): told and effective states, masks, the alarm table and its capacity,
acknowledgment and the history. -/

namespace Sys2Proof.Machine

/-- R155: the history keeps the newest 64 records. -/
def keepHistory (l : List HistRec) : List HistRec := l.drop (l.length - Config.historyMax)

/-- R155: the next sequence number, from 4294967295 to 1. -/
def nextSequence (n : Nat) : Nat := if n = 4294967295 then 1 else n + 1

/-- R155, R156: a history record is made and an Alarm Notice offered. -/
def makeRecord (obj : Option Obj) (cond : Option Cond) (sev : Option Severity) (tr : Transition)
    (entry : Option (Bool × Nat)) (s : Shelf) : Shelf :=
  let rec' : HistRec := ⟨s.alm.nextSeq, shelfTime s, obj, cond, sev, tr⟩
  let a := { s.alm with
    history := keepHistory (s.alm.history ++ [rec'])
    nextSeq := nextSequence s.alm.nextSeq
    lapped := s.alm.lapped || decide (s.alm.nextSeq = 4294967295) }
  tell (.alarm rec' entry (outputsOf a) (usedCount a.table) (tableFullStands a.table)) { s with alm := a }

/-- The record of one entry. -/
def recordEntry (e : AlarmEntry) (tr : Transition) (s : Shelf) : Shelf :=
  makeRecord (some e.obj) (some e.cond) (some e.sev) tr (some (e.acked, e.count)) s

def setTable (f : List AlarmEntry → List AlarmEntry) (s : Shelf) : Shelf :=
  { s with alm := { s.alm with table := f s.alm.table } }

/-- Replace the entry of an object and condition. -/
def putEntry (e : AlarmEntry) (s : Shelf) : Shelf :=
  setTable (fun t => t.map (fun x => if x.obj = e.obj ∧ x.cond = e.cond then e else x)) s

def dropEntry (o : Obj) (c : Cond) (s : Shelf) : Shelf :=
  setTable (fun t => t.filter (fun x => !(decide (x.obj = o) && decide (x.cond = c)))) s

/-- R153: a Critical or Major raise makes cut-off inactive. -/
def clearCutOff (sev : Severity) (s : Shelf) : Shelf :=
  if sev.sounds then { s with alm := { s.alm with cutOff := false } } else s

/-- R148: a RISING entry becomes RAISED. -/
def raiseEntry (e : AlarmEntry) (s : Shelf) : Shelf :=
  let e' := { e with state := .raised, raiseTime := some (shelfTime s), count := 1, soak := none }
  recordEntry e' .raised (clearCutOff e.sev (putEntry e' s))

/-- R147: a RISING entry is made at the tail; with a raise soak of 0 it is RAISED at once (R148). -/
def enterRising (o : Obj) (c : Cond) (s : Shelf) : Shelf :=
  let set := settingOf s c
  let e : AlarmEntry := ⟨o, c, set.sev, .rising, false, none, 0, some 0⟩
  let s1 := setTable (fun t => t ++ [e]) s
  if set.raise = 0 then raiseEntry e s1 else s1

/-- R150: TABLE-FULL is raised in the reserved place, if no entry of it stands. -/
def raiseTableFull (s : Shelf) : Shelf :=
  if tableFullStands s.alm.table then s
  else
    let e : AlarmEntry := ⟨.shelf, .tableFull, (settingOf s .tableFull).sev, .raised, false, some (shelfTime s), 1, none⟩
    recordEntry e .raised (clearCutOff e.sev (setTable (fun t => t ++ [e]) s))

/-- R149: an entry that may be evicted: RAISED, acknowledged, Warning or Minor. TABLE-FULL is not evicted (R150). -/
def evictable (e : AlarmEntry) : Bool :=
  decide (e.state = .raised) && e.acked && !e.sev.sounds && decide (e.cond ≠ .tableFull)

/-- R149, R150: a condition becomes effectively present and has no entry; only such a newcomer raises TABLE-FULL (log entry
46). The Alarm Notice of an eviction gives the table
between the removal and the newcomer's entry, a used count of 94 and the outputs without either entry; neither R149, by
which the count stays 95, nor R156 says which moment it shows (log entry 44). -/
def newcomer (o : Obj) (c : Cond) (s : Shelf) : Shelf :=
  if usedCount s.alm.table < Config.ordinaryMax then enterRising o c s
  else
    let s1 := raiseTableFull s
    if (settingOf s1 c).sev.sounds then
      match s1.alm.table.find? evictable with
      | some e => enterRising o c (recordEntry e .evicted (dropEntry e.obj e.cond s1))
      | none => s1
    else s1

/-- R150: TABLE-FULL is removed when the used count is 88 or fewer. -/
def clearTableFull (s : Shelf) : Shelf :=
  if usedCount s.alm.table ≤ Config.tableFullClearsAt then
    match entryOf s .shelf .tableFull with
    | some e => recordEntry e .cleared (dropEntry .shelf .tableFull s)
    | none => s
  else s

/-- R149, R151: a condition is left out as told states and masks now stand: one that has just been told absent or masked
and is still to be followed is not. -/
def stillLeftOut (s : Shelf) (oc : Obj × Cond) : Bool :=
  decide (oc ∈ s.alm.eff) && isLeftOut s oc && isTold s oc.1 oc.2 && !masked s oc.1 oc.2

/-- R151: freed places are offered to the left-out conditions in object order. -/
def reoffer (s : Shelf) : Shelf :=
  if (s.alm.eff.filter (isLeftOut s)).isEmpty then s
  else
    objectOrder.foldl (fun s oc =>
      if stillLeftOut s oc && decide (usedCount s.alm.table < Config.ordinaryMax) then
        enterRising oc.1 oc.2 s
      else s) s

/-- An ordinary entry leaves the table other than by eviction: its record if it has one, the TABLE-FULL test, the
re-offer (R145, R147, R148, R150, R151). Where one event removes several entries, each removal has its own re-offer (log
entry 3). -/
def removeEntry (e : AlarmEntry) (tr : Option Transition) (s : Shelf) : Shelf :=
  let s1 := dropEntry e.obj e.cond s
  let s2 := match tr with
    | some t => recordEntry e t s1
    | none => s1
  reoffer (clearTableFull s2)

/-- R147: a RAISED entry whose condition is told absent enters FALLING; with a clear soak of 0 it is removed. -/
def beginFalling (e : AlarmEntry) (s : Shelf) : Shelf :=
  let e' := { e with state := .falling, soak := some 0 }
  let s1 := putEntry e' s
  if (settingOf s e.cond).clear = 0 then removeEntry e' (some .cleared) s1 else s1

/-- R147: a FALLING entry whose condition is present again. -/
def returnToRaised (e : AlarmEntry) (s : Shelf) : Shelf :=
  putEntry { e with state := .raised, soak := none, count := bump 255 e.count } s

/-- R145, R147: the entry follows the told state `told` and the mask `m`. -/
def followEntry (e : AlarmEntry) (told m : Bool) (s : Shelf) : Shelf :=
  match e.state with
  | .rising => if m || !told then removeEntry e none s else s
  | .raised => if m then removeEntry e (some .masked) s else if told then s else beginFalling e s
  | .falling => if m then removeEntry e (some .masked) s else if told then returnToRaised e s else s

/-- R143, R147: the effective state of an object and condition is judged and the table follows it. A FALLING entry that
becomes present again needs no place, and the model takes it that it raises no TABLE-FULL with 95 in use (log entry
46). -/
def follow (o : Obj) (c : Cond) (s : Shelf) : Shelf :=
  let told := isTold s o c
  let m := masked s o c
  let was := decide ((o, c) ∈ s.alm.eff)
  let now := told && !m
  let s1 := { s with alm := { s.alm with eff := if now then joinTail (o, c) s.alm.eff else leave (o, c) s.alm.eff } }
  match entryOf s1 o c with
  | some e => followEntry e told m s1
  | none => if now && !was then newcomer o c s1 else s1

def setTold (o : Obj) (c : Cond) (present : Bool) (s : Shelf) : Shelf :=
  { s with alm := { s.alm with told := if present then joinTail (o, c) s.alm.told else leave (o, c) s.alm.told } }

/-- R143: a reporter says that a condition is present or absent. -/
def report (o : Obj) (c : Cond) (present : Bool) (s : Shelf) : Shelf := follow o c (setTold o c present s)

/-- R143: the three conditions the unit derives itself from a port's condition and class. -/
def setPortTold (p : PortNo) (s : Shelf) : Shelf :=
  let live := decide (classOf s p = .inService)
  let cond := condOf s p
  setTold (.port p) .degraded (live && decide (cond = .degraded))
    (setTold (.port p) .lossOfFrame (live && decide (cond = .failed))
      (setTold (.port p) .lossOfLight (live && decide (cond = .dark)) s))

/-- R143, R144: a port's derived told states and masks are judged again, after a condition event, a class change or the
begin or end of an order's mask. What leaves the table leaves it before what enters (log entry 3). -/
def refreshPort (p : PortNo) (s : Shelf) : Shelf :=
  let s1 := setPortTold p s
  let cs := condsOf (.port p)
  let stays := fun c => isTold s1 (.port p) c && !masked s1 (.port p) c
  (cs.filter (fun c => !stays c) ++ cs.filter stays).foldl (fun s c => follow (.port p) c s) s1

/-- R148: the raise soak of an entry ends. -/
def endRaiseSoak (o : Obj) (c : Cond) (s : Shelf) : Shelf :=
  match entryOf s o c with
  | some e => if e.state = .rising then raiseEntry e s else s
  | none => s

/-- R148: the clear soak of an entry ends. -/
def endClearSoak (o : Obj) (c : Cond) (s : Shelf) : Shelf :=
  match entryOf s o c with
  | some e => if e.state = .falling then removeEntry e (some .cleared) s else s
  | none => s

/-- R142: a changed setting: severity for new entries; a running soak that has reached its new value ends at once,
in table order (log entry 40). -/
def changeSetting (c : Cond) (v : CondSetting) (s : Shelf) : Shelf :=
  let s1 := { s with alm := { s.alm with settings := put s.alm.settings (Cond.code c) v } }
  (s.alm.table.filter (fun e => decide (e.cond = c))).foldl (fun s e =>
    match e.state, e.soak with
    | .rising, some ms => if 100 * v.raise ≤ ms then endRaiseSoak e.obj e.cond s else s
    | .falling, some ms => if 1000 * v.clear ≤ ms then endClearSoak e.obj e.cond s else s
    | _, _ => s) s1

/-- R154: the flag of one entry is set. -/
def acknowledgeOne (e : AlarmEntry) (s : Shelf) : Shelf :=
  if e.acked then s
  else
    let e' := { e with acked := true }
    recordEntry e' .acknowledged (putEntry e' s)

/-- R154: an entry that Acknowledge of all sets. -/
def ackable (e : AlarmEntry) : Bool := decide (e.state ≠ .rising) && !e.acked

/-- R154: Acknowledge of all; the number of entries acknowledged comes with it. -/
def acknowledgeAll (s : Shelf) : Shelf × Nat :=
  let n := (s.alm.table.filter ackable).length
  if n = 0 then (s, 0)
  else
    let s1 := setTable (fun t => t.map (fun e => if ackable e then { e with acked := true } else e)) s
    (makeRecord none none none .acknowledged none s1, n)

/-- R152, R153, R159: the alarm unit after a power-on or hard reset, over the settings loaded or kept. -/
def Alarms.reset (settings : Vector CondSetting 24) : Alarms where
  settings := settings
  told := []
  eff := []
  table := []
  history := []
  nextSeq := 1
  lapped := false
  cutOff := false

end Sys2Proof.Machine
end

