-- ==== Sys2Proof/Machine/Store.lean ====
section
/-! DEFINITION. The record store (chapter 10): the edit list, the writer, commit marks, write faults and the held edits
of the three blocks that may hold them. -/

namespace Sys2Proof.Machine

/-- R170: the item an edit names. -/
def ItemValue.item : ItemValue → Item
  | .identity _ => .identity
  | .craftCode _ => .craftCode
  | .portRecord p _ => .portRecord p
  | .groupDef g _ => .groupDef g
  | .refDef r _ => .refDef r
  | .conditions _ => .conditions
  | .thresholds _ => .thresholds
  | .reassign _ => .reassign
  | .timing _ => .timing
  | .start _ => .start

/-- R172: the nonvolatile memory takes an item's value. -/
def Nvm.store (v : ItemValue) (m : Nvm) : Nvm :=
  match v with
  | .identity x => { m with identity := .value x }
  | .craftCode x => { m with craftCode := .value x }
  | .portRecord p x => { m with ports := put m.ports p (.value x) }
  | .groupDef g x => { m with groups := put m.groups g (.value x) }
  | .refDef r x => { m with refs := put m.refs r (.value x) }
  | .conditions x => { m with conditions := .value x }
  | .thresholds x => { m with thresholds := .value x }
  | .reassign x => { m with reassign := .value x }
  | .timing x => { m with timing := .value x }
  | .start x => { m with start := .value x }

/-- R178: a write cut by the loss of power leaves its item to fail its check. -/
def Nvm.spoil (i : Item) (m : Nvm) : Nvm :=
  match i with
  | .identity => { m with identity := .badCheck }
  | .craftCode => { m with craftCode := .badCheck }
  | .portRecord p => { m with ports := put m.ports p .badCheck }
  | .groupDef g => { m with groups := put m.groups g .badCheck }
  | .refDef r => { m with refs := put m.refs r .badCheck }
  | .conditions => { m with conditions := .badCheck }
  | .thresholds => { m with thresholds := .badCheck }
  | .reassign => { m with reassign := .badCheck }
  | .timing => { m with timing := .badCheck }
  | .start => { m with start := .badCheck }

/-- R170: the next edit number, from 65535 to 1. -/
def nextEdit (n : Nat) : Nat := if n = 65535 then 1 else n + 1

/-- R172: with an edit in the list and the writer neither writing nor stopped, a write of the head edit begins. -/
def beginWrite (t : Store) : Store :=
  match t.writer with
  | .idle => if t.list.isEmpty then t else { t with writer := .writing }
  | .writing | .retrying | .stopped => t

/-- R170, R171: an edit is appended at the tail, if there is room. -/
def appendEdit (v : ItemValue) (t : Store) : Store :=
  if t.list.length < Config.editListMax then
    beginWrite { t with list := t.list ++ [⟨t.counter, v⟩], counter := nextEdit t.counter }
  else t

/-- R171: the store's answer to a change asked for by a request: the refusal, or none where the edit is appended. -/
def storeRefuses (t : Store) : Option Outcome :=
  if t.writer = .stopped then some .storeFault
  else if Config.editListMax ≤ t.list.length then some .full
  else none

/-- R173: a reply appended now is held against its edit while the write-through flag is set. -/
def replyAwaits (t : Store) : Option Nat := if t.writeThrough then some t.counter else none

/-- R171: the three blocks that may hold edits. -/
inductive EditHolder
  | records | engine | timing
deriving DecidableEq, Repr

def heldBy (h : EditHolder) (s : Shelf) : List HeldEdit :=
  match h with
  | .records => s.recs.held
  | .engine => s.eng.held
  | .timing => s.tim.held

def setHeld (h : EditHolder) (l : List HeldEdit) (s : Shelf) : Shelf :=
  match h with
  | .records => { s with recs := { s.recs with held := l } }
  | .engine => { s with eng := { s.eng with held := l } }
  | .timing => { s with tim := { s.tim with held := l } }

/-- R58, R99, R138: how many edits a block holds. -/
def heldMax : EditHolder → Nat
  | .records => Config.heldRecordsMax
  | .engine | .timing => Config.heldOthersMax

/-- R171: an edit of a change the SZ48 makes itself: discarded by a stopped store, appended where there is room, else
held by its block, and discarded where the block holds its most (R58; log entry 19 for the other two). -/
def offerOwn (h : EditHolder) (v : ItemValue) (s : Shelf) : Shelf :=
  if s.sto.writer = .stopped then s
  else if s.sto.list.length < Config.editListMax then { s with sto := appendEdit v s.sto }
  else if (heldBy h s).length < heldMax h then
    setHeld h (heldBy h s ++ [⟨s.sto.offers, v⟩]) { s with sto := { s.sto with offers := s.sto.offers + 1 } }
  else s

/-- The oldest held edit of each block. -/
def heldHeads (s : Shelf) : List (EditHolder × HeldEdit) :=
  [EditHolder.records, .engine, .timing].filterMap (fun h => (heldBy h s).head?.map (fun e => (h, e)))

/-- The holder whose oldest held edit was offered earliest. -/
def earliestHeld (s : Shelf) : Option (EditHolder × HeldEdit) :=
  (heldHeads s).foldl (fun best x =>
    match best with
    | none => some x
    | some b => if x.2.seq < b.2.seq then some x else some b) none

/-- R171: a freed place goes at once to the block whose oldest held edit was offered earliest. -/
def grantPlace (s : Shelf) : Shelf :=
  match earliestHeld s with
  | none => s
  | some (h, e) => setHeld h (heldBy h s).tail { s with sto := appendEdit e.value s.sto }

/-- R174: the marks whose edit has now been written leave, each with its Commit Notice. -/
def settleMarks (num : Nat) (s : Shelf) : Shelf :=
  match s.sto.marks with
  | m :: rest =>
    if m = num then tell (.commit m true s.sto.list.length) { s with sto := { s.sto with marks := rest } } else s
  | [] => s

/-- R172: the head edit's write completes. The marks are settled, with the occupancy before a freed place is granted, then the
place is granted, and the next write begins (log entry 3). -/
def completeWrite (s : Shelf) : Shelf :=
  match s.sto.list with
  | [] => s
  | e :: rest =>
    let t : Store := { s.sto with nvm := s.sto.nvm.store e.value, list := rest, writer := .idle, writtenThrough := some e.num }
    let s1 := grantPlace (settleMarks e.num { s with sto := t })
    { s1 with sto := beginWrite s1.sto }

/-- The number of the edit whose write is in flight. -/
def writeInFlight (t : Store) : Option Nat :=
  match t.writer with
  | .writing | .retrying => t.list.head?.map Edit.num
  | .idle | .stopped => none

/-- R175: every commit mark is answered FAILED, in order. -/
def failMarks (s : Shelf) : Shelf :=
  s.sto.marks.foldl (fun s m => tell (.commit m false s.sto.list.length) s) { s with sto := { s.sto with marks := [] } }

/-- R175: the store stops. -/
def stopStore (s : Shelf) : Shelf :=
  let s1 := failMarks { s with sto := { s.sto with writer := .stopped } }
  let s2 := setHeld .timing [] (setHeld .engine [] (setHeld .records [] s1))
  report .shelf .storeFault true s2

/-- R172: a write of the head edit fails: written again the first time, the store stopped the second. -/
def failWrite (s : Shelf) : Shelf :=
  match s.sto.writer with
  | .writing => { s with sto := { s.sto with writer := .retrying, failed := bump 255 s.sto.failed } }
  | .retrying => stopStore s
  | .idle | .stopped => s

/-- R173: the fibre records report the pool count and the mark; the write-through flag is judged. -/
def reportPool (count mark : Nat) (s : Shelf) : Shelf :=
  { s with sto := { s.sto with poolCount := count, lowMark := mark, writeThrough := decide (count ≤ mark) } }

end Sys2Proof.Machine
end

