-- ==== Sys2Proof/Machine/Timing.lean ====
section
/-! DEFINITION. The timing selector (chapter 7): references, qualification, selection, selector states, the grade plan
and its writing. -/

namespace Sys2Proof.Machine

/-- A condition is reported when its value changes. -/
def reportChange (o : Obj) (c : Cond) (present : Bool) (s : Shelf) : Shelf :=
  if isTold s o c = present then s else report o c present s

def refOf (s : Shelf) (r : RefNo) : Ref := at' s.tim.refs r

def setRef (r : RefNo) (f : Ref → Ref) (s : Shelf) : Shelf :=
  { s with tim := { s.tim with refs := upd s.tim.refs r f } }

/-! ### Grades and usability -/

/-- R122: BC1 and BC2. -/
def isBuilding (r : RefNo) : Bool := decide (r.val < 2)

/-- R122: LINE1 to LINE3. -/
def isLine (r : RefNo) : Bool := decide (2 ≤ r.val) && decide (r.val ≤ 4)

/-- R124: the derivation port of a reference by its binding and the groups as they stand. -/
def derivationPort (s : Shelf) (r : RefNo) : Option PortNo :=
  if isLine r then
    match (refOf s r).defn.binding with
    | .none => Option.none
    | .port p => some p
    | .group g =>
      (defOf s g).bind (fun d => if (at' s.eng.run g).sel = 1 then some d.protect else d.working.head?)
  else Option.none

/-- R123: the grade in use. -/
def gradeInUse (s : Shelf) (r : RefNo) : Grade :=
  if isBuilding r then (refOf s r).defn.override.getD .g2
  else if isLine r then
    match (refOf s r).defn.override with
    | some g => g
    | none => ((refOf s r).deriv.bind (fun p => (at' s.scan.obs p).rxGrade)).getD .gx
  else .g5

/-- R125: the input is lost. -/
def inputLost (s : Shelf) (r : RefNo) : Bool :=
  if isBuilding r then !(if r.val = 0 then s.pins.bc1 else s.pins.bc2)
  else
    match (refOf s r).deriv with
    | none => true
    | some p => !(condOf s p).lit

/-- R125: a cause of unusability holds. -/
def hasCause (s : Shelf) (r : RefNo) : Bool :=
  inputLost s r || decide (gradeInUse s r = .gx) || (refOf s r).locked
  || (match (refOf s r).deriv with
      | some p => isMovePort s p
      | none => false)

/-- R122: enabled when the priority is not 0; INT never is. -/
def refEnabled (s : Shelf) (r : RefNo) : Bool := decide (r.val ≤ 4) && decide ((refOf s r).defn.priority ≠ 0)

/-- R125, R126: the state of a reference is judged; `moved` says that its derivation port has changed. -/
def judgeRef (moved : Bool) (r : RefNo) (s : Shelf) : Shelf :=
  if !refEnabled s r then setRef r (fun x => { x with state := .disabled, qual := none }) s
  else if hasCause s r then setRef r (fun x => { x with state := .unusable, qual := none }) s
  else
    match (refOf s r).state with
    | .disabled | .unusable => setRef r (fun x => { x with state := .qualifying, qual := some 0 }) s
    | .qualifying | .usable =>
      if moved then setRef r (fun x => { x with state := .qualifying, qual := some 0 }) s else s

/-- R124, R126: the derivation port is re-derived and the reference judged. -/
def rederiveRef (r : RefNo) (s : Shelf) : Shelf :=
  let p := derivationPort s r
  if p = (refOf s r).deriv then judgeRef false r s
  else judgeRef true r (setRef r (fun x => { x with deriv := p }) s)

/-- Every reference is re-derived and judged, in index order. -/
def rederiveAll (s : Shelf) : Shelf := allRefs.foldl (fun s r => rederiveRef r s) s

/-! ### Selection -/

def isUsable (s : Shelf) (r : RefNo) : Bool := decide ((refOf s r).state = .usable)

/-- R127: `a` is ranked above `b`: better grade, then lower priority number, then lower index. -/
def ranksAbove (s : Shelf) (a b : RefNo) : Bool :=
  let ga := (gradeInUse s a).code
  let gb := (gradeInUse s b).code
  let pa := (refOf s a).defn.priority
  let pb := (refOf s b).defn.priority
  decide (ga < gb) || (decide (ga = gb) && (decide (pa < pb) || (decide (pa = pb) && decide (a.val < b.val))))

/-- R127: the candidate, the best-ranked USABLE reference. -/
def candidate (s : Shelf) : Option RefNo :=
  (allRefs.filter (isUsable s)).foldl (fun best r =>
    match best with
    | none => some r
    | some b => if ranksAbove s r b then some r else some b) none

/-- R128: the choice of an evaluation. -/
def timingChoice (s : Shelf) : Option RefNo :=
  match s.tim.forced.filter (isUsable s) with
  | some f => some f
  | none =>
    match s.tim.sel with
    | none => candidate s
    | some r =>
      if isUsable s r then
        match candidate s with
        | some c =>
          if (gradeInUse s c).code < (gradeInUse s r).code then some c
          else if s.tim.opts.revertive && ranksAbove s c r then some c
          else some r
        | none => some r
      else candidate s

/-- R129: ACQUIRING on a reference. -/
def enterAcquiring (r : RefNo) (t : Timing) : Timing :=
  { t with st := .acquiring, sel := some r, acquire := some 0, lockedFor := none, holdFor := none }

/-- R129, R130: FREE-RUN; the history becomes invalid. -/
def enterFreeRun (t : Timing) : Timing :=
  { t with st := .freeRun, sel := none, acquire := none, lockedFor := none, holdFor := none, valid := false }

/-- R129, R131: HOLDOVER; its timer starts from 0. -/
def enterHoldover (t : Timing) : Timing :=
  { t with st := .holdover, sel := none, acquire := none, lockedFor := none, holdFor := some 0 }

/-- R129, R130: LOCKED; its timer starts from 0. -/
def enterLocked (t : Timing) : Timing :=
  { t with st := .locked, acquire := none, lockedFor := some 0 }

/-- R128, R129: the selector evaluates and switches to its choice. -/
def selectReference (s : Shelf) : Shelf :=
  match timingChoice s with
  | some c => if s.tim.sel = some c then s else { s with tim := enterAcquiring c s.tim }
  | none =>
    if s.tim.sel.isSome then { s with tim := if s.tim.valid then enterHoldover s.tim else enterFreeRun s.tim } else s

/-- R127: the force is cleared when its reference, once USABLE, is not USABLE any more. -/
def settleForce (s : Shelf) : Shelf :=
  match s.tim.forced with
  | none => s
  | some f =>
    if isUsable s f then { s with tim := { s.tim with forceSeen := true } }
    else if s.tim.forceSeen then { s with tim := { s.tim with forced := none, forceSeen := false } }
    else s

/-- R130: the last grade follows the selected reference. -/
def keepLastGrade (s : Shelf) : Shelf :=
  match s.tim.sel with
  | some r => { s with tim := { s.tim with last := some (gradeInUse s r) } }
  | none => s

/-! ### The grade plan -/

/-- The worse of two grades. -/
def worse (a b : Grade) : Grade := if a.code < b.code then b else a

/-- R132: the shelf grade. -/
def shelfGrade (s : Shelf) : Grade :=
  match s.tim.st with
  | .locked => (s.tim.sel.map (gradeInUse s)).getD .g5
  | .acquiring => worse .g4 ((s.tim.sel.map (gradeInUse s)).getD .g4)
  | .holdover => worse .g4 (s.tim.last.getD .g4)
  | .freeRun => .g5

/-- R132: the port whose planned grade is GX. -/
def gxPort (s : Shelf) : Option PortNo := s.tim.sel.bind (fun r => (refOf s r).deriv)

/-- R132: the grade plan. -/
def gradePlan (s : Shelf) : Vector Grade 48 :=
  tabulate 48 (fun p => if gxPort s = some p then .gx else shelfGrade s)

/-- R133: the written grade of the port differs from its planned grade. -/
def gradeDiffers (s : Shelf) (p : PortNo) : Bool := decide (at' s.tim.written p ≠ some (at' s.tim.planned p))

/-- R133: a port joins the grade write list, at the head if its planned grade has become GX. -/
def joinGradeList (p : PortNo) (s : Shelf) : Shelf :=
  { s with tim := { s.tim with
      list := if at' s.tim.planned p = .gx then p :: leave p s.tim.list else joinTail p s.tim.list } }

/-- R132, R133: the plan is re-derived; changed ports that differ from what is written join in port order, the GX port
last and at the head; a port already listed whose planned grade becomes GX moves to the head. A port whose own write waits or
is in progress joins too (log entry 40). -/
def replan (s : Shelf) : Shelf :=
  let plan := gradePlan s
  if plan = s.tim.planned then s
  else
    let s1 := { s with tim := { s.tim with planned := plan } }
    let changed := allPorts.filter (fun p =>
      decide (at' plan p ≠ at' s.tim.planned p) && portPresent s p
        && (gradeDiffers s1 p || decide (at' plan p = .gx ∧ p ∈ s.tim.list)))
    (changed.filter (fun p => decide (at' plan p ≠ .gx)) ++ changed.filter (fun p => decide (at' plan p = .gx))).foldl
      (fun s p => joinGradeList p s) s1

/-- The written grades of a slot's four ports are unknown. -/
def gradesUnknown (n : SlotNo) (w : Vector (Option Grade) 48) : Vector (Option Grade) 48 :=
  (portsOf n).foldl (fun w p => put w p none) w

/-- R133: a slot becomes PRESENT: its ports join in port order, their written grades being unknown. -/
def gradesOwed (n : SlotNo) (s : Shelf) : Shelf :=
  { s with tim := { s.tim with
      written := gradesUnknown n s.tim.written
      list := (portsOf n).foldl (fun l p => joinTail p l) s.tim.list } }

/-- R133: a slot leaves PRESENT: its written grades are unknown and its ports leave the list. -/
def gradesGone (n : SlotNo) (s : Shelf) : Shelf :=
  { s with tim := { s.tim with
      written := gradesUnknown n s.tim.written
      list := s.tim.list.filter (fun p => decide (slotOf p ≠ n)) } }

/-- R134: a grade write is acknowledged; a port that the plan change has listed meanwhile keeps that place (log entry 40). -/
def gradeWritten (p : PortNo) (g : Grade) (s : Shelf) : Shelf :=
  let s1 := { s with tim := { s.tim with written := put s.tim.written p (some g) } }
  if gradeDiffers s1 p && portPresent s1 p then joinGradeList p s1 else s1

/-- R134: a grade write ends in fault. -/
def gradeFaulted (p : PortNo) (s : Shelf) : Shelf :=
  let s1 := { s with tim := { s.tim with written := put s.tim.written p none } }
  if portPresent s1 p then { s1 with tim := { s1.tim with list := joinTail p s1.tim.list } } else s1

/-! ### Conditions, notices and events -/

/-- R135. -/
def refLost (s : Shelf) (r : RefNo) : Bool := decide ((refOf s r).state = .unusable)

/-- R135. -/
def freeRunShown (s : Shelf) : Bool := decide (s.tim.st = .freeRun) && allRefs.any (refEnabled s)

/-- R135: the conditions of the selector, in an order that no rule states: REFERENCE-LOST by reference index, HOLDOVER,
FREE-RUN (log entry 43). -/
def reportTiming (s : Shelf) : Shelf :=
  let s1 := allRefs.foldl (fun s r => reportChange (.ref r) .referenceLost (refLost s r) s) s
  let s2 := reportChange .shelf .holdover (decide (s1.tim.st = .holdover)) s1
  reportChange .shelf .freeRun (freeRunShown s2) s2

/-- R135: a Timing Notice. -/
def timingNotice (s : Shelf) : Notice :=
  .timing s.tim.st s.tim.sel (shelfGrade s) s.tim.valid s.tim.forced
    (allRefs.map (fun r => ((refOf s r).state, gradeInUse s r)))

/-- An event that the selector is told of: its changes are made by `f`, then every reference is judged and one
evaluation follows (R125, R128), with its consequences (R130, R132, R135; log entry 26). Each report to the selector is
one event, and the last grade follows the reference that stands selected after the evaluation, so one that leaves in this
event leaves its earlier grade (log entry 40). The conditions are reported and the plan re-derived before the Timing
Notice is made (log entry 43). -/
def timingEvent (f : Shelf → Shelf) (s : Shelf) : Shelf :=
  let s1 := keepLastGrade (selectReference (settleForce (rederiveAll (f s))))
  let s2 := replan (reportTiming s1)
  if s2.tim.st = s.tim.st ∧ s2.tim.sel = s.tim.sel then s2 else tell (timingNotice s2) s2

/-- An event that changes what the references rest on and has been made already. -/
def timingRun (s : Shelf) : Shelf := timingEvent id s

/-- R127: the force is set or cleared. -/
def setForce (f : Option RefNo) (s : Shelf) : Shelf :=
  { s with tim := { s.tim with forced := f, forceSeen := f.isSome } }

/-- R127: the force is cleared if it stands on the reference. -/
def clearForceOn (r : RefNo) (s : Shelf) : Shelf := if s.tim.forced = some r then setForce none s else s

/-- R125: the qualification timer of a QUALIFYING reference runs out. -/
def qualified (r : RefNo) (s : Shelf) : Shelf :=
  if (refOf s r).state = .qualifying then
    timingEvent (setRef r (fun x => { x with state := .usable, qual := none })) s
  else s

/-- R129: the acquire timer runs out. -/
def acquired (s : Shelf) : Shelf :=
  if s.tim.st = .acquiring then timingEvent (fun s => { s with tim := enterLocked s.tim }) s else s

/-- R130: the LOCKED timer reaches 60 s. -/
def lockedLong (s : Shelf) : Shelf :=
  if s.tim.lockedFor.isSome then { s with tim := { s.tim with valid := true } } else s

/-- R131: the holdover timer runs out. -/
def holdoverOver (s : Shelf) : Shelf :=
  if s.tim.st = .holdover then timingEvent (fun s => { s with tim := enterFreeRun s.tim }) s else s

/-- R137: the new options act at once. Where they both ripen a reference and end the holdover, the reference is taken
first, as R131 allows (log entry 39). -/
def changeTimingOptions (o : TimingOptions) (s : Shelf) : Shelf :=
  let ripe := fun (x : Ref) => decide (x.state = .qualifying) && decide (1000 * o.qualify ≤ x.qual.getD 0)
  let s1 := timingEvent (fun s => { s with tim := { s.tim with
    opts := o
    refs := mapAll (fun x => if ripe x then { x with state := .usable, qual := none } else x) s.tim.refs } }) s
  if s1.tim.st = .holdover ∧ 3600000 * o.holdover ≤ s1.tim.holdFor.getD 0 then holdoverOver s1 else s1

/-- R138: the LINE references bound to a port. -/
def boundTo (s : Shelf) (p : PortNo) : List RefNo :=
  allRefs.filter (fun r => isLine r && decide ((refOf s r).defn.binding = .port p))

/-- R138: port-bound references of the source are rebound to the destination; each definition is one edit. Where several
are bound to the source their edits are offered by reference index, an order that no rule states (log entry 43). -/
def rebind (src dst : PortNo) (s : Shelf) : Shelf :=
  timingEvent (fun s =>
    (boundTo s src).foldl (fun s r =>
      let d := { (refOf s r).defn with binding := .port dst }
      offerOwn .timing (.refDef r d) (setRef r (fun x => { x with defn := d }) s)) s) s

end Sys2Proof.Machine
end

