-- ==== Sys2Proof/Machine/Tasks.lean ====
section
/-! DEFINITION. The switch executor's records, its task list and its clear list (chapter 6): which work of a group is
ready and joins, and what words are due. -/

namespace Sys2Proof.Machine

def runOf (s : Shelf) (g : GroupNo) : GroupRun := at' s.eng.run g

def setRun (g : GroupNo) (f : GroupRun → GroupRun) (s : Shelf) : Shelf :=
  { s with eng := { s.eng with run := upd s.eng.run g f } }

def execOf (s : Shelf) (g : GroupNo) : GroupExec := at' s.exe.groups g

def setExec (g : GroupNo) (f : GroupExec → GroupExec) (s : Shelf) : Shelf :=
  { s with exe := { s.exe with groups := upd s.exe.groups g f } }

def setTasks (f : List Task → List Task) (s : Shelf) : Shelf :=
  { s with exe := { s.exe with tasks := f s.exe.tasks } }

def setActive (a : Option ActiveTask) (s : Shelf) : Shelf := { s with exe := { s.exe with active := a } }

def isArmed (s : Shelf) : Bool := decide (s.rdy.phase = .armed)

/-- R83: the derived group state. -/
def groupState (s : Shelf) (g : GroupNo) : GroupState :=
  let r := runOf s g
  if r.stuck then .stuck
  else if r.plan.isSome then (if (execOf s g).step = .confirmWait then .awaitFar else .switching)
  else if r.sel = 0 then .idle
  else if r.list.any (fun e => decide (e.cls = .settling)) then .settling
  else .onProtect

/-! ### The task list (R107) -/

/-- An adoption of the group is in the task list or at the bus. -/
def adoptionListed (s : Shelf) (g : GroupNo) : Bool :=
  decide (Task.adoption g ∈ s.exe.tasks)
  || (match s.exe.active with
      | some (.adoption h _ _) => decide (h = g)
      | some (.exchange _) | some (.clear _) | none => false)

/-- R107: an exchange of the group becomes ready: its job is set and the task joins the tail. -/
def joinExchange (g : GroupNo) (kind : XKind) (s : Shelf) : Shelf :=
  setTasks (fun t => t ++ [.exchange g])
    (setExec g (fun x => { x with job := some ⟨kind, [], 1, none⟩, step := .queued, saved := [] }) s)

def joinAdoption (g : GroupNo) (s : Shelf) : Shelf :=
  setTasks (fun t => t ++ [.adoption g]) (setExec g (fun x => { x with adoptDue := false }) s)

/-- R117, R119: the exchange that is the group's next work, or none. -/
def nextWork (x : GroupExec) : Option XKind :=
  let restore := if x.owed.isEmpty then none else some XKind.restore
  match x.plan with
  | some p =>
    if p.goesFirst then some (restore.getD p.next)
    else if x.subst.isSome then some .subst
    else some (restore.getD p.next)
  | none => if x.subst.isSome then some .subst else restore

/-- R107, R117, R119: while the shelf is ARMED and the group has no task, its next work joins the task list. An adoption
that waits joins when nothing else of the group is left (log entry 16). -/
def scheduleGroup (g : GroupNo) (s : Shelf) : Shelf :=
  let x := execOf s g
  if (defOf s g).isNone || !isArmed s || (runOf s g).stuck || x.job.isSome || decide (x.step = .confirmWait)
      || adoptionListed s g then s
  else
    match nextWork x with
    | some kind => joinExchange g kind s
    | none => if x.adoptDue then joinAdoption g s else s

/-- R114, R115, R118: an adoption is asked for. It waits for the group's other work; one already in the task list or at the
bus is the one asked for. -/
def askAdoption (g : GroupNo) (s : Shelf) : Shelf :=
  let x := execOf s g
  if adoptionListed s g then s
  else if x.plan.isSome || x.subst.isSome || x.job.isSome then setExec g (fun x => { x with adoptDue := true }) s
  else joinAdoption g s

/-- R115: an adoption is asked for because a card has become PRESENT. An adoption of the group at the bus may have passed
that card's member as blank, so another follows it. -/
def askAdoptionFor (g : GroupNo) (s : Shelf) : Shelf :=
  match s.exe.active with
  | some (.adoption h _ _) =>
    if h = g then setExec g (fun x => { x with adoptDue := true }) s else askAdoption g s
  | some (.exchange _) | some (.clear _) | none => askAdoption g s

/-- R115: an adoption that waited for the one that has ended joins the task list, behind the group's other work. -/
def adoptAgain (g : GroupNo) (s : Shelf) : Shelf := if (execOf s g).adoptDue then askAdoption g s else s

/-! ### Due words (R116) -/

/-- R116: the due word of a member, from the carried channel `c`, the bridged channel `b` and the outgoing request
(class and channel codes) that a SHARED protect port keeps. -/
def dueWord (d : GroupDef) (p : PortNo) (c b cls chan : Nat) : Due :=
  match d.channelOf p with
  | some (n + 1) =>
    if d.shared then .working (decide (n + 1 = b)) (decide (n + 1 = c)) else .working true (decide (c = 1))
  | some 0 | none =>
    if d.shared then .protect true b c cls chan else .protect false 1 c ReqClass.idle.rank 0

/-- R104, R116: a protect port's word with its role and switching fields replaced. -/
def protectWord (shared : Bool) (bridge carry cls chan : Nat) (w : Word) : Word :=
  setOutRequest cls chan (setSelectFlag (decide (carry ≠ 0)) (setCarryChan carry (setBridgeChan bridge
    (setRole (if shared then roleShared else rolePair) w))))

/-- R104: a word with the fields of a due word; the other fields stay as read. In a preparation the protect port of a SHARED
group keeps the outgoing request as read, or Idle with channel 0 if it is blank: the word read has another role (R114,
R116; log entry 17). -/
def applyDue (due : Due) (w : Word) : Word :=
  match due with
  | .working bridgeOut selectOut => setSelectOut selectOut (setBridgeOut bridgeOut (setRole roleWorking w))
  | .protect shared bridge carry cls chan => protectWord shared bridge carry cls chan w
  | .prepared =>
    if roleOf w = roleShared then protectWord true 0 0 (outClassOf w) (outChanOf w) w
    else protectWord true 0 0 ReqClass.idle.rank 0 w

/-- R104, R116: the word read already agrees with the due word. -/
def meetsDue (due : Due) (w : Word) : Bool := decide (applyDue due w = w)

/-- R116: preparation: carried channel 0, bridged channel 1 for PAIR and 0 for SHARED. -/
def prepareBridge (d : GroupDef) : Nat := if d.shared then 0 else 1

/-- R116: every member is owed its due word with nothing carried. The outgoing request of a SHARED protect port is as the
preparation's exchange reads it. -/
def preparationOwed (d : GroupDef) : List (PortNo × Due) :=
  d.members.map (fun p => (p,
    if d.shared && decide (p = d.protect) then .prepared else dueWord d p 0 (prepareBridge d) ReqClass.idle.rank 0))

/-! ### The clear list (R120) -/

def clearListed (s : Shelf) : Bool :=
  decide (Task.clear ∈ s.exe.tasks)
  || (match s.exe.active with
      | some (.clear _) => true
      | some (.exchange _) | some (.adoption _ _ _) | none => false)

/-- R120: the ports a clear task names: up to four on PRESENT slots, lowest first. -/
def clearPorts (s : Shelf) : List PortNo := (s.exe.clearList.filter (portPresent s)).take 4

/-- R120: while the shelf is ARMED and the list holds a port on a PRESENT slot, one clear task stands, except in the
1 s after a fault. -/
def syncClear (s : Shelf) : Shelf :=
  if isArmed s && !(clearPorts s).isEmpty && s.exe.clearWait.isNone && !clearListed s then
    setTasks (fun t => t ++ [.clear]) s
  else s

def joinClear (p : PortNo) (s : Shelf) : Shelf :=
  { s with exe := { s.exe with clearList := joinInOrder p s.exe.clearList } }

def leaveClear (p : PortNo) (s : Shelf) : Shelf :=
  { s with exe := { s.exe with clearList := leave p s.exe.clearList } }

/-! ### Dropping work -/

/-- R107: the exchange and adoption tasks of a group leave the list. -/
def dropTasks (g : GroupNo) (s : Shelf) : Shelf :=
  setTasks (fun t => t.filter (fun k => decide (k ≠ .exchange g) && decide (k ≠ .adoption g))) s

/-- R81, R82: the executor has a task of the group waiting, at the bus, in recovery or in its retry wait. -/
def hasTask (s : Shelf) (g : GroupNo) : Bool :=
  (execOf s g).job.isSome || adoptionListed s g || decide (Task.exchange g ∈ s.exe.tasks)

/-- R110: the confirm wait ends: the timer stops and FAR-END-SILENT becomes absent. -/
def endConfirm (g : GroupNo) (s : Shelf) : Shelf :=
  reportChange (.group g) .farEndSilent false
    (setExec g (fun x => { x with confirm := none, step := if x.step = .confirmWait then .queued else x.step }) s)

end Sys2Proof.Machine
end

