-- ==== Sys2Proof/Machine/Moves.lean ====
section
/-! DEFINITION. The stages of a move order (chapter 4): entries to the stages, the judging of source and destination,
the conditions an order reports and the hold reports it takes. Leaving the list is in Orders.lean. -/

namespace Sys2Proof.Machine

/-- The order of a number (R61: unique). -/
def orderOf (s : Shelf) (num : Nat) : Option Order := s.ords.list.find? (fun o => decide (o.num = num))

def setOrder (num : Nat) (f : Order → Order) (s : Shelf) : Shelf :=
  { s with ords := { s.ords with list := s.ords.list.map (fun o => if o.num = num then f o else o) } }

/-- R77: an Order Notice of an order as it stands. -/
def orderNotice (e : OrderEvent) (o : Order) (s : Shelf) : Shelf :=
  tell (.order e o.num o.origin o.src o.dst o.circuit o.stage o.granted) s

/-- R77: an Order Notice of an order of the list. -/
def noticeOf (e : OrderEvent) (num : Nat) (s : Shelf) : Shelf :=
  match orderOf s num with
  | some o => orderNotice e o s
  | none => s

/-- R66: PATCH-UNPROTECTED on the source. -/
def patchUnprotected (o : Order) : Bool := o.stage.patching && o.protected && !o.granted

def reportPatch (num : Nat) (s : Shelf) : Shelf :=
  match orderOf s num with
  | some o => reportChange (.port o.src) .patchUnprotected (patchUnprotected o) s
  | none => s

/-- R68: the circuit's expected far-end tag, from the source's record. -/
def circuitTag (s : Shelf) (o : Order) : Option (List Byte) := (recOf s o.src).tag

/-- R68: the destination is matched. -/
def destMatched (s : Shelf) (o : Order) : Bool :=
  decide (condOf s o.dst = .clean)
  && (match rxTagOf s o.dst, circuitTag s o with
      | none, _ => false
      | some _, none => true
      | some t, some e => decide (t = e))

/-- R69: MIS-PATCH on the destination. -/
def misPatch (s : Shelf) (o : Order) : Bool :=
  decide (o.stage = .awaitLight) && (condOf s o.dst).lit
  && (match rxTagOf s o.dst, circuitTag s o with
      | some t, some e => decide (t ≠ emptyTag) && decide (t ≠ e)
      | none, _ => false
      | some _, none => false)

def reportMisPatch (num : Nat) (s : Shelf) : Shelf :=
  match orderOf s num with
  | some o => reportChange (.port o.dst) .misPatch (misPatch s o) s
  | none => s

/-- R61: an order enters a stage: its stage start time is the present shelf time. -/
def setStage (num : Nat) (st : Stage) (s : Shelf) : Shelf :=
  setOrder num (fun o => { o with stage := st, stageStart := shelfTime s, stageMs := 0 }) s

/-- R75: the masks of an order are judged again on both its ports. -/
def refreshOrder (num : Nat) (s : Shelf) : Shelf :=
  match orderOf s num with
  | some o => refreshPort o.dst (refreshPort o.src s)
  | none => s

/-- The stage entry shared by every stage: the notice, the masks and the conditions the list reports (R66, R69, R75,
R77). -/
def enterStage (num : Nat) (st : Stage) (s : Shelf) : Shelf :=
  reportMisPatch num (reportPatch num (refreshOrder num (noticeOf .stage num (setStage num st s))))

/-- R70: VERIFYING; its timer starts from 0. -/
def enterVerifying (num : Nat) (s : Shelf) : Shelf := enterStage num .verifying s

/-- R68: the destination is judged in AWAIT-LIGHT. -/
def judgeDest (num : Nat) (s : Shelf) : Shelf :=
  match orderOf s num with
  | some o =>
    if o.stage = .awaitLight && destMatched s o then enterVerifying num s else reportMisPatch num s
  | none => s

/-- R68: AWAIT-LIGHT; the light start time is set at the first entry. -/
def enterAwaitLight (num : Nat) (s : Shelf) : Shelf :=
  judgeDest num (enterStage num .awaitLight
    (setOrder num (fun o =>
      if o.lightStart.isSome then o else { o with lightStart := some (shelfTime s), lightMs := 0 }) s))

/-- R67: a source DARK or ABSENT. -/
def sourceDark (s : Shelf) (o : Order) : Bool := decide (condOf s o.src = .dark) || decide (condOf s o.src = .absent)

/-- R67: the source is judged in AWAIT-DARK. -/
def judgeSource (num : Nat) (s : Shelf) : Shelf :=
  match orderOf s num with
  | some o => if o.stage = .awaitDark && sourceDark s o then enterAwaitLight num s else s
  | none => s

/-- R67, R76: AWAIT-DARK; the ports become move ports and the source is judged as it stands.
The report to the timing selector is an event of its own, also beside others of the same step (log entry 40); it comes after
the Order Notice, the masks and the conditions of the stage entry, an order R67 does not state (log entry 45). -/
def enterAwaitDark (num : Nat) (s : Shelf) : Shelf :=
  judgeSource num (timingRun (enterStage num .awaitDark s))

/-- R66: the engine reports a hold granted (`true`) or lost (`false`). -/
def holdReport (num : Nat) (granted : Bool) (s : Shelf) : Shelf :=
  match orderOf s num with
  | none => s
  | some o =>
    let s1 := setOrder num (fun o => { o with granted := granted }) s
    match o.stage with
    | .holding => if granted then enterAwaitDark num s1 else s
    | .awaitDark | .awaitLight | .verifying =>
      noticeOf (if granted then .holdRegained else .holdLost) num (reportPatch num s1)
    | .completing => s1
    | .queued => s

end Sys2Proof.Machine
end

