-- ==== Sys2Proof/Machine/Engine.lean ====
section
/-! DEFINITION. The protection engine (chapter 5): request lists, hold-off, the far request, evaluation, waits, hold
reports and group notices. -/

namespace Sys2Proof.Machine

/-! ### Request lists (R84) -/

/-- R84: in order of rank, and within a rank in order of channel. -/
def entryBefore (a b : ReqEntry) : Bool :=
  decide (a.cls.rank < b.cls.rank) || (decide (a.cls.rank = b.cls.rank) && decide (a.chan < b.chan))

def sameEntry (a b : ReqEntry) : Bool := decide (a.cls = b.cls) && decide (a.chan = b.chan)

/-- R84: an entry is placed; at most one stands for a class and channel. -/
def placeEntry (e : ReqEntry) : List ReqEntry → List ReqEntry
  | [] => [e]
  | x :: rest =>
    if sameEntry e x then x :: rest else if entryBefore e x then e :: x :: rest else x :: placeEntry e rest

def plainEntry (cls : ReqClass) (chan : Nat) : ReqEntry := ⟨cls, chan, none, false⟩

def dropEntries (p : ReqEntry → Bool) (l : List ReqEntry) : List ReqEntry := l.filter (fun e => !p e)

def hasClass (cls : ReqClass) (l : List ReqEntry) : Bool := l.any (fun e => decide (e.cls = cls))

def setList (g : GroupNo) (f : List ReqEntry → List ReqEntry) (s : Shelf) : Shelf :=
  setRun g (fun r => { r with list := f r.list }) s

/-! ### The far request (R86) -/

/-- R80: N, the number of working channels. -/
def GroupDef.n (d : GroupDef) : Nat := d.working.length

/-- R86: the far request derived from a received word. -/
def farOf (d : GroupDef) (w : Option ProtWord) : Option (ReqClass × Nat) :=
  if !d.shared then none
  else
    match w with
    | none => none
    | some w =>
      if w.kind ≠ .shared then none
      else
        match w.cls with
        | .idle => none
        | .barred | .protectFailed => if w.chan = 0 then some (w.cls, w.chan) else none
        | .pinned | .lineFailed | .lineDegraded | .operator | .settling | .remain =>
          if 1 ≤ w.chan ∧ w.chan ≤ d.n then some (w.cls, w.chan) else none
        | .patchHold => if w.chan ≤ d.n then some (w.cls, w.chan) else none

def farNow (s : Shelf) (d : GroupDef) : Option (ReqClass × Nat) := farOf d (at' s.scan.obs d.protect).rxProt

/-! ### The choice (R87) and the waits (R96) -/

/-- R84: the target of a request; 0 for none. -/
def targetOf : Option (ReqClass × Nat) → Nat
  | none => 0
  | some (cls, chan) =>
    match cls with
    | .barred | .protectFailed | .idle => 0
    | .pinned | .patchHold | .lineFailed | .lineDegraded | .operator | .settling | .remain => chan

/-- R87: a request wins over another of the list: the higher rank, at equal rank the one on the selected channel, else the
lower channel. -/
def winsOver (sel : Nat) (a b : ReqClass × Nat) : Bool :=
  decide (a.1.rank < b.1.rank)
  || (decide (a.1.rank = b.1.rank) && decide (b.2 ≠ sel) && (decide (a.2 = sel) || decide (a.2 < b.2)))

/-- R87: the local winner. -/
def localWinner (sel : Nat) : List ReqEntry → Option (ReqClass × Nat)
  | [] => none
  | e :: rest =>
    match localWinner sel rest with
    | none => some (e.cls, e.chan)
    | some w => if winsOver sel w (e.cls, e.chan) then some w else some (e.cls, e.chan)

/-- R87: the active request. -/
def chooseActive (sel : Nat) (l : List ReqEntry) (far : Option (ReqClass × Nat)) : Option (ReqClass × Nat) :=
  match localWinner sel l, far with
  | none, f => f
  | some w, none => some w
  | some w, some f =>
    if f.1.rank < w.1.rank ∨ (f.1.rank = w.1.rank ∧ f.2 < w.2) then some f else some w

def isWait (e : ReqEntry) : Bool := decide (e.cls = .settling) || decide (e.cls = .remain)

/-- R96, steps 1 to 3: the Settling and Remain entries that go. -/
def dropWaits (r : GroupRun) : List ReqEntry :=
  let k := r.sel
  let l1 := dropEntries (fun e => isWait e && decide (e.chan ≠ k)) r.list
  let refailed := l1.any (fun e => decide (e.chan = k) && decide (e.cls.rank < ReqClass.settling.rank)
    && decide (e.cls ≠ .barred) && decide (e.cls ≠ .protectFailed))
  let l2 := if refailed then dropEntries (fun e => isWait e && decide (e.chan = k)) l1 else l1
  let top := chooseActive k l2 r.far
  let displaced := match top with
    | some (cls, _) => decide (cls.rank < ReqClass.settling.rank) && decide (targetOf top ≠ k)
    | none => false
  if displaced then dropEntries (fun e => isWait e && decide (e.chan = k)) l2 else l2

/-- R96, steps 4 and 5: the Settling or Remain entry that is placed; the WTR timer starts with a new Settling. -/
def placeWaits (revertive armed : Bool) (r : GroupRun) : GroupRun :=
  let k := r.sel
  let above := match chooseActive k r.list r.far with
    | some (cls, _) => decide (cls.rank < ReqClass.settling.rank)
    | none => false
  let settle := revertive && armed
  let r1 :=
    if decide (k ≠ 0) && r.plan.isNone && !r.restoreDue && !(r.list.any (fun e => isWait e && decide (e.chan = k)))
        && !above then
      if settle then { r with list := placeEntry (plainEntry .settling k) r.list, wtr := some 0 }
      else { r with list := placeEntry (plainEntry .remain k) r.list }
    else r
  if settle && r1.list.any (fun e => decide (e.cls = .remain) && decide (e.chan = k)) then
    { r1 with
        list := placeEntry (plainEntry .settling k) (dropEntries (fun e => decide (e.cls = .remain)) r1.list)
        wtr := some 0 }
  else r1

/-- R96: the Settling and Remain entries are settled; a removed Settling stops the WTR timer. -/
def settleWaits (revertive armed : Bool) (r : GroupRun) : GroupRun :=
  let l := dropWaits r
  placeWaits revertive armed { r with list := l, wtr := if hasClass .settling l then r.wtr else none }

/-- R91: an Operator entry displaced by another winner goes. -/
def dropOperator (active : Option (ReqClass × Nat)) (l : List ReqEntry) : List ReqEntry :=
  dropEntries (fun e => decide (e.cls = .operator) && decide (active ≠ some (e.cls, e.chan))
    && decide (targetOf active ≠ e.chan)) l

/-- R94, steps 1 to 3, once. -/
def evaluateOnce (revertive armed : Bool) (r : GroupRun) : GroupRun :=
  let r1 := settleWaits revertive armed r
  let active := chooseActive r1.sel r1.list r1.far
  { r1 with active := active, list := dropOperator active r1.list }

/-- R93: an evaluation is continued until the list is stable; a second round settles what an Operator's leaving changed. -/
def evaluateRun (revertive armed : Bool) (r : GroupRun) : GroupRun :=
  evaluateOnce revertive armed (evaluateOnce revertive armed r)

/-! ### Plans asked for (R94, R108) -/

/-- R108: the first exchange of a plan. -/
def firstExchange (d : GroupDef) (target : Nat) : XKind :=
  if target = 0 then .release else if d.shared then .bridge else .select

/-- R94, R110, R119: a plan is asked for, in place of one in CONFIRM-WAIT if there is one. -/
def askPlan (g : GroupNo) (d : GroupDef) (active : Option (ReqClass × Nat)) (s : Shelf) : Shelf :=
  let target := targetOf active
  let (cls, chan) := active.getD (.idle, 0)
  let s1 := endConfirm g (setRun g (fun r => { r with plan := some target }) s)
  scheduleGroup g (setExec g (fun x => { x with
    plan := some ⟨target, cls, chan, firstExchange d target, x.subst.isNone⟩ }) s1)

/-- R94, step 4. -/
def actOn (g : GroupNo) (d : GroupDef) (s : Shelf) : Shelf :=
  let r := runOf s g
  let x := execOf s g
  let target := targetOf r.active
  if r.stuck || !isArmed s || x.prepareDue then s
  else
    match r.plan with
    | some t => if x.step = .confirmWait ∧ target ≠ t then askPlan g d r.active s else s
    | none => if target ≠ r.sel then askPlan g d r.active s else s

/-- R88: the conditions of a group, PROTECT-UNAVAILABLE, BARRED, PINNED (log entry 45). -/
def reportGroup (g : GroupNo) (s : Shelf) : Shelf :=
  let l := if (defOf s g).isSome then (runOf s g).list else []
  reportChange (.group g) .pinned (hasClass .pinned l)
    (reportChange (.group g) .barred (hasClass .barred l)
      (reportChange (.group g) .protectUnavailable (hasClass .protectFailed l) s))

/-- R94: an evaluation of a group. -/
def evaluate (g : GroupNo) (s : Shelf) : Shelf :=
  match defOf s g with
  | none => s
  | some d => actOn g d (reportGroup g (setRun g (evaluateRun d.revertive (isArmed s)) s))

/-! ### Notices and hold reports -/

/-- R101: a Group Notice of a group as it stands. -/
def groupNotice (e : GroupEvent) (g : GroupNo) (fault : Option (Option BusAnswer × Nat × Bool)) (s : Shelf) : Shelf :=
  let r := runOf s g
  tell (.group e g (groupState s g) r.sel r.active r.far fault) s

/-- The Patch Hold of a group (R84: at most one). -/
def patchHoldOf (s : Shelf) (g : GroupNo) : Option ReqEntry :=
  (runOf s g).list.find? (fun e => decide (e.cls = .patchHold))

def setGranted (g : GroupNo) (b : Bool) (s : Shelf) : Shelf :=
  setList g (fun l => l.map (fun e => if e.cls = .patchHold then { e with granted := b } else e)) s

/-- R100: the hold reports are judged. -/
def judgeHold (g : GroupNo) (s : Shelf) : Shelf :=
  match patchHoldOf s g with
  | none => s
  | some e =>
    let r := runOf s g
    match e.order with
    | none => s
    | some num =>
      if e.granted && decide (r.sel ≠ e.chan) then holdReport num false (setGranted g false s)
      else if !e.granted && decide (r.sel = e.chan) && r.plan.isNone then holdReport num true (setGranted g true s)
      else s

/-- R66, R100: an order places its Patch Hold. -/
def placeHold (g : GroupNo) (num chan : Nat) (s : Shelf) : Shelf :=
  judgeHold g (evaluate g (setList g (placeEntry ⟨.patchHold, chan, some num, false⟩) s))

/-- R66, R100: an order removes its Patch Hold. -/
def removeHold (g : GroupNo) (num : Nat) (s : Shelf) : Shelf :=
  evaluate g (setList g (dropEntries (fun e => decide (e.cls = .patchHold) && decide (e.order = some num))) s)

/-! ### Condition events, hold-off and the far request -/

/-- R85: the derived class of a member in a condition. -/
def derivedClass (chan : Nat) (c : PortCond) : Option (ReqClass × Nat) :=
  match chan, c with
  | 0, .dark | 0, .failed | 0, .absent => some (.protectFailed, 0)
  | n + 1, .dark | n + 1, .failed | n + 1, .absent => some (.lineFailed, n + 1)
  | n + 1, .degraded => some (.lineDegraded, n + 1)
  | 0, .degraded | _, .unknown | _, .unmonitored | _, .clean => none

def setHoldOff (p : PortNo) (t : Option Nat) (s : Shelf) : Shelf :=
  { s with eng := { s.eng with holdOff := put s.eng.holdOff p t } }

/-- R85: a member is in a set: its timer starts from 0, or with a hold-off of 0 its class enters at once. -/
def startHoldOff (g : GroupNo) (d : GroupDef) (p : PortNo) (e : ReqClass × Nat) (s : Shelf) : Shelf :=
  if d.holdOff = 0 then setList g (placeEntry (plainEntry e.1 e.2)) s else setHoldOff p (some 0) s

/-- R85: a member leaves a set: its timer stops and its entry leaves. -/
def stopHoldOff (g : GroupNo) (p : PortNo) (e : ReqClass × Nat) (s : Shelf) : Shelf :=
  setList g (dropEntries (sameEntry (plainEntry e.1 e.2))) (setHoldOff p none s)

/-- A change of a group's list leads to one evaluation (R84, R93). -/
def evaluateIfChanged (g : GroupNo) (before after : Shelf) : Shelf :=
  if (runOf before g).list = (runOf after g).list then after else evaluate g after

/-- R85: a condition event for a port. -/
def engineCondition (p : PortNo) (old new : PortCond) (s : Shelf) : Shelf :=
  match memberOf s p with
  | none => s
  | some (g, chan) =>
    match defOf s g with
    | none => s
    | some d =>
      let a := derivedClass chan old
      let b := derivedClass chan new
      if a = b then s
      else
        let s1 := match a with
          | some e => stopHoldOff g p e s
          | none => s
        let s2 := match b with
          | some e => startHoldOff g d p e s1
          | none => s1
        evaluateIfChanged g s s2

/-- R85: the hold-off timer of a port runs out: its derived class enters the list. -/
def holdOffOver (p : PortNo) (s : Shelf) : Shelf :=
  if (at' s.eng.holdOff p).isNone then s
  else
    let s1 := setHoldOff p none s
    match memberOf s p with
    | none => s1
    | some (g, chan) =>
      match derivedClass chan (condOf s p) with
      | none => s1
      | some e => evaluateIfChanged g s (setList g (placeEntry (plainEntry e.1 e.2)) s1)

/-- R86: the far request of a group is derived again; a change is evaluated. -/
def refreshFar (g : GroupNo) (d : GroupDef) (s : Shelf) : Shelf :=
  let f := farNow s d
  if (runOf s g).far = f then s else evaluate g (setRun g (fun r => { r with far := f }) s)

/-- R86: a protection word event for a port. -/
def engineWord (p : PortNo) (s : Shelf) : Shelf :=
  match memberOf s p with
  | some (g, 0) =>
    match defOf s g with
    | some d => refreshFar g d s
    | none => s
  | some (_, _ + 1) | none => s

/-- R97: the WTR timer runs out. -/
def wtrOver (g : GroupNo) (s : Shelf) : Shelf :=
  if (runOf s g).wtr.isNone then s
  else
    evaluate g (setRun g (fun r => { r with
      list := dropEntries (fun e => decide (e.cls = .settling)) r.list
      restoreDue := true
      wtr := none }) s)

/-! ### Reports of the switch executor (R95) -/

/-- R95: a change of the selected channel: restore-due is cleared. -/
def setSelected (g : GroupNo) (c : Nat) (s : Shelf) : Shelf :=
  if (runOf s g).sel = c then s else setRun g (fun r => { r with sel := c, restoreDue := false }) s

/-- R95: the timing selector follows a change of selected channel. -/
def timingFollows (g : GroupNo) (before after : Shelf) : Shelf :=
  if (runOf before g).sel = (runOf after g).sel then after else timingRun after

/-- R95, R100: what follows a change of selected channel: the timing selector and the hold reports. -/
def selectionFollows (g : GroupNo) (before after : Shelf) : Shelf :=
  if (runOf before g).sel = (runOf after g).sel then after else judgeHold g (timingRun after)

/-- R95, R100, R109: a plan has completed with a selected channel; the hold reports are judged at its end. SWITCHED shows the
group before the evaluation that follows (log entry 40). -/
def planCompleted (g : GroupNo) (c : Nat) (s : Shelf) : Shelf :=
  let s1 := setExec g (fun x => { x with carried := c, plan := none, step := .queued, job := none, saved := [] })
    (setRun g (fun r => { r with plan := none }) s)
  let s2 := setSelected g c s1
  let s3 := if (runOf s g).sel = c then s2 else groupNotice .switched g none s2
  scheduleGroup g (evaluate g (judgeHold g (timingFollows g s s3)))

/-- R95, R98, R115: a consistent adoption has ended with carried channel `c`. The notices UNSTUCK and ADOPTED leave in this
order and show the group before the evaluation that follows (log entry 45). -/
def adopted (g : GroupNo) (c : Nat) (s : Shelf) : Shelf :=
  let wasStuck := (runOf s g).stuck
  let s1 := setSelected g c (setRun g (fun r => { r with
    stuck := false
    list := if c = 0 then r.list
      else placeEntry (plainEntry .remain c) (dropEntries (fun e => decide (e.cls = .remain)) r.list) }) s)
  let s2 := if wasStuck then groupNotice .unstuck g none s1 else s1
  let s3 := groupNotice .adopted g none s2
  scheduleGroup g (evaluate g (selectionFollows g s s3))

/-- R95, R101: the STUCK flag is set. The notice STUCK shows the group before the evaluation that follows (log entry 40), and
the flag keeps that evaluation from starting anything. R98 leaves the list of an inconsistent adoption as it stood; the
evaluation that R95 then asks for may still settle its waits (R96; log entry 39). -/
def engineStuck (g : GroupNo) (fault : Option BusAnswer × Nat × Bool) (s : Shelf) : Shelf :=
  evaluate g (groupNotice .stuck g (some fault) (setRun g (fun r => { r with stuck := true, plan := none }) s))

/-! ### Operator requests (R89 to R92) -/

/-- R89. -/
def barGroup (g : GroupNo) (s : Shelf) : Shelf :=
  evaluateIfChanged g s (setList g (placeEntry (plainEntry .barred 0)) s)

/-- An entry of a class on a channel, in place of any on another channel (R90, R91). -/
def placeOnly (cls : ReqClass) (chan : Nat) (l : List ReqEntry) : List ReqEntry :=
  placeEntry (plainEntry cls chan) (dropEntries (fun e => decide (e.cls = cls) && decide (e.chan ≠ chan)) l)

/-- R90. -/
def pinGroup (g : GroupNo) (chan : Nat) (s : Shelf) : Shelf := evaluateIfChanged g s (setList g (placeOnly .pinned chan) s)

/-- R91: OUTRANKED. -/
def outranked (s : Shelf) (g : GroupNo) : Bool :=
  let r := runOf s g
  r.list.any (fun e => decide (e.cls.rank ≤ 6))
  || (match r.far with
      | some (cls, _) => decide (cls.rank ≤ 6)
      | none => false)

/-- R91. -/
def operatorSwitchGroup (g : GroupNo) (chan : Nat) (s : Shelf) : Shelf :=
  evaluateIfChanged g s (setList g (placeOnly .operator chan) s)

/-- R92. -/
def clearGroupRequests (g : GroupNo) (s : Shelf) : Shelf :=
  evaluateIfChanged g s (setList g (dropEntries (fun e =>
    decide (e.cls = .barred) || decide (e.cls = .pinned) || decide (e.cls = .operator))) s)

/-! ### Definitions (R80 to R82, R99) -/

def setDef (g : GroupNo) (d : Option GroupDef) (s : Shelf) : Shelf :=
  { s with eng := { s.eng with defs := put s.eng.defs g d } }

/-- R85: a port that becomes a member starts its hold-off if its condition lies in a set. -/
def joinMember (g : GroupNo) (d : GroupDef) (p : PortNo) (s : Shelf) : Shelf :=
  match d.channelOf p with
  | none => s
  | some chan =>
    match derivedClass chan (condOf s p) with
    | some e => startHoldOff g d p e s
    | none => s

/-- R82: the hold-off timers of a definition's members are stopped. -/
def stopMembers (d : GroupDef) (s : Shelf) : Shelf := d.members.foldl (fun s p => setHoldOff p none s) s

/-- R81: the run-time record starts afresh under a new definition; its list and hold-off timers follow the new members.
The evaluation waits for the preparation (R116). A condition of the group is reported once, as the new members leave it
(log entry 39). -/
def defineRun (g : GroupNo) (d : GroupDef) (s : Shelf) : Shelf :=
  let s0 := match defOf s g with
    | some old => stopMembers old s
    | none => s
  let s1 := setRun g (fun _ => { GroupRun.fresh with far := farNow s d }) (setDef g (some d) s0)
  reportGroup g (d.members.foldl (fun s p => joinMember g d p s) s1)

/-- R82: the group becomes undefined. -/
def undefineRun (g : GroupNo) (d : GroupDef) (s : Shelf) : Shelf :=
  reportGroup g (setRun g (fun _ => GroupRun.fresh) (setDef g none (stopMembers d s)))

/-- R99: the definition with a move's destination in its source's place. -/
def GroupDef.replace (d : GroupDef) (src dst : PortNo) : GroupDef :=
  { d with
      protect := if d.protect = src then dst else d.protect
      working := d.working.map (fun p => if p = src then dst else p) }

/-- R99: the engine names a move's destination in the definition in place of its source; one edit is offered. -/
def substituteMember (g : GroupNo) (src dst : PortNo) (s : Shelf) : Shelf :=
  match defOf s g with
  | none => s
  | some d =>
    let d' := d.replace src dst
    let s1 := match (d.channelOf src).bind (fun c => derivedClass c (condOf s src)) with
      | some e => stopHoldOff g src e s
      | none => setHoldOff src none s
    let s2 := joinMember g d' dst (offerOwn .engine (.groupDef g (some d')) (setDef g (some d') s1))
    let s3 := setRun g (fun r => { r with far := farNow s2 d' }) s2
    evaluate g s3

end Sys2Proof.Machine
end

