-- ==== Sys2Proof/Machine/Orders.lean ====
section
/-! DEFINITION. The spare pool, condemnation, class changes (chapter 3) and the opening, starting, completing and leaving
of move orders (chapter 4), which call on one another. -/

namespace Sys2Proof.Machine

/-! ### The spare pool and what a record's port shows -/

/-- R48: the pool count goes to the record store and SPARE-POOL-LOW is judged. -/
def poolUpdate (s : Shelf) : Shelf :=
  let n := poolCount s
  let mark := s.recs.reassign.mark
  let s1 := if n = s.sto.poolCount ∧ mark = s.sto.lowMark then s else reportPool n mark s
  reportChange .shelf .sparePoolLow (decide (n ≤ mark)) s1

/-- R43: TAG-MISMATCH and LIGHT-ON-SPARE of a port. -/
def reportTags (p : PortNo) (s : Shelf) : Shelf :=
  reportChange (.port p) .lightOnSpare (lightOnSpare s p) (reportChange (.port p) .tagMismatch (tagMismatch s p) s)

/-- R43: the told states of the two conditions, to be followed with the port's others. -/
def setTagsTold (p : PortNo) (s : Shelf) : Shelf :=
  setTold (.port p) .lightOnSpare (lightOnSpare s p) (setTold (.port p) .tagMismatch (tagMismatch s p) s)

/-- R54, R55: CONDEMNED-NO-SPARE while a condemnation waits. -/
def reportNoSpare (p : PortNo) (s : Shelf) : Shelf := reportChange (.port p) .condemnedNoSpare (isWaiting s p) s

/-- R6: CARD-MISSING while the slot is EMPTY and a port of it is IN-SERVICE. -/
def cardMissing (s : Shelf) (n : SlotNo) : Bool :=
  decide (slotStateOf s n = .empty) && (portsOf n).any (fun p => decide (classOf s p = .inService))

def reportMissing (n : SlotNo) (s : Shelf) : Shelf := reportChange (.slot n) .cardMissing (cardMissing s n) s

/-- R45: a port on a PRESENT slot joins the tag write list at the tail. -/
def joinTags (p : PortNo) (s : Shelf) : Shelf :=
  if portPresent s p then { s with recs := { s.recs with tagList := joinTail p s.recs.tagList } } else s

/-- R46: the tag owed to a port has changed: a write of it in progress will be made again. -/
def tagOwedChanged (p : PortNo) (s : Shelf) : Shelf :=
  joinTags p { s with recs := { s.recs with
    tagWrite := s.recs.tagWrite.map (fun w => if w.port = p then { w with changed := true } else w) } }

/-! ### Condemn timers and candidates (R50, R51) -/

def setTimer (p : PortNo) (t : CondemnTimer) (s : Shelf) : Shelf :=
  { s with recs := { s.recs with timers := put s.recs.timers p t } }

/-- R51: the timer starts from 0 when the last condition begins to hold and returns to 0 when one ends. -/
def syncTimer (p : PortNo) (s : Shelf) : Shelf :=
  let t := at' s.recs.timers p
  if condemnTimerHolds s p then (if t.running then s else setTimer p ⟨true, 0, false⟩ s)
  else if t = ⟨false, 0, false⟩ then s else setTimer p ⟨false, 0, false⟩ s

def isCandidate (s : Shelf) (p : PortNo) : Bool := s.recs.candidates.any (fun c => decide (c.port = p))

def leaveCandidates (p : PortNo) (s : Shelf) : Shelf :=
  { s with recs := { s.recs with candidates := s.recs.candidates.filter (fun c => decide (c.port ≠ p)) } }

/-- R50: a port enters at the tail, afresh; the oldest entry leaves where there is no room. -/
def enterCandidates (p : PortNo) (s : Shelf) : Shelf :=
  let l := s.recs.candidates.filter (fun c => decide (c.port ≠ p))
  let l1 := if Config.candidateMax ≤ l.length then l.tail else l
  { s with recs := { s.recs with candidates := l1 ++ [⟨p, shelfTime s⟩] } }

/-- R50: a port that is not IN-SERVICE or not a member leaves. -/
def syncCandidate (p : PortNo) (s : Shelf) : Shelf :=
  if isCandidate s p && !(decide (classOf s p = .inService) && isMember s p) then leaveCandidates p s else s

/-- What a change of class, membership or orders re-derives for a port (R41, R50, R51). -/
def syncPort (p : PortNo) (s : Shelf) : Shelf := syncTimer p (syncCandidate p s)

/-! ### Opening and starting orders (R62 to R64) -/

def nextOrderNum (n : Nat) : Nat := if n = 255 then 1 else n + 1

/-- R62: the first number not held by an order, searched from the counter. -/
def freeNumber (s : Shelf) : Nat → Nat → Nat
  | 0, n => n
  | k + 1, n => if (orderOf s n).isSome then freeNumber s k (nextOrderNum n) else n

/-- R71: a port's expired flag and MOVE-EXPIRED. -/
def setExpired (p : PortNo) (b : Bool) (s : Shelf) : Shelf :=
  reportChange (.port p) .moveExpired b { s with ords := { s.ords with expired := put s.ords.expired p b } }

/-- R64: no other order of the group is in HOLDING to COMPLETING. -/
def groupFree (s : Shelf) (g : GroupNo) : Bool :=
  !s.ords.list.any (fun o => o.stage.started && decide (o.circuit.map Prod.fst = some g))

/-- R64: a QUEUED order starts if it may. -/
def startOrder (s : Shelf) (num : Nat) : Shelf :=
  match orderOf s num with
  | none => s
  | some o =>
    if o.stage = .queued ∧ isArmed s then
      match o.circuit with
      | none => enterAwaitDark num s
      | some (g, chan) =>
        if !groupFree s g then s
        else if o.unprotected then enterAwaitDark num s
        else placeHold g num chan (enterStage num .holding s)
    else s

/-- R64: the start check, oldest order first. -/
def startCheck (s : Shelf) : Shelf := (s.ords.list.map Order.num).foldl startOrder s

/-- R63: an order is opened; its number comes with it. -/
def openOrder (origin : Origin) (src dst : PortNo) (unprotected : Bool) (dark light : Nat) (s : Shelf) : Shelf × Nat :=
  let num := freeNumber s 9 s.ords.next
  let o : Order := ⟨num, origin, src, dst, memberOf s src, unprotected, dark, light, .queued, shelfTime s, none, false, 0, 0⟩
  let s1 := { s with ords := { s.ords with list := s.ords.list ++ [o], next := nextOrderNum num } }
  let s2 := orderNotice .opened o (setExpired dst false (setExpired src false s1))
  let s3 := poolUpdate (syncPort src (reportNoSpare src s2))
  (startCheck s3, num)

/-! ### Condemnation (R52 to R54) -/

def setCondemn (p : PortNo) (c : Option Condemn) (s : Shelf) : Shelf :=
  { s with recs := { s.recs with condemn := put s.recs.condemn p c } }

/-- R53: the destination: the lowest pool port off the source's slot, else the lowest pool port. -/
def chooseSpare (s : Shelf) (src : PortNo) : Option PortNo :=
  match (poolPorts s).find? (fun p => decide (slotOf p ≠ slotOf src)) with
  | some p => some p
  | none => (poolPorts s).head?

/-- R53, R54: the condemnation can open its order. -/
def condemnAllowed (s : Shelf) (p : PortNo) (c : Condemn) : Bool :=
  decide (s.ords.list.length < Config.orderMax) && decide (classOf s p = .inService) && !inOrder s p
  && (c.unprotected || isMember s p)
  && (match c.kind with
      | .manual => decide (0 < poolCount s)
      | .automatic => decide (s.recs.reassign.mark < poolCount s))

/-- R53, R54: a waiting condemnation opens its order if it may; the order's number comes with it. -/
def tryCondemn (p : PortNo) (s : Shelf) : Shelf × Option Nat :=
  match condemnOf s p with
  | none => (s, none)
  | some c =>
    if condemnAllowed s p c then
      match chooseSpare s p with
      | some dst =>
        let r := openOrder .reassign p dst c.unprotected c.dark c.light s
        (r.1, some r.2)
      | none => (s, none)
    else (s, none)

/-- R54: waiting condemnations are retried, lowest port first. -/
def retryCondemned (s : Shelf) : Shelf :=
  allPorts.foldl (fun s p => if isWaiting s p then (tryCondemn p s).1 else s) s

/-- R52, R56: a port's condemn-pending flag is set as `c` says, and it opens its order or waits. An upgrade by Condemn Port
tries the upgraded port alone (R56), not every waiting port as R54's list of retries may be read (log entry 36). -/
def condemnPort (p : PortNo) (c : Condemn) (s : Shelf) : Shelf × Option Nat :=
  let s1 := syncTimer p (setCondemn p (some c) s)
  let r := tryCondemn p s1
  (reportNoSpare p r.1, r.2)

/-- R50, R56: Condemn Port on a port that is not condemn-pending takes its candidate entry with it; the upgrade of one that
is already waiting leaves an entry it has made since (log entry 36). -/
def manualCondemn (p : PortNo) (c : Condemn) (s : Shelf) : Shelf × Option Nat :=
  condemnPort p c (if (condemnOf s p).isNone then leaveCandidates p s else s)

/-- R52, R53: automatic condemnation: the candidate entry leaves; unprotected clear, both limits 600 s. -/
def autoCondemn (p : PortNo) (s : Shelf) : Shelf :=
  (condemnPort p ⟨.automatic, false, 600, 600⟩ (leaveCandidates p s)).1

/-- R52: a trigger is acted on only while auto-reassign is on and the shelf is ARMED. The rule leaves out only the source
of an order, so a port already condemn-pending and waiting is condemned afresh as AUTOMATIC (log entry 36). -/
def trigger (p : PortNo) (s : Shelf) : Shelf :=
  if s.recs.reassign.on && isArmed s then autoCondemn p s else s

/-- R52: case (a), due, or case (b), DEGRADED with an entry in the candidate list. -/
def meetsTrigger (s : Shelf) (p : PortNo) : Bool :=
  ((at' s.recs.timers p).due && condemnTimerHolds s p)
  || (decide (condOf s p = .degraded) && isCandidate s p && !isSource s p)

/-- R52: the sweep at the entry to ARMED and when auto-reassign is turned on, lowest port first. -/
def sweep (s : Shelf) : Shelf := allPorts.foldl (fun s p => if meetsTrigger s p then trigger p s else s) s

/-- R51: a condemn timer runs out: the port is due. -/
def condemnTimerOver (p : PortNo) (s : Shelf) : Shelf :=
  let t := at' s.recs.timers p
  if t.running && !t.due then
    trigger p (setTimer p { t with ms := 60000 * s.recs.reassign.minutes, due := true } s)
  else s

/-- R48: the count is derived again; a rise starts a retry (R54). -/
def poolEvent (s : Shelf) : Shelf :=
  let s1 := poolUpdate s
  if s.sto.poolCount < s1.sto.poolCount then retryCondemned s1 else s1

/-- R55: a condemn-pending flag is cleared. -/
def clearCondemn (p : PortNo) (s : Shelf) : Shelf := syncTimer p (reportNoSpare p (setCondemn p none s))

/-! ### Class changes (R41) and condition and tag events -/

/-- R41, R75: what follows a change of a port's service class: the told states that rest on the class change together, and
then the alarm table follows them and the masks. -/
def classChanged (p : PortNo) (old : ServiceClass) (s : Shelf) : Shelf :=
  let s1 := syncPort p (refreshPort p (setTagsTold p (reportMissing (slotOf p) s)))
  let s2 := if old = .inService ∨ classOf s p = .inService then tagOwedChanged p s1 else s1
  poolEvent s2

/-- R43, R50 to R52: the fibre records take a condition event. -/
def recordsCondition (p : PortNo) (old new : PortCond) (s : Shelf) : Shelf :=
  let s1 := syncTimer p (reportTags p s)
  let s2 := if old = .degraded ∧ new = .clean ∧ classOf s1 p = .inService ∧ isMember s1 p then enterCandidates p s1
    else s1
  if new = .degraded ∧ isCandidate s2 p ∧ !isSource s2 p then trigger p s2 else s2

/-! ### Leaving the list (R74) -/

/-- R55: the source's condemn-pending flag when its order leaves: a REASSIGN order that ends without completing clears
it. -/
def settleCondemn (o : Order) (ending : OrderEvent) (s : Shelf) : Shelf :=
  if o.origin = .reassign ∧ (ending = .expired ∨ ending = .cancelled) then setCondemn o.src none s else s

/-- R66, R74: the hold of an order that placed one is removed. -/
def dropHold (o : Order) (s : Shelf) : Shelf :=
  match o.circuit with
  | some (g, _) => if o.protected && o.stage.started then removeHold g o.num s else s
  | none => s

/-- R74: the conditions and masks of an order that has left the list. -/
def endOrderAlarms (o : Order) (s : Shelf) : Shelf :=
  refreshPort o.dst (refreshPort o.src
    (reportChange (.port o.dst) .misPatch false (reportChange (.port o.src) .patchUnprotected false s)))

/-- R66, R71, R74: an order goes out of the list with an ending, which is told. -/
def orderOut (o : Order) (ending : OrderEvent) (s : Shelf) : Shelf :=
  let s1 := { s with ords := { s.ords with list := s.ords.list.filter (fun x => decide (x.num ≠ o.num)) } }
  let s2 := timingRun (endOrderAlarms o (settleCondemn o ending (dropHold o s1)))
  orderNotice ending o (if ending = .expired then setExpired o.src true s2 else s2)

/-- R54, R64, R74: what follows once an order has left: the waiting condemnations are retried, its ports are judged again
and, for an order of a group, the start check is made. -/
def orderGone (o : Order) (s : Shelf) : Shelf :=
  let s1 := syncPort o.dst (syncPort o.src (reportNoSpare o.src (retryCondemned (poolUpdate s))))
  if o.circuit.isSome then startCheck s1 else s1

/-- R74: an order leaves the list with an ending. -/
def leaveOrder (num : Nat) (ending : OrderEvent) (s : Shelf) : Shelf :=
  match orderOf s num with
  | none => s
  | some o => orderGone o (orderOut o ending s)

/-- R71. -/
def expireOrder (num : Nat) (s : Shelf) : Shelf := leaveOrder num .expired s

/-- R70: a lapse returns the order to AWAIT-LIGHT; with the light limit reached it expires at once (log entry 23). -/
def lapse (num : Nat) (s : Shelf) : Shelf :=
  let s1 := enterAwaitLight num s
  match orderOf s1 num with
  | some o => if o.stage = .awaitLight ∧ 1000 * o.light ≤ o.lightMs then expireOrder num s1 else s1
  | none => s1

/-- R68 to R70: a condition or tag event for an order's destination. -/
def destEvent (p : PortNo) (s : Shelf) : Shelf :=
  match s.ords.list.find? (fun o => decide (o.dst = p)) with
  | none => s
  | some o =>
    match o.stage with
    | .awaitLight => judgeDest o.num s
    | .verifying => if destMatched s o then s else lapse o.num s
    | .queued | .holding | .awaitDark | .completing => s

/-- R67: a condition event for an order's source. -/
def sourceEvent (p : PortNo) (s : Shelf) : Shelf :=
  match s.ords.list.find? (fun o => decide (o.src = p)) with
  | none => s
  | some o => judgeSource o.num s

/-- R67: the dark limit is reached. -/
def darkOver (num : Nat) (s : Shelf) : Shelf :=
  match orderOf s num with
  | some o => if o.stage = .awaitDark then expireOrder num s else s
  | none => s

/-- R68: the light limit is reached; it does not run out in VERIFYING (R70). -/
def lightOver (num : Nat) (s : Shelf) : Shelf :=
  match orderOf s num with
  | some o => if o.stage = .awaitLight then expireOrder num s else s
  | none => s

/-! ### Completion (R58, R72) -/

def setRecord (p : PortNo) (r : PortRec) (s : Shelf) : Shelf :=
  { s with recs := { s.recs with recs := put s.recs.recs p r } }

/-- R58: the destination's new record. -/
def movedRecord (s : Shelf) (o : Order) : PortRec := ⟨.inService, (recOf s o.src).desig, (recOf s o.src).tag⟩

/-- R58: the source's new record. -/
def vacatedRecord (s : Shelf) (o : Order) : PortRec :=
  ⟨if o.origin = .reassign ∨ (condemnOf s o.src).isSome then .condemned else .spare, none, none⟩

/-- R58, R99: the records of a move change, the destination's first, and the group definition with them; the edits are
offered in that order. -/
def changeRecords (o : Order) (s : Shelf) : Shelf :=
  let d := movedRecord s o
  let v := vacatedRecord s o
  let oldDst := classOf s o.dst
  let oldSrc := classOf s o.src
  let s1 := offerOwn .records (.portRecord o.dst d) (setRecord o.dst d s)
  let s2 := setCondemn o.src none (offerOwn .records (.portRecord o.src v) (setRecord o.src v s1))
  let s3 := match o.circuit with
    | some (g, _) => substituteMember g o.src o.dst s2
    | none => s2
  reportNoSpare o.src (classChanged o.src oldSrc (classChanged o.dst oldDst s3))

/-- R119: the executor takes the request for a member substitution. -/
def askSubstitution (g : GroupNo) (chan : Nat) (src dst : PortNo) (s : Shelf) : Shelf :=
  scheduleGroup g (leaveClear dst (setExec g (fun x => { x with
    subst := some ⟨chan, src, dst⟩
    plan := x.plan.map (fun p => { p with goesFirst := true })
    owed := x.owed.filter (fun w => decide (w.1 ≠ src)) }) s))

/-- R72: an order enters COMPLETING: records, substitution, rebind; without a group it leaves at once, and with its
group STUCK the substitution ends at once (R119, R73). The order's masks end as the destination's new class is followed
(R75). That the Order Notice comes before step 1, and PATCH-UNPROTECTED absent and MIS-PATCH absent after its record changes
and what follows from them, is the model's choice (log entry 45). -/
def completeOrder (num : Nat) (s : Shelf) : Shelf :=
  match orderOf s num with
  | none => s
  | some o =>
    let s1 := noticeOf .stage num (setStage num .completing s)
    let s2 := refreshOrder num (reportMisPatch num (reportPatch num (changeRecords o s1)))
    match o.circuit with
    | none => leaveOrder num .completed (rebind o.src o.dst s2)
    | some (g, chan) =>
      if (runOf s2 g).stuck then leaveOrder num .completedSelectorFault (rebind o.src o.dst (leaveClear o.dst s2))
      else rebind o.src o.dst (askSubstitution g chan o.src o.dst s2)

/-- R70: the verify timer runs out with the destination still matched. -/
def verifyOver (num : Nat) (s : Shelf) : Shelf :=
  match orderOf s num with
  | some o => if o.stage = .verifying && destMatched s o then completeOrder num s else s
  | none => s

end Sys2Proof.Machine
end

