-- ==== Sys2Proof/Machine/Executor.lean ====
section
/-! DEFINITION. The switch executor at work (chapter 6): the words an exchange names and writes, the ends of exchanges,
recovery, STUCK groups, adoption, preparation, the clear task, and the entry to ARMED that ends the arming adoptions. -/

namespace Sys2Proof.Machine

/-- R7, R13: what a requester receives when its transaction ends: the words read (none for a write), or the fault answer,
the slot and the word offset of the faulted transfer, and the number of reads and of writes completed. -/
inductive TxnEnd
  | done (words : List Word)
  | fault (a : BusAnswer) (slot : SlotNo) (off reads writes : Nat)
deriving DecidableEq, Repr

/-- The control word of a port as the bus names it. -/
def controlWord (p : PortNo) : SlotNo × Nat := (slotOf p, controlOffset p)

/-! ### Exchanges (R108, R117, R119) -/

/-- The member ports of a list of channels, in that order, each with its channel. -/
def portsOfChannels (d : GroupDef) (l : List Nat) : List (PortNo × Nat) :=
  l.filterMap (fun c => (d.portOf c).map (fun p => (p, c)))

/-- R108: the words of a plan's exchange, in their stated order. A channel's port is the one that the definition in force
names, also while a substitution of it is pending (log entry 39). -/
def planPorts (d : GroupDef) (x : GroupExec) (p : XPlan) (kind : XKind) : List (PortNo × Nat) :=
  let b := x.bridged.getD 0
  match kind with
  | .bridge => portsOfChannels d ([0] ++ (if b = 0 ∨ b = p.target then [] else [b]) ++ [p.target])
  | .select => portsOfChannels d [0, p.target]
  | .release =>
    if d.shared then portsOfChannels d ([0] ++ (if b = 0 then [] else [b])) else portsOfChannels d [0, 1]
  | .restore | .subst | .substDest => []

/-- R117: up to four owed members, the protect port first and then the working ports in channel order. -/
def restorePorts (d : GroupDef) (x : GroupExec) : List (PortNo × Nat) :=
  ((d.members.filter (fun p => x.owed.any (fun w => decide (w.1 = p)))).take 4).map
    (fun p => (p, (d.channelOf p).getD 0))

/-- An exchange as it is formed: its kind and its ports with their channels. A substitution whose source's slot is not PRESENT
names the destination alone (R119). -/
def formExchange (s : Shelf) (d : GroupDef) (x : GroupExec) (kind : XKind) :
    XKind × List (PortNo × Nat) :=
  match kind with
  | .bridge | .select | .release =>
    match x.plan with
    | some p => (kind, planPorts d x p kind)
    | none => (kind, [])
  | .restore => (.restore, restorePorts d x)
  | .subst | .substDest =>
    match x.subst with
    | some b =>
      if portPresent s b.src then (.subst, [(b.src, b.chan), (b.dst, b.chan)]) else (.substDest, [(b.dst, b.chan)])
    | none => (kind, [])

/-- R111: the job of an exchange as it is taken: formed at the first attempt (log entry 15); a later attempt is the same
exchange. -/
def formJob (s : Shelf) (d : GroupDef) (x : GroupExec) (j : XJob) : XJob :=
  if j.ports.isEmpty then { j with kind := (formExchange s d x j.kind).1, ports := (formExchange s d x j.kind).2 } else j

/-- R119, R120: the source of a substitution formed without it joins the clear list. -/
def clearSource (x : GroupExec) (before after : XJob) (s : Shelf) : Shelf :=
  match after.kind, x.subst with
  | .substDest, some b => if before.ports.isEmpty then joinClear b.src s else s
  | _, _ => s

/-- R108: the value a plan's exchange writes to one port's word. -/
def planValue (d : GroupDef) (p : XPlan) (kind : XKind) (chan : Nat) (w : Word) : Word :=
  if chan = 0 then
    let role := setRole (if d.shared then roleShared else rolePair) w
    match kind with
    | .bridge =>
      setOutRequest p.cls.rank p.chan (setSelectFlag false (setCarryChan 0 (setBridgeChan p.target role)))
    | .select =>
      let v := setSelectFlag true (setCarryChan p.target role)
      if d.shared then setOutRequest p.cls.rank p.chan v else setOutRequest ReqClass.idle.rank 0 v
    | .release =>
      let v := setOutRequest ReqClass.idle.rank 0 (setSelectFlag false (setCarryChan 0 role))
      if d.shared then setBridgeChan 0 v else v
    | .restore | .subst | .substDest => w
  else
    let role := setRole roleWorking w
    match kind with
    | .bridge => if chan = p.target then setBridgeOut true role else setSelectOut false (setBridgeOut false role)
    | .select => setSelectOut true role
    | .release => if d.shared then setSelectOut false (setBridgeOut false role) else setSelectOut false role
    | .restore | .subst | .substDest => w

/-- R119: the destination's word with the source's role and switching fields as read. -/
def movedWord (chan : Nat) (src dst : Word) : Word :=
  let w := setRole (roleOf src) dst
  if chan = 0 then
    setOutRequest (outClassOf src) (outChanOf src) (setSelectFlag (selectFlagOf src)
      (setCarryChan (carryChanOf src) (setBridgeChan (bridgeChanOf src) w)))
  else setSelectOut (selectOutOf src) (setBridgeOut (bridgeOutOf src) w)

/-- The value of one word of a group's exchange, from the words as read (R104, R108, R117, R119): `chan` is the channel
that the port had as the exchange was formed. -/
def exchangeValue (d : GroupDef) (x : GroupExec) (kind : XKind) (reads : List (PortNo × Word)) (p : PortNo) (chan : Nat)
    (w : Word) : Word :=
  match kind with
  | .bridge | .select | .release =>
    match x.plan with
    | some pl => planValue d pl kind chan w
    | none => w
  | .restore =>
    match x.owed.find? (fun y => decide (y.1 = p)) with
    | some y => applyDue y.2 w
    | none => w
  | .subst =>
    match x.subst with
    | some b =>
      if p = b.src then setRole roleNone w
      else movedWord b.chan (((reads.find? (fun y => decide (y.1 = b.src))).map Prod.snd).getD w) w
    | none => w
  | .substDest => applyDue (dueWord d p x.carried (x.bridged.getD 0) ReqClass.idle.rank 0) w

/-- R12: the values the executor returns for the words it was handed, in the stated order; they are kept for
recovery. -/
def exchangeValues (words : List Word) (s : Shelf) : List Word × Shelf :=
  match s.exe.active with
  | some (.clear ports) => ((ports.zip words).map (fun pw => setRole roleNone pw.2), s)
  | some (.exchange g) =>
    let x := execOf s g
    if x.step = .recovery then (x.saved.map Prod.snd, s)
    else
      match defOf s g, x.job with
      | some d, some j =>
        let reads := (j.ports.map Prod.fst).zip words
        ((j.ports.zip words).map (fun y => exchangeValue d x j.kind reads y.1.1 y.1.2 y.2),
          setExec g (fun x => { x with saved := reads }) s)
      | some _, none => (words, s)
      | none, _ => (words, s)
  | some (.adoption _ _ _) | none => (words, s)

/-! ### The entry to ARMED (R179) and preparation (R116) -/

/-- R116: the preparation has ended: the flag is cleared, the bridged channel is known and the group is evaluated. -/
def finishPreparation (g : GroupNo) (s : Shelf) : Shelf :=
  match defOf s g with
  | none => s
  | some d =>
    let x := execOf s g
    if x.prepareDue && x.owed.isEmpty && x.job.isNone && isArmed s && !(runOf s g).stuck then
      evaluate g (setExec g (fun x => { x with
        prepareDue := false, bridged := some (prepareBridge d), carried := 0 }) s)
    else s

/-- R116: a group whose preparation is due is prepared: its members are owed. -/
def prepareGroup (g : GroupNo) (s : Shelf) : Shelf :=
  match defOf s g with
  | none => s
  | some d =>
    if (execOf s g).prepareDue && isArmed s then
      finishPreparation g (scheduleGroup g (setExec g (fun x => { x with owed := preparationOwed d }) s))
    else s

/-- R185: a Start-up Notice. -/
def startUpNotice (s : Shelf) : Notice :=
  let slots := allSlots.map (slotStateOf s)
  let stuck := (allGroups.filter (fun g => (runOf s g).stuck)).length
  match s.rdy.phase with
  | .armed => .startUp .armed s.rdy.cause (shelfTime s) slots [] stuck s.rdy.armCause
  | p => .startUp p s.rdy.cause (shelfTime s) slots (if s.rdy.cause = .powerOn then s.sto.lost else []) 0 none

def setPhase (p : Phase) (s : Shelf) : Shelf := { s with rdy := { s.rdy with phase := p } }

/-- R179: the entry to ARMED, with its consequences in one fixed order (log entries 3 and 45). -/
def enterArmed (s : Shelf) : Shelf :=
  let s0 := setPhase .armed s
  let s1 := tell (startUpNotice s0) s0
  let s2 := allGroups.foldl (fun s g => prepareGroup g s) s1
  let s3 := allGroups.foldl (fun s g => evaluate g s) s2
  let s4 := sweep (startCheck s3)
  syncClear (allGroups.foldl (fun s g => scheduleGroup g s) s4)

/-- R115, R179: an arming adoption of the group has ended; after the last the shelf enters ARMED. -/
def armingEnded (g : GroupNo) (s : Shelf) : Shelf :=
  if s.rdy.phase = .arming ∧ g ∈ s.exe.arming then
    let s1 := { s with exe := { s.exe with arming := leave g s.exe.arming } }
    if s1.exe.arming.isEmpty then enterArmed s1 else s1
  else s

/-! ### STUCK groups (R113) -/

/-- R73, R119: the order whose substitution has ended leaves the list. -/
def substitutionEnded (g : GroupNo) (ending : OrderEvent) (s : Shelf) : Shelf :=
  match s.ords.list.find? (fun o => decide (o.stage = .completing) && decide (o.circuit.map Prod.fst = some g)) with
  | some o => leaveOrder o.num ending s
  | none => s

/-- R113: a group becomes STUCK, or is STUCK afresh: its conditions are reported before its notice (log entry 45). -/
def groupStuck (g : GroupNo) (fault : Option BusAnswer × Nat × Bool) (s : Shelf) : Shelf :=
  let pending := (execOf s g).subst.isSome
  let s1 := dropTasks g (setExec g (fun x =>
    { GroupExec.fresh with prepareDue := x.prepareDue }) s)
  let s2 := reportChange (.group g) .farEndSilent false (reportChange (.group g) .selectorFault true s1)
  let s3 := engineStuck g fault s2
  if pending then substitutionEnded g .completedSelectorFault s3 else s3

/-! ### The far-end confirm (R110) -/

/-- R110: the far end's bridged channel, from the word last reported on the protect port. -/
def farBridged (s : Shelf) (d : GroupDef) : Option Nat := (at' s.scan.obs d.protect).rxProt.map ProtWord.bridged

/-- R110: the confirm is judged; when it is found, the select exchange becomes ready. -/
def judgeConfirm (g : GroupNo) (s : Shelf) : Shelf :=
  let x := execOf s g
  match defOf s g, x.plan with
  | some d, some p =>
    if x.step = .confirmWait ∧ farBridged s d = some p.target then
      scheduleGroup g (endConfirm g (setExec g (fun x => { x with plan := some { p with next := .select } }) s))
    else s
  | some _, none => s
  | none, _ => s

/-- R35, R110: a protection word event for a port. -/
def executorWord (p : PortNo) (s : Shelf) : Shelf :=
  match memberOf s p with
  | some (g, 0) => judgeConfirm g s
  | some (_, _ + 1) | none => s

/-- R110: the confirm timer reaches 500 ms. -/
def confirmOver (g : GroupNo) (s : Shelf) : Shelf :=
  if (execOf s g).confirm.isSome then reportChange (.group g) .farEndSilent true s else s

/-! ### Ends of exchanges (R109, R111, R112, R117, R119) -/

def endJob (g : GroupNo) (s : Shelf) : Shelf :=
  setExec g (fun x => { x with job := none, saved := [], step := .queued }) s

/-- R109: the exchange of a group has completed. -/
def exchangeDone (g : GroupNo) (j : XJob) (s : Shelf) : Shelf :=
  let x := execOf s g
  match j.kind with
  | .bridge =>
    let target := (x.plan.map XPlan.target).getD 0
    judgeConfirm g (setExec g (fun x => { x with
      job := none, saved := [], bridged := some target, carried := 0, step := .confirmWait, confirm := some 0 }) s)
  | .select => planCompleted g ((x.plan.map XPlan.target).getD 0) s
  | .release =>
    let shared := (defOf s g).any GroupDef.shared
    planCompleted g 0 (if shared then setExec g (fun x => { x with bridged := some 0 }) s else s)
  | .restore =>
    let s1 := setExec g (fun x => { x with owed := x.owed.filter (fun w => decide (w.1 ∉ j.ports.map Prod.fst)) }) (endJob g s)
    scheduleGroup g (finishPreparation g s1)
  | .subst | .substDest =>
    scheduleGroup g (substitutionEnded g .completed (setExec g (fun x => { x with subst := none }) (endJob g s)))

/-- R111: the task waits 1 s for its next attempt, or the group becomes STUCK after the third, with the fault fields
`fault` in its notice (R101; log entry 42 where a recovery lies between). -/
def retryLater (g : GroupNo) (j : XJob) (fault : Option BusAnswer × Nat × Bool) (s : Shelf) : Shelf :=
  if j.attempt < 3 then
    setExec g (fun x => { x with
      job := some { j with attempt := j.attempt + 1, fault := none }, saved := [], step := .retryWait, retry := some 0 }) s
  else groupStuck g fault s

/-- R112: the words a recovery names, from the words read and the number of writes completed. -/
def recoveryWords (saved : List (PortNo × Word)) (writes : Nat) : List (PortNo × Word) :=
  saved.drop (saved.length - 1 - writes)

/-- R111, R112: the exchange of a group ends in fault. -/
def exchangeFaulted (g : GroupNo) (j : XJob) (a : BusAnswer) (writes : Nat) (s : Shelf) : Shelf :=
  let fault := (some a, j.attempt, decide (0 < writes))
  let s1 := groupNotice .fault g (some fault) s
  if writes = 0 then retryLater g j fault s1
  else
    setTasks (fun t => .exchange g :: t) (setExec g (fun x => { x with
      job := some { j with fault := some a }, saved := recoveryWords x.saved writes, step := .recovery }) s1)

/-- R107: an exchange task has ended. R101 does not say whose answer the notice STUCK gives after a recovery (R112): one
that faulted gives its own answer, one that completed at attempt 3 that of the exchange it recovered, both with that
exchange's attempt and "writes done"; a faulted recovery makes no notice FAULT (log entry 42). -/
def groupExchangeEnd (g : GroupNo) (e : TxnEnd) (s : Shelf) : Shelf :=
  let x := execOf s g
  match x.job with
  | none => s
  | some j =>
    if x.step = .recovery then
      match e with
      | .done _ => retryLater g j (j.fault, j.attempt, true) s
      | .fault a _ _ _ _ => groupStuck g (some a, j.attempt, true) s
    else
      match e with
      | .done _ => exchangeDone g j s
      | .fault a _ _ _ w => exchangeFaulted g j a w s

/-- R120: the clear task has ended: the ports whose writes completed leave the list. -/
def clearEnd (ports : List PortNo) (e : TxnEnd) (s : Shelf) : Shelf :=
  match e with
  | .done _ => syncClear (ports.foldl (fun s p => leaveClear p s) s)
  | .fault _ _ _ _ writes =>
    let written := ports.drop (ports.length - writes)
    let s1 := written.foldl (fun s p => leaveClear p s) s
    { s1 with exe := { s1.exe with clearWait := some 0 } }

/-! ### Adoption (R114, R115) -/

/-- R114: the role a member has in its group definition. -/
def memberRole (d : GroupDef) (p : PortNo) : Nat :=
  if p = d.protect then (if d.shared then roleShared else rolePair) else roleWorking

/-- R114: what the adoption knows of a member: its word, or none for a blank. -/
def adoptedWord (d : GroupDef) (got : List (PortNo × Option Word)) (p : PortNo) : Option Word :=
  match got.find? (fun x => decide (x.1 = p)) with
  | some (_, some w) => if roleOf w = memberRole d p then some w else none
  | some (_, none) | none => none

/-- R114: the carried channel. -/
def adoptedCarry (d : GroupDef) (got : List (PortNo × Option Word)) : Nat :=
  ((adoptedWord d got d.protect).map carryChanOf).getD 0

/-- R114: the bridged channel. -/
def adoptedBridge (d : GroupDef) (got : List (PortNo × Option Word)) : Nat :=
  if d.shared then ((adoptedWord d got d.protect).map bridgeChanOf).getD 0 else 1

/-- R114: the adoption is inconsistent. -/
def inconsistent (d : GroupDef) (got : List (PortNo × Option Word)) : Bool :=
  match adoptedWord d got d.protect with
  | none => false
  | some w =>
    let c := carryChanOf w
    let b := bridgeChanOf w
    decide (d.n < c) || (d.shared && decide (d.n < b))
    || (selectFlagOf w && decide (c = 0)) || (!selectFlagOf w && decide (c ≠ 0))
    || (d.shared && decide (c ≠ 0) && decide (c ≠ b))
    || d.working.any (fun p =>
        match adoptedWord d got p with
        | none => false
        | some v => decide (selectOutOf v ≠ decide (d.channelOf p = some c)))

/-- R116: the owed words after a consistent adoption. -/
def adoptionOwed (s : Shelf) (d : GroupDef) (got : List (PortNo × Option Word)) : List (PortNo × Due) :=
  let c := adoptedCarry d got
  let b := adoptedBridge d got
  let out := (adoptedWord d got d.protect).map (fun w => (outClassOf w, outChanOf w))
  let (cls, chan) := out.getD (ReqClass.idle.rank, 0)
  (d.members.filter (portPresent s)).filterMap (fun p =>
    let due := dueWord d p c b cls chan
    match adoptedWord d got p with
    | none => some (p, due)
    | some w => if meetsDue due w then none else some (p, due))

/-- R115: the end of an adoption. One listed or at the bus when a move changes the definition goes on, and its words are judged
by the definition in force now (log entry 40). -/
def adoptionEnd (g : GroupNo) (got : List (PortNo × Option Word)) (s : Shelf) : Shelf :=
  match defOf s g with
  | none => armingEnded g s
  | some d =>
    if inconsistent d got then armingEnded g (groupStuck g (none, 0, false) s)
    else
      let s1 := setExec g (fun x => { x with
        bridged := some (adoptedBridge d got), carried := adoptedCarry d got, prepareDue := false
        owed := adoptionOwed s d got }) s
      armingEnded g (adoptAgain g (adopted g (adoptedCarry d got) (reportChange (.group g) .selectorFault false s1)))

/-- Section 1.5: the executor asks for a transaction. -/
def askExecutor (t : Txn) (s : Shelf) : Shelf := { s with bp := { s.bp with waitExecutor := some t } }

/-- R114: the next member is read; a member whose slot is not PRESENT is blank and no read is issued for it. -/
def adoptNext (g : GroupNo) : List PortNo → List (PortNo × Option Word) → Shelf → Shelf
  | [], got, s => adoptionEnd g got (setActive none s)
  | p :: rest, got, s =>
    if portPresent s p then
      askExecutor (.read (slotOf p) (controlOffset p)) (setActive (some (.adoption g (p :: rest) got)) s)
    else adoptNext g rest (got ++ [(p, none)]) s

/-- R114: a member's read has ended. -/
def adoptRead (g : GroupNo) (rest : List PortNo) (got : List (PortNo × Option Word)) (e : TxnEnd) (s : Shelf) : Shelf :=
  match rest with
  | [] => adoptNext g [] got s
  | p :: rest =>
    let w := match e with
      | .done ws => ws.head?
      | .fault _ _ _ _ _ => none
    adoptNext g rest (got ++ [(p, w)]) s

/-! ### Taking tasks (R107) -/

/-- R107: an exchange task is taken to the bus; a restore with nothing left to write ends at once (log entry 15). -/
def takeExchange (g : GroupNo) (s : Shelf) : Shelf :=
  let x := execOf s g
  match defOf s g, x.job with
  | some d, some j =>
    if x.step = .recovery then
      askExecutor (.exchange (x.saved.map (fun w => controlWord w.1))) (setActive (some (.exchange g)) s)
    else
      let j' := formJob s d x j
      if j'.ports.isEmpty then exchangeDone g j' s
      else
        let s1 := setExec g (fun x => { x with job := some j', step := .atBus, saved := [] }) s
        askExecutor (.exchange (j'.ports.map (fun y => controlWord y.1)))
          (setActive (some (.exchange g)) (clearSource x j j' s1))
  | some _, none => s
  | none, _ => s

/-- R107: the task at the head of the list is taken. -/
def takeTask (t : Task) (s : Shelf) : Shelf :=
  match t with
  | .exchange g => takeExchange g s
  | .adoption g =>
    match defOf s g with
    | some d => adoptNext g d.members [] s
    | none => armingEnded g s
  | .clear =>
    let ports := clearPorts s
    if ports.isEmpty then s else askExecutor (.exchange (ports.map controlWord)) (setActive (some (.clear ports)) s)

/-- R107: while the executor has no task in hand it takes the next; the bound is more than the tasks that can follow one
another without a transaction. -/
def serveExecutor : Nat → Shelf → Shelf
  | 0, s => s
  | k + 1, s =>
    if s.exe.active.isSome then s
    else
      match s.exe.tasks with
      | [] => s
      | t :: rest => serveExecutor k (takeTask t (setTasks (fun _ => rest) s))

/-- R7: the outcome of the executor's transaction reaches it. -/
def executorEnd (e : TxnEnd) (s : Shelf) : Shelf :=
  match s.exe.active with
  | none => s
  | some a =>
    let s1 := setActive none s
    match a with
    | .exchange g => groupExchangeEnd g e s1
    | .adoption g rest got => adoptRead g rest got e s1
    | .clear ports => clearEnd ports e s1

/-- R111: the retry wait ends and the same exchange joins the task list again. -/
def retryOver (g : GroupNo) (s : Shelf) : Shelf :=
  let x := execOf s g
  if x.retry.isSome && decide (x.step = .retryWait) then
    setTasks (fun t => t ++ [.exchange g]) (setExec g (fun x => { x with retry := none, step := .queued }) s)
  else s

/-- R120: the 1 s after a faulted clear task has passed. -/
def clearRetryOver (s : Shelf) : Shelf :=
  if s.exe.clearWait.isSome then syncClear { s with exe := { s.exe with clearWait := none } } else s

/-! ### Slots (R115, R117) -/

/-- R116: while a group is being prepared a member is owed its word again when its slot becomes PRESENT, since no adoption
judges it then (R115; log entry 17). -/
def oweAgain (n : SlotNo) (g : GroupNo) (s : Shelf) : Shelf :=
  match defOf s g with
  | none => s
  | some d =>
    if (execOf s g).prepareDue && isArmed s && !(runOf s g).stuck then
      scheduleGroup g (setExec g (fun x => { x with
        owed := x.owed ++ (preparationOwed d).filter (fun w => decide (slotOf w.1 = n)
          && !(x.owed.any (fun y => decide (y.1 = w.1)))) }) s)
    else s

/-- R6, R115, R120: a card is present: its groups are adopted, but for STUCK groups and groups to be prepared; none in
DISCOVERY. -/
def executorPresent (n : SlotNo) (s : Shelf) : Shelf :=
  let named := fun (s : Shelf) (g : GroupNo) => match defOf s g with
    | some d => d.members.any (fun p => decide (slotOf p = n)) && !(runOf s g).stuck && !(execOf s g).prepareDue
    | none => false
  if s.rdy.phase = .discovery then s
  else syncClear (allGroups.foldl (fun s g => if named s g then askAdoptionFor g s else oweAgain n g s) s)

/-- R117: members on a slot that is not PRESENT any more leave the owed sets. -/
def executorGone (n : SlotNo) (s : Shelf) : Shelf :=
  allGroups.foldl (fun s g =>
    finishPreparation g (setExec g (fun x => { x with owed := x.owed.filter (fun w => decide (slotOf w.1 ≠ n)) }) s)) s

end Sys2Proof.Machine
end

