-- ==== Sys2Proof/Machine/Scanner.lean ====
section
/-! DEFINITION. The port scanner (chapter 2): the window, the cycle, attention service, the observation of each port and
the events it sends to the blocks that depend on it. -/

namespace Sys2Proof.Machine

/-! ### The window (R22) -/

/-- R22: port `i` of the window, in window order. -/
def windowPort (u : ScanSetup) (i : Nat) : PortNo :=
  if u.up then ⟨(u.first.val + i) % 48, Nat.mod_lt _ (by decide)⟩
  else ⟨(u.first.val + 48 - i % 48) % 48, Nat.mod_lt _ (by decide)⟩

/-- R22: the window, in window order. -/
def windowPorts (u : ScanSetup) : List PortNo := (List.range u.count).map (windowPort u)

/-- R22: the place of a port in the window order, counted without end. -/
def windowPlace (u : ScanSetup) (p : PortNo) : Nat :=
  if u.up then (p.val + 48 - u.first.val) % 48 else (u.first.val + 48 - p.val) % 48

/-- R22: the port is in the window of a setup. -/
def inWindowOf (u : ScanSetup) (p : PortNo) : Bool := decide (windowPlace u p < u.count)

def inWindow (s : Shelf) (p : PortNo) : Bool := inWindowOf s.scan.setup p

/-- R23: a window may not leave out a member, a bound port or a port of an order. -/
def mustScan (s : Shelf) (p : PortNo) : Bool :=
  isMember s p || inOrder s p
  || allRefs.any (fun r => isLine r && decide ((refOf s r).defn.binding = .port p))

/-- R23, R24: the check of a setup against the shelf as it stands. -/
def setupFits (s : Shelf) (u : ScanSetup) : Bool := allPorts.all (fun p => inWindowOf u p || !mustScan s p)

/-- R25. -/
def isQuiet (s : Shelf) : Bool := s.scan.setup.quiet || s.pins.battery

/-- R26: the scanner has started since the last reset. -/
def scanStarted (s : Shelf) : Bool := decide (s.scan.cycle ≠ .stopped)

/-! ### Observations (R33, R34) -/

def obsOf (s : Shelf) (p : PortNo) : Obs := at' s.scan.obs p

def setScan (f : Scanner → Scanner) (s : Shelf) : Shelf := { s with scan := f s.scan }

def setObs (p : PortNo) (o : Obs) (s : Shelf) : Shelf := setScan (fun c => { c with obs := put c.obs p o }) s

/-- R30, R33, R34: an observation takes a condition. Other than DEGRADED and CLEAN it empties the lit-line state; a change
to one of these from another owes a tag read. Light and frame lock are kept while the port has been read (log entry
12). -/
def Obs.take (o : Obs) (c : PortCond) : Obs :=
  if c.lit then { o with cond := c, tagOwed := o.tagOwed || !o.cond.lit }
  else
    let read := decide (c = .dark) || decide (c = .failed)
    { o with
        cond := c
        light := if read then o.light else none
        frame := if read then o.frame else none
        window := []
        degraded := false
        carry := 0
        tagOwed := false
        rxTag := none
        rxProt := none
        rxGrade := none }

/-- R33: the condition a port takes from its slot's state. -/
def slotCond : SlotState → PortCond
  | .unknown | .present => .unknown
  | .empty | .failed => .absent

/-- R35: the condition event goes to the alarm unit and the protection engine, in one fixed order (log entry 3). The alarm
unit is first, so that a condition told absent at the change that masks it is removed as masked (R145). -/
def conditionFirst (p : PortNo) (old new : PortCond) (s : Shelf) : Shelf := engineCondition p old new (refreshPort p s)

/-- R35: after the timing selector the condition event goes to the fibre records and the move order list. -/
def conditionRest (p : PortNo) (old new : PortCond) (s : Shelf) : Shelf :=
  destEvent p (sourceEvent p (recordsCondition p old new s))

/-- R35: a tag event. -/
def tagEvent (p : PortNo) (s : Shelf) : Shelf := destEvent p (reportTags p s)

/-- R35: a protection word event: the engine takes the far request before the executor judges the confirm (log entry
39). -/
def wordEvent (p : PortNo) (s : Shelf) : Shelf := executorWord p (engineWord p s)

/-- A port with its observation before and after a change. -/
structure ObsChange where
  port : PortNo
  old : Obs
  new : Obs
deriving DecidableEq, Repr

/-- R35: what the alarm unit and the engine take of a change. -/
def changeFirst (s : Shelf) (x : ObsChange) : Shelf :=
  if x.new.cond = x.old.cond then s else conditionFirst x.port x.old.cond x.new.cond s

/-- R35: what the other blocks take of a change. -/
def changeRest (s : Shelf) (x : ObsChange) : Shelf :=
  let s1 := if x.new.cond = x.old.cond then s else conditionRest x.port x.old.cond x.new.cond s
  let s2 := if x.new.rxTag = x.old.rxTag then s1 else tagEvent x.port s1
  if x.new.rxProt = x.old.rxProt then s2 else wordEvent x.port s2

/-- R35: the change is one that the timing selector is told of. -/
def changeTimed (x : ObsChange) : Bool := decide (x.new.cond ≠ x.old.cond) || decide (x.new.rxGrade ≠ x.old.rxGrade)

/-- R33, R35, R128: the observations of some ports change at once, and then the events of what has changed are sent, with
one evaluation of the timing selector. -/
def observeAll (l : List (PortNo × Obs)) (s : Shelf) : Shelf :=
  let changes := l.map (fun x => ObsChange.mk x.1 (obsOf s x.1) x.2)
  let s1 := l.foldl (fun s x => setObs x.1 x.2 s) s
  let s2 := changes.foldl changeFirst s1
  changes.foldl changeRest (if changes.any changeTimed then timingRun s2 else s2)

/-- R35: one port's observation changes. -/
def observe (p : PortNo) (o : Obs) (s : Shelf) : Shelf := observeAll [(p, o)] s

/-- R33: a port's observation under the condition that its slot state and window membership give it. -/
def baseObs (s : Shelf) (p : PortNo) : Obs :=
  (obsOf s p).take
    (if scanStarted s && !inWindow s p then PortCond.unmonitored else slotCond (slotStateOf s (slotOf p)))

/-- R33: the conditions of some ports are derived again, at once. -/
def observeBases (l : List PortNo) (s : Shelf) : Shelf := observeAll (l.map (fun p => (p, baseObs s p))) s

/-- R33: a slot's state has changed: its four ports are derived again at once. -/
def scannerSlot (n : SlotNo) (s : Shelf) : Shelf := observeBases (portsOf n) s

/-! ### Error samples (R31, R32) -/

def windowSum (l : List Nat) : Nat := l.foldl (· + ·) 0

/-- R32: a sample joins the window and the degraded flag is judged. -/
def addSample (t : Thresholds) (n : Nat) (o : Obs) : Obs :=
  let l := o.window ++ [n]
  let l1 := l.drop (l.length - Config.windowMax)
  let sum := windowSum l1
  { o with
      window := l1
      degraded := if t.degrade ≤ sum then true else if sum ≤ t.clear then false else o.degraded }

/-- R31: what an error count of a lit and framed port does. -/
def takeCount (quiet cyclic : Bool) (t : Thresholds) (count : Nat) (o : Obs) : Obs :=
  if quiet then o
  else if o.resume then { o with resume := false }
  else if cyclic then addSample t (min 65535 (count + o.carry)) { o with carry := 0 }
  else { o with carry := min 65535 (o.carry + count) }

/-- R29, R31, R33: an acknowledged status read, of one word or of the block of four, gives the observation. -/
def statusObs (quiet cyclic : Bool) (t : Thresholds) (words : List Word) (o : Obs) : Obs :=
  let w := words.headD 0
  let light := bitOf w 0
  let frame := bitOf w 1
  let o1 := { o with light := some light, frame := some frame }
  if !light then o1.take .dark
  else if !frame then o1.take .failed
  else
    let o2 := match words with
      | [_, count, prot, grade] =>
        { takeCount quiet cyclic t (field count 0 16) o1 with rxProt := protWordOf prot, rxGrade := some (gradeOf grade) }
      | _ => o1
    let o3 := { o2 with tagOwed := o2.tagOwed || bitOf w 2 }
    o3.take (if o3.degraded then .degraded else .clean)

/-! ### Modes and setups (R24, R25, R26) -/

/-- R25: leaving QUIET sets the resume flag of every port. -/
def resumeAll (s : Shelf) : Shelf :=
  setScan (fun c => { c with obs := mapAll (fun o => { o with resume := true }) c.obs }) s

/-- R25: after a change of what the effective mode rests on. -/
def modeChanged (before : Shelf) (after : Shelf) : Shelf :=
  if isQuiet before && !isQuiet after then resumeAll after else after

/-- R25: the battery-running input changes. -/
def batteryChanged (b : Bool) (s : Shelf) : Shelf := modeChanged s { s with pins := { s.pins with battery := b } }

/-- R24, R26: ports that the window leaves out become UNMONITORED and ports that enter it take their slot's condition. -/
def windowChanged (s : Shelf) : Shelf :=
  observeBases (allPorts.filter (fun p => !inWindow s p || decide (condOf s p = .unmonitored))) s

/-- R24: the pending setup is checked and taken, or dropped. -/
def takePending (s : Shelf) : Shelf :=
  match s.scan.pending with
  | none => s
  | some u =>
    if setupFits s u then modeChanged s (setScan (fun c => { c with setup := u, pending := none }) s)
    else setScan (fun c => { c with pending := none, dropped := true }) s

/-- R26: a cycle start. -/
def cycleStart (s : Shelf) : Shelf :=
  windowChanged (setScan (fun c => { c with cycle := .running 0 false, late := false, period := some 0 }) (takePending s))

def reportOverrun (b : Bool) (s : Shelf) : Shelf :=
  reportChange .shelf .scanOverrun b (setScan (fun c => { c with overrun := b }) s)

/-- R26: the last visit of a cycle has ended. -/
def cycleEnd (s : Shelf) : Shelf :=
  if s.scan.late then cycleStart s else reportOverrun false (setScan (fun c => { c with cycle := .waiting }) s)

/-- R26: the period timer expires. -/
def periodOver (s : Shelf) : Shelf :=
  if s.scan.period.isNone then s
  else
    match s.scan.cycle with
    | .stopped => s
    | .waiting => cycleStart s
    | .running _ _ => reportOverrun true (setScan (fun c => { c with late := true, period := none }) s)

/-! ### Visits and attention service (R17, R27, R28) -/

def askScanner (j : ScanJob) (t : Txn) (s : Shelf) : Shelf :=
  let s1 := setScan (fun c => { c with job := some j }) s
  { s1 with bp := { s1.bp with waitScanner := some t } }

/-- R17, R28: the head slot of the attention list is handed to the scanner, with its ports that are in window then. Each is
looked at again when its read is asked for, so a window that changes during the service only takes ports from it (log
entry 35). -/
def takeAttention (s : Shelf) : Option Shelf :=
  match s.bp.attention with
  | [] => none
  | n :: rest =>
    some (setScan (fun c => { c with serving := (portsOf n).filter (inWindow s) })
      { s with bp := { s.bp with attention := rest } })

/-- R27: the visit of a port: a status read, or no read where its slot is not PRESENT. -/
def visit (v : Nat) (s : Shelf) : Shelf :=
  let p := windowPort s.scan.setup v
  if portPresent s p then
    askScanner (.cyclic p)
      (if isQuiet s then .read (slotOf p) (statusOffset p) else .block (slotOf p) (statusOffset p)) s
  else setScan (fun c => { c with cycle := .running (v + 1) false }) s

/-- One step of the scanner's own work between its reads: a read of the slot being served, attention, a visit, or the
end of the cycle (R27, R28). A slot still being served at a cycle start was taken between cycles: its service is finished
and does not count as the one slot before the first visit, for which the list is asked afresh (log entry 41). -/
def scanStep (s : Shelf) : Shelf :=
  match s.scan.serving with
  | p :: rest =>
    let s1 := setScan (fun c => { c with serving := rest }) s
    if portPresent s p && inWindow s p then askScanner (.attention p) (.block (slotOf p) (statusOffset p)) s1 else s1
  | [] =>
    match s.scan.cycle with
    | .stopped => s
    | .waiting => (takeAttention s).getD s
    | .running v asked =>
      if s.scan.setup.count ≤ v then cycleEnd s
      else if asked then visit v s
      else
        let s1 := (takeAttention s).getD s
        setScan (fun c => { c with cycle := .running v true }) s1

/-- The scanner has nothing to do before something else happens. -/
def scanIdle (s : Shelf) : Bool :=
  s.scan.job.isSome
  || (s.scan.serving.isEmpty
      && (match s.scan.cycle with
          | .stopped => true
          | .waiting => s.bp.attention.isEmpty
          | .running _ _ => false))

/-- R27: the scanner works until it has asked for a read or has nothing to do; the bound is more than the steps of two
cycles without a read. -/
def serveScanner : Nat → Shelf → Shelf
  | 0, s => s
  | k + 1, s => if scanIdle s then s else serveScanner k (scanStep s)

/-- R27: the visit ends, if the read that has ended was a cyclic one. -/
def endVisit (cyclic : Bool) (s : Shelf) : Shelf :=
  if cyclic then
    match s.scan.cycle with
    | .running v _ => setScan (fun c => { c with cycle := .running (v + 1) false }) s
    | .stopped | .waiting => s
  else s

/-- R29, R30: the outcome of a status read; an owed tag read follows an acknowledged one. -/
def statusRead (p : PortNo) (cyclic : Bool) (e : TxnEnd) (s : Shelf) : Shelf :=
  match e with
  | .fault _ _ _ _ _ => endVisit cyclic s
  | .done words =>
    if !portPresent s p || !inWindow s p then endVisit cyclic s
    else
      let s1 := observe p (statusObs (isQuiet s) cyclic s.scan.thresholds words (obsOf s p)) s
      if (obsOf s1 p).tagOwed then askScanner (.tag p cyclic) (.block (slotOf p) (rxTagOffset p)) s1
      else endVisit cyclic s1

/-- R30: the outcome of a tag read. -/
def tagRead (p : PortNo) (cyclic : Bool) (e : TxnEnd) (s : Shelf) : Shelf :=
  match e with
  | .fault _ _ _ _ _ => endVisit cyclic s
  | .done words =>
    if !portPresent s p || !(condOf s p).lit then endVisit cyclic s
    else endVisit cyclic (observe p { obsOf s p with tagOwed := false, rxTag := some (tagOf words) } s)

/-- R7: the outcome of the scanner's transaction reaches it. -/
def scannerEnd (e : TxnEnd) (s : Shelf) : Shelf :=
  match s.scan.job with
  | none => s
  | some j =>
    let s1 := setScan (fun c => { c with job := none }) s
    match j with
    | .cyclic p => statusRead p true e s1
    | .attention p => statusRead p false e s1
    | .tag p cyclic => tagRead p cyclic e s1

end Sys2Proof.Machine
end

