-- ==== Sys2Proof/Machine/Bus.lean ====
section
/-! DEFINITION. The backplane controller (chapter 1): slot records, probes, transfers and their answers, the ends of
transactions, the bus fault record, attention and the arbiter; and the entries to WATCH and ARMING that discovery and
requests bring about (chapter 11). -/

namespace Sys2Proof.Machine

def setBp (f : Backplane → Backplane) (s : Shelf) : Shelf := { s with bp := f s.bp }

/-! ### Entering WATCH and starting arming (R179, R180) -/

/-- R179, R180: the entry to WATCH, with its consequences in one order of the model's (log entry 45). -/
def enterWatch (s : Shelf) : Shelf :=
  let s0 := { s with rdy := { s.rdy with phase := .watch, armingFor := some 0 } }
  let s1 := cycleStart (tell (startUpNotice s0) s0)
  let s2 := allGroups.foldl (fun s g => if (defOf s g).isSome then askAdoption g s else s) s1
  allPorts.foldl (fun s p => syncTimer p s) s2

/-- R115: the groups that are adopted at arming. -/
def armingGroups (s : Shelf) : List GroupNo :=
  allGroups.filter (fun g => (defOf s g).isSome && !(execOf s g).prepareDue)

/-- R180: arming is started, in WATCH alone. -/
def startArming (cause : ArmCause) (s : Shelf) : Shelf :=
  if s.rdy.phase = .watch then
    let groups := armingGroups s
    let s1 := { s with
      rdy := { s.rdy with phase := .arming, armCause := some cause, armingFor := none }
      exe := { s.exe with arming := groups } }
    if groups.isEmpty then enterArmed s1 else groups.foldl (fun s g => askAdoption g s) s1
  else s

/-! ### Slot states (R6) -/

def setSlot (n : SlotNo) (f : SlotRec → SlotRec) (s : Shelf) : Shelf :=
  setBp (fun b => { b with slots := upd b.slots n f }) s

/-- R16: a slot joins the attention list. -/
def joinAttention (n : SlotNo) (s : Shelf) : Shelf := setBp (fun b => { b with attention := joinTail n b.attention }) s

/-- R4: the re-probe timer starts from 0 while the slot is EMPTY or FAILED and stops otherwise. -/
def syncReprobe (n : SlotNo) (s : Shelf) : Shelf :=
  let running := decide (slotStateOf s n = .empty) || decide (slotStateOf s n = .failed)
  setBp (fun b => { b with reprobe := put b.reprobe n (if running then some 0 else none) }) s

/-- R6: what the blocks are told when a card is present. -/
def cardPresent (n : SlotNo) (s : Shelf) : Shelf :=
  let s1 := gradesOwed n s
  let s2 := ((portsOf n).filter (fun p => decide (classOf s1 p = .inService))).foldl (fun s p => joinTags p s) s1
  let s3 := executorPresent n s2
  if at' s3.bp.attLine n then joinAttention n s3 else s3

/-- R6: what follows when the new state is not PRESENT. -/
def cardGone (n : SlotNo) (s : Shelf) : Shelf :=
  let s1 := setBp (fun b => { b with attention := leave n b.attention }) (gradesGone n s)
  executorGone n { s1 with recs := { s1.recs with
    tagList := s1.recs.tagList.filter (fun p => decide (slotOf p ≠ n)) } }

/-- R6: a slot's state changes. -/
def slotChange (n : SlotNo) (r : SlotRec) (s : Shelf) : Shelf :=
  let s1 := syncReprobe n (setSlot n (fun _ => r) s)
  let s2 := scannerSlot n (tell (.slot n r.state r.kind r.rev) s1)
  let s3 := reportMissing n (reportChange (.slot n) .cardFailed (decide (r.state = .failed)) s2)
  if r.state = .present then cardPresent n s3 else cardGone n s3

/-! ### Transfers (R8 to R13) -/

/-- A transfer: its slot, its word offset and whether it is a write. -/
structure Transfer where
  slot : SlotNo
  off : Nat
  write : Bool
deriving DecidableEq, Repr

/-- The transfer the bus is waiting on, or none while an exchange waits for its values (R12). -/
def transferOf (u : BusUse) : Option Transfer :=
  match u.txn with
  | .read n off => some ⟨n, off, false⟩
  | .write n off _ => some ⟨n, off, true⟩
  | .block n off => some ⟨n, off + u.reads.length, false⟩
  | .exchange words =>
    match words[u.reads.length]? with
    | some (n, off) => some ⟨n, off, false⟩
    | none =>
      if u.values.isSome then (words[words.length - 1 - u.writes]?).map (fun w => ⟨w.1, w.2, true⟩) else none

/-- Section 1.8: the kind of a transaction. -/
def Txn.kind : Txn → TxnKind
  | .read _ _ => .singleRead
  | .write _ _ _ => .singleWrite
  | .block _ _ => .blockRead
  | .exchange _ => .exchange

/-- The transaction has had its last transfer acknowledged, which was a write or not. -/
def isComplete (write : Bool) (u : BusUse) : Bool :=
  match u.txn with
  | .read _ _ => decide (u.reads.length = 1)
  | .write _ _ _ => decide (u.writes = 1)
  | .block _ _ => decide (u.reads.length = 4)
  | .exchange words => write && decide (u.writes = words.length)

/-- R9: a RETRY on a later word of a block read is a fault at once. -/
def mayRetry (u : BusUse) : Bool :=
  match u.txn with
  | .block _ _ => u.reads.isEmpty
  | .read _ _ | .write _ _ _ | .exchange _ => true

/-! ### The ends of transactions (R3, R5, R7, R18) -/

/-- R5: the slots whose cards had a transfer of the transaction acknowledged. -/
def ackedSlots (u : BusUse) : List SlotNo :=
  match u.txn with
  | .read n _ | .write n _ _ | .block n _ => if u.reads.length + u.writes = 0 then [] else [n]
  | .exchange words => (words.take u.reads.length).map Prod.fst

/-- R5: a PRESENT slot's fault count after a transaction; at 3 the slot becomes FAILED. -/
def countFault (n : SlotNo) (faulted : Bool) (s : Shelf) : Shelf :=
  let r := at' s.bp.slots n
  if r.state ≠ .present then s
  else if !faulted then setSlot n (fun r => { r with faults := 0 }) s
  else if r.faults + 1 < 3 then setSlot n (fun r => { r with faults := r.faults + 1 }) s
  else slotChange n ⟨.failed, none, none, 3⟩ s

/-- R5: the fault counts of the slots a transaction addressed. -/
def countFaults (u : BusUse) (fault : Option (Transfer × BusAnswer)) (s : Shelf) : Shelf :=
  let bad := fault.map (fun f => f.1.slot)
  let good := allSlots.filter (fun n => decide (n ∈ ackedSlots u) && decide (bad ≠ some n))
  let s1 := good.foldl (fun s n => countFault n false s) s
  match bad with
  | some n => countFault n true s1
  | none => s1

/-- R18, R19: a faulted transaction is entered in the bus fault record, but for a probe ending in TIMEOUT (R3). -/
def enterFault (u : BusUse) (t : Transfer) (a : BusAnswer) (s : Shelf) : Shelf :=
  if u.req = .backplane ∧ a = .timeout then s
  else
    let f : BusFault := ⟨u.req, u.txn.kind, t.slot, t.off, a⟩
    reportChange .shelf .busFault true
      (setBp (fun b => { b with firstCause := b.firstCause.or (some f), lastFault := some f }) s)

/-- R3: the record a probe's outcome gives a slot. -/
def probeRecord (e : TxnEnd) : SlotRec :=
  match e with
  | .done ws =>
    let w := ws.headD 0
    ⟨.present, some (byte1 (field w 8 8)), some (byte1 (field w 0 8)), 0⟩
  | .fault .timeout _ _ _ _ => ⟨.empty, none, none, 0⟩
  | .fault .fault _ _ _ _ | .fault .retryLimit _ _ _ _ => ⟨.failed, none, none, 3⟩

/-- R3, R4: a probe of a slot has ended. -/
def probeOutcome (n : SlotNo) (e : TxnEnd) (s : Shelf) : Shelf :=
  let r := probeRecord e
  if slotStateOf s n = r.state then syncReprobe n (setSlot n (fun _ => r) s) else slotChange n r s

/-- R2: in DISCOVERY the next slot is probed, and after slot 11 discovery is complete. -/
def discoveryNext (n : SlotNo) (s : Shelf) : Shelf :=
  if s.rdy.phase = .discovery then
    match finOf 12 (n.val + 1) with
    | some m => setBp (fun b => { b with probeWaiting := some m }) s
    | none => enterWatch s
  else s

/-- R46: the outcome of a word of a tag write. -/
def tagWriteEnd (e : TxnEnd) (s : Shelf) : Shelf :=
  match s.recs.tagWrite with
  | none => s
  | some w =>
    let s1 := { s with recs := { s.recs with tagWrite := none } }
    match e with
    | .fault _ _ _ _ _ => joinTags w.port s1
    | .done _ =>
      if w.word < 3 then
        let s2 := { s with recs := { s.recs with tagWrite := some { w with word := w.word + 1 } } }
        setBp (fun b => { b with waitRecords := some (.write (slotOf w.port) (txTagOffset w.port (w.word + 1))
          (tagWord (owedTag s2 w.port) (w.word + 1))) }) s2
      else if w.changed then joinTags w.port s1
      else s1

/-- R134: the outcome of a grade write. -/
def gradeWriteEnd (e : TxnEnd) (s : Shelf) : Shelf :=
  match s.tim.writing with
  | none => s
  | some (p, g) =>
    let s1 := { s with tim := { s.tim with writing := none } }
    match e with
    | .done _ => gradeWritten p g s1
    | .fault _ _ _ _ _ => gradeFaulted p s1

/-- R7: the outcome goes to the requester. -/
def deliver (u : BusUse) (e : TxnEnd) (s : Shelf) : Shelf :=
  match u.req with
  | .backplane =>
    match u.txn with
    | .read n _ => discoveryNext n (probeOutcome n e s)
    | .write _ _ _ | .block _ _ | .exchange _ => s
  | .executor => executorEnd e s
  | .timing => gradeWriteEnd e s
  | .records => tagWriteEnd e s
  | .scanner => scannerEnd e s

/-- R7, R13: a transaction ends: slot records, bus fault record, requester (log entry 4). -/
def endTransaction (u : BusUse) (fault : Option (Transfer × BusAnswer)) (s : Shelf) : Shelf :=
  let s1 := countFaults u fault (setBp (fun b => { b with bus := none }) s)
  match fault with
  | none => deliver u (.done u.reads) s1
  | some (t, a) => deliver u (.fault a t.slot t.off u.reads.length u.writes) (enterFault u t a s1)

/-- R16: the card releases its attention line at a read of one of its status words (log entry 7). -/
def releaseAttention (t : Transfer) (s : Shelf) : Shelf :=
  if !t.write && isStatusOffset t.off then setBp (fun b => { b with attLine := put b.attLine t.slot false }) s else s

/-- R8: the transfer is acknowledged; for a read `w` is the word read. -/
def transferAcked (u : BusUse) (t : Transfer) (w : Word) (s : Shelf) : Shelf :=
  let u1 := if t.write then { u with writes := u.writes + 1, retries := 0 }
    else { u with reads := u.reads ++ [w], retries := 0 }
  let s1 := releaseAttention t s
  if isComplete t.write u1 then endTransaction u1 none s1 else setBp (fun b => { b with bus := some u1 }) s1

/-- R9: a RETRY answer. -/
def transferRetried (u : BusUse) (t : Transfer) (s : Shelf) : Shelf :=
  if !mayRetry u then endTransaction u (some (t, .fault)) s
  else if u.retries < Config.retryMax then setBp (fun b => { b with bus := some { u with retries := u.retries + 1 } }) s
  else endTransaction u (some (t, .retryLimit)) s

/-! ### Requests for the bus and the arbiter (R4, R14, R15, R45, R133) -/

/-- A probe is waiting or in progress. -/
def probing (s : Shelf) : Bool := s.bp.probeWaiting.isSome || s.bp.bus.any (fun u => decide (u.req = .backplane))

/-- R4: the probe of the lowest slot whose timer has run out is asked for, one at a time, after discovery. -/
def askProbe (s : Shelf) : Shelf :=
  if probing s || decide (s.rdy.phase = .discovery) then s
  else
    match allSlots.find? (fun n => at' s.bp.reprobeDue n) with
    | none => s
    | some n => setBp (fun b => { b with probeWaiting := some n, reprobeDue := put b.reprobeDue n false }) s

/-- R45: the tag write list serves its head. -/
def serveRecords (s : Shelf) : Shelf :=
  match s.recs.tagWrite, s.recs.tagList with
  | none, p :: rest =>
    let s1 := { s with recs := { s.recs with tagList := rest, tagWrite := some ⟨p, 0, false⟩ } }
    setBp (fun b => { b with waitRecords := some (.write (slotOf p) (txTagOffset p 0) (tagWord (owedTag s1 p) 0)) }) s1
  | none, [] => s
  | some _, _ => s

/-- R133: the grade write list serves its head; a port whose grades are equal is passed over. -/
def serveGrades : List PortNo → Shelf → Shelf
  | [], s => { s with tim := { s.tim with list := [] } }
  | p :: rest, s =>
    if gradeDiffers s p then
      let g := at' s.tim.planned p
      let s1 := { s with tim := { s.tim with list := rest, writing := some (p, g) } }
      setBp (fun b => { b with
        waitTiming := some (.write (slotOf p) (gradeOffset p) (BitVec.ofNat 32 g.code)) }) s1
    else serveGrades rest s

def serveTiming (s : Shelf) : Shelf := if s.tim.writing.isSome then s else serveGrades s.tim.list s

/-- R14: the waiting transaction that is granted next. -/
def nextGrant (b : Backplane) : Option (Requester × Txn) :=
  let probe := b.probeWaiting.map (fun n => (Requester.backplane, Txn.read n identityOffset))
  let exec := b.waitExecutor.map (fun t => (Requester.executor, t))
  let timing := b.waitTiming.map (fun t => (Requester.timing, t))
  let records := b.waitRecords.map (fun t => (Requester.records, t))
  let scanner := b.waitScanner.map (fun t => (Requester.scanner, t))
  if b.waitCount = Config.waitMax ∧ scanner.isSome then scanner
  else probe.or (exec.or (timing.or (records.or scanner)))

/-- The granted transaction waits no longer. -/
def takeWaiting (r : Requester) (b : Backplane) : Backplane :=
  match r with
  | .backplane => { b with probeWaiting := none }
  | .executor => { b with waitExecutor := none }
  | .timing => { b with waitTiming := none }
  | .records => { b with waitRecords := none }
  | .scanner => { b with waitScanner := none }

/-- R14, R15: the arbiter grants one waiting transaction when the bus is free, and counts the scanner's wait. -/
def grant (s : Shelf) : Shelf :=
  match s.bp.bus with
  | some _ => s
  | none =>
    match nextGrant s.bp with
    | none => s
    | some (r, t) =>
      setBp (fun b =>
        let b1 := takeWaiting r b
        { b1 with
            bus := some ⟨r, t, [], 0, 0, none⟩
            waitCount := if b1.waitScanner.isSome then bump Config.waitMax b1.waitCount else 0 }) s

/-- The blocks that have no transaction ask for their next one, and the arbiter grants if the bus is free (log entry
4). -/
def pump (s : Shelf) : Shelf :=
  grant (serveRecords (serveTiming (serveExecutor 64 (serveScanner 600 (askProbe s)))))

/-! ### Events of the bus -/

/-- R8, R9: a card answers the transfer on the bus. -/
def answerCard (a : CardAnswer) (s : Shelf) : Shelf :=
  match s.bp.bus with
  | none => s
  | some u =>
    match transferOf u with
    | none => s
    | some t =>
      match a with
      | .ack w => pump (transferAcked u t w s)
      | .retry => pump (transferRetried u t s)
      | .fault => pump (endTransaction u (some (t, .fault)) s)

/-- R8: the transfer on the bus has had no answer. -/
def transferTimedOut (s : Shelf) : Shelf :=
  match s.bp.bus with
  | none => s
  | some u =>
    match transferOf u with
    | none => s
    | some t => pump (endTransaction u (some (t, .timeout)) s)

/-- R12: all reads of a locked exchange are acknowledged and its values are not returned yet. -/
def awaitsValues (u : BusUse) : Bool :=
  match u.txn with
  | .exchange words => decide (u.reads.length = words.length) && u.values.isNone
  | .read _ _ | .write _ _ _ | .block _ _ => false

/-- R12: the executor returns the values of the locked exchange. -/
def valuesReturned (s : Shelf) : Shelf :=
  match s.bp.bus with
  | none => s
  | some u =>
    if awaitsValues u then
      let r := exchangeValues u.reads s
      setBp (fun b => { b with bus := some { u with values := some r.1 } }) r.2
    else s

/-- R4: a re-probe timer runs out. -/
def reprobeOver (n : SlotNo) (s : Shelf) : Shelf :=
  if (at' s.bp.reprobe n).isSome then
    pump (setBp (fun b => { b with reprobe := put b.reprobe n none, reprobeDue := put b.reprobeDue n true }) s)
  else s

/-- R16: a card's attention line changes from released to asserted. Where the model still has the line asserted, the card
has released it in between without the model's seeing it, and this is an assertion like any other (log entry 35). -/
def attentionAsserted (n : SlotNo) (s : Shelf) : Shelf :=
  let s1 := setBp (fun b => { b with attLine := put b.attLine n true }) s
  pump (if isPresent s n then joinAttention n s1 else s1)

/-- R19: Clear Bus Fault. -/
def clearBusFaults (s : Shelf) : Shelf :=
  reportChange .shelf .busFault false (setBp (fun b => { b with firstCause := none, lastFault := none }) s)

end Sys2Proof.Machine
end

