-- ==== Sys2Proof/Machine/Resets.lean ====
section
/-! DEFINITION. The ranges of the stored items, the load at power-on (R177), and the power-on and hard resets of every
block (chapters 1 to 12, each under its own heading "Resets"). -/

namespace Sys2Proof.Machine

/-! ### Ranges of stored items -/

/-- A string of printable characters of a length. -/
def charsOk (n : Nat) (cs : List Byte) : Bool := decide (cs.length = n) && cs.all isChar

def optCharsOk (n : Nat) : Option (List Byte) → Bool
  | none => true
  | some cs => charsOk n cs

/-- R40: a designation is present exactly while the class is IN-SERVICE. -/
def recordOk (r : PortRec) : Bool :=
  optCharsOk 12 r.desig && optCharsOk 16 r.tag && decide (r.desig.isSome = decide (r.cls = .inService))

/-- R164: a craft code is 8 bytes. -/
def codeOk : Option (List Byte) → Bool
  | none => true
  | some c => decide (c.length = 8)

/-- R80, R81 check 1: the fields of a group definition. -/
def groupOk (d : GroupDef) : Bool :=
  (if d.shared then decide (1 ≤ d.working.length) && decide (d.working.length ≤ 6) else decide (d.working.length = 1))
  && decide d.members.Nodup
  && decide (d.holdOff ≤ 10000) && decide (d.holdOff % 100 = 0) && decide (30 ≤ d.wtr) && decide (d.wtr ≤ 720)

/-- R122, R136 check 1: the fields of a reference definition, of INT any. -/
def refOk (r : RefNo) (d : RefDef) : Bool :=
  decide (r.val = 5)
  || (decide (d.priority ≤ 8)
      && (if isBuilding r then decide (d.binding = .none)
          else decide (d.priority = 0) || decide (d.binding ≠ .none)))

/-- R142: one condition setting. -/
def settingOk (c : Cond) (v : CondSetting) : Bool :=
  decide (v.raise ≤ 600) && decide (v.clear ≤ 300)
  && (decide (c ≠ .tableFull) || (decide (v.raise = 0) && decide (v.clear = 0)))

def settingsOk (v : Vector CondSetting 24) : Bool := allConds.all (fun c => settingOk c (at' v (Cond.code c)))

/-- R32. -/
def thresholdsOk (t : Thresholds) : Bool :=
  decide (1 ≤ t.degrade) && decide (t.degrade ≤ 65535) && decide (t.clear ≤ 65534) && decide (t.clear < t.degrade)

/-- R49. -/
def reassignOk (r : Reassign) : Bool := decide (r.mark ≤ 8) && decide (1 ≤ r.minutes) && decide (r.minutes ≤ 120)

/-- R137. -/
def timingOptionsOk (o : TimingOptions) : Bool :=
  decide (2 ≤ o.qualify) && decide (o.qualify ≤ 60) && decide (1 ≤ o.holdover) && decide (o.holdover ≤ 72)

/-- R181. -/
def startOptionsOk (o : StartOptions) : Bool := decide (5 ≤ o.delay) && decide (o.delay ≤ 300)

/-! ### The load at power-on (R177) -/

/-- R177: an item's loaded value, or why it is lost. -/
def loadItem {α : Type} (ok : α → Bool) (x : Stored α) : Except LostReason α :=
  match x with
  | .blank => .error .blank
  | .badCheck => .error .check
  | .value v => if ok v then .ok v else .error .check

def loaded {α : Type} (d : α) : Except LostReason α → α
  | .ok v => v
  | .error _ => d

def lostAs {α : Type} (i : Item) : Except LostReason α → List LostItem
  | .ok _ => []
  | .error r => [⟨i, r⟩]

/-- R177: the item was not taken at its default. -/
def isLoaded {α : Type} : Except LostReason α → Bool
  | .ok _ => true
  | .error _ => false

/-- What a load gives: each item's value or why it is lost. -/
structure Load where
  identity : Except LostReason (List Byte)
  craftCode : Except LostReason (Option (List Byte))
  ports : Vector (Except LostReason PortRec) 48
  groups : Vector (Except LostReason (Option GroupDef)) 8
  refs : Vector (Except LostReason RefDef) 6
  conditions : Except LostReason (Vector CondSetting 24)
  thresholds : Except LostReason Thresholds
  reassign : Except LostReason Reassign
  timing : Except LostReason TimingOptions
  start : Except LostReason StartOptions

/-- R177: a group definition's members are loaded as IN-SERVICE, which no record taken at its default is (R60), and are in
no lower group loaded as defined. -/
def groupLoads (ports : Vector (Except LostReason PortRec) 48) (lower : List PortNo) (d : GroupDef) : Bool :=
  d.members.all (fun p =>
    decide ((loaded PortRec.default (at' ports p)).cls = .inService) && decide (p ∉ lower))

/-- R177: the members of the groups loaded as defined so far. -/
def loadedMembers (l : List (Except LostReason (Option GroupDef))) : List PortNo :=
  l.flatMap (fun x => match x with
    | .ok (some d) => d.members
    | .ok none => []
    | .error _ => [])

/-- R177: one group's item, after the members of the lower groups loaded as defined. -/
def loadGroup (ports : Vector (Except LostReason PortRec) 48) (lower : List PortNo) (x : Stored (Option GroupDef)) :
    Except LostReason (Option GroupDef) :=
  match loadItem (fun v => v.all groupOk) x with
  | .ok (some d) => if groupLoads ports lower d then .ok (some d) else .error .dependent
  | .ok none => .ok none
  | .error r => .error r

/-- R177: the groups, in number order. -/
def loadGroups (ports : Vector (Except LostReason PortRec) 48) :
    List (Stored (Option GroupDef)) → List (Except LostReason (Option GroupDef)) →
    List (Except LostReason (Option GroupDef))
  | [], acc => acc
  | x :: rest, acc =>
    loadGroups ports rest (acc ++ [loadGroup ports (loadedMembers acc) x])

/-- R177: a reference definition names no port taken at its default and no group taken as undefined. -/
def refLoads (ports : Vector (Except LostReason PortRec) 48) (groups : Vector (Except LostReason (Option GroupDef)) 8)
    (d : RefDef) : Bool :=
  match d.binding with
  | .none => true
  | .port p => isLoaded (at' ports p)
  | .group g => (loaded none (at' groups g)).isSome

/-- R177: every item is read and checked. -/
def loadAll (m : Nvm) : Load :=
  let ports := mapAll (loadItem recordOk) m.ports
  let groupList := loadGroups ports m.groups.toList []
  let groups := tabulate 8 (fun g => groupList.getD g.val (.error .blank))
  { identity := loadItem (charsOk 8) m.identity
    craftCode := loadItem codeOk m.craftCode
    ports := ports
    groups := groups
    refs := tabulate 6 (fun r => match loadItem (refOk r) (at' m.refs r) with
      | .ok d => if r.val = 5 ∨ refLoads ports groups d then .ok d else .error .dependent
      | .error e => .error e)
    conditions := loadItem settingsOk m.conditions
    thresholds := loadItem thresholdsOk m.thresholds
    reassign := loadItem reassignOk m.reassign
    timing := loadItem timingOptionsOk m.timing
    start := loadItem startOptionsOk m.start }

/-- R177: the lost items. No rule orders them in the Start-up Notice: the model lists them in the order of R170's table,
items of one kind by number (log entry 45). -/
def Load.lost (l : Load) : List LostItem :=
  lostAs .identity l.identity ++ lostAs .craftCode l.craftCode
  ++ allPorts.flatMap (fun p => lostAs (.portRecord p) (at' l.ports p))
  ++ allGroups.flatMap (fun g => lostAs (.groupDef g) (at' l.groups g))
  ++ allRefs.flatMap (fun r => lostAs (.refDef r) (at' l.refs r))
  ++ lostAs .conditions l.conditions ++ lostAs .thresholds l.thresholds ++ lostAs .reassign l.reassign
  ++ lostAs .timing l.timing ++ lostAs .start l.start

/-! ### Resets of the blocks -/

/-- R140: the selector after a reset, before the references are judged; `locked` and `forced` are what is kept. -/
def Timing.reset (defs : Vector RefDef 6) (locked : Vector Bool 6) (forced : Option RefNo) (opts : TimingOptions) :
    Timing where
  refs := tabulate 6 (fun r => ⟨at' defs r, at' locked r, .disabled, none, none⟩)
  st := .freeRun
  sel := none
  forced := forced
  forceSeen := false
  acquire := none
  lockedFor := none
  holdFor := none
  valid := false
  last := none
  opts := opts
  planned := Vector.replicate 48 .g5
  written := Vector.replicate 48 none
  list := []
  writing := none
  held := []

/-- R103: the engine after a reset, over the definitions and the run-time records that stand. -/
def Engine.reset (defs : Vector (Option GroupDef) 8) (run : Vector GroupRun 8) : Engine where
  defs := defs
  run := run
  holdOff := Vector.replicate 48 none
  held := []

/-- R103, R182: the run-time record of a group after a hard reset. -/
def GroupRun.kept (retain : Bool) (r : GroupRun) : GroupRun :=
  { GroupRun.fresh with
      sel := r.sel
      list := if retain then r.list.filter (fun e => decide (e.cls = .barred) || decide (e.cls = .pinned)) else [] }

/-- R60, R103, R140, R159, R178: the reports that follow a reset. No rule orders the blocks among themselves: the model
takes SPARE-POOL-LOW, the conditions of the groups by number, those of the timing selector, STORE-FAULT, and the alarm
table's entries follow in this order (log entry 43). -/
def reportsAfterReset (s : Shelf) : Shelf :=
  let s1 := poolUpdate s
  let s2 := allGroups.foldl (fun s g => reportGroup g s) s1
  let s3 := reportTiming (rederiveAll s2)
  if s3.sto.writer = .stopped then report .shelf .storeFault true s3 else s3

/-- R178: the nonvolatile memory as the next power-on finds it. -/
def nvmAtPowerLoss (t : Store) : Nvm :=
  match t.writer, t.list with
  | .writing, e :: _ | .retrying, e :: _ => t.nvm.spoil e.value.item
  | _, _ => t.nvm

/-- R178: the store after a power-on reset; the first report of the fibre records sets the count, the mark and the
write-through flag. -/
def Store.reset (m : Nvm) (lost : List LostItem) : Store where
  nvm := m
  list := []
  counter := 1
  writer := .idle
  writtenThrough := none
  failed := 0
  marks := []
  poolCount := 0
  lowMark := 0
  writeThrough := true
  lost := lost
  offers := 0

/-- R179: power is applied: every block is reset and loads its stored items. -/
def Shelf.powerOn (s : Shelf) : Shelf :=
  let m := nvmAtPowerLoss s.sto
  let l := loadAll m
  let settings := loaded defaultSettings l.conditions
  reportsAfterReset
    { bp := Backplane.reset s.bp.attLine
      scan := Scanner.reset ScanSetup.default (loaded ⟨800, 100⟩ l.thresholds)
      recs := Records.reset (mapAll (loaded PortRec.default) l.ports) (loaded blankIdentity l.identity)
        (loaded ⟨false, 2, 15⟩ l.reassign)
      ords := Orders.reset
      eng := Engine.reset (mapAll (loaded none) l.groups) (Vector.replicate 8 GroupRun.fresh)
      exe := Executor.reset
      tim := Timing.reset (put (mapAll (loaded RefDef.default) l.refs) 5 RefDef.default) (Vector.replicate 6 false) none
        (loaded ⟨false, 10, 24⟩ l.timing)
      alm := Alarms.reset settings
      sto := Store.reset m l.lost
      rdy := ⟨.discovery, .powerOn, none, none, loaded ⟨30, false⟩ l.start, 0, 0⟩
      pins := s.pins
      out := [] }

/-- R21, R39, R60, R79, R103, R121, R140, R159, R178, R182 to R184: a hard reset. -/
def Shelf.hardReset (cause : ResetCause) (s : Shelf) : Shelf :=
  let retain := s.rdy.opts.retain
  reportsAfterReset
    { bp := Backplane.reset s.bp.attLine
      scan := Scanner.reset (if retain then s.scan.setup else ScanSetup.default) s.scan.thresholds
      recs := Records.reset s.recs.recs s.recs.identity s.recs.reassign
      ords := Orders.reset
      eng := Engine.reset s.eng.defs (mapAll (GroupRun.kept retain) s.eng.run)
      exe := Executor.reset
      tim := Timing.reset (mapAll Ref.defn s.tim.refs)
        (if retain then mapAll Ref.locked s.tim.refs else Vector.replicate 6 false)
        (if retain then s.tim.forced else none) s.tim.opts
      alm := Alarms.reset s.alm.settings
      sto := { s.sto with marks := [] }
      rdy := ⟨.discovery, cause, none, none, s.rdy.opts, s.rdy.base, 0⟩
      pins := s.pins
      out := [] }

/-- R164: the work lock after a power-on reset. -/
def WorkLock.reset (code : Option (List Byte)) : WorkLock :=
  ⟨.none, code, if code.isSome then .locked else .unguarded, false, 0⟩

/-- R179: POWER_ON_RESET. -/
def powerOn (s : State) : State :=
  { shelf := s.shelf.powerOn
    lock := WorkLock.reset (loaded none (loadAll (nvmAtPowerLoss s.shelf.sto)).craftCode)
    linkA := LinkUnit.reset s.linkA.atSpace
    linkB := LinkUnit.reset s.linkB.atSpace
    pending := s.pending }

/-- R183: a hard reset by the reset pin or by Restart. -/
def hardResetBy (cause : ResetCause) (s : State) : State :=
  { shelf := s.shelf.hardReset cause
    lock := { s.lock with holder := .none }
    linkA := LinkUnit.reset s.linkA.atSpace
    linkB := LinkUnit.reset s.linkB.atSpace
    pending := s.pending }

end Sys2Proof.Machine
end

