-- ==== Sys2Proof/Machine/Links.lean ====
section
/-! DEFINITION. The link units and the claim (chapters 9 and 12): notices and their bodies, the transmitter, the queues,
the taking of requests and their checks, and the receiver. -/

namespace Sys2Proof.Machine

/-! ### Notice bodies (12.7) -/

/-- A class and a channel, or none. -/
def requestBytes : Option (ReqClass × Nat) → List Byte
  | none => [0xFF#8, 0xFF#8]
  | some (cls, chan) => [byte1 cls.rank, byte1 chan]

/-- A circuit group and channel, or their absence. -/
def circuitBytes : Option (GroupNo × Nat) → List Byte
  | none => [0xFF#8, 0xFF#8]
  | some (g, chan) => [byte1 g.val, byte1 chan]

def refByte (r : Option RefNo) : Byte := numByte (r.map Fin.val)

def lostBytes (l : LostItem) : List Byte := [byte1 l.item.code.1, byte1 l.item.code.2, byte1 l.reason.code]

/-- The fields of FAULT and STUCK: bus answer, attempt, writes done; absent in the other events (log entry 10). -/
def faultBytes : Option (Option BusAnswer × Nat × Bool) → List Byte
  | none => [0xFF#8, 0xFF#8, 0xFF#8]
  | some (a, n, w) => [numByte (a.map BusAnswer.code), byte1 n, flagByte w]

/-- The kind of a notice. -/
def Notice.kind : Notice → Byte
  | .startUp .. => 0xC1
  | .alarm .. => 0xC2
  | .group .. => 0xC3
  | .order .. => 0xC4
  | .timing .. => 0xC5
  | .claim .. => 0xC6
  | .commit .. => 0xC7
  | .slot .. => 0xC8

/-- The body of a notice after its lost-count byte. -/
def Notice.body : Notice → List Byte
  | .startUp phase cause time slots lost stuck armCause =>
    [byte1 phase.code, byte1 cause.code] ++ bytes4 time ++ slots.map (fun x => byte1 x.code)
    ++ (match phase with
        | .watch => listBytes lostBytes lost
        | .armed => [byte1 stuck, numByte (armCause.map ArmCause.code)]
        | .discovery | .arming => [])
  | .alarm r entry outputs used full =>
    bytes4 r.seq ++ bytes4 r.time ++ objBytes r.obj
    ++ [numByte (r.cond.map (fun c => (Cond.code c).val)), numByte (r.sev.map Severity.code), byte1 r.trans.code]
    ++ (match entry with
        | none => [0xFF#8, 0xFF#8]
        | some (acked, count) => [flagByte acked, byte1 count])
    ++ [outputsByte outputs, byte1 used, flagByte full]
  | .group event g state sel active far fault =>
    [byte1 event.code, byte1 g.val, byte1 state.code, byte1 sel] ++ requestBytes active ++ requestBytes far
    ++ faultBytes fault
  | .order event num origin src dst circuit stage granted =>
    [byte1 event.code, byte1 num, byte1 origin.code, byte1 src.val, byte1 dst.val] ++ circuitBytes circuit
    ++ [byte1 stage.code, flagByte granted]
  | .timing st sel grade valid forced refs =>
    [byte1 st.code, refByte sel, byte1 grade.code, flagByte valid, refByte forced]
    ++ refs.flatMap (fun x => [byte1 x.1.code, byte1 x.2.code])
  | .claim holder cause => [byte1 holder.code, byte1 cause.code]
  | .commit mark written occupancy => bytes2 mark ++ [if written then 0#8 else 1#8, byte1 occupancy]
  | .slot n state kind rev => [byte1 n.val, byte1 state.code, kind.getD 0xFF#8, rev.getD 0xFF#8]

/-! ### Transmitter and queue (R190, R191) -/

/-- R189, R190: the frame of a reply: the request's kind plus 0x80, its tag, the outcome and its data. -/
def replyFrame (h : HeldRequest) (r : Reply) : TxFrame :=
  ⟨true, frameBytes (h.kind + 0x80#8) h.tag (r.outcome.code :: r.data)⟩

/-- R191: the frame of a notice: tag 0, the lost count first. -/
def noticeFrame (q : QNotice) : TxFrame := ⟨false, frameBytes q.notice.kind 0#8 (byte1 q.lost :: q.notice.body)⟩

/-- R190: an idle transmitter starts the pending reply, else the notice at the head of the queue; while the reply of a
request is being formed it starts nothing (log entry 9). -/
def startTx (u : LinkUnit) : LinkUnit :=
  if u.tx.isSome then u
  else
    match u.held with
    | some ⟨kind, tag, restart, .ready r⟩ =>
      { u with tx := some (replyFrame ⟨kind, tag, restart, .ready r⟩ r), held := some ⟨kind, tag, restart, .sending⟩ }
    | some ⟨_, _, _, .forming⟩ => u
    | some ⟨_, _, _, .awaiting _ _⟩ | some ⟨_, _, _, .sending⟩ | none =>
      match u.queue with
      | [] => u
      | q :: rest => { u with tx := some (noticeFrame q), queue := rest }

/-- R191: a notice is offered to a link unit. -/
def offer (n : Notice) (u : LinkUnit) : LinkUnit :=
  if u.queue.length < Config.queueMax then startTx { u with queue := u.queue ++ [⟨u.lost, n⟩], lost := 0 }
  else { u with lost := bump 255 u.lost }

/-- R191: the notices of the step are offered to both link units, in the order they were made (log entry 9). -/
def deliverOut (s : State) : State :=
  { s with
      shelf := { s.shelf with out := [] }
      linkA := s.shelf.out.foldl (fun u n => offer n u) s.linkA
      linkB := s.shelf.out.foldl (fun u n => offer n u) s.linkB }

/-- An event of the shelf: its change and the delivery of its notices. -/
def onShelf (f : Shelf → Shelf) (s : State) : State := deliverOut { s with shelf := f s.shelf }

/-- An event of the shelf that may give the bus work. -/
def onShelfBus (f : Shelf → Shelf) (s : State) : State := onShelf (fun x => pump (f x)) s

def linkOf (s : State) : Link → LinkUnit
  | .a => s.linkA
  | .b => s.linkB

def setLink (l : Link) (f : LinkUnit → LinkUnit) (s : State) : State :=
  match l with
  | .a => { s with linkA := f s.linkA }
  | .b => { s with linkB := f s.linkB }

/-- R160: the holder that a link is. -/
def holderOf : Link → Holder
  | .a => .linkA
  | .b => .linkB

/-- R162: the claim holder changes and a Claim Notice is made. -/
def setHolder (h : Holder) (cause : ClaimCause) (s : State) : State :=
  { s with lock := { s.lock with holder := h }, shelf := tell (.claim h cause) s.shelf }

/-! ### Replies (R173, R188, R189) -/

/-- What the owning block answers: an outcome, the data that follow DONE and ACCEPTED, the edit the reply waits for
(R173), and whether a hard reset follows its sending (R183). -/
structure Answer where
  outcome : Outcome
  data : List Byte
  await : Option Nat
  restart : Bool
deriving DecidableEq, Repr

def refuse (o : Outcome) : Answer := ⟨o, [], none, false⟩
def done (data : List Byte) : Answer := ⟨.done, data, none, false⟩

/-- The status of a request whose answer is formed. -/
def Answer.status (a : Answer) : HeldStatus :=
  match a.await with
  | none => .ready ⟨a.outcome, a.data⟩
  | some n => .awaiting n ⟨a.outcome, a.data⟩

/-- R188, R190: the reply is formed and an idle transmitter starts it; then the step's notices are offered. -/
def reply (l : Link) (kind tag : Byte) (a : Answer) (s : State) : State :=
  deliverOut (setLink l (fun u => startTx { u with held := some ⟨kind, tag, a.restart, a.status⟩ }) s)

/-- R173: replies that wait for an edit are released: with what was formed for them, or with an outcome in its place. -/
def releaseReply (p : Nat → Bool) (instead : Option Outcome) (u : LinkUnit) : LinkUnit :=
  match u.held with
  | some ⟨kind, tag, restart, .awaiting n r⟩ =>
    if p n then
      startTx { u with held := some ⟨kind, tag, restart, .ready (match instead with
        | none => r
        | some o => ⟨o, []⟩)⟩ }
    else u
  | some ⟨_, _, _, .forming⟩ | some ⟨_, _, _, .ready _⟩ | some ⟨_, _, _, .sending⟩ | none => u

/-! ### The checks of a request (R163, R165, R189) -/

/-- R165: what the work lock answers to a gated request. -/
def gate (k : WorkLock) : Option Outcome :=
  match k.mode with
  | .unguarded | .opened => none
  | .locked => if k.frozen then some .frozen else if k.count = Config.unlockMax then some .expired else some .locked

/-- R189, checks 2 to 5: the outcome of the first check that fails. -/
def checkRequest (l : Link) (k : ReqKind) (body : List Byte) (s : State) : Option Outcome :=
  if !bodyFits k body then some .badForm
  else if s.shelf.rdy.phase = .discovery ∧ k ≠ .identify ∧ k ≠ .linkStatus then some .notReady
  else
    match k.row.type with
    | .watch => none
    | .act => if s.lock.holder = holderOf l then none else some .notClaimed
    | .gated => if s.lock.holder = holderOf l then gate s.lock else some .notClaimed

/-- R188, R189: a request frame that completes on a link. At a line held at space no frame arrives (R192); with a request
held it is an overrun; else it is taken: the checks, then `handle`, the owning block's rule. -/
def takeRequest (l : Link) (k : ReqKind) (tag : Byte) (body : List Byte) (handle : State → State × Answer) (s : State) :
    State :=
  let u := linkOf s l
  if u.atSpace then s
  else if u.held.isSome then setLink l (fun u => { u with overrun := bump 65535 u.overrun, rx := .hunting }) s
  else
    let s0 := setLink l (fun u => { u with rx := .hunting, held := some ⟨k.row.code, tag, false, .forming⟩ }) s
    match checkRequest l k body s with
    | some o => reply l k.row.code tag (refuse o) s0
    | none =>
      let r := handle s0
      reply l k.row.code tag r.2 r.1

/-- R189, check 1: a request frame of a kind that is no request kind. -/
def takeUnknown (l : Link) (kind tag : Byte) (s : State) : State :=
  let u := linkOf s l
  if u.atSpace then s
  else if u.held.isSome then setLink l (fun u => { u with overrun := bump 65535 u.overrun, rx := .hunting }) s
  else reply l kind tag (refuse .unknownKind) (setLink l (fun u => { u with rx := .hunting }) s)

/-! ### Changes to stored items (R171, R173) -/

/-- R171, R173: a request's change to a stored item: refused by the store, or made by `f` and appended, its reply held
while the write-through flag is set. -/
def storeChange (v : ItemValue) (data : List Byte) (f : State → State) (s : State) : State × Answer :=
  match storeRefuses s.shelf.sto with
  | some o => (s, refuse o)
  | none =>
    let await := replyAwaits s.shelf.sto
    (f { s with shelf := { s.shelf with sto := appendEdit v s.shelf.sto } }, ⟨.done, data, await, false⟩)

/-- R58, R99, R138: the owning block's own requests are refused with FULL while it holds an edit; a stopped store answers
STORE-FAULT (R171). -/
def heldChange (h : EditHolder) (v : ItemValue) (data : List Byte) (f : State → State) (s : State) : State × Answer :=
  if s.shelf.sto.writer ≠ .stopped ∧ !(heldBy h s.shelf).isEmpty then (s, refuse .full) else storeChange v data f s

/-- A change of the shelf within a request. -/
def mapShelf (f : Shelf → Shelf) (s : State) : State := { s with shelf := f s.shelf }

end Sys2Proof.Machine
end

