-- ==== Sys2Proof/Machine/Reads.lean ====
section
/-! DEFINITION. The data of the read requests, in the order their rules list them and in the encodings of 12.7 (log entry
10 says how absences and the fields 12.7 gives no encoding for are coded). -/

namespace Sys2Proof.Machine

/-- A flag or enumerated value that may be absent. -/
def optByte (x : Option Nat) : Byte := numByte x

def optFlag (x : Option Bool) : Byte := numByte (x.map Bool.toNat)

/-- A 4-byte time that may be absent. -/
def optTime : Option Nat → List Byte
  | none => [0xFF#8, 0xFF#8, 0xFF#8, 0xFF#8]
  | some n => bytes4 n

def portByte (p : PortNo) : Byte := byte1 p.val

/-- The time left of a timer of a limit. -/
def remaining (limit : Nat) (t : Option Nat) : Option Nat := t.map (fun ms => limit - ms)

/-- R185: Identify. The names are 8 characters, filled with spaces, and the revision a byte (log entries 10 and 11). -/
def identifyData (s : State) : List Byte :=
  [0x53#8, 0x5A#8, 0x34#8, 0x38#8, 0x20#8, 0x20#8, 0x20#8, 0x20#8]
  ++ [0x53#8, 0x6F#8, 0x74#8, 0x72#8, 0x69#8, 0x7A#8, 0x65#8, 0x20#8]
  ++ [Config.partRevision] ++ s.shelf.recs.identity
  ++ [48#8, byte1 s.shelf.rdy.phase.code, byte1 s.shelf.rdy.cause.code] ++ bytes4 (shelfTime s.shelf)

/-- R193: one link unit; the counts to 255 are a byte each (log entry 10). -/
def linkData (u : LinkUnit) : List Byte :=
  let awaits := match u.held with
    | some ⟨_, _, _, .awaiting _ _⟩ => true
    | some ⟨_, _, _, .forming⟩ | some ⟨_, _, _, .ready _⟩ | some ⟨_, _, _, .sending⟩ | none => false
  bytes2 u.discarded ++ bytes2 u.overrun
  ++ [byte1 u.lost, byte1 u.queue.length, flagByte u.held.isSome, flagByte awaits, flagByte u.atSpace, byte1 u.resets]

/-- R193: Link Status; the link of the request is 0 or 1 (log entry 10). -/
def linkStatusData (l : Link) (s : State) : List Byte :=
  linkData s.linkA ++ linkData s.linkB ++ [match l with
    | .a => 0#8
    | .b => 1#8]

/-- R169: Lock Status; the failed-unlock count is a byte (log entry 10). -/
def lockStatusData (l : Link) (s : State) : List Byte :=
  let k := s.lock
  [byte1 k.mode.code, flagByte k.frozen, byte1 k.count, flagByte k.code.isSome,
   flagByte (s.shelf.sto.list.any (fun e => decide (e.value.item = .craftCode))), byte1 k.holder.code,
   flagByte (decide (k.holder = holderOf l))]

/-- R37: Read Port. -/
def readPortData (p : PortNo) (s : Shelf) : List Byte :=
  let o := obsOf s p
  [flagByte (inWindow s p), byte1 o.cond.code, optFlag o.light, optFlag o.frame, flagByte o.degraded]
  ++ listBytes bytes2 o.window ++ bytes4 (windowSum o.window) ++ bytes2 o.carry
  ++ [flagByte o.resume, flagByte o.tagOwed] ++ optChars 16 o.rxTag
  ++ (match o.rxProt with
      | none => [0xFF#8, 0xFF#8, 0xFF#8, 0xFF#8]
      | some w => [byte1 w.cls.rank, byte1 w.chan, byte1 w.bridged, byte1 w.kind.code])
  ++ [gradeByte o.rxGrade]

/-- The five fields of a scan setup, as Set Scan gives them. -/
def setupBytes (u : ScanSetup) : List Byte :=
  [portByte u.first, byte1 u.count, flagByte (!u.up)] ++ bytes2 u.period ++ [flagByte u.quiet]

/-- R38: Scan Status. The battery-running input and the cycle are flags: 1 for asserted and for running (log entry 10). -/
def scanStatusData (s : Shelf) : List Byte :=
  setupBytes s.scan.setup
  ++ (match s.scan.pending with
      | none => 0#8 :: List.replicate 6 0#8
      | some u => 1#8 :: setupBytes u)
  ++ [flagByte s.scan.dropped, flagByte s.pins.battery, flagByte (isQuiet s),
      flagByte (match s.scan.cycle with
        | .running _ _ => true
        | .stopped | .waiting => false),
      flagByte (scanStarted s), flagByte s.scan.overrun]
  ++ bytes2 s.scan.thresholds.degrade ++ bytes2 s.scan.thresholds.clear

/-- R20: Read Slots. The twelve entries go without a count byte; kind, revision and fault count are a byte each (log entry
10). -/
def readSlotsData (s : Shelf) : List Byte :=
  allSlots.flatMap (fun n =>
    let r := at' s.bp.slots n
    [byte1 r.state.code, r.kind.getD 0xFF#8, r.rev.getD 0xFF#8, byte1 r.faults, flagByte (at' s.bp.attLine n),
     flagByte (decide (n ∈ s.bp.attention))])

/-- R18, R20: one part of the bus fault record; the word offset is a byte (log entry 10). -/
def busFaultBytes : Option BusFault → List Byte
  | none => [0#8, 0xFF#8, 0xFF#8, 0xFF#8, 0xFF#8, 0xFF#8]
  | some f => [1#8, byte1 f.requester.code, byte1 f.kind.code, byte1 f.slot.val, byte1 f.offset, byte1 f.answer.code]

/-- R20: Read Bus Fault; the scanner's wait count is a byte (log entry 10). -/
def readBusFaultData (s : Shelf) : List Byte :=
  busFaultBytes s.bp.firstCause ++ busFaultBytes s.bp.lastFault ++ [byte1 s.bp.waitCount]

/-- R59: Read Port Record. -/
def readPortRecordData (p : PortNo) (s : Shelf) : List Byte :=
  let r := recOf s p
  let t := at' s.recs.timers p
  [byte1 r.cls.code] ++ optChars 12 r.desig ++ optChars 16 r.tag ++ [byte1 (tagMatchOf s p).code] ++ owedTag s p
  ++ [flagByte (decide (p ∈ s.recs.tagList) || s.recs.tagWrite.any (fun w => decide (w.port = p))),
      flagByte (isMember s p), flagByte (condemnOf s p).isSome,
      optByte ((condemnOf s p).map (fun c => c.kind.code)), flagByte (isWaiting s p)]
  ++ bytes4 (t.ms / 1000) ++ [flagByte t.due]
  ++ optTime ((s.recs.candidates.find? (fun c => decide (c.port = p))).map Candidate.time)
  ++ [optByte ((orderNaming s p).map Order.num)]

/-- R49: the reassign settings, as Set Reassign gives them. -/
def reassignBytes (r : Reassign) : List Byte := [flagByte r.on, byte1 r.mark, byte1 r.minutes]

/-- R59: Read Spares. The pool count and the count byte of the list of pool ports are one byte, sent once (log entry 10). -/
def readSparesData (s : Shelf) : List Byte :=
  listBytes (fun p => [portByte p]) (poolPorts s) ++ reassignBytes s.recs.reassign
  ++ listBytes (fun c => portByte c.port :: bytes4 c.time) s.recs.candidates
  ++ listBytes (fun p => [portByte p, optByte ((condemnOf s p).map (fun c => c.kind.code))])
      (allPorts.filter (isWaiting s))

/-- R78: the time left of the limit that runs in the order's stage. -/
def orderRemaining (o : Order) : Option Nat :=
  match o.stage with
  | .awaitDark => some (1000 * o.dark - o.stageMs)
  | .awaitLight => some (1000 * o.light - o.lightMs)
  | .verifying => some (5000 - o.stageMs)
  | .queued | .holding | .completing => none

/-- R78: one order. Of a time beyond 4294967295 ms the low 32 bits are sent (log entry 10). -/
def orderData (s : Shelf) (o : Order) : List Byte :=
  [byte1 o.num, byte1 o.origin.code, portByte o.src, portByte o.dst] ++ circuitBytes o.circuit
  ++ [flagByte o.unprotected] ++ bytes2 o.dark ++ bytes2 o.light ++ [byte1 o.stage.code] ++ bytes4 o.stageStart
  ++ optTime o.lightStart ++ [flagByte o.granted] ++ bytes4 o.stageMs ++ optTime (orderRemaining o)
  ++ [flagByte (misPatch s o), flagByte (patchUnprotected o)]

/-- R78: Read Move Orders. The number of orders is the count byte of their list (log entry 10). -/
def readMoveOrdersData (s : Shelf) : List Byte :=
  listBytes (orderData s) s.ords.list ++ [byte1 s.ords.next]
  ++ listBytes (fun p => [portByte p]) (allPorts.filter (fun p => at' s.ords.expired p))

/-- R80: a group definition. -/
def groupDefBytes (d : GroupDef) : List Byte :=
  [flagByte d.shared, portByte d.protect] ++ listBytes (fun p => [portByte p]) d.working ++ [flagByte d.revertive]
  ++ bytes2 d.holdOff ++ bytes2 d.wtr

/-- R102: one entry of a request list: with the WTR time left for Settling, the order and its flag for Patch Hold. -/
def entryData (d : GroupDef) (r : GroupRun) (e : ReqEntry) : List Byte :=
  [byte1 e.cls.rank, byte1 e.chan]
  ++ (match e.cls with
      | .settling => optTime (remaining (1000 * d.wtr) r.wtr)
      | .patchHold => [optByte e.order, flagByte e.granted]
      | .barred | .protectFailed | .pinned | .lineFailed | .lineDegraded | .operator | .remain | .idle => [])

/-- R102: a member whose hold-off timer runs. -/
def holdOffData (s : Shelf) (d : GroupDef) (p : PortNo) : List Byte :=
  let cls := (derivedClass ((d.channelOf p).getD 0) (condOf s p)).map (fun c => c.1.rank)
  [portByte p, optByte cls] ++ optTime (at' s.eng.holdOff p)

/-- R102: Read Group. The target none is sent as 0, as section 6.3 names it, and the number of
held edits is a byte (log entry 10). -/
def readGroupData (g : GroupNo) (d : GroupDef) (s : Shelf) : List Byte :=
  let r := runOf s g
  groupDefBytes d ++ [byte1 (groupState s g).code, byte1 r.sel, flagByte r.stuck, flagByte r.restoreDue]
  ++ requestBytes r.active ++ [byte1 (targetOf r.active), optByte r.plan] ++ requestBytes r.far
  ++ listBytes (entryData d r) r.list
  ++ listBytes (holdOffData s d) (d.members.filter (fun p => (at' s.eng.holdOff p).isSome))
  ++ [byte1 s.eng.held.length]

def bindingBytes (b : Binding) : List Byte := [byte1 b.code.1, optByte b.code.2]

/-- R139: one reference. -/
def refData (s : Shelf) (r : RefNo) : List Byte :=
  let x := refOf s r
  bindingBytes x.defn.binding ++ [byte1 x.defn.priority, gradeByte x.defn.override, flagByte x.locked,
    byte1 x.state.code, byte1 (gradeInUse s r).code, optByte (x.deriv.map Fin.val)]
  ++ optTime (remaining (1000 * s.tim.opts.qualify) x.qual) ++ [flagByte (isTold s (.ref r) .referenceLost)]

/-- R139: the time left of the one timer that is reported in the selector's state. -/
def selectorRemaining (t : Timing) : Option Nat :=
  match t.st with
  | .acquiring => remaining 5000 t.acquire
  | .locked => if t.valid then none else remaining 60000 t.lockedFor
  | .holdover => remaining (3600000 * t.opts.holdover) t.holdFor
  | .freeRun => none

/-- R137: the timing options, as Set Timing Options gives them. -/
def timingOptionBytes (o : TimingOptions) : List Byte := [flagByte o.revertive, byte1 o.qualify, byte1 o.holdover]

/-- R7, R139: the port of the grade write in progress: one the arbiter has granted. -/
def gradeInProgress (s : Shelf) : Option PortNo :=
  if s.bp.bus.any (fun u => decide (u.req = .timing)) then s.tim.writing.map Prod.fst else none

/-- R139: Read Timing. The byte for 'USABLE since' is 0 where no force stands and 1 for a force that no hard reset has kept;
the references and the ports go without a count byte, one time remaining is sent, the number of held edits is a byte, and the
grade write in progress is sent as its port alone, 0xFF while there is none, with no flag byte before it (log entry 10). -/
def readTimingData (s : Shelf) : List Byte :=
  let t := s.tim
  [byte1 t.st.code, refByte t.sel, refByte t.forced, flagByte t.forceSeen, byte1 (shelfGrade s).code, gradeByte t.last,
   flagByte t.valid]
  ++ optTime (selectorRemaining t) ++ timingOptionBytes t.opts ++ allRefs.flatMap (refData s)
  ++ allPorts.flatMap (fun p => [byte1 (at' t.planned p).code, gradeByte (at' t.written p)])
  ++ listBytes (fun p => [portByte p]) t.list
  ++ [optByte ((gradeInProgress s).map Fin.val), byte1 t.held.length, flagByte s.pins.bc1, flagByte s.pins.bc2]

/-- The time left of a running soak. -/
def soakRemaining (s : Shelf) (e : AlarmEntry) : Option Nat :=
  match e.state with
  | .rising => remaining (100 * (settingOf s e.cond).raise) e.soak
  | .falling => remaining (1000 * (settingOf s e.cond).clear) e.soak
  | .raised => none

/-- R146, R157: one entry of the alarm table: its fields, the soak timer by its elapsed time or absent while stopped, and
after them the time remaining of a running soak. The raise count is a byte (log entry 10). -/
def entryBytes (s : Shelf) (e : AlarmEntry) : List Byte :=
  objBytes (some e.obj) ++ [byte1 (Cond.code e.cond).val, byte1 e.sev.code, byte1 e.state.code, flagByte e.acked]
  ++ optTime e.raiseTime ++ [byte1 e.count] ++ optTime e.soak ++ ((soakRemaining s e).map bytes4).getD []

/-- R157: what a Read Alarms reply gives before its entries. The counts are a byte each, the left-out count at most 255, and
the lamps, the audible output and cut-off are the outputs byte of an Alarm Notice (log entry 10). -/
def alarmsHead (start : Nat) (s : Shelf) : List Byte :=
  let t := s.alm.table
  [byte1 t.length, byte1 (usedCount t), flagByte (tableFullStands t), byte1 (min 255 (leftOutCount s)),
   outputsByte (outputsOf s.alm), byte1 start]

/-- The bytes that a frame's body leaves to the entries of Read Alarms, beside the outcome, the head and the count byte. -/
def alarmsRoom : Nat := Config.bodyMax - 8

/-- R157: Read Alarms from a starting index: at most 16 entries, and of these no more than go whole into the frame, which
carries 16 while no soak runs (log entry 47). -/
def readAlarmsData (start : Nat) (s : Shelf) : List Byte :=
  alarmsHead start s ++ listBytes id (fitting alarmsRoom (((s.alm.table.drop start).take 16).map (entryBytes s)))

/-- R155: one history record. -/
def recordBytes (r : HistRec) : List Byte :=
  bytes4 r.seq ++ bytes4 r.time ++ objBytes r.obj
  ++ [optByte (r.cond.map (fun c => (Cond.code c).val)), optByte (r.sev.map Severity.code), byte1 r.trans.code]

/-- R158: a number that no held record has was made before the oldest record held, whose number is `oldest`. Until the
counter passes 4294967295 the numbers are in the order of making; after it a number is taken for the side it is nearer to,
within half a lap of the counter (log entry 38). -/
def madeBefore (lapped : Bool) (oldest start : Nat) : Bool :=
  if lapped then decide (4294967295 ≤ 2 * ((start + 4294967295 - oldest) % 4294967295)) else decide (start < oldest)

/-- R158: the starting number is older than the oldest record held. -/
def historyGap (start : Nat) (s : Shelf) : Bool :=
  match s.alm.history with
  | [] => false
  | r :: _ => !(s.alm.history.any (fun x => decide (x.seq = start))) && madeBefore s.alm.lapped r.seq start

/-- R158: the records from a starting number, in order of making: from the record that holds it, from the oldest where it
has been discarded, none beyond the newest. -/
def recordsFrom (start : Nat) (s : Shelf) : List HistRec :=
  let h := s.alm.history
  match h.dropWhile (fun r => decide (r.seq ≠ start)) with
  | r :: rest => r :: rest
  | [] => if historyGap start s then h else []

/-- R158: Read History; with no record held the oldest and newest numbers, which are none, are sent as 0 (log entry
10). -/
def readHistoryData (start : Nat) (s : Shelf) : List Byte :=
  let h := s.alm.history
  bytes4 ((h.head?.map HistRec.seq).getD 0) ++ bytes4 ((h.getLast?.map HistRec.seq).getD 0)
  ++ [flagByte (historyGap start s)] ++ listBytes recordBytes ((recordsFrom start s).take 16)

def itemBytes (i : Item) : List Byte := [byte1 i.code.1, byte1 i.code.2]

/-- R173: a link unit's reply is held against an edit. -/
def replyHeld (u : LinkUnit) : Nat :=
  match u.held with
  | some ⟨_, _, _, .awaiting _ _⟩ => 1
  | some ⟨_, _, _, .forming⟩ | some ⟨_, _, _, .ready _⟩ | some ⟨_, _, _, .sending⟩ | none => 0

/-- The lost items of a reason. -/
def lostCount (s : Shelf) (r : LostReason) : Nat := (s.sto.lost.filter (fun l => decide (l.reason = r))).length

/-- R176: Store Status. The occupancy is the count byte of the list; the item of a writer that is not STOPPED is sent as two
bytes 0xFF, and the counts that 12.7 gives no width for are a byte each (log entry 10). -/
def storeStatusData (s : State) : List Byte :=
  let t := s.shelf.sto
  listBytes (fun e => itemBytes e.value.item ++ bytes2 e.num) t.list
  ++ [byte1 t.writer.code]
  ++ (match t.writer, t.list with
      | .stopped, e :: _ => itemBytes e.value.item
      | _, _ => [0xFF#8, 0xFF#8])
  ++ bytes2 (t.writtenThrough.getD 0)
  ++ [byte1 t.failed, flagByte t.writeThrough, byte1 t.poolCount, byte1 t.lowMark,
      byte1 (replyHeld s.linkA + replyHeld s.linkB)]
  ++ listBytes bytes2 t.marks
  ++ [byte1 s.shelf.recs.held.length, byte1 s.shelf.eng.held.length, byte1 s.shelf.tim.held.length,
      byte1 t.lost.length, byte1 (lostCount s.shelf .check), byte1 (lostCount s.shelf .blank),
      byte1 (lostCount s.shelf .dependent)]

end Sys2Proof.Machine
end

