-- ==== Sys2Proof/Machine/LockRequests.lean ====
section
/-! DEFINITION. What the owning block answers to the requests about the links, the claim, the work lock, shelf time and
arming (chapters 9, 11 and 12). Each is handed a request that has passed the checks of R189. -/

namespace Sys2Proof.Machine

/-- R160: Claim: TAKEN 0, ALREADY-HELD 1, HELD-BY-OTHER 2. -/
def handleClaim (l : Link) (s : State) : State × Answer :=
  if s.lock.holder = .none then (setHolder (holderOf l) .claim s, done [0#8])
  else if s.lock.holder = holderOf l then (s, done [1#8])
  else (s, done [2#8])

/-- R161: Release: RELEASED 0, NOT-HOLDER 1. -/
def handleRelease (l : Link) (s : State) : State × Answer :=
  if s.lock.holder = holderOf l then (setHolder .none .release s, done [0#8]) else (s, done [1#8])

/-- R184: a time held in shelf time is moved by the change of the base. -/
def moveTime (old new t : Nat) : Nat := (t + new + 4294967296 - old % 4294967296) % 4294967296

/-- R184: the base under which shelf time reads `v` when `secs` seconds have been counted. -/
def baseFor (v secs : Nat) : Nat := (v + 4294967296 - secs % 4294967296) % 4294967296

/-- R184: shelf time is set; candidate entry times and the start times of orders move by the same amount. -/
def setShelfTime (v : Nat) (s : Shelf) : Shelf :=
  let old := shelfTime s
  let m := moveTime old v
  { s with
      rdy := { s.rdy with base := baseFor v (secondsCounted s) }
      recs := { s.recs with candidates := s.recs.candidates.map (fun c => { c with time := m c.time }) }
      ords := { s.ords with
        list := s.ords.list.map (fun o => { o with stageStart := m o.stageStart, lightStart := o.lightStart.map m }) } }

/-- R184: Set Time. -/
def handleSetTime (b : List Byte) (s : State) : State × Answer :=
  (mapShelf (setShelfTime (nat4At b 0)) s, done [])

/-- R180: Arm. In ARMING and ARMED it changes nothing. -/
def handleArm (s : State) : State × Answer :=
  if s.shelf.rdy.phase = .watch then (mapShelf (fun x => pump (startArming .arm x)) s, done []) else (s, done [])

/-- R183: Restart: the hard reset follows the sending of the reply. -/
def handleRestart (s : State) : State × Answer := (s, ⟨.done, [], none, true⟩)

def setLock (f : WorkLock → WorkLock) (s : State) : State := { s with lock := f s.lock }

/-- R166: Set Craft Code. -/
def handleSetCraftCode (b : List Byte) (s : State) : State × Answer :=
  let k := s.lock
  if k.frozen then (s, refuse .frozen)
  else
    let change := storeChange (.craftCode (some b)) [] (setLock (fun k => { k with code := some b, mode := .opened })) s
    match k.mode with
    | .unguarded => change
    | .opened => if k.code = some b then (s, done []) else change
    | .locked => (s, refuse .locked)

/-- R166, R167: a mismatch adds 1 to the failed-unlock count: EXPIRED at 5, else the outcome given. -/
def countMismatch (o : Outcome) (s : State) : State × Answer :=
  let n := bump Config.unlockMax s.lock.count
  (setLock (fun k => { k with count := n }) s, refuse (if n = Config.unlockMax then .expired else o))

/-- R166: Clear Craft Code. -/
def handleClearCraftCode (b : List Byte) (s : State) : State × Answer :=
  let k := s.lock
  if k.frozen then (s, refuse .frozen)
  else if k.count = Config.unlockMax then (s, refuse .expired)
  else
    match k.mode with
    | .unguarded => (s, refuse .conflict)
    | .locked => (s, refuse .locked)
    | .opened =>
      if k.code = some b then
        storeChange (.craftCode none) [] (setLock (fun k => { k with code := none, mode := .unguarded })) s
      else countMismatch .conflict s

/-- R167: Unlock. -/
def handleUnlock (b : List Byte) (s : State) : State × Answer :=
  let k := s.lock
  if k.frozen then (s, refuse .frozen)
  else if k.count = Config.unlockMax then (s, refuse .expired)
  else
    match k.mode with
    | .unguarded | .opened => (s, done [])
    | .locked =>
      if k.code = some b then (setLock (fun k => { k with mode := .opened, count := 0 }) s, done [])
      else countMismatch .locked s

/-- R168: Lock. -/
def handleLock (s : State) : State × Answer :=
  let k := s.lock
  if k.frozen then (s, refuse .frozen)
  else
    match k.mode with
    | .unguarded => (s, refuse .conflict)
    | .opened => (setLock (fun k => { k with mode := .locked }) s, done [])
    | .locked => (s, done [])

/-- R168: Freeze. -/
def handleFreeze (s : State) : State × Answer := (setLock (fun k => { k with frozen := true }) s, done [])

end Sys2Proof.Machine
end

