-- ==== Sys2Proof/Machine/Requests.lean ====
section
/-! DEFINITION. What the owning block answers to the requests of the scanner, the backplane controller, the fibre
records, the move order list, the protection engine and the switch executor (chapters 1 to 6). Each is handed a request
that has passed the checks of R189. -/

namespace Sys2Proof.Machine

/-- A refusal leaves the state as it was (00_scope.md, Outcomes). -/
def turnAway (o : Outcome) (s : State) : State × Answer := (s, refuse o)

/-- A change of the shelf after which blocks may have work for the bus. -/
def busShelf (f : Shelf → Shelf) (s : State) : State := mapShelf (fun x => pump (f x)) s

/-- A list of values all of which are there. -/
def allSome {α : Type} : List (Option α) → Option (List α)
  | [] => some []
  | none :: _ => none
  | some a :: rest => (allSome rest).map (fun l => a :: l)

/-! ### Scanner and backplane controller -/

/-- R37: Read Port. -/
def handleReadPort (b : List Byte) (s : State) : State × Answer :=
  match portOfByte b 0 with
  | none => turnAway .badValue s
  | some p => (s, done (readPortData p s.shelf))

/-- R22, R23: a setup of a request body; `none` is BAD-VALUE. -/
def setupOf (b : List Byte) : Option ScanSetup :=
  match portOfByte b 0, flagAt b 2, flagAt b 5 with
  | some f, some down, some quiet =>
    if 1 ≤ byteAt b 1 ∧ byteAt b 1 ≤ 48 ∧ 20 ≤ nat2At b 3 ∧ nat2At b 3 ≤ 1000 then
      some ⟨f, byteAt b 1, !down, nat2At b 3, quiet⟩
    else none
  | _, _, _ => none

/-- R23: Set Scan. -/
def handleSetScan (b : List Byte) (s : State) : State × Answer :=
  match setupOf b with
  | none => turnAway .badValue s
  | some u =>
    if setupFits s.shelf u then
      (mapShelf (setScan (fun c => { c with pending := some u, dropped := false })) s, done [])
    else turnAway .conflict s

/-- R36: Set Degrade Thresholds. A body equal to the thresholds in force appends nothing (R171). -/
def handleSetDegradeThresholds (b : List Byte) (s : State) : State × Answer :=
  let t : Thresholds := ⟨nat2At b 0, nat2At b 2⟩
  if !thresholdsOk t then turnAway .badValue s
  else if t = s.shelf.scan.thresholds then (s, done [])
  else storeChange (.thresholds t) [] (mapShelf (setScan (fun c => { c with thresholds := t }))) s

/-- R19: Clear Bus Fault. -/
def handleClearBusFault (s : State) : State × Answer := (mapShelf clearBusFaults s, done [])

/-! ### Fibre records -/

/-- R59: Read Port Record. -/
def handleReadPortRecord (b : List Byte) (s : State) : State × Answer :=
  match portOfByte b 0 with
  | none => turnAway .badValue s
  | some p => (s, done (readPortRecordData p s.shelf))

/-- R57, check 1: the port and the record of a request body; `none` is BAD-VALUE. -/
def recordOfBody (b : List Byte) : Option (PortNo × PortRec) :=
  match portOfByte b 0, ServiceClass.ofCode (byteAt b 1), optCharsAt b 2 12, optCharsAt b 15 16 with
  | some p, some cls, some desig, some tag =>
    if desig.isSome = decide (cls = .inService) then some (p, ⟨cls, desig, tag⟩) else none
  | _, _, _, _ => none

/-- R57, checks 2 to 4. -/
def editConflicts (s : Shelf) (p : PortNo) (r : PortRec) : Bool :=
  (isMember s p && decide (r.cls ≠ .inService)) || inOrder s p
  || (decide (r.cls = .spare) && (condemnOf s p).isSome)

/-- R41, R55, R57, R71: the record holds the new fields and what follows from them, in an order that R57 does not state: the
class's consequences, so that its masks come before the conditions that go absent with it (R145 has either order),
TAG-MISMATCH with LIGHT-ON-SPARE, CONDEMNED-NO-SPARE, MOVE-EXPIRED (log entry 45). -/
def editRecord (p : PortNo) (r : PortRec) (s : Shelf) : Shelf :=
  let old := classOf s p
  let s1 := setRecord p r s
  let s2 := if old = .inService ∧ r.cls ≠ .inService then setCondemn p none s1 else s1
  let s3 := if old = r.cls then s2 else classChanged p old s2
  setExpired p false (reportNoSpare p (reportTags p s3))

/-- R57: Edit Port Record. -/
def handleEditPortRecord (b : List Byte) (s : State) : State × Answer :=
  match recordOfBody b with
  | none => turnAway .badValue s
  | some (p, r) =>
    if editConflicts s.shelf p r then turnAway .conflict s
    else if r = recOf s.shelf p then (s, done [])
    else heldChange .records (.portRecord p r) [] (busShelf (editRecord p r)) s

/-- R56: a limit of a move, 60 to 3600 s. -/
def limitOk (n : Nat) : Bool := decide (60 ≤ n) && decide (n ≤ 3600)

/-- R56: the fields of Condemn Port; `none` is BAD-VALUE. -/
def condemnOfBody (b : List Byte) : Option (PortNo × Condemn) :=
  match portOfByte b 0, flagAt b 1 with
  | some p, some u =>
    if limitOk (nat2At b 2) && limitOk (nat2At b 4) then some (p, ⟨.manual, u, nat2At b 2, nat2At b 4⟩) else none
  | _, _ => none

/-- R56: Condemn Port. A waiting port takes the new kind, flag and limits and is retried. -/
def handleCondemnPort (b : List Byte) (s : State) : State × Answer :=
  match condemnOfBody b with
  | none => turnAway .badValue s
  | some (p, c) =>
    if classOf s.shelf p ≠ .inService then turnAway .absent s
    else if inOrder s.shelf p || (!isMember s.shelf p && !c.unprotected) then turnAway .conflict s
    else
      let r := manualCondemn p c s.shelf
      ({ s with shelf := pump r.1 }, done [optByte r.2])

/-- R49: the settings of a request body; `none` is BAD-VALUE. -/
def reassignOf (b : List Byte) : Option Reassign :=
  match flagAt b 0 with
  | none => none
  | some on =>
    let r : Reassign := ⟨on, byteAt b 1, byteAt b 2⟩
    if reassignOk r then some r else none

/-- R49, R51: a running condemn timer is compared with the new condemn time. -/
def retime (minutes : Nat) (t : CondemnTimer) : CondemnTimer :=
  if t.running then { t with due := decide (60000 * minutes ≤ t.ms) } else t

/-- R49, R55: auto-reassign goes off: the waiting AUTOMATIC condemnations are cleared, the lowest port first, where R49
states no order (log entry 45). -/
def dropAutomatic (s : Shelf) : Shelf :=
  allPorts.foldl (fun s p =>
    if isWaiting s p && decide ((condemnOf s p).map Condemn.kind = some .automatic) then clearCondemn p s else s) s

/-- R49: the new settings act at once, in one fixed order (log entry 3); timers that run out together are taken lowest port
first (log entry 40). -/
def changeReassign (r : Reassign) (s : Shelf) : Shelf :=
  let old := s.recs.reassign
  let s1 := poolUpdate { s with recs := { s.recs with
    reassign := r, timers := mapAll (retime r.minutes) s.recs.timers } }
  let ripe := allPorts.filter (fun p => (at' s1.recs.timers p).due && !(at' s.recs.timers p).due)
  let s2 := if old.on then ripe.foldl (fun s p => trigger p s) s1 else s1
  let s3 := if old.on && !r.on then dropAutomatic s2 else s2
  let s4 := if r.mark < old.mark then retryCondemned s3 else s3
  if !old.on && r.on && isArmed s4 then sweep s4 else s4

/-- R49: Set Reassign. -/
def handleSetReassign (b : List Byte) (s : State) : State × Answer :=
  match reassignOf b with
  | none => turnAway .badValue s
  | some r =>
    if r = s.shelf.recs.reassign then (s, done [])
    else heldChange .records (.reassign r) [] (busShelf (changeReassign r)) s

/-- R47: the identity is in force and every IN-SERVICE port is owed its new tag; they join in port order (log entry 40). -/
def changeIdentity (v : List Byte) (s : Shelf) : Shelf :=
  (allPorts.filter (fun p => decide (classOf s p = .inService))).foldl (fun s p => tagOwedChanged p s)
    { s with recs := { s.recs with identity := v } }

/-- R47: Set Shelf Identity. -/
def handleSetShelfIdentity (b : List Byte) (s : State) : State × Answer :=
  if !b.all isChar then turnAway .badValue s
  else if b = s.shelf.recs.identity then (s, done [])
  else heldChange .records (.identity b) [] (busShelf (changeIdentity b)) s

/-! ### Move orders -/

/-- The fields of Open Move Order (R63). -/
structure MoveFields where
  src : PortNo
  dst : PortNo
  unprotected : Bool
  dark : Nat
  light : Nat
deriving DecidableEq, Repr

/-- R63, check 1. -/
def moveOfBody (b : List Byte) : Option MoveFields :=
  match portOfByte b 0, portOfByte b 1, flagAt b 2 with
  | some src, some dst, some u =>
    if limitOk (nat2At b 3) && limitOk (nat2At b 5) then some ⟨src, dst, u, nat2At b 3, nat2At b 5⟩ else none
  | _, _, _ => none

/-- R63, checks 2 to 6. -/
def moveRefused (s : Shelf) (m : MoveFields) : Option Outcome :=
  if classOf s m.src ≠ .inService then some .absent
  else if !inPool s m.dst then some .conflict
  else if !isMember s m.src && !m.unprotected then some .conflict
  else if inOrder s m.src || inOrder s m.dst then some .conflict
  else if Config.orderMax ≤ s.ords.list.length then some .full
  else none

/-- R63: Open Move Order. -/
def handleOpenMoveOrder (b : List Byte) (s : State) : State × Answer :=
  match moveOfBody b with
  | none => turnAway .badValue s
  | some m =>
    match moveRefused s.shelf m with
    | some o => turnAway o s
    | none =>
      let r := openOrder .host m.src m.dst m.unprotected m.dark m.light s.shelf
      ({ s with shelf := pump r.1 }, done [byte1 r.2])

/-- R65: Cancel Move Order. -/
def handleCancelMoveOrder (b : List Byte) (s : State) : State × Answer :=
  match orderOf s.shelf (byteAt b 0) with
  | none => turnAway .absent s
  | some o =>
    if o.stage = .completing then turnAway .conflict s
    else (busShelf (leaveOrder o.num .cancelled) s, done [])

/-! ### Group definitions -/

/-- R81: the group and the definition of a request body, or `none` where a field is no value of its type. -/
def groupOfBody (b : List Byte) : Option (GroupNo × GroupDef) :=
  match groupOfByte b 0, flagAt b 1, portOfByte b 2, flagAt b 4,
      allSome ((List.range (byteAt b 3)).map (fun i => portOfByte b (9 + i))) with
  | some g, some shared, some protect, some revertive, some working =>
    let d : GroupDef := ⟨shared, protect, working, revertive, nat2At b 5, nat2At b 7⟩
    if groupOk d then some (g, d) else none
  | _, _, _, _, _ => none

/-- R81, check 6, and R82, check 3: the group is not IDLE, an order names a member or the executor has a task of it. -/
def groupBusy (s : Shelf) (g : GroupNo) (d : GroupDef) : Bool :=
  decide (groupState s g ≠ .idle) || d.members.any (inOrder s) || hasTask s g

/-- R81, checks 2 to 6. -/
def groupConflicts (s : Shelf) (g : GroupNo) (d : GroupDef) : Bool :=
  d.members.any (fun p =>
    (match memberOf s p with
     | some (h, _) => decide (h ≠ g)
     | none => false)
    || decide (classOf s p ≠ .inService) || inOrder s p || !inWindow s p)
  || (match defOf s g with
      | some old => groupBusy s g old
      | none => false)

/-- The members a definition leaves out of the one before it. -/
def droppedMembers (s : Shelf) (g : GroupNo) (d : GroupDef) : List PortNo :=
  match defOf s g with
  | some old => old.members.filter (fun p => decide (p ∉ d.members))
  | none => []

/-- R81, R116, R120, R124: a definition is in force: the records start afresh, dropped members are to be cleared, the
group is prepared once the shelf is ARMED, and the blocks that follow membership and definitions are told, in one order of
the model's (log entry 45). -/
def installGroup (g : GroupNo) (d : GroupDef) (s : Shelf) : Shelf :=
  let dropped := droppedMembers s g d
  let s1 := setExec g (fun _ => { GroupExec.fresh with prepareDue := true }) (defineRun g d s)
  let s2 := d.members.foldl (fun s p => leaveClear p s) (dropped.foldl (fun s p => joinClear p s) s1)
  let s3 := timingRun (prepareGroup g s2)
  syncClear ((dropped ++ d.members).foldl (fun s p => syncPort p s) s3)

/-- R81: Define Group. -/
def handleDefineGroup (b : List Byte) (s : State) : State × Answer :=
  match groupOfBody b with
  | none => turnAway .badValue s
  | some (g, d) =>
    if groupConflicts s.shelf g d then turnAway .conflict s
    else if defOf s.shelf g = some d then (s, done [])
    else heldChange .engine (.groupDef g (some d)) [] (busShelf (installGroup g d)) s

/-- R82, check 4. -/
def groupBound (s : Shelf) (g : GroupNo) : Bool :=
  allRefs.any (fun r => isLine r && decide ((refOf s r).defn.binding = .group g))

/-- R82, R120: the group becomes undefined, with its consequences in one order of the model's (log entry 45). -/
def removeGroup (g : GroupNo) (d : GroupDef) (s : Shelf) : Shelf :=
  let s1 := dropTasks g (setExec g (fun _ => GroupExec.fresh) (undefineRun g d s))
  let s2 := timingRun (d.members.foldl (fun s p => joinClear p s) s1)
  syncClear (d.members.foldl (fun s p => syncPort p s) s2)

/-- R82: Delete Group. -/
def handleDeleteGroup (b : List Byte) (s : State) : State × Answer :=
  match groupOfByte b 0 with
  | none => turnAway .badValue s
  | some g =>
    match defOf s.shelf g with
    | none => turnAway .absent s
    | some d =>
      if groupBusy s.shelf g d || groupBound s.shelf g then turnAway .conflict s
      else heldChange .engine (.groupDef g none) [] (busShelf (removeGroup g d)) s

/-- R102: Read Group. -/
def handleReadGroup (b : List Byte) (s : State) : State × Answer :=
  match groupOfByte b 0 with
  | none => turnAway .badValue s
  | some g =>
    match defOf s.shelf g with
    | none => turnAway .absent s
    | some d => (s, done (readGroupData g d s.shelf))

/-! ### Operator requests (section 5.5) and Clear Group Fault -/

/-- Section 5.5: an operator request that passes its checks is recorded by `f`, starts arming in WATCH (R180), and
replies STUCK in place of DONE while the group is STUCK. -/
def recordRequest (g : GroupNo) (f : Shelf → Shelf) (s : State) : State × Answer :=
  (busShelf (fun x => startArming .request (f x)) s,
    if (runOf s.shelf g).stuck then refuse .stuck else done [])

/-- Section 5.5, checks 1 and 2 of a request that names a group. -/
def withGroup (b : List Byte) (s : State) (f : GroupNo → GroupDef → State × Answer) : State × Answer :=
  match groupOfByte b 0 with
  | none => turnAway .badValue s
  | some g =>
    match defOf s.shelf g with
    | none => turnAway .absent s
    | some d => f g d

/-- Section 5.5, check 1: the body's channel is 1 to N. An undefined group has no N (log entry 21). -/
def channelOk (d : GroupDef) (c : Nat) : Bool := decide (1 ≤ c) && decide (c ≤ d.n)

/-- R89: Bar. -/
def handleBar (b : List Byte) (s : State) : State × Answer :=
  withGroup b s (fun g _ => recordRequest g (barGroup g) s)

/-- R90: Pin. -/
def handlePin (b : List Byte) (s : State) : State × Answer :=
  withGroup b s (fun g d =>
    if channelOk d (byteAt b 1) then recordRequest g (pinGroup g (byteAt b 1)) s else turnAway .badValue s)

/-- R91: Operator Switch. -/
def handleOperatorSwitch (b : List Byte) (s : State) : State × Answer :=
  withGroup b s (fun g d =>
    if !channelOk d (byteAt b 1) then turnAway .badValue s
    else if outranked s.shelf g then turnAway .outranked s
    else recordRequest g (operatorSwitchGroup g (byteAt b 1)) s)

/-- R92: Clear Requests. -/
def handleClearRequests (b : List Byte) (s : State) : State × Answer :=
  withGroup b s (fun g _ => recordRequest g (clearGroupRequests g) s)

/-- R118: Clear Group Fault. -/
def handleClearGroupFault (b : List Byte) (s : State) : State × Answer :=
  withGroup b s (fun g _ =>
    if !isArmed s.shelf then (busShelf (startArming .request) s, done [])
    else if (runOf s.shelf g).stuck then (busShelf (askAdoption g) s, ⟨.accepted, [], none, false⟩)
    else (s, done []))

end Sys2Proof.Machine
end

