-- ==== Sys2Proof/Machine/Settings.lean ====
section
/-! DEFINITION. What the owning block answers to the requests of the timing selector, the alarm unit, the record store
and the readiness controller (chapters 7, 8, 10 and 11), and the answer of every request kind. -/

namespace Sys2Proof.Machine

/-! ### Timing selector -/

/-- R136, check 1: the override of a request body: 0 for absent; `none` is BAD-VALUE. -/
def overrideOf (n : Nat) : Option (Option Grade) :=
  if n = 0 then some none else (Grade.ofCode n).map some

/-- R136: the binding of a request body: kind, then number, which means nothing for kind 0; `none` is BAD-VALUE. -/
def bindingOf (kind num : Nat) : Option Binding :=
  match kind with
  | 0 => some .none
  | 1 => (finOf 48 num).map Binding.port
  | 2 => (finOf 8 num).map Binding.group
  | _ => none

/-- R136, check 1. -/
def refOfBody (b : List Byte) : Option (RefNo × RefDef) :=
  match finOf 6 (byteAt b 0), bindingOf (byteAt b 1) (byteAt b 2), overrideOf (byteAt b 4) with
  | some r, some bind, some grade =>
    let d : RefDef := ⟨bind, byteAt b 3, grade⟩
    if r.val ≤ 4 ∧ refOk r d = true then some (r, d) else none
  | _, _, _ => none

/-- R136, checks 2 and 3. -/
def refConflicts (s : Shelf) (d : RefDef) : Bool :=
  match d.binding with
  | .none => false
  | .port p => decide (classOf s p ≠ .inService) || !inWindow s p
  | .group g => (defOf s g).isNone

/-- R127, R136: the definition is in force, a force on the reference is cleared and the selector evaluates. -/
def changeReference (r : RefNo) (d : RefDef) (s : Shelf) : Shelf :=
  timingEvent (fun s => clearForceOn r (setRef r (fun x => { x with defn := d }) s)) s

/-- R136: Define Reference. -/
def handleDefineReference (b : List Byte) (s : State) : State × Answer :=
  match refOfBody b with
  | none => turnAway .badValue s
  | some (r, d) =>
    if refConflicts s.shelf d then turnAway .conflict s
    else if d = (refOf s.shelf r).defn then
      (if s.shelf.tim.forced = some r then busShelf (timingEvent (clearForceOn r)) s else s, done [])
    else heldChange .timing (.refDef r d) [] (busShelf (changeReference r d)) s

/-- R137: the locked-out flag is set, and a force on the reference cleared, or the flag is cleared. -/
def lockOut (r : RefNo) (on : Bool) (s : Shelf) : Shelf :=
  timingEvent (fun s =>
    let s1 := setRef r (fun x => { x with locked := on }) s
    if on then clearForceOn r s1 else s1) s

/-- R137: Lock Out Reference. -/
def handleLockOutReference (b : List Byte) (s : State) : State × Answer :=
  match finOf 5 (byteAt b 0), flagAt b 1 with
  | some i, some on =>
    let r : RefNo := ⟨i.val, by omega⟩
    if !on && !(refOf s.shelf r).locked then (s, done []) else (busShelf (lockOut r on) s, done [])
  | _, _ => turnAway .badValue s

/-- R127: Force Reference; 0xFF names none. -/
def handleForceReference (b : List Byte) (s : State) : State × Answer :=
  if byteAt b 0 = 0xFF then (busShelf (timingEvent (setForce none)) s, done [])
  else
    match finOf 5 (byteAt b 0) with
    | none => turnAway .badValue s
    | some i =>
      let r : RefNo := ⟨i.val, by omega⟩
      if isUsable s.shelf r then (busShelf (timingEvent (setForce (some r))) s, done []) else turnAway .conflict s

/-- R137: the options of a request body; `none` is BAD-VALUE. -/
def timingOptionsOf (b : List Byte) : Option TimingOptions :=
  match flagAt b 0 with
  | none => none
  | some on =>
    let o : TimingOptions := ⟨on, byteAt b 1, byteAt b 2⟩
    if timingOptionsOk o then some o else none

/-- R137: Set Timing Options. -/
def handleSetTimingOptions (b : List Byte) (s : State) : State × Answer :=
  match timingOptionsOf b with
  | none => turnAway .badValue s
  | some o =>
    if o = s.shelf.tim.opts then (s, done [])
    else heldChange .timing (.timing o) [] (busShelf (changeTimingOptions o)) s

/-! ### Alarm unit -/

/-- R157: Read Alarms. -/
def handleReadAlarms (b : List Byte) (s : State) : State × Answer :=
  if Config.ordinaryMax < byteAt b 0 then turnAway .badValue s else (s, done (readAlarmsData (byteAt b 0) s.shelf))

/-- R154: the object and condition an Acknowledge names; `none` is BAD-VALUE. -/
def ackTarget (b : List Byte) : Option (Obj × Cond) :=
  match objOf (byteAt b 0) (byteAt b 1), Cond.ofCode (byteAt b 2) with
  | some o, some c => if c ∈ condsOf o then some (o, c) else none
  | _, _ => none

/-- R154: Acknowledge; object kind 5 asks for all. -/
def handleAcknowledge (b : List Byte) (s : State) : State × Answer :=
  if byteAt b 0 = 5 then
    let r := acknowledgeAll s.shelf
    ({ s with shelf := r.1 }, done [byte1 r.2])
  else
    match ackTarget b with
    | none => turnAway .badValue s
    | some (o, c) =>
      match entryOf s.shelf o c with
      | none => turnAway .absent s
      | some e => if e.state = .rising then turnAway .conflict s else (mapShelf (acknowledgeOne e) s, done [])

/-- R153: Cut Off. -/
def handleCutOff (s : State) : State × Answer :=
  (mapShelf (fun x => { x with alm := { x.alm with cutOff := true } }) s, done [])

/-- R158: Read History. -/
def handleReadHistory (b : List Byte) (s : State) : State × Answer := (s, done (readHistoryData (nat4At b 0) s.shelf))

/-- R142: the condition and setting of a request body; `none` is BAD-VALUE. -/
def settingOfBody (b : List Byte) : Option (Cond × CondSetting) :=
  match Cond.ofCode (byteAt b 0), Severity.ofCode (byteAt b 1) with
  | some c, some sev =>
    let v : CondSetting := ⟨sev, nat2At b 2, nat2At b 4⟩
    if settingOk c v then some (c, v) else none
  | _, _ => none

/-- R142: Set Condition. The 24 settings are one stored item, so the edit carries them all. -/
def handleSetCondition (b : List Byte) (s : State) : State × Answer :=
  match settingOfBody b with
  | none => turnAway .badValue s
  | some (c, v) =>
    if v = settingOf s.shelf c then (s, done [])
    else
      storeChange (.conditions (put s.shelf.alm.settings (Cond.code c) v)) [] (mapShelf (changeSetting c v)) s

/-! ### Record store and readiness controller -/

/-- R174: the mark of a Commit, the number of the newest edit in the list. -/
def commitMark (t : Store) : Option Nat := t.list.getLast?.map Edit.num

/-- R174: Commit. -/
def handleCommit (s : State) : State × Answer :=
  let t := s.shelf.sto
  if t.writer = .stopped then turnAway .storeFault s
  else
    match commitMark t with
    | none => (s, done [])
    | some m =>
      let accepted : Answer := ⟨.accepted, bytes2 m, none, false⟩
      if t.marks.getLast? = some m then (s, accepted)
      else if Config.commitMax ≤ t.marks.length then turnAway .full s
      else (mapShelf (fun x => { x with sto := { x.sto with marks := x.sto.marks ++ [m] } }) s, accepted)

/-- R181: the options of a request body; `none` is BAD-VALUE. -/
def startOptionsOf (b : List Byte) : Option StartOptions :=
  match flagAt b 2 with
  | none => none
  | some retain =>
    let o : StartOptions := ⟨nat2At b 0, retain⟩
    if startOptionsOk o then some o else none

/-- R181: the options are in force; an arming delay timer that has reached the new delay starts arming. -/
def changeStartOptions (o : StartOptions) (s : Shelf) : Shelf :=
  let s1 := { s with rdy := { s.rdy with opts := o } }
  match s1.rdy.armingFor with
  | some ms => if 1000 * o.delay ≤ ms then startArming .delay s1 else s1
  | none => s1

/-- R181: Set Start Options. -/
def handleSetStartOptions (b : List Byte) (s : State) : State × Answer :=
  match startOptionsOf b with
  | none => turnAway .badValue s
  | some o =>
    if o = s.shelf.rdy.opts then (s, done [])
    else storeChange (.start o) [] (busShelf (changeStartOptions o)) s

/-! ### The reads that check nothing -/

def handleIdentify (s : State) : State × Answer := (s, done (identifyData s))
def handleLinkStatus (l : Link) (s : State) : State × Answer := (s, done (linkStatusData l s))
def handleLockStatus (l : Link) (s : State) : State × Answer := (s, done (lockStatusData l s))
def handleScanStatus (s : State) : State × Answer := (s, done (scanStatusData s.shelf))
def handleReadSlots (s : State) : State × Answer := (s, done (readSlotsData s.shelf))
def handleReadBusFault (s : State) : State × Answer := (s, done (readBusFaultData s.shelf))
def handleReadSpares (s : State) : State × Answer := (s, done (readSparesData s.shelf))
def handleReadMoveOrders (s : State) : State × Answer := (s, done (readMoveOrdersData s.shelf))
def handleReadTiming (s : State) : State × Answer := (s, done (readTimingData s.shelf))
def handleStoreStatus (s : State) : State × Answer := (s, done (storeStatusData s))

/-- R189, check 6: the owning block's rule for a request of each kind. -/
def handlerOf (k : ReqKind) (l : Link) (b : List Byte) : State → State × Answer :=
  match k with
  | .identify => handleIdentify
  | .linkStatus => handleLinkStatus l
  | .claim => handleClaim l
  | .release => handleRelease l
  | .setTime => handleSetTime b
  | .arm => handleArm
  | .restart => handleRestart
  | .lockStatus => handleLockStatus l
  | .setCraftCode => handleSetCraftCode b
  | .clearCraftCode => handleClearCraftCode b
  | .unlock => handleUnlock b
  | .lock => handleLock
  | .freeze => handleFreeze
  | .readPort => handleReadPort b
  | .setScan => handleSetScan b
  | .scanStatus => handleScanStatus
  | .setDegradeThresholds => handleSetDegradeThresholds b
  | .readSlots => handleReadSlots
  | .readBusFault => handleReadBusFault
  | .clearBusFault => handleClearBusFault
  | .readPortRecord => handleReadPortRecord b
  | .editPortRecord => handleEditPortRecord b
  | .readSpares => handleReadSpares
  | .condemnPort => handleCondemnPort b
  | .setReassign => handleSetReassign b
  | .setShelfIdentity => handleSetShelfIdentity b
  | .openMoveOrder => handleOpenMoveOrder b
  | .cancelMoveOrder => handleCancelMoveOrder b
  | .readMoveOrders => handleReadMoveOrders
  | .defineGroup => handleDefineGroup b
  | .deleteGroup => handleDeleteGroup b
  | .readGroup => handleReadGroup b
  | .bar => handleBar b
  | .pin => handlePin b
  | .operatorSwitch => handleOperatorSwitch b
  | .clearRequests => handleClearRequests b
  | .clearGroupFault => handleClearGroupFault b
  | .defineReference => handleDefineReference b
  | .readTiming => handleReadTiming
  | .lockOutReference => handleLockOutReference b
  | .forceReference => handleForceReference b
  | .setTimingOptions => handleSetTimingOptions b
  | .readAlarms => handleReadAlarms b
  | .acknowledge => handleAcknowledge b
  | .cutOff => handleCutOff
  | .readHistory => handleReadHistory b
  | .setCondition => handleSetCondition b
  | .commit => handleCommit
  | .storeStatus => handleStoreStatus
  | .setStartOptions => handleSetStartOptions b

end Sys2Proof.Machine
end

