-- ==== Sys2Proof/Machine/Commands.lean ====
section
/-! DEFINITION. The meaning of each request row: a frame of that kind completes on a link and is taken (R188, R189), with
its owning block's rule. -/

namespace Sys2Proof.Machine

/-- The answer of a command: every command has a next state. -/
abbrev Result := Host.Outcome State Fault Refusal

/-- R185: IDENTIFY. -/
def execIdentify (l : Link) (tag : Byte) (body : List Byte) (s : State) : Result :=
  .next (takeRequest l .identify tag body handleIdentify s)

/-- R193: LINK_STATUS. -/
def execLinkStatus (l : Link) (tag : Byte) (body : List Byte) (s : State) : Result :=
  .next (takeRequest l .linkStatus tag body (handleLinkStatus l) s)

/-- R160: CLAIM. -/
def execClaim (l : Link) (tag : Byte) (body : List Byte) (s : State) : Result :=
  .next (takeRequest l .claim tag body (handleClaim l) s)

/-- R161: RELEASE. -/
def execRelease (l : Link) (tag : Byte) (body : List Byte) (s : State) : Result :=
  .next (takeRequest l .release tag body (handleRelease l) s)

/-- R184: SET_TIME. -/
def execSetTime (l : Link) (tag : Byte) (body : List Byte) (s : State) : Result :=
  .next (takeRequest l .setTime tag body (handleSetTime body) s)

/-- R180: ARM. -/
def execArm (l : Link) (tag : Byte) (body : List Byte) (s : State) : Result :=
  .next (takeRequest l .arm tag body handleArm s)

/-- R183: RESTART. -/
def execRestart (l : Link) (tag : Byte) (body : List Byte) (s : State) : Result :=
  .next (takeRequest l .restart tag body handleRestart s)

/-- R169: LOCK_STATUS. -/
def execLockStatus (l : Link) (tag : Byte) (body : List Byte) (s : State) : Result :=
  .next (takeRequest l .lockStatus tag body (handleLockStatus l) s)

/-- R166: SET_CRAFT_CODE. -/
def execSetCraftCode (l : Link) (tag : Byte) (body : List Byte) (s : State) : Result :=
  .next (takeRequest l .setCraftCode tag body (handleSetCraftCode body) s)

/-- R166: CLEAR_CRAFT_CODE. -/
def execClearCraftCode (l : Link) (tag : Byte) (body : List Byte) (s : State) : Result :=
  .next (takeRequest l .clearCraftCode tag body (handleClearCraftCode body) s)

/-- R167: UNLOCK. -/
def execUnlock (l : Link) (tag : Byte) (body : List Byte) (s : State) : Result :=
  .next (takeRequest l .unlock tag body (handleUnlock body) s)

/-- R168: LOCK. -/
def execLock (l : Link) (tag : Byte) (body : List Byte) (s : State) : Result :=
  .next (takeRequest l .lock tag body handleLock s)

/-- R168: FREEZE. -/
def execFreeze (l : Link) (tag : Byte) (body : List Byte) (s : State) : Result :=
  .next (takeRequest l .freeze tag body handleFreeze s)

/-- R37: READ_PORT. -/
def execReadPort (l : Link) (tag : Byte) (body : List Byte) (s : State) : Result :=
  .next (takeRequest l .readPort tag body (handleReadPort body) s)

/-- R23: SET_SCAN. -/
def execSetScan (l : Link) (tag : Byte) (body : List Byte) (s : State) : Result :=
  .next (takeRequest l .setScan tag body (handleSetScan body) s)

/-- R38: SCAN_STATUS. -/
def execScanStatus (l : Link) (tag : Byte) (body : List Byte) (s : State) : Result :=
  .next (takeRequest l .scanStatus tag body handleScanStatus s)

/-- R36: SET_DEGRADE_THRESHOLDS. -/
def execSetDegradeThresholds (l : Link) (tag : Byte) (body : List Byte) (s : State) : Result :=
  .next (takeRequest l .setDegradeThresholds tag body (handleSetDegradeThresholds body) s)

/-- R20: READ_SLOTS. -/
def execReadSlots (l : Link) (tag : Byte) (body : List Byte) (s : State) : Result :=
  .next (takeRequest l .readSlots tag body handleReadSlots s)

/-- R20: READ_BUS_FAULT. -/
def execReadBusFault (l : Link) (tag : Byte) (body : List Byte) (s : State) : Result :=
  .next (takeRequest l .readBusFault tag body handleReadBusFault s)

/-- R19: CLEAR_BUS_FAULT. -/
def execClearBusFault (l : Link) (tag : Byte) (body : List Byte) (s : State) : Result :=
  .next (takeRequest l .clearBusFault tag body handleClearBusFault s)

/-- R59: READ_PORT_RECORD. -/
def execReadPortRecord (l : Link) (tag : Byte) (body : List Byte) (s : State) : Result :=
  .next (takeRequest l .readPortRecord tag body (handleReadPortRecord body) s)

/-- R57: EDIT_PORT_RECORD. -/
def execEditPortRecord (l : Link) (tag : Byte) (body : List Byte) (s : State) : Result :=
  .next (takeRequest l .editPortRecord tag body (handleEditPortRecord body) s)

/-- R59: READ_SPARES. -/
def execReadSpares (l : Link) (tag : Byte) (body : List Byte) (s : State) : Result :=
  .next (takeRequest l .readSpares tag body handleReadSpares s)

/-- R56: CONDEMN_PORT. -/
def execCondemnPort (l : Link) (tag : Byte) (body : List Byte) (s : State) : Result :=
  .next (takeRequest l .condemnPort tag body (handleCondemnPort body) s)

/-- R49: SET_REASSIGN. -/
def execSetReassign (l : Link) (tag : Byte) (body : List Byte) (s : State) : Result :=
  .next (takeRequest l .setReassign tag body (handleSetReassign body) s)

/-- R47: SET_SHELF_IDENTITY. -/
def execSetShelfIdentity (l : Link) (tag : Byte) (body : List Byte) (s : State) : Result :=
  .next (takeRequest l .setShelfIdentity tag body (handleSetShelfIdentity body) s)

/-- R63: OPEN_MOVE_ORDER. -/
def execOpenMoveOrder (l : Link) (tag : Byte) (body : List Byte) (s : State) : Result :=
  .next (takeRequest l .openMoveOrder tag body (handleOpenMoveOrder body) s)

/-- R65: CANCEL_MOVE_ORDER. -/
def execCancelMoveOrder (l : Link) (tag : Byte) (body : List Byte) (s : State) : Result :=
  .next (takeRequest l .cancelMoveOrder tag body (handleCancelMoveOrder body) s)

/-- R78: READ_MOVE_ORDERS. -/
def execReadMoveOrders (l : Link) (tag : Byte) (body : List Byte) (s : State) : Result :=
  .next (takeRequest l .readMoveOrders tag body handleReadMoveOrders s)

/-- R81: DEFINE_GROUP. -/
def execDefineGroup (l : Link) (tag : Byte) (body : List Byte) (s : State) : Result :=
  .next (takeRequest l .defineGroup tag body (handleDefineGroup body) s)

/-- R82: DELETE_GROUP. -/
def execDeleteGroup (l : Link) (tag : Byte) (body : List Byte) (s : State) : Result :=
  .next (takeRequest l .deleteGroup tag body (handleDeleteGroup body) s)

/-- R102: READ_GROUP. -/
def execReadGroup (l : Link) (tag : Byte) (body : List Byte) (s : State) : Result :=
  .next (takeRequest l .readGroup tag body (handleReadGroup body) s)

/-- R89: BAR. -/
def execBar (l : Link) (tag : Byte) (body : List Byte) (s : State) : Result :=
  .next (takeRequest l .bar tag body (handleBar body) s)

/-- R90: PIN. -/
def execPin (l : Link) (tag : Byte) (body : List Byte) (s : State) : Result :=
  .next (takeRequest l .pin tag body (handlePin body) s)

/-- R91: OPERATOR_SWITCH. -/
def execOperatorSwitch (l : Link) (tag : Byte) (body : List Byte) (s : State) : Result :=
  .next (takeRequest l .operatorSwitch tag body (handleOperatorSwitch body) s)

/-- R92: CLEAR_REQUESTS. -/
def execClearRequests (l : Link) (tag : Byte) (body : List Byte) (s : State) : Result :=
  .next (takeRequest l .clearRequests tag body (handleClearRequests body) s)

/-- R118: CLEAR_GROUP_FAULT. -/
def execClearGroupFault (l : Link) (tag : Byte) (body : List Byte) (s : State) : Result :=
  .next (takeRequest l .clearGroupFault tag body (handleClearGroupFault body) s)

/-- R136: DEFINE_REFERENCE. -/
def execDefineReference (l : Link) (tag : Byte) (body : List Byte) (s : State) : Result :=
  .next (takeRequest l .defineReference tag body (handleDefineReference body) s)

/-- R139: READ_TIMING. -/
def execReadTiming (l : Link) (tag : Byte) (body : List Byte) (s : State) : Result :=
  .next (takeRequest l .readTiming tag body handleReadTiming s)

/-- R137: LOCK_OUT_REFERENCE. -/
def execLockOutReference (l : Link) (tag : Byte) (body : List Byte) (s : State) : Result :=
  .next (takeRequest l .lockOutReference tag body (handleLockOutReference body) s)

/-- R127: FORCE_REFERENCE. -/
def execForceReference (l : Link) (tag : Byte) (body : List Byte) (s : State) : Result :=
  .next (takeRequest l .forceReference tag body (handleForceReference body) s)

/-- R137: SET_TIMING_OPTIONS. -/
def execSetTimingOptions (l : Link) (tag : Byte) (body : List Byte) (s : State) : Result :=
  .next (takeRequest l .setTimingOptions tag body (handleSetTimingOptions body) s)

/-- R157: READ_ALARMS. -/
def execReadAlarms (l : Link) (tag : Byte) (body : List Byte) (s : State) : Result :=
  .next (takeRequest l .readAlarms tag body (handleReadAlarms body) s)

/-- R154: ACKNOWLEDGE. -/
def execAcknowledge (l : Link) (tag : Byte) (body : List Byte) (s : State) : Result :=
  .next (takeRequest l .acknowledge tag body (handleAcknowledge body) s)

/-- R153: CUT_OFF. -/
def execCutOff (l : Link) (tag : Byte) (body : List Byte) (s : State) : Result :=
  .next (takeRequest l .cutOff tag body handleCutOff s)

/-- R158: READ_HISTORY. -/
def execReadHistory (l : Link) (tag : Byte) (body : List Byte) (s : State) : Result :=
  .next (takeRequest l .readHistory tag body (handleReadHistory body) s)

/-- R142: SET_CONDITION. -/
def execSetCondition (l : Link) (tag : Byte) (body : List Byte) (s : State) : Result :=
  .next (takeRequest l .setCondition tag body (handleSetCondition body) s)

/-- R174: COMMIT. -/
def execCommit (l : Link) (tag : Byte) (body : List Byte) (s : State) : Result :=
  .next (takeRequest l .commit tag body handleCommit s)

/-- R176: STORE_STATUS. -/
def execStoreStatus (l : Link) (tag : Byte) (body : List Byte) (s : State) : Result :=
  .next (takeRequest l .storeStatus tag body handleStoreStatus s)

/-- R181: SET_START_OPTIONS. -/
def execSetStartOptions (l : Link) (tag : Byte) (body : List Byte) (s : State) : Result :=
  .next (takeRequest l .setStartOptions tag body (handleSetStartOptions body) s)

end Sys2Proof.Machine
end

