-- ==== Sys2Proof/Machine/Events.lean ====
section
/-! DEFINITION. The meaning of each row that is not a request: resets, line events, card answers, pins, the expiries of
timers and the completions of the store. An event that cannot occur in the state changes nothing (log entry 1). -/

namespace Sys2Proof.Machine

/-! ### Resets and line events (R179, R183, R187, R188, R190, R192) -/

/-- R179: POWER_ON_RESET; a notice that the first reports make is offered to the emptied queues. -/
def execPowerOnReset (s : State) : Result := .next (deliverOut (powerOn s))

/-- R183: a hard reset; a notice that the first reports make is offered to the emptied queues. -/
def takeHardReset (cause : ResetCause) (s : State) : State := deliverOut (hardResetBy cause s)

/-- R183: HARD_RESET, by the reset pin. -/
def execHardReset (s : State) : Result := .next (takeHardReset .pin s)

/-- R187: the frame in reception is discarded and counted. -/
def discardFrame (u : LinkUnit) : LinkUnit := { u with rx := .hunting, discarded := bump 65535 u.discarded }

/-- R187: a frame in reception when nothing more of it comes. -/
def cutReception (u : LinkUnit) : LinkUnit :=
  match u.rx with
  | .inFrame _ => discardFrame u
  | .hunting | .heldReset => u

/-- R192: the link unit at a link reset. -/
def resetUnit (u : LinkUnit) : LinkUnit :=
  { cutReception u with
      rx := .heldReset
      atSpace := true
      held := none
      tx := none
      queue := []
      lost := 0
      resets := bump 255 u.resets }

/-- R162, R192: the claim is freed if the link held it, after the queue has been emptied. -/
def freeClaim (l : Link) (s : State) : State :=
  if s.lock.holder = holderOf l then deliverOut (setHolder .none .linkReset s) else s

/-- R183: the link's held request is a Restart that has replied DONE. -/
def restartHeld (u : LinkUnit) : Bool := u.held.any HeldRequest.restart

/-- R183, R192: a link reset; with a Restart's reply not yet sent, the hard reset is taken at that moment. -/
def linkReset (l : Link) (s : State) : State :=
  let s1 := freeClaim l (setLink l resetUnit s)
  if restartHeld (linkOf s l) then takeHardReset .restart s1 else s1

/-- R192: LINK_RESET. -/
def execLinkReset (l : Link) (s : State) : Result := .next (linkReset l s)

/-- R192: the line is at mark and the receiver hunts again. -/
def markUnit (u : LinkUnit) : LinkUnit :=
  { u with
      atSpace := false
      rx := match u.rx with
        | .heldReset => .hunting
        | .hunting => .hunting
        | .inFrame b => .inFrame b }

/-- R192: LINE_RETURNS_TO_MARK. -/
def execLineReturnsToMark (l : Link) (s : State) : Result := .next (setLink l markUnit s)

/-- R187: INTER_BYTE_TIMEOUT. -/
def execInterByteTimeout (l : Link) (s : State) : Result := .next (setLink l cutReception s)

/-- R187, R188: one byte arrives on a link; a line at space brings none. -/
def takeByte (l : Link) (s : State) (b : Byte) : State :=
  let u := linkOf s l
  if u.atSpace then s
  else
    match rxByte u.rx b with
    | .more rx => setLink l (fun u => { u with rx := rx }) s
    | .discard => setLink l discardFrame s
    | .frame kind tag body =>
      match ReqKind.ofCode kind with
      | some k => takeRequest l k tag body (handlerOf k l body) s
      | none => takeUnknown l kind tag s

/-- R187: FRAME_DISCARDED: the bytes arrive, and the receiver judges them (log entry 8). -/
def execFrameDiscarded (l : Link) (bytes : List Byte) (s : State) : Result := .next (bytes.foldl (takeByte l) s)

/-- R188: a request frame that completes while a request is held. -/
def overrunUnit (u : LinkUnit) : LinkUnit :=
  if u.held.isSome && !u.atSpace then { u with rx := .hunting, overrun := bump 65535 u.overrun } else u

/-- R188: OVERRUN. -/
def execOverrun (l : Link) (s : State) : Result := .next (setLink l overrunUnit s)

/-- R189: UNKNOWN_KIND. -/
def execUnknownKind (l : Link) (kind tag : Byte) (_body : List Byte) (s : State) : Result :=
  .next (takeUnknown l kind tag s)

/-- R188, R190: the transmitter has sent its frame; a request whose reply was sent is held no longer. -/
def sentUnit (u : LinkUnit) : LinkUnit :=
  match u.tx with
  | none => u
  | some f => startTx { u with tx := none, held := if f.isReply then none else u.held }

/-- R183: the frame being sent is the reply of a Restart. -/
def restartSent (u : LinkUnit) : Bool := u.tx.any TxFrame.isReply && restartHeld u

/-- R183, R190: the end of a transmission; the hard reset follows a Restart's reply. -/
def transmitEnd (l : Link) (s : State) : State :=
  if restartSent (linkOf s l) then takeHardReset .restart s else setLink l sentUnit s

/-- R190: TRANSMIT_END. -/
def execTransmitEnd (l : Link) (s : State) : Result := .next (transmitEnd l s)

/-! ### The backplane bus (chapter 1) -/

/-- R8, R9: CARD_ANSWER. -/
def execCardAnswer (a : CardAnswer) (s : State) : Result := .next (onShelf (answerCard a) s)

/-- R8: TRANSFER_TIMEOUT. -/
def execTransferTimeout (s : State) : Result := .next (onShelf transferTimedOut s)

/-- R12: EXCHANGE_VALUES_RETURNED. -/
def execExchangeValuesReturned (s : State) : Result := .next (onShelf valuesReturned s)

/-- R4: REPROBE_TIMER_EXPIRY. -/
def execReprobeTimerExpiry (n : SlotNo) (s : State) : Result := .next (onShelf (reprobeOver n) s)

/-- R16: CARD_ATTENTION. -/
def execCardAttention (n : SlotNo) (s : State) : Result := .next (onShelf (attentionAsserted n) s)

/-! ### Scanner (chapter 2) -/

/-- R26: PERIOD_TIMER_EXPIRY. -/
def execPeriodTimerExpiry (s : State) : Result := .next (onShelfBus periodOver s)

/-- R25: BATTERY_RUNNING_CHANGE. -/
def execBatteryRunningChange (b : Bool) (s : State) : Result := .next (onShelf (batteryChanged b) s)

/-! ### Fibre records and move orders (chapters 3 and 4) -/

/-- R50: CANDIDATE_MEMORY_EXPIRY. -/
def execCandidateMemoryExpiry (p : PortNo) (s : State) : Result := .next (onShelf (leaveCandidates p) s)

/-- R51: CONDEMN_TIMER_EXPIRY. -/
def execCondemnTimerExpiry (p : PortNo) (s : State) : Result := .next (onShelfBus (condemnTimerOver p) s)

/-- R67: DARK_LIMIT_EXPIRY. -/
def execDarkLimitExpiry (num : Nat) (s : State) : Result := .next (onShelfBus (darkOver num) s)

/-- R68: LIGHT_LIMIT_EXPIRY. -/
def execLightLimitExpiry (num : Nat) (s : State) : Result := .next (onShelfBus (lightOver num) s)

/-- R70: VERIFY_TIMER_EXPIRY. -/
def execVerifyTimerExpiry (num : Nat) (s : State) : Result := .next (onShelfBus (verifyOver num) s)

/-! ### Protection and switching (chapters 5 and 6) -/

/-- R85: HOLD_OFF_TIMER_EXPIRY. -/
def execHoldOffTimerExpiry (p : PortNo) (s : State) : Result := .next (onShelfBus (holdOffOver p) s)

/-- R97: WTR_TIMER_EXPIRY. -/
def execWtrTimerExpiry (g : GroupNo) (s : State) : Result := .next (onShelfBus (wtrOver g) s)

/-- R110: CONFIRM_TIMER_EXPIRY. -/
def execConfirmTimerExpiry (g : GroupNo) (s : State) : Result := .next (onShelf (confirmOver g) s)

/-- R111: RETRY_WAIT_EXPIRY. -/
def execRetryWaitExpiry (g : GroupNo) (s : State) : Result := .next (onShelfBus (retryOver g) s)

/-- R120: CLEAR_RETRY_EXPIRY. -/
def execClearRetryExpiry (s : State) : Result := .next (onShelfBus clearRetryOver s)

/-! ### Timing (chapter 7) -/

/-- R125: a building clock input shows a level, and the selector takes it. -/
def buildingChanged (i : BuildingInput) (present : Bool) (s : Shelf) : Shelf :=
  timingRun (match i with
    | .bc1 => { s with pins := { s.pins with bc1 := present } }
    | .bc2 => { s with pins := { s.pins with bc2 := present } })

/-- R125: BUILDING_CLOCK_INPUT_CHANGE. -/
def execBuildingClockInputChange (i : BuildingInput) (present : Bool) (s : State) : Result :=
  .next (onShelfBus (buildingChanged i present) s)

/-- R125: QUALIFICATION_TIMER_EXPIRY. -/
def execQualificationTimerExpiry (r : RefNo) (s : State) : Result := .next (onShelfBus (qualified r) s)

/-- R129: ACQUIRE_TIMER_EXPIRY. -/
def execAcquireTimerExpiry (s : State) : Result := .next (onShelfBus acquired s)

/-- R130: LOCKED_TIMER_EXPIRY. -/
def execLockedTimerExpiry (s : State) : Result := .next (onShelf lockedLong s)

/-- R131: HOLDOVER_TIMER_EXPIRY. -/
def execHoldoverTimerExpiry (s : State) : Result := .next (onShelfBus holdoverOver s)

/-! ### Alarms (chapter 8) -/

/-- R148: RAISE_SOAK_EXPIRY. -/
def execRaiseSoakExpiry (o : Obj) (c : Cond) (s : State) : Result := .next (onShelf (endRaiseSoak o c) s)

/-- R148: CLEAR_SOAK_EXPIRY. -/
def execClearSoakExpiry (o : Obj) (c : Cond) (s : State) : Result := .next (onShelf (endClearSoak o c) s)

/-! ### Record store and readiness controller (chapters 10 and 11) -/

/-- R173: replies held for an edit of `p` are released on both links. -/
def releaseReplies (p : Nat → Bool) (instead : Option Outcome) (s : State) : State :=
  { s with linkA := releaseReply p instead s.linkA, linkB := releaseReply p instead s.linkB }

/-- R172, R173: the write in flight completes; its replies are released, then the notices offered (log entry 9). -/
def storeCompleted (s : State) : State :=
  match writeInFlight s.shelf.sto with
  | none => s
  | some n => deliverOut (releaseReplies (fun m => decide (m = n)) none (mapShelf completeWrite s))

/-- R172: STORE_WRITE_COMPLETE. -/
def execStoreWriteComplete (s : State) : Result := .next (storeCompleted s)

/-- R172, R173, R175: the write in flight fails; when the store stops, every held reply is released with STORE-FAULT. -/
def storeFailed (s : State) : State :=
  match writeInFlight s.shelf.sto with
  | none => s
  | some _ =>
    let s1 := mapShelf failWrite s
    deliverOut (if s1.shelf.sto.writer = .stopped then releaseReplies (fun _ => true) (some .storeFault) s1 else s1)

/-- R172: STORE_WRITE_FAILED. -/
def execStoreWriteFailed (s : State) : Result := .next (storeFailed s)

/-- R180: the arming delay timer runs out. -/
def armingDelayOver (s : Shelf) : Shelf := if s.rdy.armingFor.isSome then startArming .delay s else s

/-- R180: ARMING_DELAY_EXPIRY. -/
def execArmingDelayExpiry (s : State) : Result := .next (onShelfBus armingDelayOver s)

/-! ### Time (log entry 2) -/

/-- One entry of the alarm table after a millisecond. -/
def tickEntry (e : AlarmEntry) : AlarmEntry := { e with soak := advance 1 e.soak }

/-- One condemn timer after a millisecond: it stays where it ran out (R51). -/
def tickTimer (t : CondemnTimer) : CondemnTimer := if t.running && !t.due then { t with ms := t.ms + 1 } else t

/-- One order after a millisecond. -/
def tickOrder (o : Order) : Order :=
  { o with stageMs := o.stageMs + 1, lightMs := if o.lightStart.isSome then o.lightMs + 1 else o.lightMs }

/-- R184 and the timers of every block: one millisecond passes and nothing else happens. -/
def tick (s : Shelf) : Shelf :=
  { s with
      bp := { s.bp with reprobe := mapAll (advance 1) s.bp.reprobe }
      scan := { s.scan with period := advance 1 s.scan.period }
      recs := { s.recs with timers := mapAll tickTimer s.recs.timers }
      ords := { s.ords with list := s.ords.list.map tickOrder }
      eng := { s.eng with
        run := mapAll (fun r => { r with wtr := advance 1 r.wtr }) s.eng.run
        holdOff := mapAll (advance 1) s.eng.holdOff }
      exe := { s.exe with
        groups := mapAll (fun x => { x with confirm := advance 1 x.confirm, retry := advance 1 x.retry }) s.exe.groups
        clearWait := advance 1 s.exe.clearWait }
      tim := { s.tim with
        refs := mapAll (fun x => { x with qual := advance 1 x.qual }) s.tim.refs
        acquire := advance 1 s.tim.acquire
        lockedFor := advance 1 s.tim.lockedFor
        holdFor := advance 1 s.tim.holdFor }
      alm := { s.alm with table := s.alm.table.map tickEntry }
      rdy := { s.rdy with armingFor := advance 1 s.rdy.armingFor, ms := s.rdy.ms + 1 } }

end Sys2Proof.Machine
end

