-- ==== Sys2Proof/Machine/Dispatch.lean ====
section
/-! DEFINITION. One arm per command. -/

namespace Sys2Proof.Machine

def exec (i : Instr) (s : State) : Host.Outcome State Fault Refusal :=
  match i with
  | .powerOnReset => Sys2Proof.Machine.execPowerOnReset s
  | .hardReset => Sys2Proof.Machine.execHardReset s
  | .linkReset l => Sys2Proof.Machine.execLinkReset l s
  | .lineReturnsToMark l => Sys2Proof.Machine.execLineReturnsToMark l s
  | .interByteTimeout l => Sys2Proof.Machine.execInterByteTimeout l s
  | .frameDiscarded l bytes => Sys2Proof.Machine.execFrameDiscarded l bytes s
  | .overrun l => Sys2Proof.Machine.execOverrun l s
  | .unknownKind l kind tag body => Sys2Proof.Machine.execUnknownKind l kind tag body s
  | .transmitEnd l => Sys2Proof.Machine.execTransmitEnd l s
  | .identify l tag body => Sys2Proof.Machine.execIdentify l tag body s
  | .linkStatus l tag body => Sys2Proof.Machine.execLinkStatus l tag body s
  | .claim l tag body => Sys2Proof.Machine.execClaim l tag body s
  | .release l tag body => Sys2Proof.Machine.execRelease l tag body s
  | .setTime l tag body => Sys2Proof.Machine.execSetTime l tag body s
  | .arm l tag body => Sys2Proof.Machine.execArm l tag body s
  | .restart l tag body => Sys2Proof.Machine.execRestart l tag body s
  | .lockStatus l tag body => Sys2Proof.Machine.execLockStatus l tag body s
  | .setCraftCode l tag body => Sys2Proof.Machine.execSetCraftCode l tag body s
  | .clearCraftCode l tag body => Sys2Proof.Machine.execClearCraftCode l tag body s
  | .unlock l tag body => Sys2Proof.Machine.execUnlock l tag body s
  | .lock l tag body => Sys2Proof.Machine.execLock l tag body s
  | .freeze l tag body => Sys2Proof.Machine.execFreeze l tag body s
  | .readPort l tag body => Sys2Proof.Machine.execReadPort l tag body s
  | .setScan l tag body => Sys2Proof.Machine.execSetScan l tag body s
  | .scanStatus l tag body => Sys2Proof.Machine.execScanStatus l tag body s
  | .setDegradeThresholds l tag body => Sys2Proof.Machine.execSetDegradeThresholds l tag body s
  | .readSlots l tag body => Sys2Proof.Machine.execReadSlots l tag body s
  | .readBusFault l tag body => Sys2Proof.Machine.execReadBusFault l tag body s
  | .clearBusFault l tag body => Sys2Proof.Machine.execClearBusFault l tag body s
  | .readPortRecord l tag body => Sys2Proof.Machine.execReadPortRecord l tag body s
  | .editPortRecord l tag body => Sys2Proof.Machine.execEditPortRecord l tag body s
  | .readSpares l tag body => Sys2Proof.Machine.execReadSpares l tag body s
  | .condemnPort l tag body => Sys2Proof.Machine.execCondemnPort l tag body s
  | .setReassign l tag body => Sys2Proof.Machine.execSetReassign l tag body s
  | .setShelfIdentity l tag body => Sys2Proof.Machine.execSetShelfIdentity l tag body s
  | .openMoveOrder l tag body => Sys2Proof.Machine.execOpenMoveOrder l tag body s
  | .cancelMoveOrder l tag body => Sys2Proof.Machine.execCancelMoveOrder l tag body s
  | .readMoveOrders l tag body => Sys2Proof.Machine.execReadMoveOrders l tag body s
  | .defineGroup l tag body => Sys2Proof.Machine.execDefineGroup l tag body s
  | .deleteGroup l tag body => Sys2Proof.Machine.execDeleteGroup l tag body s
  | .readGroup l tag body => Sys2Proof.Machine.execReadGroup l tag body s
  | .bar l tag body => Sys2Proof.Machine.execBar l tag body s
  | .pin l tag body => Sys2Proof.Machine.execPin l tag body s
  | .operatorSwitch l tag body => Sys2Proof.Machine.execOperatorSwitch l tag body s
  | .clearRequests l tag body => Sys2Proof.Machine.execClearRequests l tag body s
  | .clearGroupFault l tag body => Sys2Proof.Machine.execClearGroupFault l tag body s
  | .defineReference l tag body => Sys2Proof.Machine.execDefineReference l tag body s
  | .readTiming l tag body => Sys2Proof.Machine.execReadTiming l tag body s
  | .lockOutReference l tag body => Sys2Proof.Machine.execLockOutReference l tag body s
  | .forceReference l tag body => Sys2Proof.Machine.execForceReference l tag body s
  | .setTimingOptions l tag body => Sys2Proof.Machine.execSetTimingOptions l tag body s
  | .readAlarms l tag body => Sys2Proof.Machine.execReadAlarms l tag body s
  | .acknowledge l tag body => Sys2Proof.Machine.execAcknowledge l tag body s
  | .cutOff l tag body => Sys2Proof.Machine.execCutOff l tag body s
  | .readHistory l tag body => Sys2Proof.Machine.execReadHistory l tag body s
  | .setCondition l tag body => Sys2Proof.Machine.execSetCondition l tag body s
  | .commit l tag body => Sys2Proof.Machine.execCommit l tag body s
  | .storeStatus l tag body => Sys2Proof.Machine.execStoreStatus l tag body s
  | .setStartOptions l tag body => Sys2Proof.Machine.execSetStartOptions l tag body s
  | .cardAnswer a => Sys2Proof.Machine.execCardAnswer a s
  | .transferTimeout => Sys2Proof.Machine.execTransferTimeout s
  | .exchangeValuesReturned => Sys2Proof.Machine.execExchangeValuesReturned s
  | .reprobeTimerExpiry n => Sys2Proof.Machine.execReprobeTimerExpiry n s
  | .cardAttention n => Sys2Proof.Machine.execCardAttention n s
  | .periodTimerExpiry => Sys2Proof.Machine.execPeriodTimerExpiry s
  | .batteryRunningChange b => Sys2Proof.Machine.execBatteryRunningChange b s
  | .candidateMemoryExpiry p => Sys2Proof.Machine.execCandidateMemoryExpiry p s
  | .condemnTimerExpiry p => Sys2Proof.Machine.execCondemnTimerExpiry p s
  | .darkLimitExpiry num => Sys2Proof.Machine.execDarkLimitExpiry num s
  | .lightLimitExpiry num => Sys2Proof.Machine.execLightLimitExpiry num s
  | .verifyTimerExpiry num => Sys2Proof.Machine.execVerifyTimerExpiry num s
  | .holdOffTimerExpiry p => Sys2Proof.Machine.execHoldOffTimerExpiry p s
  | .wtrTimerExpiry g => Sys2Proof.Machine.execWtrTimerExpiry g s
  | .confirmTimerExpiry g => Sys2Proof.Machine.execConfirmTimerExpiry g s
  | .retryWaitExpiry g => Sys2Proof.Machine.execRetryWaitExpiry g s
  | .clearRetryExpiry => Sys2Proof.Machine.execClearRetryExpiry s
  | .buildingClockInputChange input present => Sys2Proof.Machine.execBuildingClockInputChange input present s
  | .qualificationTimerExpiry r => Sys2Proof.Machine.execQualificationTimerExpiry r s
  | .acquireTimerExpiry => Sys2Proof.Machine.execAcquireTimerExpiry s
  | .lockedTimerExpiry => Sys2Proof.Machine.execLockedTimerExpiry s
  | .holdoverTimerExpiry => Sys2Proof.Machine.execHoldoverTimerExpiry s
  | .raiseSoakExpiry o c => Sys2Proof.Machine.execRaiseSoakExpiry o c s
  | .clearSoakExpiry o c => Sys2Proof.Machine.execClearSoakExpiry o c s
  | .storeWriteComplete => Sys2Proof.Machine.execStoreWriteComplete s
  | .storeWriteFailed => Sys2Proof.Machine.execStoreWriteFailed s
  | .armingDelayExpiry => Sys2Proof.Machine.execArmingDelayExpiry s

end Sys2Proof.Machine
end

