-- ==== Sys2Proof/Machine/Step.lean ====
section
/-! DEFINITION. One step: the command at the front of the queue, or one millisecond of time while none waits. -/

namespace Sys2Proof.Machine

/-- The command at the front of the queue is taken and carried out; with an empty queue one millisecond passes (log
entry 2). -/
def step (s : State) : Host.Outcome State Fault Refusal :=
  match s.pending with
  | [] => .next { s with shelf := tick s.shelf }
  | c :: rest => exec c { s with pending := rest }

/-- The state with the command that a word of the table spells at the front of the queue; the table gives no row bits, so
no word spells one. -/
def State.withFetchWord (s : State) (nbits w : Nat) : State :=
  match decodeTableWord nbits w with
  | some c => { s with pending := c :: s.pending }
  | none => s

end Sys2Proof.Machine
end

