-- ==== Sys2Proof/Safety.lean ====
section
/-! DEFINITION. The properties the statements speak of: when a request passes the checks of its link, what its reply leaves
in its link unit, and the invariants every step keeps. -/

namespace Sys2Proof.Machine

/-! ### Requests -/

/-- R188, R192: the link can take a request frame. -/
def Free (l : Link) (s : State) : Prop := (linkOf s l).atSpace = false ∧ (linkOf s l).held = none

/-- R189, checks 2 to 5, all pass. -/
def Accepts (l : Link) (k : ReqKind) (body : List Byte) (s : State) : Prop :=
  Free l s ∧ bodyFits k body = true
  ∧ (s.shelf.rdy.phase = .discovery → k = .identify ∨ k = .linkStatus)
  ∧ (k.row.type ≠ .watch → s.lock.holder = holderOf l)
  ∧ (k.row.type = .gated → s.lock.mode ≠ .locked)

/-- The command that is a request frame of a kind. -/
def ReqKind.instr (k : ReqKind) (l : Link) (tag : Byte) (body : List Byte) : Instr :=
  match k with
  | .identify => .identify l tag body
  | .linkStatus => .linkStatus l tag body
  | .claim => .claim l tag body
  | .release => .release l tag body
  | .setTime => .setTime l tag body
  | .arm => .arm l tag body
  | .restart => .restart l tag body
  | .lockStatus => .lockStatus l tag body
  | .setCraftCode => .setCraftCode l tag body
  | .clearCraftCode => .clearCraftCode l tag body
  | .unlock => .unlock l tag body
  | .lock => .lock l tag body
  | .freeze => .freeze l tag body
  | .readPort => .readPort l tag body
  | .setScan => .setScan l tag body
  | .scanStatus => .scanStatus l tag body
  | .setDegradeThresholds => .setDegradeThresholds l tag body
  | .readSlots => .readSlots l tag body
  | .readBusFault => .readBusFault l tag body
  | .clearBusFault => .clearBusFault l tag body
  | .readPortRecord => .readPortRecord l tag body
  | .editPortRecord => .editPortRecord l tag body
  | .readSpares => .readSpares l tag body
  | .condemnPort => .condemnPort l tag body
  | .setReassign => .setReassign l tag body
  | .setShelfIdentity => .setShelfIdentity l tag body
  | .openMoveOrder => .openMoveOrder l tag body
  | .cancelMoveOrder => .cancelMoveOrder l tag body
  | .readMoveOrders => .readMoveOrders l tag body
  | .defineGroup => .defineGroup l tag body
  | .deleteGroup => .deleteGroup l tag body
  | .readGroup => .readGroup l tag body
  | .bar => .bar l tag body
  | .pin => .pin l tag body
  | .operatorSwitch => .operatorSwitch l tag body
  | .clearRequests => .clearRequests l tag body
  | .clearGroupFault => .clearGroupFault l tag body
  | .defineReference => .defineReference l tag body
  | .readTiming => .readTiming l tag body
  | .lockOutReference => .lockOutReference l tag body
  | .forceReference => .forceReference l tag body
  | .setTimingOptions => .setTimingOptions l tag body
  | .readAlarms => .readAlarms l tag body
  | .acknowledge => .acknowledge l tag body
  | .cutOff => .cutOff l tag body
  | .readHistory => .readHistory l tag body
  | .setCondition => .setCondition l tag body
  | .commit => .commit l tag body
  | .storeStatus => .storeStatus l tag body
  | .setStartOptions => .setStartOptions l tag body

/-- R188, R190: a link unit that has taken a request whose reply stands as `st`: an idle transmitter starts a formed
reply. -/
def answered (kind tag : Byte) (st : HeldStatus) (u : LinkUnit) : LinkUnit :=
  startTx { u with rx := .hunting, held := some ⟨kind, tag, false, st⟩ }

/-- The state after a request of kind `k` on link `l`: its reply stands as `st`, the shelf is `x`, and the notices made
have been offered to both links. -/
def taken (l : Link) (k : ReqKind) (tag : Byte) (st : HeldStatus) (x : Shelf) (s : State) : State :=
  deliverOut (setLink l (answered k.row.code tag st) { s with shelf := x })

/-- A formed reply. -/
def formed (o : Outcome) (data : List Byte) : HeldStatus := .ready ⟨o, data⟩

/-- R173: the reply of an appended change: held against its edit while the write-through flag is set. -/
def storedReply (t : Store) : HeldStatus := if t.writeThrough then .awaiting t.counter ⟨.done, []⟩ else formed .done []

/-- R171: the store can take an edit. -/
def StoreTakes (t : Store) : Prop := t.writer ≠ .stopped ∧ t.list.length < Config.editListMax

/-- R170, R171, R172: the store after a change has been appended: the edit takes the counter's number at the tail, and an
idle writer begins to write. -/
def withEdit (v : ItemValue) (t : Store) : Store :=
  { t with
      list := t.list ++ [⟨t.counter, v⟩]
      counter := if t.counter = 65535 then 1 else t.counter + 1
      writer := if t.writer = .idle then .writing else t.writer }

/-- The shelf with a change of `v` appended and not yet made. -/
def editing (v : ItemValue) (s : Shelf) : Shelf := { s with sto := withEdit v s.sto }

/-- R171, R173: what a request `c` that changes one stored item comes to: STORE-FAULT from a stopped store, FULL from a
full list or while its block holds edits (R58, R99, R138), and else the change `z` with its edit, the reply held while
the write-through flag is set. -/
def StoredChange (c : Instr) (l : Link) (k : ReqKind) (tag : Byte) (held : List HeldEdit) (z : State) (s : State) :
    Prop :=
  (s.shelf.sto.writer = .stopped → exec c s = .next (taken l k tag (formed .storeFault []) s.shelf s))
  ∧ (s.shelf.sto.writer ≠ .stopped → (32 ≤ s.shelf.sto.list.length ∨ held ≠ []) →
      exec c s = .next (taken l k tag (formed .full []) s.shelf s))
  ∧ (StoreTakes s.shelf.sto → held = [] →
      exec c s = .next (taken l k tag (storedReply s.shelf.sto) z.shelf z))

/-- R188: the link unit that holds a request whose reply is being formed. -/
def holding (l : Link) (k : ReqKind) (tag : Byte) (s : State) : State :=
  setLink l (fun u => { u with rx := .hunting, held := some ⟨k.row.code, tag, false, .forming⟩ }) s

/-- The state after an event that leaves the shelf as `x`: the notices made have been offered (log entry 9). -/
def settled (x : Shelf) (s : State) : State := deliverOut { s with shelf := x }

/-- The state after an event that leaves the shelf as `x` and the blocks work for the bus (log entry 4). -/
def worked (x : Shelf) (s : State) : State := settled (pump x) s

/-! ### Frames -/

/-- The two shelves differ in nothing but the alarm unit and the notices made, and not in the condition settings. -/
def SameButAlarms (s x : Shelf) : Prop :=
  x.bp = s.bp ∧ x.scan = s.scan ∧ x.recs = s.recs ∧ x.ords = s.ords ∧ x.eng = s.eng ∧ x.exe = s.exe ∧ x.tim = s.tim
  ∧ x.sto = s.sto ∧ x.rdy = s.rdy ∧ x.pins = s.pins ∧ x.alm.settings = s.alm.settings

/-- They differ in nothing but the engine's run-time records, the executor, the alarm unit and the notices made. -/
def SameButProtection (s x : Shelf) : Prop :=
  x = { s with eng := { s.eng with run := x.eng.run }, exe := x.exe, alm := x.alm, out := x.out }

/-- They differ in nothing but the timing selector, the alarm unit and the notices made. -/
def SameButTiming (s x : Shelf) : Prop := x = { s with tim := x.tim, alm := x.alm, out := x.out }

/-- The backplane controller, the scanner, the readiness controller and the pins are as they were. -/
def SameCards (s x : Shelf) : Prop := x.bp = s.bp ∧ x.scan = s.scan ∧ x.rdy = s.rdy ∧ x.pins = s.pins

/-- The records, definitions and settings that requests change, and the store's list, are as they were. -/
def SameSettings (s x : Shelf) : Prop :=
  x.recs.recs = s.recs.recs ∧ x.recs.identity = s.recs.identity ∧ x.recs.reassign = s.recs.reassign
  ∧ x.eng.defs = s.eng.defs ∧ (∀ r, (refOf x r).defn = (refOf s r).defn ∧ (refOf x r).locked = (refOf s r).locked)
  ∧ x.scan.thresholds = s.scan.thresholds ∧ x.tim.opts = s.tim.opts ∧ x.rdy.opts = s.rdy.opts
  ∧ x.alm.settings = s.alm.settings ∧ x.sto.list = s.sto.list ∧ x.sto.counter = s.sto.counter
  ∧ x.sto.writer = s.sto.writer ∧ x.sto.nvm = s.sto.nvm ∧ x.sto.marks = s.sto.marks

/-! ### Resets -/

/-- R1, R2, R14 to R16, R18, R21, R39, R60, R79, R103, R121, R140, R162, R179, R184, R192: what a power-on reset and a
hard reset both leave. What the links have been offered since is not said here. -/
structure ColdStart (s t : State) : Prop where
  phase : t.shelf.rdy.phase = .discovery
  notArmed : t.shelf.rdy.armCause = none ∧ t.shelf.rdy.armingFor = none ∧ t.shelf.rdy.ms = 0
  slots : ∀ n, at' t.shelf.bp.slots n = ⟨.unknown, none, none, 0⟩
  probeOfSlot0 : t.shelf.bp.bus = some ⟨.backplane, .read 0 0, [], 0, 0, none⟩
  nobodyWaits : t.shelf.bp.probeWaiting = none ∧ t.shelf.bp.waitExecutor = none ∧ t.shelf.bp.waitTiming = none
    ∧ t.shelf.bp.waitRecords = none ∧ t.shelf.bp.waitScanner = none ∧ t.shelf.bp.waitCount = 0
  attention : t.shelf.bp.attention = [] ∧ t.shelf.bp.attLine = s.shelf.bp.attLine
  noFault : t.shelf.bp.firstCause = none ∧ t.shelf.bp.lastFault = none
  notScanning : t.shelf.scan.cycle = .stopped ∧ t.shelf.scan.pending = none ∧ ∀ p, obsOf t.shelf p = Obs.reset
  noOrder : t.shelf.ords.list = [] ∧ t.shelf.ords.next = 1 ∧ ∀ p, at' t.shelf.ords.expired p = false
  noTask : t.shelf.exe = Executor.reset
  selector : t.shelf.tim.st = .freeRun ∧ t.shelf.tim.sel = none ∧ t.shelf.tim.valid = false
    ∧ ∀ p, at' t.shelf.tim.written p = none
  records : (∀ p, condemnOf t.shelf p = none) ∧ t.shelf.recs.candidates = [] ∧ t.shelf.recs.tagList = []
  groups : ∀ g, (runOf t.shelf g).stuck = false ∧ (runOf t.shelf g).active = none ∧ (runOf t.shelf g).plan = none
    ∧ (runOf t.shelf g).far = none ∧ (runOf t.shelf g).wtr = none
  unclaimed : t.lock.holder = .none
  links : ∀ l, (linkOf t l).rx = .hunting ∧ (linkOf t l).atSpace = (linkOf s l).atSpace ∧ (linkOf t l).held = none
    ∧ (linkOf t l).discarded = 0 ∧ (linkOf t l).overrun = 0 ∧ (linkOf t l).resets = 0
  rest : t.shelf.pins = s.shelf.pins ∧ t.pending = s.pending

/-- R177: what a load takes for an item: its value if it is in range, else the default. -/
def itemTaken {α : Type} (ok : α → Bool) (default : α) : Stored α → α
  | .value v => if ok v then v else default
  | .blank | .badCheck => default

/-- R177: the definition stored for a reference is one that a load takes: in range, and naming neither a port whose record
was taken at its default nor a group taken as undefined. -/
def RefLoads (t : Shelf) (r : RefNo) (d : RefDef) : Prop :=
  r.val ≤ 4 ∧ at' t.sto.nvm.refs r = .value d ∧ refOk r d = true
  ∧ (∀ p, d.binding = .port p → ∃ v, at' t.sto.nvm.ports p = .value v ∧ recordOk v = true)
  ∧ (∀ g, d.binding = .group g → defOf t g ≠ none)

/-- R164, R177 to R179, R184: what a power-on reset leaves besides. -/
structure PowerOnLeaves (s t : State) : Prop extends ColdStart s t where
  cause : t.shelf.rdy.cause = .powerOn ∧ t.shelf.rdy.base = 0
  fresh : ∀ g, (runOf t.shelf g).sel = 0 ∧ (runOf t.shelf g).list = []
  lock : t.lock.frozen = false ∧ t.lock.count = 0 ∧ t.lock.mode = if t.lock.code = none then .unguarded else .locked
  store : t.shelf.sto.list = [] ∧ t.shelf.sto.counter = 1 ∧ t.shelf.sto.writer = .idle ∧ t.shelf.sto.failed = 0
    ∧ t.shelf.sto.marks = [] ∧ t.shelf.sto.writtenThrough = none
  nothingInFlight : s.shelf.sto.writer = .idle ∨ s.shelf.sto.writer = .stopped ∨ s.shelf.sto.list = [] →
    t.shelf.sto.nvm = s.shelf.sto.nvm
  loads : let m := t.shelf.sto.nvm
    (∀ p, recOf t.shelf p = itemTaken recordOk ⟨.parked, none, none⟩ (at' m.ports p))
    ∧ t.shelf.recs.identity = itemTaken (charsOk 8) (List.replicate 8 0x20#8) m.identity
    ∧ t.lock.code = itemTaken codeOk none m.craftCode
    ∧ t.shelf.alm.settings = itemTaken settingsOk defaultSettings m.conditions
    ∧ t.shelf.scan.thresholds = itemTaken thresholdsOk ⟨800, 100⟩ m.thresholds
    ∧ t.shelf.recs.reassign = itemTaken reassignOk ⟨false, 2, 15⟩ m.reassign
    ∧ t.shelf.tim.opts = itemTaken timingOptionsOk ⟨false, 10, 24⟩ m.timing
    ∧ t.shelf.rdy.opts = itemTaken startOptionsOk ⟨30, false⟩ m.start
  groupsLoaded : ∀ g d, defOf t.shelf g = some d ↔ at' t.shelf.sto.nvm.groups g = .value (some d) ∧ groupOk d = true
    ∧ (∀ p ∈ d.members, classOf t.shelf p = .inService)
    ∧ ∀ h, h.val < g.val → ∀ e, defOf t.shelf h = some e → ∀ p ∈ d.members, p ∉ e.members
  references : ∀ r, (refOf t.shelf r).locked = false
    ∧ (∀ d, RefLoads t.shelf r d → (refOf t.shelf r).defn = d)
    ∧ ((∀ d, ¬ RefLoads t.shelf r d) → (refOf t.shelf r).defn = ⟨.none, 0, none⟩)
  notForced : t.shelf.tim.forced = none ∧ t.shelf.scan.setup = ⟨0, 48, true, 100, false⟩
  lostPorts : ∀ p, (⟨.portRecord p, .blank⟩ ∈ t.shelf.sto.lost ↔ at' t.shelf.sto.nvm.ports p = .blank)
  inFlight : ∀ e rest, s.shelf.sto.writer = .writing ∨ s.shelf.sto.writer = .retrying → s.shelf.sto.list = e :: rest →
    t.shelf.sto.nvm = s.shelf.sto.nvm.spoil e.value.item

/-- R178, R182 to R184: what a hard reset leaves besides. -/
structure HardResetLeaves (cause : ResetCause) (s t : State) : Prop extends ColdStart s t where
  cause : t.shelf.rdy.cause = cause ∧ t.shelf.rdy.base = s.shelf.rdy.base ∧ t.shelf.rdy.opts = s.shelf.rdy.opts
  lock : t.lock = { s.lock with holder := .none }
  stored : t.shelf.recs.recs = s.shelf.recs.recs ∧ t.shelf.recs.identity = s.shelf.recs.identity
    ∧ t.shelf.recs.reassign = s.shelf.recs.reassign
  definitions : t.shelf.eng.defs = s.shelf.eng.defs ∧ ∀ r, (refOf t.shelf r).defn = (refOf s.shelf r).defn
  settings : t.shelf.scan.thresholds = s.shelf.scan.thresholds ∧ t.shelf.tim.opts = s.shelf.tim.opts
    ∧ t.shelf.alm.settings = s.shelf.alm.settings
  selected : ∀ g, (runOf t.shelf g).sel = (runOf s.shelf g).sel
  store : t.shelf.sto.list = s.shelf.sto.list ∧ t.shelf.sto.counter = s.shelf.sto.counter
    ∧ t.shelf.sto.writer = s.shelf.sto.writer ∧ t.shelf.sto.nvm = s.shelf.sto.nvm ∧ t.shelf.sto.marks = []
    ∧ t.shelf.sto.writtenThrough = s.shelf.sto.writtenThrough ∧ t.shelf.sto.failed = s.shelf.sto.failed

/-! ### Orders -/

/-- R61: what names an order for its whole life: its number, its origin and its ports. -/
def Order.names (o : Order) : Nat × Origin × PortNo × PortNo := (o.num, o.origin, o.src, o.dst)

/-- R54, R71, R74: an order has left the list with an ending. Of the others, orders of condemnations that waited may have
been opened in the place it freed, and have cleared their ports' expired flags; an expiry sets the flag of its source; the
ending is told; no record, definition or setting has changed. -/
def OrderLeaves (ending : OrderEvent) (o : Order) (s x : Shelf) : Prop :=
  (∃ opened : List Order,
    x.ords.list.map Order.names
      = (s.ords.list.filter (fun q => decide (q.num ≠ o.num)) ++ opened).map Order.names
    ∧ (∀ q ∈ opened, q.origin = .reassign ∧ condemnOf s q.src ≠ none)
    ∧ (∀ p, (∀ q ∈ opened, q.src ≠ p ∧ q.dst ≠ p) → at' x.ords.expired p
        = if ending = .expired ∧ p = o.src then true else at' s.ords.expired p))
  ∧ Notice.order ending o.num o.origin o.src o.dst o.circuit o.stage o.granted ∈ x.out
  ∧ SameSettings s x ∧ SameCards s x

/-! ### Control words -/

/-- R104: a word with some fields replaced, each given by its lowest bit, its length and its value; every other bit stays. -/
def withFields (w : Word) (l : List (Nat × Nat × Nat)) : Word := l.foldl (fun w f => setField w f.1 f.2.1 f.2.2) w

/-- R104, R116 and 12.7: the fields that a due word fixes: the role in bits 0 and 1; of a working port bridge-out in bit 4
and select-out in bit 5; of a protect port the bridge channel from bit 8, the carry channel from bit 12, the select flag in
bit 15, the outgoing request's class from bit 16 and its channel from bit 20. Prepared, the protect port of a SHARED group
keeps the outgoing request of the word `w` that is read, or takes Idle with channel 0 where that has another role. -/
def dueFields (due : Due) (w : Word) : List (Nat × Nat × Nat) :=
  match due with
  | .working bridgeOut selectOut => [(0, 2, 1), (4, 1, bridgeOut.toNat), (5, 1, selectOut.toNat)]
  | .protect shared bridge carry cls chan =>
    [(0, 2, if shared then 3 else 2), (8, 3, bridge), (12, 3, carry), (15, 1, if carry = 0 then 0 else 1), (16, 4, cls),
     (20, 3, chan)]
  | .prepared =>
    [(0, 2, 3), (8, 3, 0), (12, 3, 0), (15, 1, 0)]
    ++ if field w 0 2 = 3 then [(16, 4, field w 16 4), (20, 3, field w 20 3)] else [(16, 4, 10), (20, 3, 0)]

/-- A Group Notice of an event of a group, with its fault, is among the notices made. -/
def GroupTold (e : GroupEvent) (g : GroupNo) (fault : Option (Option BusAnswer × Nat × Bool)) (x : Shelf) : Prop :=
  ∃ st sel active far, Notice.group e g st sel active far fault ∈ x.out

/-- R113: a group has become STUCK, from `s` to `x`: the flag is set and told, the selected channel stays, and where no
substitution was pending nothing is left of the group's work and SELECTOR-FAULT is told present, FAR-END-SILENT absent. -/
def GoneStuck (g : GroupNo) (fault : Option BusAnswer × Nat × Bool) (s x : Shelf) : Prop :=
  (runOf x g).stuck = true ∧ (runOf x g).sel = (runOf s g).sel ∧ (execOf x g).bridged = none
  ∧ (execOf x g).owed = [] ∧ (execOf x g).subst = none ∧ GroupTold .stuck g (some fault) x
  ∧ ((execOf s g).subst = none →
      execOf x g = { GroupExec.fresh with prepareDue := (execOf s g).prepareDue } ∧ (runOf x g).plan = none
      ∧ Task.exchange g ∉ x.exe.tasks ∧ Task.adoption g ∉ x.exe.tasks
      ∧ (Obj.group g, Cond.selectorFault) ∈ x.alm.told ∧ (Obj.group g, Cond.farEndSilent) ∉ x.alm.told)
  ∧ ((execOf s g).subst ≠ none → ∀ o,
      s.ords.list.find? (fun o => decide (o.stage = .completing) && decide (o.circuit.map Prod.fst = some g)) = some o →
      orderOf s o.num = some o → OrderLeaves .completedSelectorFault o s x)

/-! ### Invariants -/

/-- Every step from a state with the property leads to one with it. -/
def StepKeeps (Inv : State → Prop) : Prop := ∀ s t : State, Inv s → step s = .next t → Inv t

/-- R164: the failed-unlock count is 0 to 5, and the mode is UNGUARDED exactly while there is no craft code. -/
def LockOk (k : WorkLock) : Prop := k.count ≤ 5 ∧ (k.mode = .unguarded ↔ k.code = none)

/-- R187, R188, R191, R192: the queue and the counts of a link unit stay in their ranges. -/
def UnitOk (u : LinkUnit) : Prop :=
  u.queue.length ≤ 16 ∧ u.lost ≤ 255 ∧ u.discarded ≤ 65535 ∧ u.overrun ≤ 65535 ∧ u.resets ≤ 255

def LinksOk (s : State) : Prop := UnitOk s.linkA ∧ UnitOk s.linkB

/-- Between steps no notice waits to be offered (log entry 9). -/
def NoticesOffered (s : State) : Prop := s.shelf.out = []

/-- R171, R174: the edit list and the commit list stay in their sizes. -/
def StoreOk (t : Store) : Prop := t.list.length ≤ 32 ∧ t.marks.length ≤ 4

/-- The object and condition of an entry. -/
def AlarmEntry.key (e : AlarmEntry) : Obj × Cond := (e.obj, e.cond)

/-- R146, R150, R155: at most 95 ordinary entries, at most one of TABLE-FULL beside them, no two for the same object and
condition, and at most 64 records; TABLE-FULL is no condition that a block reports. -/
def AlarmsOk (a : Alarms) : Prop :=
  usedCount a.table ≤ 95 ∧ (a.table.filter (fun e => decide (e.cond = .tableFull))).length ≤ 1
  ∧ (a.table.map AlarmEntry.key).Nodup ∧ a.history.length ≤ 64 ∧ (∀ oc ∈ a.eff, oc.2 ≠ .tableFull)

/-- R155, R156: an alarm notice is on offer in `y` for the record that a transition of the entry of `o` and `c` makes next
in `x`. -/
def AlarmOffered (o : Obj) (c : Cond) (sev : Severity) (tr : Transition) (x y : Shelf) : Prop :=
  ∃ entry outs used full, Notice.alarm ⟨x.alm.nextSeq, shelfTime x, some o, some c, some sev, tr⟩ entry outs used full ∈ y.out

/-- R150, R151: between `x` and `y` the ordinary entry of `o` and `c` has left the table other than by eviction: TABLE-FULL
has left with it if 88 or fewer remain, and then the conditions left out, in object order, have been given places until the
order was exhausted or 95 were in use. -/
def EntryLeaves (o : Obj) (c : Cond) (x y : Shelf) : Prop :=
  let present := fun (q : Obj × Cond) => q ∈ y.alm.eff ∧ isTold y q.1 q.2 = true ∧ masked y q.1 q.2 = false
  let rest := x.alm.table.filter (fun f => decide (f.key ≠ (o, c)))
  entryOf y o c = none
  ∧ (∀ q ∈ objectOrder, present q → entryOf y q.1 q.2 = none → 95 ≤ usedCount y.alm.table)
  ∧ (∀ before q after, objectOrder = before ++ q :: after → present q → entryOf x q.1 q.2 = none →
      (∀ r ∈ before, present r → entryOf x r.1 r.2 ≠ none) → entryOf y q.1 q.2 ≠ none)
  ∧ ((∀ q ∈ y.alm.eff, entryOf x q.1 q.2 ≠ none) → y.alm.table =
      if usedCount rest ≤ 88 then rest.filter (fun f => decide (f.key ≠ (.shelf, .tableFull))) else rest)

end Sys2Proof.Machine
end

