-- ==== Sys2Proof/Certificates/Slice0/Obligations.lean ====
section
/-! DEFINITION. The statements for the provers, from the rules of spec/: the block as a whole, its resets, the invariants
every step keeps, the links and their requests, and then chapter by chapter what each command does. -/

section

open Sys2Proof Sys2Proof.Machine

/-! ### The block as a whole -/

/-- A step carries out the command at the front of the queue on the state with the queue's rest. -/
def Obligations.StepTakesFrontCommand : Prop :=
  ∀ (c : Instr) (rest : List Instr) (s : State), s.pending = c :: rest → step s = exec c { s with pending := rest }

/-- With no command waiting a step is one millisecond (the model's choice, log entry 2): every running timer advances by
one, and nothing else of the state changes. -/
def Obligations.IdleStepIsOneMillisecond : Prop :=
  ∀ s : State, s.pending = [] →
    ∃ x : Shelf, step s = .next { s with shelf := x }
      ∧ x = { s.shelf with
          bp := { s.shelf.bp with reprobe := x.bp.reprobe }
          scan := { s.shelf.scan with period := advance 1 s.shelf.scan.period }
          recs := { s.shelf.recs with timers := x.recs.timers }
          ords := { s.shelf.ords with list := s.shelf.ords.list.map (fun o => { o with
            stageMs := o.stageMs + 1, lightMs := if o.lightStart = none then o.lightMs else o.lightMs + 1 }) }
          eng := { s.shelf.eng with run := x.eng.run, holdOff := x.eng.holdOff }
          exe := { s.shelf.exe with groups := x.exe.groups, clearWait := advance 1 s.shelf.exe.clearWait }
          tim := { s.shelf.tim with
            refs := x.tim.refs
            acquire := advance 1 s.shelf.tim.acquire
            lockedFor := advance 1 s.shelf.tim.lockedFor
            holdFor := advance 1 s.shelf.tim.holdFor }
          alm := { s.shelf.alm with table := s.shelf.alm.table.map (fun e => { e with soak := advance 1 e.soak }) }
          rdy := { s.shelf.rdy with ms := s.shelf.rdy.ms + 1, armingFor := advance 1 s.shelf.rdy.armingFor } }
      ∧ (∀ n, at' x.bp.reprobe n = advance 1 (at' s.shelf.bp.reprobe n))
      ∧ (∀ p, let t := at' s.shelf.recs.timers p
          at' x.recs.timers p = if t.running = true ∧ t.due = false then { t with ms := t.ms + 1 } else t)
      ∧ (∀ p, at' x.eng.holdOff p = advance 1 (at' s.shelf.eng.holdOff p))
      ∧ (∀ g, runOf x g = { runOf s.shelf g with wtr := advance 1 (runOf s.shelf g).wtr })
      ∧ (∀ g, execOf x g = { execOf s.shelf g with
          confirm := advance 1 (execOf s.shelf g).confirm, retry := advance 1 (execOf s.shelf g).retry })
      ∧ (∀ r, refOf x r = { refOf s.shelf r with qual := advance 1 (refOf s.shelf r).qual })

/-! ### Resets -/

/-- The state at reset: discovery begins with the probe of slot 0, nothing is known of any slot or port, and every stored
item, the lock's among them, has the default of R170. Power applied to a part leaving manufacture gives it (log entry
5). -/
def Obligations.ResetValues : Prop :=
  exec .powerOnReset State.reset = .next State.reset
  ∧ State.reset.shelf.rdy.phase = .discovery ∧ State.reset.shelf.rdy.cause = .powerOn
  ∧ State.reset.shelf.bp.bus = some ⟨.backplane, .read 0 0, [], 0, 0, none⟩
  ∧ (∀ n, at' State.reset.shelf.bp.slots n = ⟨.unknown, none, none, 0⟩)
  ∧ (∀ p, condOf State.reset.shelf p = .unknown)
  ∧ State.reset.shelf.recs.identity = List.replicate 8 0x20#8
  ∧ (∀ p, recOf State.reset.shelf p = ⟨.parked, none, none⟩)
  ∧ (∀ g, defOf State.reset.shelf g = none)
  ∧ (∀ r, (refOf State.reset.shelf r).defn = ⟨.none, 0, none⟩ ∧ (refOf State.reset.shelf r).locked = false)
  ∧ (∀ c, settingOf State.reset.shelf c = (match c with
      | .tableFull => ⟨.major, 0, 0⟩
      | .storeFault | .freeRun | .cardFailed | .selectorFault => ⟨.critical, 25, 10⟩
      | .holdover | .sparePoolLow | .cardMissing | .farEndSilent | .lossOfLight | .lossOfFrame | .tagMismatch | .misPatch
      | .patchUnprotected | .condemnedNoSpare => ⟨.major, 25, 10⟩
      | .busFault | .protectUnavailable | .referenceLost | .degraded | .lightOnSpare | .moveExpired => ⟨.minor, 25, 10⟩
      | .scanOverrun | .barred | .pinned => ⟨.warning, 25, 10⟩))
  ∧ State.reset.shelf.scan.thresholds = ⟨800, 100⟩ ∧ State.reset.shelf.recs.reassign = ⟨false, 2, 15⟩
  ∧ State.reset.shelf.tim.opts = ⟨false, 10, 24⟩ ∧ State.reset.shelf.rdy.opts = ⟨30, false⟩
  ∧ State.reset.shelf.sto.list = [] ∧ State.reset.shelf.sto.counter = 1 ∧ State.reset.shelf.sto.lost.length = 69
  ∧ State.reset.lock = ⟨.none, none, .unguarded, false, 0⟩ ∧ State.reset.pending = []

/-- The invariants hold at reset. -/
def Obligations.InvariantsHoldAtReset : Prop :=
  LockOk State.reset.lock ∧ LinksOk State.reset ∧ NoticesOffered State.reset ∧ StoreOk State.reset.shelf.sto
  ∧ AlarmsOk State.reset.shelf.alm

/-- A power-on reset: discovery begins afresh, nothing of the run before it is kept, and the store's list is empty; a
write in flight leaves its item spoiled (R178), every stored item is loaded (R177), and the mode of the work lock follows
the craft code loaded (R164). That the levels of the inputs are kept (log entry 6) and that a group has no active request
until it is evaluated (log entry 29) are the model's choices. -/
def Obligations.PowerOnResetClears : Prop :=
  ∀ s : State, ∃ t : State, exec .powerOnReset s = .next t ∧ PowerOnLeaves s t

/-- A hard reset by the reset pin. That the levels of the inputs are kept (log entry 6) and that a group has no active
request until it is evaluated (log entry 29) are the model's choices. -/
def Obligations.HardResetKeepsSettings : Prop :=
  ∀ s : State, ∃ t : State, exec .hardReset s = .next t ∧ HardResetLeaves .pin s t

/-- R182: the retain flag in force decides what a hard reset keeps; a power-on reset keeps none of it. -/
def Obligations.RetainFlagDecides : Prop :=
  ∀ s : State, ∃ t u : State, exec .hardReset s = .next t ∧ exec .powerOnReset s = .next u
    ∧ (s.shelf.rdy.opts.retain = true →
        t.shelf.scan.setup = s.shelf.scan.setup
        ∧ (∀ g, (runOf t.shelf g).list
            = (runOf s.shelf g).list.filter (fun e => decide (e.cls = .barred) || decide (e.cls = .pinned)))
        ∧ (∀ r, (refOf t.shelf r).locked = (refOf s.shelf r).locked) ∧ t.shelf.tim.forced = s.shelf.tim.forced)
    ∧ (s.shelf.rdy.opts.retain = false →
        t.shelf.scan.setup = ⟨0, 48, true, 100, false⟩ ∧ (∀ g, (runOf t.shelf g).list = [])
        ∧ (∀ r, (refOf t.shelf r).locked = false) ∧ t.shelf.tim.forced = none)
    ∧ u.shelf.scan.setup = ⟨0, 48, true, 100, false⟩ ∧ (∀ g, (runOf u.shelf g).list = [])
    ∧ (∀ r, (refOf u.shelf r).locked = false) ∧ u.shelf.tim.forced = none

/-! ### Invariants -/

/-- R164: every step keeps the failed-unlock count at most 5 and the mode UNGUARDED exactly while there is no code. -/
def Obligations.LockOkIsKept : Prop := StepKeeps (fun s => LockOk s.lock)

/-- Every step keeps the queue of each link at most 16 notices and its counts in their ranges, and leaves no notice to be
offered. -/
def Obligations.LinksOkIsKept : Prop := StepKeeps LinksOk ∧ StepKeeps NoticesOffered

/-- Every step keeps the edit list at most 32 edits and the commit list at most 4 marks. -/
def Obligations.StoreOkIsKept : Prop := StepKeeps (fun s => StoreOk s.shelf.sto)

/-- Every step keeps the alarm table in its places, with one entry for an object and condition, and the history at most
64 records. -/
def Obligations.AlarmsOkIsKept : Prop := StepKeeps (fun s => AlarmsOk s.shelf.alm)

/-! ### Requests on a link -/

/-- R189: the first failing check of a taken request gives its outcome, and the request has no other effect: UNKNOWN-KIND,
BAD-FORM, NOT-READY in DISCOVERY, NOT-CLAIMED (R163), and what the work lock answers (R165). -/
def Obligations.FirstFailedCheckAnswers : Prop :=
  ∀ (k : ReqKind) (l : Link) (tag : Byte) (body : List Byte) (s : State), Free l s →
    (∀ kind : Byte, exec (.unknownKind l kind tag body) s
      = .next (deliverOut (setLink l (answered kind tag (formed .unknownKind [])) s)))
    ∧ (bodyFits k body = false →
        exec (k.instr l tag body) s = .next (taken l k tag (formed .badForm []) s.shelf s))
    ∧ (bodyFits k body = true → s.shelf.rdy.phase = .discovery → k ≠ .identify → k ≠ .linkStatus →
        exec (k.instr l tag body) s = .next (taken l k tag (formed .notReady []) s.shelf s))
    ∧ (bodyFits k body = true → s.shelf.rdy.phase ≠ .discovery → k.row.type ≠ .watch → s.lock.holder ≠ holderOf l →
        exec (k.instr l tag body) s = .next (taken l k tag (formed .notClaimed []) s.shelf s))
    ∧ (bodyFits k body = true → s.shelf.rdy.phase ≠ .discovery → k.row.type = .gated → s.lock.holder = holderOf l →
        s.lock.mode = .locked →
        exec (k.instr l tag body) s = .next (taken l k tag
          (formed (if s.lock.frozen then .frozen else if s.lock.count = 5 then .expired else .locked) []) s.shelf s))

/-- R188: a request frame that completes while a request is held is counted as an overrun and has no other effect. -/
def Obligations.HeldRequestOverruns : Prop :=
  ∀ (k : ReqKind) (l : Link) (kind tag : Byte) (body : List Byte) (s : State),
    (linkOf s l).atSpace = false → (linkOf s l).held ≠ none →
    let t := setLink l (fun u => { u with rx := .hunting, overrun := bump 65535 u.overrun }) s
    exec (.overrun l) s = .next t ∧ exec (k.instr l tag body) s = .next t ∧ exec (.unknownKind l kind tag body) s = .next t

/-- A whole frame, built with its sync byte, its length and its check, is the request it carries: every byte of kind, tag
and body arrives (R186, R187). That the command FRAME_DISCARDED carries the bytes that arrive is the model's choice (log
entry 8). -/
def Obligations.WholeFrameIsTheRequest : Prop :=
  ∀ (l : Link) (tag : Byte) (body : List Byte) (s : State), body.length ≤ 248 →
    (linkOf s l).atSpace = false → (linkOf s l).rx = .hunting →
    (∀ k : ReqKind, exec (.frameDiscarded l (frameBytes k.row.code tag body)) s = exec (k.instr l tag body) s)
    ∧ (∀ kind : Byte, kind.toNat < 0x80 → ReqKind.ofCode kind = none →
        exec (.frameDiscarded l (frameBytes kind tag body)) s = exec (.unknownKind l kind tag body) s)

/-- R187: a frame with a length out of range, a check that does not agree or a kind of 0x80 or above is discarded and
counted, and the receiver hunts again; so is a frame in reception at the inter-byte limit. While hunting, a byte other
than 0xA7 is passed over. That FRAME_DISCARDED carries the bytes that arrive (log entry 8) and that an inter-byte limit
while hunting changes nothing (log entry 1) are the model's choices. -/
def Obligations.BadFramesAreDiscarded : Prop :=
  ∀ (l : Link) (s : State), (linkOf s l).atSpace = false →
    let t := setLink l (fun u => { u with rx := .hunting, discarded := bump 65535 u.discarded }) s
    ((linkOf s l).rx = .hunting →
      (∀ n : Byte, n.toNat < 2 ∨ 250 < n.toNat → exec (.frameDiscarded l [0xA7#8, n]) s = .next t)
      ∧ (∀ (kind tag c1 c2 : Byte) (body : List Byte), body.length ≤ 248 →
          [c1, c2] ≠ checkBytes (byte1 (2 + body.length) :: kind :: tag :: body) →
          exec (.frameDiscarded l (0xA7#8 :: byte1 (2 + body.length) :: kind :: tag :: body ++ [c1, c2])) s = .next t)
      ∧ (∀ (kind tag : Byte) (body : List Byte), body.length ≤ 248 → 0x80 ≤ kind.toNat →
          exec (.frameDiscarded l (frameBytes kind tag body)) s = .next t)
      ∧ (∀ b : Byte, b ≠ 0xA7#8 → exec (.frameDiscarded l [b]) s = .next s)
      ∧ exec (.interByteTimeout l) s = .next s)
    ∧ (∀ bytes, (linkOf s l).rx = .inFrame bytes → exec (.interByteTimeout l) s = .next t)

/-- R192, R162: a link reset with no Restart awaiting its reply: the receiver is held reset, the held request, the frame
being sent and the queue are gone, the frame in reception is counted as a discard, the claim is freed if the link held
it, with its notice after the emptying, and nothing else changes. The line's return to mark lets the receiver hunt. That a
line already at space is reset and counted once more, and that one already at mark is left as it is, is the model's choice
(log entry 1). -/
def Obligations.LinkResetClearsItsUnit : Prop :=
  ∀ (l : Link) (s : State),
    let u := linkOf s l
    let v : LinkUnit := ⟨.heldReset, true, none, none, [], 0,
      (match u.rx with
        | .inFrame _ => bump 65535 u.discarded
        | .hunting | .heldReset => u.discarded), u.overrun, bump 255 u.resets⟩
    let t := setLink l (fun _ => v) s
    (restartHeld u = false → s.lock.holder ≠ holderOf l → exec (.linkReset l) s = .next t)
    ∧ (restartHeld u = false → s.lock.holder = holderOf l → exec (.linkReset l) s
        = .next (deliverOut { t with
            lock := { s.lock with holder := .none }, shelf := tell (.claim .none .linkReset) s.shelf }))
    ∧ exec (.lineReturnsToMark l) s = .next (setLink l (fun u => { u with
        atSpace := false, rx := if u.rx = .heldReset then .hunting else u.rx }) s)

/-- R190: at the end of a frame the transmitter starts the pending reply if there is one, and otherwise the notice at the
head of the queue; a request whose reply has been sent is held no longer (R188), and one whose reply waits for its edit
still is (R173). R191: the notices of a step are offered to both link units, each in the order made (log entry 9): one joins
the tail of a queue of fewer than 16 with the lost count, which returns to 0, and an idle transmitter starts the head, or the
reply that is pending; at 16 it is dropped and the lost count goes up to at most 255. A line at space makes no difference. -/
def Obligations.TransmitEndStartsTheNext : Prop :=
  (∀ (l : Link) (s : State) (f : TxFrame), (linkOf s l).tx = some f →
    (∀ kind tag b r, f.isReply = false → (linkOf s l).held = some ⟨kind, tag, b, .ready r⟩ →
      exec (.transmitEnd l) s = .next (setLink l (fun u => { u with
        tx := some ⟨true, frameBytes (kind + 0x80#8) tag (r.outcome.code :: r.data)⟩
        held := some ⟨kind, tag, b, .sending⟩ }) s))
    ∧ (∀ held : Option HeldRequest,
        (f.isReply = true ∧ restartHeld (linkOf s l) = false ∧ held = none)
          ∨ (f.isReply = false ∧ held = (linkOf s l).held
              ∧ (held = none ∨ ∃ kind tag b n r, held = some ⟨kind, tag, b, .awaiting n r⟩)) →
        (∀ q rest, (linkOf s l).queue = q :: rest → exec (.transmitEnd l) s = .next (setLink l (fun u => { u with
          tx := some ⟨false, frameBytes q.notice.kind 0#8 (byte1 q.lost :: q.notice.body)⟩
          held := held
          queue := rest }) s))
        ∧ ((linkOf s l).queue = [] →
            exec (.transmitEnd l) s = .next (setLink l (fun u => { u with tx := none, held := held }) s))))
  ∧ (∀ s : State, (s.shelf.out = [] → deliverOut s = s)
      ∧ ∀ n rest, s.shelf.out = n :: rest → deliverOut s = deliverOut { s with
          shelf := { s.shelf with out := rest }, linkA := offer n s.linkA, linkB := offer n s.linkB })
  ∧ ∀ (n : Notice) (u : LinkUnit),
      let v : LinkUnit := { u with queue := u.queue ++ [⟨u.lost, n⟩], lost := 0 }
      (16 ≤ u.queue.length → offer n u = { u with lost := if u.lost < 255 then u.lost + 1 else u.lost })
      ∧ (u.queue.length < 16 →
          (u.tx ≠ none → offer n u = v)
          ∧ (u.tx = none →
              (∀ kind tag b, u.held = some ⟨kind, tag, b, .forming⟩ → offer n u = v)
              ∧ (∀ kind tag b r, u.held = some ⟨kind, tag, b, .ready r⟩ → offer n u = { v with
                  tx := some ⟨true, frameBytes (kind + 0x80#8) tag (r.outcome.code :: r.data)⟩
                  held := some ⟨kind, tag, b, .sending⟩ })
              ∧ (u.held = none ∨ (∃ kind tag b m r, u.held = some ⟨kind, tag, b, .awaiting m r⟩)
                    ∨ (∃ kind tag b, u.held = some ⟨kind, tag, b, .sending⟩) →
                  ∀ q rest, v.queue = q :: rest → offer n u = { v with
                    tx := some ⟨false, frameBytes q.notice.kind 0#8 (byte1 q.lost :: q.notice.body)⟩
                    queue := rest })))

/-- R183: a Restart replies DONE, and the hard reset follows the sending of its reply, or the link reset that comes before
it. -/
def Obligations.RestartResetsAfterItsReply : Prop :=
  ∀ (l : Link) (tag : Byte) (s : State),
    (∀ body, Accepts l .restart body s → exec (.restart l tag body) s
      = .next (deliverOut (setLink l (fun u => startTx { u with
          rx := .hunting, held := some ⟨0x07#8, tag, true, .ready ⟨.done, []⟩⟩ }) s)))
    ∧ (∀ h f, (linkOf s l).held = some h → h.restart = true →
        ((linkOf s l).tx = some f → f.isReply = true →
          ∃ t, exec (.transmitEnd l) s = .next t ∧ HardResetLeaves .restart s t)
        ∧ (∃ t, exec (.linkReset l) s = .next t ∧ t.shelf.rdy.cause = .restart ∧ t.shelf.rdy.phase = .discovery
            ∧ t.lock = { s.lock with holder := .none }))

/-! ### The claim and the work lock (chapter 9) -/

/-- R160: Claim is a test and set of the claim holder. -/
def Obligations.ClaimIsTestAndSet : Prop :=
  ∀ (l : Link) (tag : Byte) (body : List Byte) (s : State), Accepts l .claim body s →
    (s.lock.holder = .none → exec (.claim l tag body) s
      = .next (taken l .claim tag (formed .done [0#8]) (tell (.claim (holderOf l) .claim) s.shelf)
          { s with lock := { s.lock with holder := holderOf l } }))
    ∧ (s.lock.holder = holderOf l → exec (.claim l tag body) s = .next (taken l .claim tag (formed .done [1#8]) s.shelf s))
    ∧ (s.lock.holder ≠ .none → s.lock.holder ≠ holderOf l →
        exec (.claim l tag body) s = .next (taken l .claim tag (formed .done [2#8]) s.shelf s))

/-- R161: Release frees the claim of its holder and changes nothing for another link. -/
def Obligations.ReleaseFreesTheClaim : Prop :=
  ∀ (l : Link) (tag : Byte) (body : List Byte) (s : State), Accepts l .release body s →
    (s.lock.holder = holderOf l → exec (.release l tag body) s
      = .next (taken l .release tag (formed .done [0#8]) (tell (.claim .none .release) s.shelf)
          { s with lock := { s.lock with holder := .none } }))
    ∧ (s.lock.holder ≠ holderOf l →
        exec (.release l tag body) s = .next (taken l .release tag (formed .done [1#8]) s.shelf s))

/-- R167: Unlock; the count of 5 refuses Clear Craft Code too, and a power-on reset clears it. -/
def Obligations.UnlockComparesTheCode : Prop :=
  ∀ (l : Link) (tag : Byte) (body : List Byte) (s : State), Accepts l .unlock body s →
    let answer := fun (o : Outcome) (k : WorkLock) =>
      exec (.unlock l tag body) s = .next (taken l .unlock tag (formed o []) s.shelf { s with lock := k })
    (s.lock.frozen = true → answer .frozen s.lock)
    ∧ (s.lock.frozen = false → s.lock.count = 5 → answer .expired s.lock
        ∧ exec (.clearCraftCode l tag body) s = .next (taken l .clearCraftCode tag (formed .expired []) s.shelf s))
    ∧ (s.lock.frozen = false → s.lock.count < 5 →
        (s.lock.mode ≠ .locked → answer .done s.lock)
        ∧ (s.lock.mode = .locked → s.lock.code = some body → answer .done { s.lock with mode := .opened, count := 0 })
        ∧ (s.lock.mode = .locked → s.lock.code ≠ some body →
            answer (if s.lock.count = 4 then .expired else .locked) { s.lock with count := s.lock.count + 1 }))
    ∧ (∃ t, exec .powerOnReset s = .next t ∧ t.lock.count = 0)

/-- R166: Set Craft Code and Clear Craft Code, by the frozen flag, the count and the mode. -/
def Obligations.CraftCodeChanges : Prop :=
  ∀ (l : Link) (tag : Byte) (body : List Byte) (s : State),
    (Accepts l .setCraftCode body s →
      let refused := fun (o : Outcome) =>
        exec (.setCraftCode l tag body) s = .next (taken l .setCraftCode tag (formed o []) s.shelf s)
      let change := StoredChange (.setCraftCode l tag body) l .setCraftCode tag []
        { s with lock := { s.lock with code := some body, mode := .opened }
                 shelf := editing (.craftCode (some body)) s.shelf } s
      (s.lock.frozen = true → refused .frozen)
      ∧ (s.lock.frozen = false →
          (s.lock.mode = .locked → refused .locked)
          ∧ (s.lock.mode = .unguarded → change)
          ∧ (s.lock.mode = .opened → s.lock.code = some body → refused .done)
          ∧ (s.lock.mode = .opened → s.lock.code ≠ some body → change)))
    ∧ (Accepts l .clearCraftCode body s →
        let refused := fun (o : Outcome) (k : WorkLock) => exec (.clearCraftCode l tag body) s
          = .next (taken l .clearCraftCode tag (formed o []) s.shelf { s with lock := k })
        (s.lock.frozen = true → refused .frozen s.lock)
        ∧ (s.lock.frozen = false → s.lock.count = 5 → refused .expired s.lock)
        ∧ (s.lock.frozen = false → s.lock.count < 5 →
            (s.lock.mode = .unguarded → refused .conflict s.lock)
            ∧ (s.lock.mode = .locked → refused .locked s.lock)
            ∧ (s.lock.mode = .opened → s.lock.code = some body →
                StoredChange (.clearCraftCode l tag body) l .clearCraftCode tag []
                  { s with lock := { s.lock with code := none, mode := .unguarded }
                           shelf := editing (.craftCode none) s.shelf } s)
            ∧ (s.lock.mode = .opened → s.lock.code ≠ some body →
                refused (if s.lock.count = 4 then .expired else .conflict)
                  { s.lock with count := s.lock.count + 1 })))

/-- R168: Lock and Freeze, and what a set frozen flag refuses until power-on. -/
def Obligations.LockAndFreezeCloseTheLock : Prop :=
  ∀ (l : Link) (tag : Byte) (body : List Byte) (s : State),
    (Accepts l .lock body s →
      let answer := fun (o : Outcome) (k : WorkLock) =>
        exec (.lock l tag body) s = .next (taken l .lock tag (formed o []) s.shelf { s with lock := k })
      (s.lock.frozen = true → answer .frozen s.lock)
      ∧ (s.lock.frozen = false →
          (s.lock.mode = .unguarded → answer .conflict s.lock)
          ∧ (s.lock.mode = .opened → answer .done { s.lock with mode := .locked })
          ∧ (s.lock.mode = .locked → answer .done s.lock)))
    ∧ (Accepts l .freeze body s → exec (.freeze l tag body) s
        = .next (taken l .freeze tag (formed .done []) s.shelf { s with lock := { s.lock with frozen := true } }))
    ∧ (s.lock.frozen = true → ∀ k, k = .setCraftCode ∨ k = .clearCraftCode ∨ k = .unlock ∨ k = .lock →
        Accepts l k body s → exec (k.instr l tag body) s = .next (taken l k tag (formed .frozen []) s.shelf s))
    ∧ (s.lock.frozen = true → s.lock.mode = .locked → ∀ k : ReqKind, k.row.type = .gated → Free l s →
        bodyFits k body = true → s.shelf.rdy.phase ≠ .discovery → s.lock.holder = holderOf l →
        exec (k.instr l tag body) s = .next (taken l k tag (formed .frozen []) s.shelf s))
    ∧ (∃ t, exec .powerOnReset s = .next t ∧ (t.lock.code ≠ none → t.lock.mode = .locked))

/-! ### Shelf time, arming and start options (chapter 11) -/

/-- R184: shelf time is the seconds counted plus the base; the resets, a link reset and Set Time. -/
def Obligations.SetTimeMovesShelfTime : Prop :=
  ∀ s : State,
    shelfTime s.shelf = (s.shelf.rdy.ms / 1000 + s.shelf.rdy.base) % 4294967296
    ∧ (∃ t, exec .powerOnReset s = .next t ∧ t.shelf.rdy.base = 0 ∧ t.shelf.rdy.ms = 0)
    ∧ (∃ t, exec .hardReset s = .next t ∧ t.shelf.rdy.base = s.shelf.rdy.base ∧ t.shelf.rdy.ms = 0)
    ∧ (∀ l, restartHeld (linkOf s l) = false → ∃ t, exec (.linkReset l) s = .next t ∧ t.shelf.rdy = s.shelf.rdy)
    ∧ (∀ l tag body, Accepts l .setTime body s → ∃ x : Shelf,
        exec (.setTime l tag body) s = .next (taken l .setTime tag (formed .done []) x s)
        ∧ shelfTime x = nat4At body 0
        ∧ x = { s.shelf with
            rdy := { s.shelf.rdy with base := x.rdy.base }
            recs := { s.shelf.recs with candidates := x.recs.candidates }
            ords := { s.shelf.ords with list := x.ords.list } }
        ∧ List.Forall₂ (fun a b => b.port = a.port
            ∧ (b.time + shelfTime s.shelf) % 4294967296 = (a.time + nat4At body 0) % 4294967296)
            s.shelf.recs.candidates x.recs.candidates
        ∧ List.Forall₂ (fun a b => b = { a with stageStart := b.stageStart, lightStart := b.lightStart }
            ∧ (b.stageStart + shelfTime s.shelf) % 4294967296 = (a.stageStart + nat4At body 0) % 4294967296
            ∧ (∀ m, b.lightStart = some m → ∃ n, a.lightStart = some n
                ∧ (m + shelfTime s.shelf) % 4294967296 = (n + nat4At body 0) % 4294967296)
            ∧ (b.lightStart = none ↔ a.lightStart = none))
            s.shelf.ords.list x.ords.list)

/-- R180, R179: in WATCH an Arm, or the end of the arming delay, starts arming; with no group to adopt the shelf is ARMED
at once. In ARMING and ARMED an Arm changes nothing. The entry to WATCH starts the arming delay and the first cycle, with
its Start-up Notice. -/
def Obligations.ArmingIsStartedOnce : Prop :=
  ∀ s : State,
    (∀ l tag body, Accepts l .arm body s →
      (s.shelf.rdy.phase = .watch →
        exec (.arm l tag body) s
          = .next (taken l .arm tag (formed .done []) (pump (startArming .arm s.shelf)) s))
      ∧ (s.shelf.rdy.phase ≠ .watch →
        exec (.arm l tag body) s = .next (taken l .arm tag (formed .done []) s.shelf s)))
    ∧ (s.shelf.rdy.armingFor ≠ none → exec .armingDelayExpiry s = .next (worked (startArming .delay s.shelf) s))
    ∧ (s.shelf.rdy.phase = .watch → ∀ cause,
        let x := startArming cause s.shelf
        x.rdy.armCause = some cause ∧ x.rdy.armingFor = none
        ∧ (x.rdy.phase = if (∃ g, (defOf s.shelf g).isSome = true ∧ (execOf s.shelf g).prepareDue = false) then .arming
            else .armed))
    ∧ (s.shelf.rdy.phase ≠ .watch → ∀ cause, startArming cause s.shelf = s.shelf)
    ∧ (∀ x : Shelf, (enterWatch x).rdy = { x.rdy with phase := .watch, armingFor := some 0 }
        ∧ (enterWatch x).scan.cycle = .running 0 false ∧ (enterWatch x).scan.period = some 0
        ∧ startUpNotice { x with rdy := { x.rdy with phase := .watch, armingFor := some 0 } } ∈ (enterWatch x).out)

/-- R181: Set Start Options. -/
def Obligations.StartOptionsChange : Prop :=
  ∀ (l : Link) (tag : Byte) (body : List Byte) (s : State), Accepts l .setStartOptions body s →
    let refused := fun (o : Outcome) =>
      exec (.setStartOptions l tag body) s = .next (taken l .setStartOptions tag (formed o []) s.shelf s)
    let delay := nat2At body 0
    (delay < 5 ∨ 300 < delay ∨ 1 < byteAt body 2 → refused .badValue)
    ∧ (∀ retain : Bool, 5 ≤ delay → delay ≤ 300 → byteAt body 2 = retain.toNat →
        (s.shelf.rdy.opts = ⟨delay, retain⟩ → refused .done)
        ∧ (s.shelf.rdy.opts ≠ ⟨delay, retain⟩ → ∃ x : Shelf,
            StoredChange (.setStartOptions l tag body) l .setStartOptions tag [] { s with shelf := pump x } s
            ∧ x.rdy.opts = ⟨delay, retain⟩ ∧ x.recs.recs = s.shelf.recs.recs ∧ x.eng.defs = s.shelf.eng.defs
            ∧ ((∀ ms, s.shelf.rdy.armingFor = some ms → ms < 1000 * delay) →
                x = { editing (.start ⟨delay, retain⟩) s.shelf with
                  rdy := { s.shelf.rdy with opts := ⟨delay, retain⟩ } })
            ∧ (∀ ms, s.shelf.rdy.phase = .watch → s.shelf.rdy.armingFor = some ms → 1000 * delay ≤ ms →
                x.rdy.phase ≠ .watch ∧ x.rdy.armCause = some .delay)))

/-! ### Reads -/

/-- The requests that report and check nothing of their own: each replies DONE with its data and changes nothing; and what
Identify (R185), Lock Status (R169), Link Status (R193), Scan Status (R38), Read Spares (R59), Read Move Orders (R78), Read
Timing (R139) and Store Status (R176) report, field by field. The part revision is a free value (log entry 11). The model's
choices (log entry 10) are: the width of Identify's names and the code of the link at the end of Link Status; the bytes of an
absent value; one byte for each count that 12.7 gives no width; the flags of Scan Status, 1 for asserted and for running; the
pool count and the number of orders as the count bytes of their lists; the low 32 bits of a longer time; in Read Timing the
byte for a force's 'USABLE since', the one remaining time of the selector's state, the grade write in progress as its port
alone, 0xFF while there is none, and no count byte before the references and ports; the number 0 of an item of which there is
only one. A grade write is in progress once it is granted (R7). -/
def Obligations.StatusReadsChangeNothing : Prop :=
  ∀ (l : Link) (tag : Byte) (s : State),
    let reads := fun (k : ReqKind) (data : List Byte) => ∀ body, Accepts l k body s →
      exec (k.instr l tag body) s = .next (taken l k tag (formed .done data) s.shelf s)
    reads .identify (identifyData s)
    ∧ reads .linkStatus (linkStatusData l (holding l .linkStatus tag s))
    ∧ reads .lockStatus (lockStatusData l s)
    ∧ reads .scanStatus (scanStatusData s.shelf)
    ∧ reads .readSpares (readSparesData s.shelf)
    ∧ reads .readMoveOrders (readMoveOrdersData s.shelf)
    ∧ reads .readTiming (readTimingData s.shelf)
    ∧ reads .storeStatus (storeStatusData s)
    ∧ lockStatusData l s
      = [byte1 s.lock.mode.code, if s.lock.frozen then 1#8 else 0#8, byte1 s.lock.count,
         if s.lock.code = none then 0#8 else 1#8,
         if ∃ e ∈ s.shelf.sto.list, e.value.item = .craftCode then 1#8 else 0#8,
         byte1 s.lock.holder.code, if s.lock.holder = holderOf l then 1#8 else 0#8]
    ∧ identifyData s = "SZ48    ".toList.map (fun c => byte1 c.toNat) ++ "Sotrize ".toList.map (fun c => byte1 c.toNat)
        ++ [Config.partRevision] ++ s.shelf.recs.identity
        ++ [48#8, byte1 s.shelf.rdy.phase.code, byte1 s.shelf.rdy.cause.code] ++ bytes4 (shelfTime s.shelf)
    ∧ linkStatusData l s = [s.linkA, s.linkB].flatMap (fun u =>
        [byte1 (u.discarded / 256), byte1 u.discarded, byte1 (u.overrun / 256), byte1 u.overrun, byte1 u.lost,
         byte1 u.queue.length, if u.held = none then 0#8 else 1#8,
         (match u.held with
           | some ⟨_, _, _, .awaiting _ _⟩ => 1#8
           | some ⟨_, _, _, .forming⟩ | some ⟨_, _, _, .ready _⟩ | some ⟨_, _, _, .sending⟩ | none => 0#8),
         if u.atSpace then 1#8 else 0#8, byte1 u.resets])
        ++ [if l = .a then 0#8 else 1#8]
    ∧ (let x := s.shelf
       let flag := fun (b : Bool) => if b then 1#8 else 0#8
       let port := fun (p : PortNo) => byte1 p.val
       let ports := fun (l : List PortNo) => byte1 l.length :: l.map port
       let time := fun (t : Option Nat) => match t with
         | none => [0xFF#8, 0xFF#8, 0xFF#8, 0xFF#8]
         | some n => bytes4 n
       let ref := fun (r : Option RefNo) => match r with
         | none => 0xFF#8
         | some r => byte1 r.val
       let grade := fun (g : Option Grade) => match g with
         | none => 0#8
         | some g => byte1 g.code
       let setup := fun (u : ScanSetup) => [port u.first, byte1 u.count, flag (!u.up)] ++ bytes2 u.period ++ [flag u.quiet]
       let pool := (List.finRange 48).filter (fun p => decide (classOf x p = .spare) && !inOrder x p)
       let waiting := (List.finRange 48).filter (fun p => (condemnOf x p).isSome && !isSource x p)
       let t := x.tim
       let u := x.sto
       scanStatusData x = setup x.scan.setup
           ++ (match x.scan.pending with
             | none => List.replicate 7 0#8
             | some u => 1#8 :: setup u)
           ++ [flag x.scan.dropped, flag x.pins.battery, flag (x.scan.setup.quiet || x.pins.battery),
             (match x.scan.cycle with
               | .running _ _ => 1#8
               | .stopped | .waiting => 0#8),
             (match x.scan.cycle with
               | .stopped => 0#8
               | .running _ _ | .waiting => 1#8), flag x.scan.overrun]
           ++ bytes2 x.scan.thresholds.degrade ++ bytes2 x.scan.thresholds.clear
       ∧ readSparesData x = ports pool
           ++ [flag x.recs.reassign.on, byte1 x.recs.reassign.mark, byte1 x.recs.reassign.minutes]
           ++ (byte1 x.recs.candidates.length :: x.recs.candidates.flatMap (fun c => port c.port :: bytes4 c.time))
           ++ (byte1 waiting.length :: waiting.flatMap (fun p => [port p, match condemnOf x p with
             | some c => byte1 c.kind.code
             | none => 0xFF#8]))
       ∧ readMoveOrdersData x = (byte1 x.ords.list.length :: x.ords.list.flatMap (fun o =>
             [byte1 o.num, byte1 o.origin.code, port o.src, port o.dst]
             ++ (match o.circuit with
               | none => [0xFF#8, 0xFF#8]
               | some (g, c) => [byte1 g.val, byte1 c])
             ++ [flag o.unprotected] ++ bytes2 o.dark ++ bytes2 o.light ++ [byte1 o.stage.code] ++ bytes4 o.stageStart
             ++ time o.lightStart ++ [flag o.granted] ++ bytes4 o.stageMs
             ++ time (match o.stage with
               | .awaitDark => some (1000 * o.dark - o.stageMs)
               | .awaitLight => some (1000 * o.light - o.lightMs)
               | .verifying => some (5000 - o.stageMs)
               | .queued | .holding | .completing => none)
             ++ [flag (misPatch x o), flag (patchUnprotected o)]))
           ++ [byte1 x.ords.next] ++ ports ((List.finRange 48).filter (fun p => at' x.ords.expired p))
       ∧ readTimingData x = [byte1 t.st.code, ref t.sel, ref t.forced, flag t.forceSeen, byte1 (shelfGrade x).code,
             grade t.last, flag t.valid]
           ++ time (match t.st with
             | .acquiring => t.acquire.map (5000 - ·)
             | .locked => if t.valid then none else t.lockedFor.map (60000 - ·)
             | .holdover => t.holdFor.map (3600000 * t.opts.holdover - ·)
             | .freeRun => none)
           ++ [flag t.opts.revertive, byte1 t.opts.qualify, byte1 t.opts.holdover]
           ++ (List.finRange 6).flatMap (fun r =>
             let y := refOf x r
             [byte1 y.defn.binding.code.1, (match y.defn.binding.code.2 with
               | none => 0xFF#8
               | some n => byte1 n), byte1 y.defn.priority, grade y.defn.override, flag y.locked, byte1 y.state.code,
               byte1 (gradeInUse x r).code, (match y.deriv with
                 | none => 0xFF#8
                 | some p => port p)]
             ++ time (y.qual.map (1000 * t.opts.qualify - ·)) ++ [flag (isTold x (.ref r) .referenceLost)])
           ++ (List.finRange 48).flatMap (fun p => [byte1 (at' t.planned p).code, grade (at' t.written p)])
           ++ ports t.list
           ++ [(match t.writing, x.bp.bus with
               | some (p, _), some b => if b.req = .timing then port p else 0xFF#8
               | none, _ | some _, none => 0xFF#8), byte1 t.held.length, flag x.pins.bc1, flag x.pins.bc2]
       ∧ storeStatusData s = (byte1 u.list.length :: u.list.flatMap (fun e =>
             [byte1 e.value.item.code.1, byte1 e.value.item.code.2] ++ bytes2 e.num))
           ++ [byte1 u.writer.code]
           ++ (match u.list with
             | [] => [0xFF#8, 0xFF#8]
             | e :: _ => if u.writer = .stopped then [byte1 e.value.item.code.1, byte1 e.value.item.code.2]
               else [0xFF#8, 0xFF#8])
           ++ bytes2 (u.writtenThrough.getD 0)
           ++ [byte1 u.failed, flag u.writeThrough, byte1 u.poolCount, byte1 u.lowMark,
             byte1 (([s.linkA, s.linkB].filter (fun l => match l.held with
               | some ⟨_, _, _, .awaiting _ _⟩ => true
               | some ⟨_, _, _, .forming⟩ | some ⟨_, _, _, .ready _⟩ | some ⟨_, _, _, .sending⟩ | none => false)).length)]
           ++ (byte1 u.marks.length :: u.marks.flatMap bytes2)
           ++ [byte1 x.recs.held.length, byte1 x.eng.held.length, byte1 t.held.length, byte1 u.lost.length]
           ++ [LostReason.check, .blank, .dependent].map (fun r =>
             byte1 ((u.lost.filter (fun y => decide (y.reason = r))).length)))

/-- R20: Read Slots gives twelve entries, slot 0 first, and Read Bus Fault the first cause, the last fault and the
scanner's wait count; neither changes anything. The bytes of an absent kind, revision and fault part, one byte each for
the kind, the revision, the two counts and the word offset, and no count byte before the twelve entries, are the model's
choice (log entry 10). -/
def Obligations.SlotAndFaultReads : Prop :=
  ∀ (l : Link) (tag : Byte) (body : List Byte) (s : State),
    (Accepts l .readSlots body s → exec (.readSlots l tag body) s = .next (taken l .readSlots tag (formed .done
      ((List.finRange 12).flatMap (fun n =>
        let r := at' s.shelf.bp.slots n
        [byte1 r.state.code, r.kind.getD 0xFF#8, r.rev.getD 0xFF#8, byte1 r.faults,
         if at' s.shelf.bp.attLine n then 1#8 else 0#8, if n ∈ s.shelf.bp.attention then 1#8 else 0#8]))) s.shelf s))
    ∧ (Accepts l .readBusFault body s → exec (.readBusFault l tag body) s
      = .next (taken l .readBusFault tag (formed .done
          ([s.shelf.bp.firstCause, s.shelf.bp.lastFault].flatMap (fun part => match part with
            | none => [0#8, 0xFF#8, 0xFF#8, 0xFF#8, 0xFF#8, 0xFF#8]
            | some f => [1#8, byte1 f.requester.code, byte1 f.kind.code, byte1 f.slot.val, byte1 f.offset,
                byte1 f.answer.code])
           ++ [byte1 s.shelf.bp.waitCount])) s.shelf s))
    ∧ (s.shelf.rdy.phase = .discovery → Free l s → ∀ k, k = .readSlots ∨ k = .readBusFault → bodyFits k body = true →
        exec (k.instr l tag body) s = .next (taken l k tag (formed .notReady []) s.shelf s))

/-- R37, R59, R102, R157, R158: the reads that name a port, a group, an index or a record: BAD-VALUE out of range, ABSENT
for an undefined group, and else DONE with the data, given field by field; none changes anything. The bytes of an absent
value, the codes of the port conditions and of the tag match states, one byte for the held edits of a group, the low 32 bits
of a longer time, the count of the window's samples as its list's count byte, the target none as 0, in Read Alarms the
outputs byte, the one byte of each count and the left-out count of at most 255, and in Read History the numbers 0 of an empty
history are the model's choice (log entry 10). An entry of Read Alarms has the fields of R146, the elapsed time of its soak
among them, and the time remaining of a running soak; that of the at most 16 entries no more are returned than go whole into
the frame is the model's choice (log entry 47). The records of Read History follow the order of making; what a number that no held record has asks for is stated only while the
counter has not passed its end (log entry 38 for the rest). -/
def Obligations.ReadsWithAParameter : Prop :=
  ∀ (l : Link) (tag : Byte) (body : List Byte) (s : State),
    let answers := fun (k : ReqKind) (o : Outcome) (data : List Byte) =>
      exec (k.instr l tag body) s = .next (taken l k tag (formed o data) s.shelf s)
    let n := byteAt body 0
    (Accepts l .readPort body s → (48 ≤ n → answers .readPort .badValue [])
      ∧ (∀ h : n < 48, answers .readPort .done (readPortData ⟨n, h⟩ s.shelf)))
    ∧ (Accepts l .readPortRecord body s → (48 ≤ n → answers .readPortRecord .badValue [])
      ∧ (∀ h : n < 48, answers .readPortRecord .done (readPortRecordData ⟨n, h⟩ s.shelf)))
    ∧ (Accepts l .readGroup body s → (8 ≤ n → answers .readGroup .badValue [])
      ∧ (∀ h : n < 8, (defOf s.shelf ⟨n, h⟩ = none → answers .readGroup .absent [])
        ∧ (∀ d, defOf s.shelf ⟨n, h⟩ = some d → answers .readGroup .done (readGroupData ⟨n, h⟩ d s.shelf))))
    ∧ (Accepts l .readAlarms body s → (95 < n → answers .readAlarms .badValue [])
      ∧ (n ≤ 95 → answers .readAlarms .done (readAlarmsData n s.shelf)))
    ∧ (Accepts l .readHistory body s → answers .readHistory .done (readHistoryData (nat4At body 0) s.shelf))
    ∧ (let x := s.shelf
       let flag := fun (b : Bool) => if b then 1#8 else 0#8
       let num := fun (n : Option Nat) => match n with
         | none => 0xFF#8
         | some n => byte1 n
       let time := fun (t : Option Nat) => match t with
         | none => [0xFF#8, 0xFF#8, 0xFF#8, 0xFF#8]
         | some n => bytes4 n
       let chars := fun (width : Nat) (t : Option (List Byte)) => match t with
         | none => 0#8 :: List.replicate width 0x20#8
         | some cs => 1#8 :: cs
       let request := fun (r : Option (ReqClass × Nat)) => match r with
         | none => [0xFF#8, 0xFF#8]
         | some (cls, chan) => [byte1 cls.rank, byte1 chan]
       (∀ p, let o := obsOf x p
          readPortData p x = [flag (inWindow x p), byte1 o.cond.code, num (o.light.map Bool.toNat),
              num (o.frame.map Bool.toNat), flag o.degraded]
            ++ (byte1 o.window.length :: o.window.flatMap bytes2) ++ bytes4 o.window.sum ++ bytes2 o.carry
            ++ [flag o.resume, flag o.tagOwed] ++ chars 16 o.rxTag
            ++ (match o.rxProt with
              | none => [0xFF#8, 0xFF#8, 0xFF#8, 0xFF#8]
              | some w => [byte1 w.cls.rank, byte1 w.chan, byte1 w.bridged, byte1 w.kind.code])
            ++ [match o.rxGrade with
              | none => 0#8
              | some g => byte1 g.code])
       ∧ [PortCond.unknown, .unmonitored, .absent, .dark, .failed, .degraded, .clean].map PortCond.code
          = [0, 1, 2, 3, 4, 5, 6]
       ∧ (∀ p, let r := recOf x p
          let t := at' x.recs.timers p
          readPortRecordData p x = [byte1 r.cls.code] ++ chars 12 r.desig ++ chars 16 r.tag
            ++ [byte1 (tagMatchOf x p).code] ++ owedTag x p
            ++ [flag (decide (p ∈ x.recs.tagList ∨ x.recs.tagWrite.map TagWrite.port = some p)),
              flag (memberOf x p).isSome, flag (condemnOf x p).isSome,
              num ((condemnOf x p).map (fun c => c.kind.code)), flag ((condemnOf x p).isSome && !isSource x p)]
            ++ bytes4 (t.ms / 1000) ++ [flag t.due]
            ++ time ((x.recs.candidates.find? (fun c => decide (c.port = p))).map Candidate.time)
            ++ [num ((orderNaming x p).map Order.num)])
       ∧ (∀ g d, let r := runOf x g
          let timed := d.members.filter (fun p => (at' x.eng.holdOff p).isSome)
          readGroupData g d x = [flag d.shared, byte1 d.protect.val]
            ++ (byte1 d.working.length :: d.working.map (fun p => byte1 p.val)) ++ [flag d.revertive] ++ bytes2 d.holdOff
            ++ bytes2 d.wtr ++ [byte1 (groupState x g).code, byte1 r.sel, flag r.stuck, flag r.restoreDue]
            ++ request r.active ++ [byte1 (targetOf r.active), num r.plan] ++ request r.far
            ++ (byte1 r.list.length :: r.list.flatMap (fun e => [byte1 e.cls.rank, byte1 e.chan]
              ++ (if e.cls = .settling then time (r.wtr.map (1000 * d.wtr - ·)) else [])
              ++ (if e.cls = .patchHold then [num e.order, flag e.granted] else [])))
            ++ (byte1 timed.length :: timed.flatMap (fun p =>
              [byte1 p.val, num ((derivedClass ((d.channelOf p).getD 0) (condOf x p)).map (fun c => c.1.rank))]
              ++ time (at' x.eng.holdOff p)))
            ++ [byte1 x.eng.held.length])
       ∧ (∀ start, let t := x.alm.table
          let entry := fun (e : AlarmEntry) => objBytes (some e.obj)
            ++ [byte1 (Cond.code e.cond).val, byte1 e.sev.code, byte1 e.state.code, flag e.acked] ++ time e.raiseTime
            ++ [byte1 e.count] ++ time e.soak
            ++ (match e.state, e.soak with
              | .rising, some ms => bytes4 (100 * (settingOf x e.cond).raise - ms)
              | .falling, some ms => bytes4 (1000 * (settingOf x e.cond).clear - ms)
              | .raised, _ | .rising, none | .falling, none => [])
          ∃ n ≤ 16, let part := (t.drop start).take n
            readAlarmsData start x = [byte1 t.length, byte1 (usedCount t), flag (tableFullStands t),
                byte1 (min 255 (x.alm.eff.filter (fun q => (entryOf x q.1 q.2).isNone)).length),
                outputsByte (outputsOf x.alm), byte1 start]
              ++ (byte1 part.length :: part.flatMap entry)
            ∧ (part.flatMap entry).length ≤ 240
            ∧ (n < 16 → 240 < (((t.drop start).take (n + 1)).flatMap entry).length))
       ∧ (∀ start, let h := x.alm.history
          let part := (recordsFrom start x).take 16
          readHistoryData start x = bytes4 ((h.head?.map HistRec.seq).getD 0) ++ bytes4 ((h.getLast?.map HistRec.seq).getD 0)
            ++ [flag (historyGap start x)]
            ++ (byte1 part.length :: part.flatMap (fun r => bytes4 r.seq ++ bytes4 r.time ++ objBytes r.obj
              ++ [num (r.cond.map (fun c => (Cond.code c).val)), num (r.sev.map Severity.code), byte1 r.trans.code])))
       ∧ (∀ start older r newer, x.alm.history = older ++ r :: newer → r.seq = start → (∀ q ∈ older, q.seq ≠ start) →
          recordsFrom start x = r :: newer ∧ historyGap start x = false)
       ∧ (∀ start, (∀ r ∈ x.alm.history, r.seq ≠ start) → x.alm.lapped = false →
          (historyGap start x = true ↔ ∃ r, x.alm.history.head? = some r ∧ start < r.seq)
          ∧ recordsFrom start x = if historyGap start x then x.alm.history else []))

/-- The bodies of the requests that carry a record, a definition or a setup are read back as they were written: no field
of the encodings of 12.7 is dropped. -/
def Obligations.BodiesAreReadBack : Prop :=
  (∀ (p : PortNo) (r : PortRec), recordOk r = true →
    recordOfBody (byte1 p.val :: byte1 r.cls.code :: optChars 12 r.desig ++ optChars 16 r.tag) = some (p, r))
  ∧ (∀ (g : GroupNo) (d : GroupDef), groupOk d = true →
    groupOfBody ([byte1 g.val, flagByte d.shared, byte1 d.protect.val, byte1 d.working.length, flagByte d.revertive]
      ++ bytes2 d.holdOff ++ bytes2 d.wtr ++ d.working.map (fun p => byte1 p.val)) = some (g, d))
  ∧ (∀ u : ScanSetup, 1 ≤ u.count → u.count ≤ 48 → 20 ≤ u.period → u.period ≤ 1000 →
    setupOf ([byte1 u.first.val, byte1 u.count, flagByte (!u.up)] ++ bytes2 u.period ++ [flagByte u.quiet]) = some u)
  ∧ (∀ (r : RefNo) (d : RefDef), r.val ≤ 4 → refOk r d = true →
    refOfBody [byte1 r.val, byte1 d.binding.code.1, numByte d.binding.code.2, byte1 d.priority, gradeByte d.override]
      = some (r, d))
  ∧ (∀ (c : Cond) (v : CondSetting), settingOk c v = true →
    settingOfBody ([byte1 (Cond.code c).val, byte1 v.sev.code] ++ bytes2 v.raise ++ bytes2 v.clear) = some (c, v))

/-! ### The scanner and the backplane bus (chapters 1 and 2) -/

/-- R22, R23: Set Scan: a field out of range is BAD-VALUE, a window that leaves out a member, a bound port or a port of an
order is a CONFLICT, and else the setup is pending and the dropped flag clear. -/
def Obligations.SetScanMakesTheSetupPending : Prop :=
  ∀ (l : Link) (tag : Byte) (body : List Byte) (s : State), Accepts l .setScan body s →
    let refused := fun (o : Outcome) => exec (.setScan l tag body) s = .next (taken l .setScan tag (formed o []) s.shelf s)
    let inRange := byteAt body 0 < 48 ∧ 1 ≤ byteAt body 1 ∧ byteAt body 1 ≤ 48 ∧ byteAt body 2 ≤ 1
      ∧ 20 ≤ nat2At body 3 ∧ nat2At body 3 ≤ 1000 ∧ byteAt body 5 ≤ 1
    (¬ inRange → refused .badValue)
    ∧ (inRange → ∀ h : byteAt body 0 < 48,
        let u : ScanSetup :=
          ⟨⟨byteAt body 0, h⟩, byteAt body 1, decide (byteAt body 2 = 0), nat2At body 3, decide (byteAt body 5 = 1)⟩
        let inNew := fun (p : PortNo) => ∃ i < u.count,
          p.val = if u.up then (u.first.val + i) % 48 else (u.first.val + 48 - i) % 48
        let needed := fun (p : PortNo) => isMember s.shelf p = true ∨ inOrder s.shelf p = true
          ∨ ∃ r : RefNo, 2 ≤ r.val ∧ r.val ≤ 4 ∧ (refOf s.shelf r).defn.binding = .port p
        ((∃ p, needed p ∧ ¬ inNew p) → refused .conflict)
        ∧ ((∀ p, needed p → inNew p) → exec (.setScan l tag body) s = .next (taken l .setScan tag (formed .done [])
            { s.shelf with scan := { s.shelf.scan with pending := some u, dropped := false } } s)))

/-- R36: Set Degrade Thresholds. -/
def Obligations.DegradeThresholdsChange : Prop :=
  ∀ (l : Link) (tag : Byte) (body : List Byte) (s : State), Accepts l .setDegradeThresholds body s →
    let refused := fun (o : Outcome) => exec (.setDegradeThresholds l tag body) s
      = .next (taken l .setDegradeThresholds tag (formed o []) s.shelf s)
    let t : Thresholds := ⟨nat2At body 0, nat2At body 2⟩
    (t.degrade = 0 ∨ t.degrade ≤ t.clear → refused .badValue)
    ∧ (t.clear < t.degrade → t = s.shelf.scan.thresholds → refused .done)
    ∧ (t.clear < t.degrade → t ≠ s.shelf.scan.thresholds →
        StoredChange (.setDegradeThresholds l tag body) l .setDegradeThresholds tag []
          { s with shelf :=
            { editing (.thresholds t) s.shelf with scan := { s.shelf.scan with thresholds := t } } } s)

/-- R19: Clear Bus Fault makes both parts of the record absent and BUS-FAULT absent. R153: Cut Off makes cut-off active.
Neither changes anything else. -/
def Obligations.ClearBusFaultAndCutOff : Prop :=
  ∀ (l : Link) (tag : Byte) (body : List Byte) (s : State),
    (Accepts l .clearBusFault body s → ∃ x : Shelf,
      exec (.clearBusFault l tag body) s = .next (taken l .clearBusFault tag (formed .done []) x s)
      ∧ SameButAlarms { s.shelf with bp := { s.shelf.bp with firstCause := none, lastFault := none } } x
      ∧ (Obj.shelf, Cond.busFault) ∉ x.alm.told)
    ∧ (Accepts l .cutOff body s → exec (.cutOff l tag body) s = .next (taken l .cutOff tag (formed .done [])
        { s.shelf with alm := { s.shelf.alm with cutOff := true } } s))

/-- R3, R2, R18: the answer to a probe of a slot that is not PRESENT sets its state, kind, revision and fault count; a
TIMEOUT is no bus fault; after a probe of DISCOVERY the next slot's follows, and after slot 11 the shelf enters WATCH.
R5, R7, R13, R18: a transaction that ends in fault, or with its last transfer acknowledged: the bus is free, the fault
counts of the PRESENT slots it addressed follow, the third consecutive fault makes a slot FAILED, the bus fault record is
entered, and the outcome goes to the requester: of a fault the answer, the slot and the offset of the transfer and the
counts of reads and writes. R9: a RETRY below the limit, of any transfer that may be retried, has it issued again. The order
of this work (the slot record, the bus fault record, the requester, and then the bus work that follows) is the model's choice
(log entry 4). -/
def Obligations.ProbeSetsTheSlot : Prop :=
  (∀ (s : State) (n : SlotNo) (retries : Nat),
    s.shelf.bp.bus = some ⟨.backplane, .read n 0, [], 0, retries, none⟩ → slotStateOf s.shelf n ≠ .present →
    let ends := fun (c : Instr) (r : SlotRec) (fault : Option BusAnswer) => ∃ x : Shelf,
      at' x.bp.slots n = r
      ∧ x.bp.firstCause = s.shelf.bp.firstCause.or (fault.map (fun a => ⟨.backplane, .singleRead, n, 0, a⟩))
      ∧ x.bp.lastFault = (fault.map (fun a => (⟨.backplane, .singleRead, n, 0, a⟩ : BusFault))).or s.shelf.bp.lastFault
      ∧ (∀ m, m ≠ n → at' x.bp.slots m = at' s.shelf.bp.slots m)
      ∧ exec c s = .next (worked (
          if s.shelf.rdy.phase = .discovery then
            (if h : n.val + 1 < 12 then setBp (fun b => { b with probeWaiting := some ⟨n.val + 1, h⟩ }) x
             else enterWatch x)
          else x) s)
    (∀ w : Word, ends (.cardAnswer (.ack w)) ⟨.present, some (byte1 (field w 8 8)), some (byte1 (field w 0 8)), 0⟩ none)
    ∧ ends .transferTimeout ⟨.empty, none, none, 0⟩ none
    ∧ ends (.cardAnswer .fault) ⟨.failed, none, none, 3⟩ (some .fault)
    ∧ (retries = 3 → ends (.cardAnswer .retry) ⟨.failed, none, none, 3⟩ (some .retryLimit))
    ∧ (retries < 3 → exec (.cardAnswer .retry) s = .next (worked (setBp (fun b => { b with
        bus := some ⟨.backplane, .read n 0, [], 0, retries + 1, none⟩ }) s.shelf) s)))
  ∧ (∀ (s : State) (u : BusUse) (t : Transfer), s.shelf.bp.bus = some u → transferOf u = some t →
      let old := fun (m : SlotNo) => at' s.shelf.bp.slots m
      (∀ (c : Instr) (a : BusAnswer),
        c = .cardAnswer .fault ∧ a = .fault ∨ c = .transferTimeout ∧ a = .timeout
          ∨ c = .cardAnswer .retry ∧ a = .retryLimit ∧ mayRetry u = true ∧ 3 ≤ u.retries →
        let f : BusFault := ⟨u.req, u.txn.kind, t.slot, t.off, a⟩
        ∃ y : Shelf, exec c s = .next (worked (deliver u (.fault a t.slot t.off u.reads.length u.writes) y) s)
          ∧ y.bp.bus = none
          ∧ at' y.bp.slots t.slot = (if (old t.slot).state ≠ .present then old t.slot
              else if (old t.slot).faults < 2 then { old t.slot with faults := (old t.slot).faults + 1 }
              else ⟨.failed, none, none, 3⟩)
          ∧ (∀ m, m ≠ t.slot → at' y.bp.slots m = if (old m).state = .present
              ∧ m ∈ (match u.txn with
                | .exchange words => (words.take u.reads.length).map Prod.fst
                | .read _ _ | .write _ _ _ | .block _ _ => []) then { old m with faults := 0 } else old m)
          ∧ (u.req = .backplane ∧ a = .timeout →
              y.bp.firstCause = s.shelf.bp.firstCause ∧ y.bp.lastFault = s.shelf.bp.lastFault)
          ∧ (¬ (u.req = .backplane ∧ a = .timeout) → y.bp.firstCause = s.shelf.bp.firstCause.or (some f)
              ∧ y.bp.lastFault = some f ∧ (Obj.shelf, Cond.busFault) ∈ y.alm.told))
      ∧ (mayRetry u = true → u.retries < 3 → exec (.cardAnswer .retry) s = .next (worked (setBp (fun b => { b with
          bus := some { u with retries := u.retries + 1 } }) s.shelf) s))
      ∧ (∀ w, isComplete t.write
            (if t.write then { u with writes := u.writes + 1 } else { u with reads := u.reads ++ [w] }) = true →
          ∃ y : Shelf, exec (.cardAnswer (.ack w)) s
              = .next (worked (deliver u (.done (if t.write then u.reads else u.reads ++ [w])) y) s)
            ∧ y.bp.bus = none ∧ y.bp.firstCause = s.shelf.bp.firstCause ∧ y.bp.lastFault = s.shelf.bp.lastFault
            ∧ ∀ m, at' y.bp.slots m = if (old m).state = .present ∧ m ∈ (match u.txn with
                | .read n _ | .write n _ _ | .block n _ => [n]
                | .exchange words => words.map Prod.fst) then { old m with faults := 0 } else old m))
  ∧ (∀ (u : BusUse) (e : TxnEnd) (y : Shelf), (u.req = .executor → deliver u e y = executorEnd e y)
      ∧ (u.req = .timing → deliver u e y = gradeWriteEnd e y) ∧ (u.req = .records → deliver u e y = tagWriteEnd e y)
      ∧ (u.req = .scanner → deliver u e y = scannerEnd e y))

/-- R11, R12: an acknowledged word of a block read that is not its last, and of a locked exchange: the reads in the stated
order, the values returned once all are read, and the writes in the reverse order. A read of a status word releases the
card's attention line (R16 as log entry 7 takes it); no card answer changes anything while values are awaited (log entry
1). Then the values of a group's exchange, word by word: of a plan (R104, R108), a restore or a preparation (R116, R117), a
substitution (R119; log entry 37) and a recovery, which puts back the words read (R112); the words read are saved. A
preparation owes every member its due word with nothing carried (R116; log entry 17), and the protect port of a SHARED group
keeps the outgoing request that the exchange reads, or takes Idle where the word read has another role. -/
def Obligations.TransfersGoOnInOrder : Prop :=
  (∀ (s : State) (u : BusUse), s.shelf.bp.bus = some u →
    (∀ n off w, u.txn = .block n off → u.reads.length < 3 →
      exec (.cardAnswer (.ack w)) s = .next (worked (setBp (fun b => { b with
        attLine := if 0x10 ≤ off + u.reads.length ∧ off + u.reads.length < 0x20 then put b.attLine n false else b.attLine
        bus := some { u with reads := u.reads ++ [w], retries := 0 } }) s.shelf) s))
    ∧ (∀ n off, u.txn = .block n off → u.reads ≠ [] → u.reads.length < 4 →
        exec (.cardAnswer .retry) s = exec (.cardAnswer .fault) s)
    ∧ (∀ words : List (SlotNo × Nat), u.txn = .exchange words →
      (∀ n off, words[u.reads.length]? = some (n, off) → transferOf u = some ⟨n, off, false⟩
        ∧ ∀ w, exec (.cardAnswer (.ack w)) s = .next (worked (setBp (fun b => { b with
            attLine := if 0x10 ≤ off ∧ off < 0x20 then put b.attLine n false else b.attLine
            bus := some { u with reads := u.reads ++ [w], retries := 0 } }) s.shelf) s))
      ∧ (u.reads.length = words.length → u.values = none →
          (∀ a, exec (.cardAnswer a) s = .next (settled s.shelf s))
          ∧ exec .exchangeValuesReturned s = .next (settled (setBp (fun b => { b with
              bus := some { u with values := some (exchangeValues u.reads s.shelf).1 } })
              (exchangeValues u.reads s.shelf).2) s))
      ∧ (u.reads.length = words.length → u.values ≠ none → u.writes + 1 < words.length → ∀ n off,
          words[words.length - 1 - u.writes]? = some (n, off) →
          transferOf u = some ⟨n, off, true⟩
          ∧ (∀ w, exec (.cardAnswer (.ack w)) s = .next (worked (setBp (fun b => { b with
              bus := some { u with writes := u.writes + 1, retries := 0 } }) s.shelf) s)))
      ∧ (∀ ports, s.shelf.exe.active = some (.clear ports) →
          exchangeValues u.reads s.shelf = ((ports.zip u.reads).map (fun pw => setField pw.2 0 2 0), s.shelf))
      ∧ (∀ g d j, s.shelf.exe.active = some (.exchange g) → defOf s.shelf g = some d →
          (execOf s.shelf g).job = some j →
          let x := execOf s.shelf g
          let v := exchangeValues u.reads s.shelf
          (x.step = .recovery → v = (x.saved.map Prod.snd, s.shelf))
          ∧ (x.step ≠ .recovery →
              v.2 = setExec g (fun y => { y with saved := (j.ports.map Prod.fst).zip u.reads }) s.shelf
              ∧ ∀ (i : Nat) (p : PortNo) (c : Nat) (w : Word), j.ports[i]? = some (p, c) → u.reads[i]? = some w →
                  let writes := fun (fields : List (Nat × Nat × Nat)) => v.1[i]? = some (withFields w fields)
                  (∀ pl, x.plan = some pl →
                    let role := if d.shared then 3 else 2
                    let asHanded := [(16, 4, pl.cls.rank), (20, 3, pl.chan)]
                    let idle := [(16, 4, 10), (20, 3, 0)]
                    (c = 0 →
                      (j.kind = .bridge → writes ([(0, 2, role), (8, 3, pl.target), (12, 3, 0), (15, 1, 0)] ++ asHanded))
                      ∧ (j.kind = .select → writes ([(0, 2, role), (12, 3, pl.target), (15, 1, 1)]
                          ++ if d.shared then asHanded else idle))
                      ∧ (j.kind = .release → writes ([(0, 2, role), (12, 3, 0), (15, 1, 0)] ++ idle
                          ++ if d.shared then [(8, 3, 0)] else [])))
                    ∧ (c ≠ 0 →
                      (j.kind = .bridge → writes
                        (if c = pl.target then [(0, 2, 1), (4, 1, 1)] else [(0, 2, 1), (4, 1, 0), (5, 1, 0)]))
                      ∧ (j.kind = .select → writes [(0, 2, 1), (5, 1, 1)])
                      ∧ (j.kind = .release → writes
                          (if d.shared then [(0, 2, 1), (4, 1, 0), (5, 1, 0)] else [(0, 2, 1), (5, 1, 0)]))))
                  ∧ (j.kind = .restore → ∀ q due, x.owed.find? (fun y => decide (y.1 = p)) = some (q, due) →
                      writes (dueFields due w))
                  ∧ (j.kind = .subst → ∀ b, x.subst = some b →
                      (p = b.src → writes [(0, 2, 0)])
                      ∧ (p ≠ b.src → ∀ q r,
                          ((j.ports.map Prod.fst).zip u.reads).find? (fun y => decide (y.1 = b.src)) = some (q, r) →
                          writes ((0, 2, field r 0 2) ::
                            if b.chan = 0 then [(8, 3, field r 8 3), (12, 3, field r 12 3), (15, 1, (r.getLsbD 15).toNat),
                              (16, 4, field r 16 4), (20, 3, field r 20 3)]
                            else [(4, 1, (r.getLsbD 4).toNat), (5, 1, (r.getLsbD 5).toNat)])))
                  ∧ (j.kind = .substDest → writes (dueFields (dueWord d p x.carried (x.bridged.getD 0) 10 0) w))))))
  ∧ (∀ (y : Shelf) (g : GroupNo) (d : GroupDef), defOf y g = some d → (execOf y g).prepareDue = true →
      y.rdy.phase = .armed → (execOf (prepareGroup g y) g).owed = (d.protect :: d.working).map (fun p => (p,
        if d.shared = true ∧ p = d.protect then .prepared
        else dueWord d p 0 (if d.shared then 0 else 1) 10 0)))
  ∧ ∀ (d : GroupDef) (p : PortNo) (c b cls chan : Nat),
      (d.channelOf p = some 0 → dueWord d p c b cls chan
        = if d.shared then .protect true b c cls chan else .protect false 1 c 10 0)
      ∧ (∀ n, 0 < n → d.channelOf p = some n → dueWord d p c b cls chan
        = if d.shared then .working (decide (n = b)) (decide (n = c)) else .working true (decide (c = 1)))

/-- R4: a re-probe timer that runs out asks for a probe of the lowest slot due, one at a time. R16: an asserted attention
line puts a PRESENT slot into the attention list, once; that it does so while the line is already asserted is the model's
choice (log entry 35). -/
def Obligations.ReprobeAndAttention : Prop :=
  ∀ (s : State) (n : SlotNo),
    (at' s.shelf.bp.reprobe n ≠ none →
      let x := setBp (fun b => { b with reprobe := put b.reprobe n none, reprobeDue := put b.reprobeDue n true }) s.shelf
      exec (.reprobeTimerExpiry n) s = .next (worked x s)
      ∧ (s.shelf.rdy.phase ≠ .discovery → probing s.shelf = false → (∀ m < n, at' s.shelf.bp.reprobeDue m = false) →
          (askProbe x).bp.probeWaiting = some n))
    ∧ exec (.cardAttention n) s = .next (worked (setBp (fun b => { b with
        attLine := put b.attLine n true
        attention := if slotStateOf s.shelf n = .present ∧ n ∉ b.attention then b.attention ++ [n] else b.attention })
        s.shelf) s)

/-- R29, R31 to R33: the last word of a port's status block, acknowledged, gives its light, its frame lock, its sample and
its condition; in QUIET it gives no sample, and neither does a single read of the first word, which leaves the received words
as they were. No other port's observation changes. R30: when the read owes a tag read, and what the end of a tag read gives.
R27: the visit ends with the last of its reads. That the received words are kept only of a port lit and framed is the model's
reading (log entry 25). -/
def Obligations.StatusReadGivesTheObservation : Prop :=
  (∀ (s : State) (p : PortNo) (cyclic : Bool) (status count prot grade : Word),
    s.shelf.bp.bus = some ⟨.scanner, .block (slotOf p) (statusOffset p), [status, count, prot], 0, 0, none⟩ →
    s.shelf.scan.job = some (if cyclic then .cyclic p else .attention p) →
    portPresent s.shelf p = true → inWindow s.shelf p = true →
    let o := obsOf s.shelf p
    let t := s.shelf.scan.thresholds
    let samples := o.window ++ [min 65535 (field count 0 16 + o.carry)]
    let window := samples.drop (samples.length - 8)
    ∃ x : Shelf, exec (.cardAnswer (.ack grade)) s = .next (worked x s)
      ∧ (∀ q, q ≠ p → obsOf x q = obsOf s.shelf q)
      ∧ (obsOf x p).light = some (status.getLsbD 0) ∧ (obsOf x p).frame = some (status.getLsbD 1)
      ∧ (status.getLsbD 0 = false ∨ status.getLsbD 1 = false → obsOf x p = { o with
          cond := if status.getLsbD 0 then .failed else .dark
          light := (obsOf x p).light
          frame := (obsOf x p).frame
          window := []
          degraded := false
          carry := 0
          tagOwed := false
          rxTag := none
          rxProt := none
          rxGrade := none })
      ∧ ((obsOf x p).tagOwed = true → x.scan.job = some (.tag p cyclic)
          ∧ x.bp.waitScanner = some (.block (slotOf p) (rxTagOffset p)))
      ∧ ((obsOf x p).tagOwed = false → x.scan.job = none)
      ∧ x.scan.cycle = (match s.shelf.scan.cycle with
        | .running v b => if cyclic = true ∧ (obsOf x p).tagOwed = false then .running (v + 1) false else .running v b
        | .stopped => .stopped
        | .waiting => .waiting)
      ∧ (status.getLsbD 0 = true → status.getLsbD 1 = true →
          (obsOf x p).tagOwed = (o.tagOwed || !o.cond.lit || status.getLsbD 2)
          ∧ (obsOf x p).cond = (if (obsOf x p).degraded then .degraded else .clean)
          ∧ (obsOf x p).rxProt = protWordOf prot ∧ (obsOf x p).rxGrade = some (gradeOf grade)
          ∧ (obsOf x p).rxTag = o.rxTag
          ∧ (isQuiet s.shelf = true → (obsOf x p).window = o.window ∧ (obsOf x p).degraded = o.degraded
              ∧ (obsOf x p).carry = o.carry ∧ (obsOf x p).resume = o.resume)
          ∧ (isQuiet s.shelf = false → (obsOf x p).resume = false
              ∧ (o.resume = true → (obsOf x p).window = o.window ∧ (obsOf x p).degraded = o.degraded
                  ∧ (obsOf x p).carry = o.carry)
              ∧ (o.resume = false → cyclic = false → (obsOf x p).window = o.window ∧ (obsOf x p).degraded = o.degraded
                  ∧ (obsOf x p).carry = min 65535 (field count 0 16 + o.carry))
              ∧ (o.resume = false → cyclic = true → (obsOf x p).window = window ∧ (obsOf x p).carry = 0
                  ∧ (obsOf x p).degraded = (if t.degrade ≤ window.sum then true else if window.sum ≤ t.clear then false
                      else o.degraded)))))
  ∧ (∀ (s : State) (p : PortNo) (status : Word) (retries : Nat),
    s.shelf.bp.bus = some ⟨.scanner, .read (slotOf p) (statusOffset p), [], 0, retries, none⟩ →
    s.shelf.scan.job = some (.cyclic p) → portPresent s.shelf p = true → inWindow s.shelf p = true →
    let o := obsOf s.shelf p
    ∃ x : Shelf, exec (.cardAnswer (.ack status)) s = .next (worked x s)
      ∧ (∀ q, q ≠ p → obsOf x q = obsOf s.shelf q)
      ∧ (status.getLsbD 0 = false ∨ status.getLsbD 1 = false → obsOf x p = { o with
          cond := if status.getLsbD 0 then .failed else .dark
          light := some (status.getLsbD 0)
          frame := some (status.getLsbD 1)
          window := []
          degraded := false
          carry := 0
          tagOwed := false
          rxTag := none
          rxProt := none
          rxGrade := none })
      ∧ (status.getLsbD 0 = true → status.getLsbD 1 = true → obsOf x p = { o with
          cond := if o.degraded then .degraded else .clean
          light := some true
          frame := some true
          tagOwed := o.tagOwed || !o.cond.lit || status.getLsbD 2 })
      ∧ ((obsOf x p).tagOwed = true → x.scan.job = some (.tag p true)
          ∧ x.bp.waitScanner = some (.block (slotOf p) (rxTagOffset p)))
      ∧ ((obsOf x p).tagOwed = false → x.scan.job = none)
      ∧ x.scan.cycle = (match s.shelf.scan.cycle with
        | .running v b => if (obsOf x p).tagOwed = false then .running (v + 1) false else .running v b
        | .stopped => .stopped
        | .waiting => .waiting))
  ∧ (∀ (s : State) (p : PortNo) (cyclic : Bool) (w0 w1 w2 w3 : Word),
    s.shelf.bp.bus = some ⟨.scanner, .block (slotOf p) (rxTagOffset p), [w0, w1, w2], 0, 0, none⟩ →
    s.shelf.scan.job = some (.tag p cyclic) →
    let chars := [w0, w1, w2, w3].flatMap (fun w =>
      [byte1 (field w 24 8), byte1 (field w 16 8), byte1 (field w 8 8), byte1 (field w 0 8)])
    ∃ x : Shelf, exec (.cardAnswer (.ack w3)) s = .next (worked x s) ∧ x.scan.job = none
      ∧ (∀ q, q ≠ p → obsOf x q = obsOf s.shelf q)
      ∧ obsOf x p = (if portPresent s.shelf p = true ∧ (condOf s.shelf p).lit = true then
          { obsOf s.shelf p with
              tagOwed := false
              rxTag := some (if ∀ c ∈ chars, 0x20 ≤ c.toNat ∧ c.toNat ≤ 0x7E then chars else List.replicate 16 0x20#8) }
        else obsOf s.shelf p))
  ∧ ∀ (x : Shelf) (a : BusAnswer) (n : SlotNo) (off reads writes : Nat),
      (scannerEnd (.fault a n off reads writes) x).scan.obs = x.scan.obs
      ∧ (scannerEnd (.fault a n off reads writes) x).scan.job = none

/-- R26, R24: the period timer's expiry starts the next cycle, with the pending setup if it still fits, or makes the
running cycle late, with SCAN-OVERRUN. R25: leaving QUIET sets every resume flag. R27, R28, R17: what the scanner does while
it has no read asked for: the ports of the slot it serves; one slot of the attention list before each visit, and between
cycles one after another; the visit of the next port in window order, with no read where its slot is not PRESENT and with a
single read in QUIET; and the cycle's end (R26). That a port of the slot served is looked at again when its read is asked
for (log entry 35), and that a service begun between cycles is finished at a cycle start and does not count as the one slot
before visit 0 (log entry 41), is the model's choice. -/
def Obligations.PeriodAndBattery : Prop :=
  (∀ s : State,
    (s.shelf.scan.period ≠ none → s.shelf.scan.cycle = .waiting → ∃ x : Shelf,
      exec .periodTimerExpiry s = .next (worked (windowChanged x) s)
      ∧ x.scan.cycle = .running 0 false ∧ x.scan.late = false ∧ x.scan.period = some 0
      ∧ x.scan.job = s.shelf.scan.job ∧ x.scan.thresholds = s.shelf.scan.thresholds
      ∧ x = { s.shelf with scan := x.scan }
      ∧ (s.shelf.scan.pending = none →
          x.scan.setup = s.shelf.scan.setup ∧ x.scan.obs = s.shelf.scan.obs ∧ x.scan.dropped = s.shelf.scan.dropped)
      ∧ (∀ u, s.shelf.scan.pending = some u → x.scan.pending = none
          ∧ (setupFits s.shelf u = true → x.scan.setup = u)
          ∧ (setupFits s.shelf u = false → x.scan.setup = s.shelf.scan.setup ∧ x.scan.dropped = true)))
    ∧ (∀ v asked, s.shelf.scan.period ≠ none → s.shelf.scan.cycle = .running v asked → ∃ x : Shelf,
        exec .periodTimerExpiry s = .next (worked x s)
        ∧ SameButAlarms { s.shelf with scan := { s.shelf.scan with late := true, period := none, overrun := true } } x
        ∧ (Obj.shelf, Cond.scanOverrun) ∈ x.alm.told)
    ∧ (∀ b : Bool, ∃ x : Shelf, exec (.batteryRunningChange b) s = .next (settled x s)
        ∧ x = { s.shelf with
            pins := { s.shelf.pins with battery := b }, scan := { s.shelf.scan with obs := x.scan.obs } }
        ∧ (∀ p, obsOf x p = if s.shelf.scan.setup.quiet = false ∧ s.shelf.pins.battery = true ∧ b = false
            then { obsOf s.shelf p with resume := true } else obsOf s.shelf p)))
  ∧ ∀ y : Shelf,
      let c := y.scan
      let scanned := fun (d : Scanner) => scanStep y = { y with scan := d }
      let asks := fun (d : Scanner) (t : Txn) => scanStep y = { y with scan := d, bp := { y.bp with waitScanner := some t } }
      let served := fun (n : SlotNo) => (List.finRange 48).filter (fun p => decide (slotOf p = n) && inWindow y p)
      (∀ k, serveScanner (k + 1) y = if scanIdle y then y else serveScanner k (scanStep y))
      ∧ (scanIdle y = true ↔ c.job ≠ none
          ∨ c.serving = [] ∧ (c.cycle = .stopped ∨ c.cycle = .waiting ∧ y.bp.attention = []))
      ∧ (∀ p rest, c.serving = p :: rest →
          (portPresent y p = true ∧ inWindow y p = true →
            asks { c with serving := rest, job := some (.attention p) } (.block (slotOf p) (statusOffset p)))
          ∧ (portPresent y p = false ∨ inWindow y p = false → scanned { c with serving := rest }))
      ∧ (c.serving = [] → c.cycle = .waiting → ∀ n rest, y.bp.attention = n :: rest → scanStep y = { y with
          scan := { c with serving := served n }, bp := { y.bp with attention := rest } })
      ∧ (c.serving = [] → ∀ v b, c.cycle = .running v b →
          (v < c.setup.count → b = false →
            (y.bp.attention = [] → scanned { c with cycle := .running v true })
            ∧ (∀ n rest, y.bp.attention = n :: rest → scanStep y = { y with
                scan := { c with cycle := .running v true, serving := served n }
                bp := { y.bp with attention := rest } }))
          ∧ (v < c.setup.count → b = true → ∀ p : PortNo,
              p.val = (if c.setup.up then (c.setup.first.val + v) % 48 else (c.setup.first.val + 48 - v % 48) % 48) →
              (portPresent y p = false → scanned { c with cycle := .running (v + 1) false })
              ∧ (portPresent y p = true → isQuiet y = true →
                  asks { c with job := some (.cyclic p) } (.read (slotOf p) (statusOffset p)))
              ∧ (portPresent y p = true → isQuiet y = false →
                  asks { c with job := some (.cyclic p) } (.block (slotOf p) (statusOffset p))))
          ∧ (c.setup.count ≤ v → c.late = false →
              SameButAlarms { y with scan := { c with cycle := .waiting, overrun := false } } (scanStep y)
              ∧ (Obj.shelf, Cond.scanOverrun) ∉ (scanStep y).alm.told)
          ∧ (c.setup.count ≤ v → c.late = true → ∃ x : Shelf, scanStep y = windowChanged x
              ∧ x.scan.cycle = .running 0 false ∧ x.scan.late = false ∧ x.scan.period = some 0
              ∧ x = { y with scan := x.scan }))

/-! ### Fibre records and move orders (chapters 3 and 4) -/

/-- R57: Edit Port Record: its checks in order, and the record replaced as a whole. That a presence byte other than 0 and 1
is among the fields out of range is the model's choice (log entry 10). -/
def Obligations.PortRecordIsEdited : Prop :=
  ∀ (l : Link) (tag : Byte) (body : List Byte) (s : State), Accepts l .editPortRecord body s →
    let refused := fun (o : Outcome) =>
      exec (.editPortRecord l tag body) s = .next (taken l .editPortRecord tag (formed o []) s.shelf s)
    (recordOfBody body = none → refused .badValue)
    ∧ (∀ p r, recordOfBody body = some (p, r) →
        let conflict := (isMember s.shelf p = true ∧ r.cls ≠ .inService) ∨ inOrder s.shelf p = true
          ∨ (r.cls = .spare ∧ condemnOf s.shelf p ≠ none)
        (conflict → refused .conflict)
        ∧ (¬ conflict → r = recOf s.shelf p → refused .done)
        ∧ (¬ conflict → r ≠ recOf s.shelf p → ∃ x : Shelf,
            StoredChange (.editPortRecord l tag body) l .editPortRecord tag s.shelf.recs.held
              { s with shelf := pump x } s
            ∧ recOf x p = r ∧ (∀ q, q ≠ p → recOf x q = recOf s.shelf q)
            ∧ x.recs.identity = s.shelf.recs.identity ∧ x.eng.defs = s.shelf.eng.defs ∧ SameCards s.shelf x
            ∧ x.sto.list = s.shelf.sto.list ++ [⟨s.shelf.sto.counter, .portRecord p r⟩]))

/-- R56, R53, R54: Condemn Port: its checks in order; the order it opens goes to the lowest pool port off the source's
slot, else the lowest; with an empty pool or a full list the port waits. A port that becomes condemn-pending leaves the
candidate list (R50); that the upgrade of one that waits already leaves an entry it has made since, and tries the upgraded
port alone (R54, R56), is the model's reading (log entry 36). -/
def Obligations.PortIsCondemned : Prop :=
  ∀ (l : Link) (tag : Byte) (body : List Byte) (s : State), Accepts l .condemnPort body s →
    let refused := fun (o : Outcome) =>
      exec (.condemnPort l tag body) s = .next (taken l .condemnPort tag (formed o []) s.shelf s)
    let replied := fun (n : Option Nat) (x : Shelf) =>
      exec (.condemnPort l tag body) s = .next (taken l .condemnPort tag (formed .done [numByte n]) (pump x) s)
    let dark := nat2At body 2
    let light := nat2At body 4
    let inRange := byteAt body 0 < 48 ∧ byteAt body 1 ≤ 1 ∧ 60 ≤ dark ∧ dark ≤ 3600 ∧ 60 ≤ light ∧ light ≤ 3600
    (¬ inRange → refused .badValue)
    ∧ (inRange → ∀ h : byteAt body 0 < 48,
        let p : PortNo := ⟨byteAt body 0, h⟩
        let unprotected := decide (byteAt body 1 = 1)
        let conflict := inOrder s.shelf p = true ∨ (isMember s.shelf p = false ∧ unprotected = false)
        (classOf s.shelf p ≠ .inService → refused .absent)
        ∧ (classOf s.shelf p = .inService → conflict → refused .conflict)
        ∧ (classOf s.shelf p = .inService → ¬ conflict →
            (poolPorts s.shelf = [] ∨ 8 ≤ s.shelf.ords.list.length → ∃ x : Shelf, replied none x
              ∧ condemnOf x p = some ⟨.manual, unprotected, dark, light⟩
              ∧ (Obj.port p, Cond.condemnedNoSpare) ∈ x.alm.told
              ∧ (condemnOf s.shelf p = none → ∀ c ∈ x.recs.candidates, c.port ≠ p)
              ∧ (condemnOf s.shelf p ≠ none → x.recs.candidates = s.shelf.recs.candidates)
              ∧ x.ords = s.shelf.ords ∧ SameSettings s.shelf x ∧ SameCards s.shelf x)
            ∧ (∀ dst, s.shelf.ords.list.length < 8 →
                (match (poolPorts s.shelf).find? (fun q => decide (slotOf q ≠ slotOf p)) with
                  | some q => some q
                  | none => (poolPorts s.shelf).head?) = some dst →
                ∃ (x : Shelf) (n : Nat), replied (some n) (reportNoSpare p (startCheck x))
                  ∧ x.ords.list = s.shelf.ords.list ++ [⟨n, .reassign, p, dst, memberOf s.shelf p, unprotected, dark,
                      light, .queued, shelfTime s.shelf, none, false, 0, 0⟩]
                  ∧ condemnOf x p = some ⟨.manual, unprotected, dark, light⟩ ∧ x.recs.recs = s.shelf.recs.recs
                  ∧ (condemnOf s.shelf p = none → ∀ c ∈ x.recs.candidates, c.port ≠ p)
                  ∧ SameCards s.shelf x)))

/-- R49 and R47: Set Reassign and Set Shelf Identity. -/
def Obligations.ReassignAndIdentityChange : Prop :=
  ∀ (l : Link) (tag : Byte) (body : List Byte) (s : State),
    (Accepts l .setReassign body s →
      let refused := fun (o : Outcome) =>
        exec (.setReassign l tag body) s = .next (taken l .setReassign tag (formed o []) s.shelf s)
      let inRange := byteAt body 0 ≤ 1 ∧ byteAt body 1 ≤ 8 ∧ 1 ≤ byteAt body 2 ∧ byteAt body 2 ≤ 120
      let r : Reassign := ⟨decide (byteAt body 0 = 1), byteAt body 1, byteAt body 2⟩
      (¬ inRange → refused .badValue)
      ∧ (inRange → r = s.shelf.recs.reassign → refused .done)
      ∧ (inRange → r ≠ s.shelf.recs.reassign → ∃ x : Shelf,
          StoredChange (.setReassign l tag body) l .setReassign tag s.shelf.recs.held { s with shelf := pump x } s
          ∧ x.recs.reassign = r ∧ x.recs.recs = s.shelf.recs.recs ∧ x.eng.defs = s.shelf.eng.defs
          ∧ SameCards s.shelf x ∧ x.sto.list = s.shelf.sto.list ++ [⟨s.shelf.sto.counter, .reassign r⟩]))
    ∧ (Accepts l .setShelfIdentity body s →
      let refused := fun (o : Outcome) =>
        exec (.setShelfIdentity l tag body) s = .next (taken l .setShelfIdentity tag (formed o []) s.shelf s)
      let inRange := ∀ c ∈ body, 0x20 ≤ c.toNat ∧ c.toNat ≤ 0x7E
      (¬ inRange → refused .badValue)
      ∧ (inRange → body = s.shelf.recs.identity → refused .done)
      ∧ (inRange → body ≠ s.shelf.recs.identity → ∃ x : Shelf,
          StoredChange (.setShelfIdentity l tag body) l .setShelfIdentity tag s.shelf.recs.held
            { s with shelf := pump x } s
          ∧ x = { editing (.identity body) s.shelf with recs := { s.shelf.recs with
              identity := body, tagList := x.recs.tagList, tagWrite := x.recs.tagWrite } }
          ∧ (∀ p, classOf s.shelf p = .inService → portPresent s.shelf p = true → p ∈ x.recs.tagList)))

/-- R63: Open Move Order: its checks in order; the order is appended QUEUED and the start check follows. R62: its number is
the first from the counter on that no order holds, 255 being followed by 1, and the counter is left at the number after
it. That the start check comes last is the model's choice (log entry 45). -/
def Obligations.MoveOrderIsOpened : Prop :=
  ∀ (l : Link) (tag : Byte) (body : List Byte) (s : State), Accepts l .openMoveOrder body s →
    let refused := fun (o : Outcome) =>
      exec (.openMoveOrder l tag body) s = .next (taken l .openMoveOrder tag (formed o []) s.shelf s)
    let dark := nat2At body 3
    let light := nat2At body 5
    let inRange := byteAt body 0 < 48 ∧ byteAt body 1 < 48 ∧ byteAt body 2 ≤ 1
      ∧ 60 ≤ dark ∧ dark ≤ 3600 ∧ 60 ≤ light ∧ light ≤ 3600
    (¬ inRange → refused .badValue)
    ∧ (inRange → ∀ (h1 : byteAt body 0 < 48) (h2 : byteAt body 1 < 48),
        let src : PortNo := ⟨byteAt body 0, h1⟩
        let dst : PortNo := ⟨byteAt body 1, h2⟩
        let unprotected := decide (byteAt body 2 = 1)
        let conflict := ¬ (classOf s.shelf dst = .spare ∧ inOrder s.shelf dst = false)
          ∨ (isMember s.shelf src = false ∧ unprotected = false) ∨ inOrder s.shelf src = true
        (classOf s.shelf src ≠ .inService → refused .absent)
        ∧ (classOf s.shelf src = .inService → conflict → refused .conflict)
        ∧ (classOf s.shelf src = .inService → ¬ conflict → 8 ≤ s.shelf.ords.list.length → refused .full)
        ∧ (classOf s.shelf src = .inService → ¬ conflict → s.shelf.ords.list.length < 8 → ∃ (x : Shelf) (n : Nat),
            exec (.openMoveOrder l tag body) s
              = .next (taken l .openMoveOrder tag (formed .done [byte1 n]) (pump (startCheck x)) s)
            ∧ x.ords.list = s.shelf.ords.list ++ [⟨n, .host, src, dst, memberOf s.shelf src, unprotected, dark, light,
                .queued, shelfTime s.shelf, none, false, 0, 0⟩]
            ∧ (let after := fun (m : Nat) => if m = 255 then 1 else m + 1
              ∃ k, n = after^[k] s.shelf.ords.next ∧ orderOf s.shelf n = none
                ∧ (∀ i < k, orderOf s.shelf (after^[i] s.shelf.ords.next) ≠ none) ∧ x.ords.next = after n)
            ∧ at' x.ords.expired src = false ∧ at' x.ords.expired dst = false
            ∧ x.recs.recs = s.shelf.recs.recs ∧ SameCards s.shelf x))

/-- R65, R67, R68, R71, R74: an order is cancelled by request in any stage but COMPLETING, and expires at its dark limit
in AWAIT-DARK and at its light limit in AWAIT-LIGHT: it leaves the list, where its going may open the orders of waiting
condemnations (R54); its ending is told, an expiry sets the source's expired flag, and no record, definition or setting
changes. -/
def Obligations.OrderLeavesWithoutChange : Prop :=
  ∀ s : State,
    (∀ l tag body, Accepts l .cancelMoveOrder body s →
      let refused := fun (o : Outcome) =>
        exec (.cancelMoveOrder l tag body) s = .next (taken l .cancelMoveOrder tag (formed o []) s.shelf s)
      (orderOf s.shelf (byteAt body 0) = none → refused .absent)
      ∧ (∀ o, orderOf s.shelf (byteAt body 0) = some o → o.stage = .completing → refused .conflict)
      ∧ (∀ o, orderOf s.shelf (byteAt body 0) = some o → o.stage ≠ .completing → ∃ x : Shelf,
          OrderLeaves .cancelled o s.shelf x
          ∧ exec (.cancelMoveOrder l tag body) s
            = .next (taken l .cancelMoveOrder tag (formed .done []) (pump x) s)))
    ∧ (∀ n o, orderOf s.shelf n = some o → o.stage = .awaitDark → ∃ x : Shelf,
        OrderLeaves .expired o s.shelf x
        ∧ exec (.darkLimitExpiry n) s = .next (worked x s))
    ∧ (∀ n o, orderOf s.shelf n = some o → o.stage = .awaitLight → ∃ x : Shelf,
        OrderLeaves .expired o s.shelf x
        ∧ exec (.lightLimitExpiry n) s = .next (worked x s))

/-- R70, R72, R58, R99: the verify timer runs out with the destination still matched: the destination takes the source's
record, the source is emptied and becomes CONDEMNED or SPARE, and the group's definition names the destination in the
source's place. -/
def Obligations.VerifiedMoveChangesRecords : Prop :=
  ∀ (s : State) (n : Nat) (o : Order), orderOf s.shelf n = some o → o.stage = .verifying →
    destMatched s.shelf o = true → o.src ≠ o.dst → ∃ x : Shelf,
      exec (.verifyTimerExpiry n) s = .next (worked x s)
      ∧ recOf x o.dst = ⟨.inService, (recOf s.shelf o.src).desig, (recOf s.shelf o.src).tag⟩
      ∧ recOf x o.src = ⟨if o.origin = .reassign ∨ condemnOf s.shelf o.src ≠ none then .condemned else .spare, none, none⟩
      ∧ (∀ p, p ≠ o.src → p ≠ o.dst → recOf x p = recOf s.shelf p)
      ∧ (∀ g c d, o.circuit = some (g, c) → defOf s.shelf g = some d → defOf x g = some { d with
          protect := if d.protect = o.src then o.dst else d.protect
          working := d.working.map (fun p => if p = o.src then o.dst else p) })
      ∧ x.recs.identity = s.shelf.recs.identity ∧ x.recs.reassign = s.shelf.recs.reassign ∧ SameCards s.shelf x

/-- R50: an entry 24 hours old leaves the candidate list. R51, R52: a condemn timer that runs out makes its port due, and
with auto-reassign on in ARMED the port leaves the candidate list and is condemned automatically, also where it waits
already (the model's reading, log entry 36). -/
def Obligations.CandidateAndCondemnTimers : Prop :=
  ∀ (s : State) (p : PortNo),
    exec (.candidateMemoryExpiry p) s = .next (settled { s.shelf with recs := { s.shelf.recs with
      candidates := s.shelf.recs.candidates.filter (fun c => decide (c.port ≠ p)) } } s)
    ∧ ((at' s.shelf.recs.timers p).running = true → (at' s.shelf.recs.timers p).due = false →
        let x := { s.shelf with recs := { s.shelf.recs with
          timers := put s.shelf.recs.timers p ⟨true, 60000 * s.shelf.recs.reassign.minutes, true⟩ } }
        (s.shelf.recs.reassign.on = false ∨ s.shelf.rdy.phase ≠ .armed →
          exec (.condemnTimerExpiry p) s = .next (worked x s))
        ∧ (s.shelf.recs.reassign.on = true → s.shelf.rdy.phase = .armed →
          exec (.condemnTimerExpiry p) s = .next (worked (condemnPort p ⟨.automatic, false, 600, 600⟩
            { x with recs := { x.recs with
              candidates := s.shelf.recs.candidates.filter (fun c => decide (c.port ≠ p)) } }).1 s)))

/-! ### Protection groups and the executor (chapters 5 and 6) -/

/-- R81: Define Group: its checks in order, and the definition in force at once. -/
def Obligations.GroupIsDefined : Prop :=
  ∀ (l : Link) (tag : Byte) (body : List Byte) (s : State), Accepts l .defineGroup body s →
    let refused := fun (o : Outcome) =>
      exec (.defineGroup l tag body) s = .next (taken l .defineGroup tag (formed o []) s.shelf s)
    (groupOfBody body = none → refused .badValue)
    ∧ (∀ g d, groupOfBody body = some (g, d) →
        let conflict := (∃ p ∈ d.members, (∃ h c, memberOf s.shelf p = some (h, c) ∧ h ≠ g)
            ∨ classOf s.shelf p ≠ .inService ∨ inOrder s.shelf p = true ∨ inWindow s.shelf p = false)
          ∨ (∃ old, defOf s.shelf g = some old ∧ (groupState s.shelf g ≠ .idle
            ∨ (∃ p ∈ old.members, inOrder s.shelf p = true) ∨ hasTask s.shelf g = true))
        (conflict → refused .conflict)
        ∧ (¬ conflict → defOf s.shelf g = some d → refused .done)
        ∧ (¬ conflict → defOf s.shelf g ≠ some d → ∃ x : Shelf,
            StoredChange (.defineGroup l tag body) l .defineGroup tag s.shelf.eng.held { s with shelf := pump x } s
            ∧ defOf x g = some d ∧ (∀ h, h ≠ g → defOf x h = defOf s.shelf h)
            ∧ x.recs.recs = s.shelf.recs.recs ∧ SameCards s.shelf x
            ∧ x.sto.list = s.shelf.sto.list ++ [⟨s.shelf.sto.counter, .groupDef g (some d)⟩]))

/-- R82: Delete Group: its checks in order, and the group undefined at once. -/
def Obligations.GroupIsDeleted : Prop :=
  ∀ (l : Link) (tag : Byte) (body : List Byte) (s : State), Accepts l .deleteGroup body s →
    let refused := fun (o : Outcome) =>
      exec (.deleteGroup l tag body) s = .next (taken l .deleteGroup tag (formed o []) s.shelf s)
    (8 ≤ byteAt body 0 → refused .badValue)
    ∧ (∀ g : GroupNo, g.val = byteAt body 0 →
        (defOf s.shelf g = none → refused .absent)
        ∧ (∀ d, defOf s.shelf g = some d →
            let conflict := groupState s.shelf g ≠ .idle ∨ (∃ p ∈ d.members, inOrder s.shelf p = true)
              ∨ hasTask s.shelf g = true
              ∨ ∃ r : RefNo, 2 ≤ r.val ∧ r.val ≤ 4 ∧ (refOf s.shelf r).defn.binding = .group g
            (conflict → refused .conflict)
            ∧ (¬ conflict → ∃ x : Shelf,
                StoredChange (.deleteGroup l tag body) l .deleteGroup tag s.shelf.eng.held { s with shelf := pump x } s
                ∧ defOf x g = none ∧ (∀ h, h ≠ g → defOf x h = defOf s.shelf h)
                ∧ x.recs.recs = s.shelf.recs.recs ∧ SameCards s.shelf x
                ∧ x.sto.list = s.shelf.sto.list ++ [⟨s.shelf.sto.counter, .groupDef g none⟩])))

/-- Section 5.5, R89 to R92, R180: the operator requests: BAD-VALUE, ABSENT, OUTRANKED; else the request is recorded in the
group's list, one evaluation follows if the list has changed, in WATCH arming starts, and the reply is DONE, or STUCK
while the group is STUCK. That an undefined group is ABSENT whatever the channel is the model's choice (log entry 21). -/
def Obligations.OperatorRequestsAreRecorded : Prop :=
  ∀ (l : Link) (tag : Byte) (body : List Byte) (s : State) (k : ReqKind),
    k = .bar ∨ k = .pin ∨ k = .operatorSwitch ∨ k = .clearRequests → Accepts l k body s →
    let c := byteAt body 1
    let refused := fun (o : Outcome) => exec (k.instr l tag body) s = .next (taken l k tag (formed o []) s.shelf s)
    let takesChannel := k = .pin ∨ k = .operatorSwitch
    (8 ≤ byteAt body 0 → refused .badValue)
    ∧ (∀ g : GroupNo, g.val = byteAt body 0 →
        let r := runOf s.shelf g
        (defOf s.shelf g = none → refused .absent)
        ∧ (∀ d, defOf s.shelf g = some d →
            (takesChannel → c = 0 ∨ d.working.length < c → refused .badValue)
            ∧ (k = .operatorSwitch → 1 ≤ c → c ≤ d.working.length →
                (∃ e ∈ r.list, e.cls.rank ≤ 6) ∨ (∃ f, r.far = some f ∧ f.1.rank ≤ 6) → refused .outranked)
            ∧ ((takesChannel → 1 ≤ c ∧ c ≤ d.working.length) →
                (k = .operatorSwitch → (∀ e ∈ r.list, 6 < e.cls.rank) ∧ ∀ f, r.far = some f → 6 < f.1.rank) →
                ∃ x : Shelf,
                  exec (k.instr l tag body) s = .next (taken l k tag
                    (formed (if r.stuck then .stuck else .done) []) (pump (startArming .request x)) s)
                  ∧ SameButProtection s.shelf x ∧ (∀ h, h ≠ g → runOf x h = runOf s.shelf h)
                  ∧ (runOf x g).sel = r.sel ∧ (runOf x g).stuck = r.stuck
                  ∧ (k = .bar → ∃ e ∈ (runOf x g).list, e.cls = .barred ∧ e.chan = 0)
                  ∧ (k = .pin → (∃ e ∈ (runOf x g).list, e.cls = .pinned ∧ e.chan = c)
                      ∧ ∀ e ∈ (runOf x g).list, e.cls = .pinned → e.chan = c)
                  ∧ (k = .operatorSwitch → x = evaluateIfChanged g s.shelf
                      (setList g (placeOnly .operator c) s.shelf))
                  ∧ (k = .clearRequests → ∀ e ∈ (runOf x g).list,
                      e.cls ≠ .barred ∧ e.cls ≠ .pinned ∧ e.cls ≠ .operator))))

/-- R118: Clear Group Fault: in WATCH and ARMING it starts arming; in ARMED an adoption of a STUCK group is asked for and
the reply is ACCEPTED, while a group that is not STUCK is answered DONE, whether or not an adoption of it is listed (log
entry 33). An adoption asked for while the group has other work waits for it. Then the reads of an adoption (R114) and its
end (R115, R116): the words taken, the inconsistent adoption, which makes the group STUCK (its fault fields are log entry
31), and the consistent one. That the words are judged by the definition in force at the end, also where a move has changed
it while the adoption was listed or at the bus, is the model's choice (log entry 40); the carried channel the executor keeps
is its reading (log entry 37). -/
def Obligations.GroupFaultIsCleared : Prop :=
  (∀ (l : Link) (tag : Byte) (body : List Byte) (s : State), Accepts l .clearGroupFault body s →
    let answers := fun (o : Outcome) (x : Shelf) =>
      exec (.clearGroupFault l tag body) s = .next (taken l .clearGroupFault tag (formed o []) x s)
    (8 ≤ byteAt body 0 → answers .badValue s.shelf)
    ∧ (∀ g : GroupNo, g.val = byteAt body 0 →
        (defOf s.shelf g = none → answers .absent s.shelf)
        ∧ (defOf s.shelf g ≠ none →
            (s.shelf.rdy.phase ≠ .armed → answers .done (pump (startArming .request s.shelf)))
            ∧ (s.shelf.rdy.phase = .armed → (runOf s.shelf g).stuck = false → answers .done s.shelf)
            ∧ (s.shelf.rdy.phase = .armed → (runOf s.shelf g).stuck = true → ∃ x : Shelf,
                answers .accepted (pump x) ∧ x = { s.shelf with exe := x.exe }
                ∧ (adoptionListed s.shelf g = true → x = s.shelf)
                ∧ (adoptionListed s.shelf g = false → (execOf s.shelf g).plan = none → (execOf s.shelf g).subst = none →
                    (execOf s.shelf g).job = none → x.exe.tasks = s.shelf.exe.tasks ++ [.adoption g])
                ∧ (adoptionListed s.shelf g = false → (execOf s.shelf g).plan ≠ none ∨ (execOf s.shelf g).subst ≠ none
                    ∨ (execOf s.shelf g).job ≠ none → x.exe.tasks = s.shelf.exe.tasks
                    ∧ execOf x g = { execOf s.shelf g with adoptDue := true })))))
  ∧ (∀ (y : Shelf) (g : GroupNo) (p : PortNo) (rest : List PortNo) (got : List (PortNo × Option Word)),
      (portPresent y p = true → (adoptNext g (p :: rest) got y).exe.active = some (.adoption g (p :: rest) got)
        ∧ (adoptNext g (p :: rest) got y).bp.waitExecutor = some (.read (slotOf p) (controlOffset p)))
      ∧ (portPresent y p = false → adoptNext g (p :: rest) got y = adoptNext g rest (got ++ [(p, none)]) y)
      ∧ (y.exe.active = some (.adoption g (p :: rest) got) →
          (∀ w, executorEnd (.done [w]) y = adoptNext g rest (got ++ [(p, some w)]) (setActive none y))
          ∧ (∀ a n off r w,
              executorEnd (.fault a n off r w) y = adoptNext g rest (got ++ [(p, none)]) (setActive none y)))
      ∧ adoptNext g [] got y = adoptionEnd g got (setActive none y))
  ∧ (∀ (y : Shelf) (g : GroupNo) (d : GroupDef) (got : List (PortNo × Option Word)), defOf y g = some d →
      y.rdy.phase ≠ .arming →
      let role := fun (p : PortNo) => if p = d.protect then (if d.shared then 3 else 2) else 1
      let word := fun (p : PortNo) => ((got.find? (fun x => decide (x.1 = p))).bind Prod.snd).filter
        (fun w => decide (field w 0 2 = role p))
      let prot := word d.protect
      let c := (prot.map (fun w => field w 12 3)).getD 0
      let b := if d.shared then (prot.map (fun w => field w 8 3)).getD 0 else 1
      let out := (prot.map (fun w => (field w 16 4, field w 20 3))).getD (10, 0)
      let bad := ∃ w, prot = some w ∧ (d.working.length < c ∨ (d.shared = true ∧ d.working.length < b)
        ∨ (w.getLsbD 15 = true ∧ c = 0) ∨ (w.getLsbD 15 = false ∧ c ≠ 0) ∨ (d.shared = true ∧ c ≠ 0 ∧ c ≠ b)
        ∨ ∃ p ∈ d.working, ∃ v, word p = some v ∧ v.getLsbD 5 ≠ decide (d.channelOf p = some c))
      let z := adoptionEnd g got y
      (bad → GoneStuck g (none, 0, false) y z)
      ∧ (¬ bad → (runOf z g).sel = c ∧ (runOf z g).stuck = false
          ∧ (execOf z g).bridged = some b ∧ (execOf z g).carried = c ∧ (execOf z g).prepareDue = false
          ∧ (∀ p due, (p, due) ∈ (execOf z g).owed ↔ p ∈ d.members ∧ portPresent y p = true
              ∧ due = dueWord d p c b out.1 out.2
              ∧ (word p = none ∨ ∃ w, word p = some w ∧ withFields w (dueFields due w) ≠ w))
          ∧ GroupTold .adopted g none z ∧ ((runOf y g).stuck = true → GroupTold .unstuck g none z)
          ∧ (Obj.group g, Cond.selectorFault) ∉ z.alm.told))

/-- R85: a hold-off timer that runs out puts the member's class into the list, and the group is evaluated if that changes
the list. R97: the WTR timer's end removes Settling, makes the restore due and has the group evaluated. Then what an
evaluation makes of a group: the active request is the best of the list's entries and the far request (R87), a displaced
Operator leaves (R91), Settling and Remain are settled (R96), and a plan to the target is asked for where one is due (R94).
R116: none is asked for while the group's preparation is due; that the group is evaluated then all the same is the
model's reading (log entry 28). -/
def Obligations.HoldOffAndWtrEnd : Prop :=
  (∀ s : State,
    (∀ p g chan cls c, at' s.shelf.eng.holdOff p ≠ none → memberOf s.shelf p = some (g, chan) →
      derivedClass chan (condOf s.shelf p) = some (cls, c) →
        let l := placeEntry ⟨cls, c, none, false⟩ (runOf s.shelf g).list
        let y : Shelf := { s.shelf with eng := { s.shelf.eng with
          holdOff := put s.shelf.eng.holdOff p none
          run := put s.shelf.eng.run g { runOf s.shelf g with list := l } } }
        let x := if l = (runOf s.shelf g).list then y else evaluate g y
        exec (.holdOffTimerExpiry p) s = .next (worked x s)
        ∧ at' x.eng.holdOff p = none ∧ (∃ e ∈ (runOf x g).list, e.cls = cls ∧ e.chan = c)
        ∧ x = { s.shelf with
            eng := { s.shelf.eng with run := x.eng.run, holdOff := x.eng.holdOff }
            exe := x.exe
            alm := x.alm
            out := x.out }
        ∧ (∀ q, q ≠ p → at' x.eng.holdOff q = at' s.shelf.eng.holdOff q)
        ∧ (∀ h, h ≠ g → runOf x h = runOf s.shelf h))
    ∧ (∀ p g chan, at' s.shelf.eng.holdOff p ≠ none →
        memberOf s.shelf p = none ∨ memberOf s.shelf p = some (g, chan) ∧ derivedClass chan (condOf s.shelf p) = none →
        exec (.holdOffTimerExpiry p) s = .next (worked { s.shelf with eng := { s.shelf.eng with
          holdOff := put s.shelf.eng.holdOff p none } } s))
    ∧ (∀ g, (runOf s.shelf g).wtr ≠ none → defOf s.shelf g ≠ none →
        let y : Shelf := { s.shelf with eng := { s.shelf.eng with run := put s.shelf.eng.run g { runOf s.shelf g with
          list := (runOf s.shelf g).list.filter (fun e => decide (e.cls ≠ .settling))
          restoreDue := true
          wtr := none } } }
        let x := evaluate g y
        exec (.wtrTimerExpiry g) s = .next (worked x s) ∧ (runOf x g).restoreDue = true
        ∧ (runOf x g).sel = (runOf s.shelf g).sel ∧ SameButProtection s.shelf x
        ∧ (∀ h, h ≠ g → runOf x h = runOf s.shelf h)))
  ∧ ∀ (y : Shelf) (g : GroupNo) (d : GroupDef), defOf y g = some d →
    let r := runOf y g
    let e := execOf y g
    let z := evaluate g y
    let x := runOf z g
    let wait := fun (w : ReqEntry) => w.cls = .settling ∨ w.cls = .remain
    let target := match x.active with
      | none => 0
      | some (cls, chan) => if cls = .barred ∨ cls = .protectFailed ∨ cls = .idle then 0 else chan
    let high := ∃ a, x.active = some a ∧ a.1.rank < ReqClass.settling.rank
    let candidate := fun (c : ReqEntry) => c ∈ x.list ∨ c ∈ r.list ∧ c.cls = .operator
    let best := fun (c : ReqEntry) => candidate c ∧ ∀ o, candidate o → c.cls.rank < o.cls.rank
      ∨ c.cls = o.cls ∧ (c.chan = o.chan ∨ c.chan = r.sel ∨ o.chan ≠ r.sel ∧ c.chan < o.chan)
    let before := fun (f : ReqClass × Nat) (c : ReqEntry) => f.1.rank < c.cls.rank ∨ f.1 = c.cls ∧ f.2 < c.chan
    let stands := fun (w : ReqEntry) => w ∈ r.list ∧ wait w ∧ w.chan = r.sel
      ∧ (∀ o ∈ r.list, o.chan = r.sel → o.cls.rank < ReqClass.settling.rank → o.cls = .barred ∨ o.cls = .protectFailed)
      ∧ (high → target = r.sel)
    let settles := d.revertive = true ∧ y.rdy.phase = .armed
    let placed := r.sel ≠ 0 ∧ r.plan = none ∧ r.restoreDue = false ∧ (∀ w ∈ r.list, wait w → w.chan ≠ r.sel) ∧ ¬ high
    let fresh := placed ∨ settles ∧ ∃ w, stands w ∧ w.cls = .remain
    let asked := r.stuck = false ∧ y.rdy.phase = .armed ∧ e.prepareDue = false
      ∧ (r.plan = none ∧ target ≠ r.sel ∨ ∃ u, r.plan = some u ∧ e.step = .confirmWait ∧ target ≠ u)
    SameButProtection y z ∧ (∀ h, h ≠ g → runOf z h = runOf y h)
    ∧ x = { r with list := x.list, active := x.active, plan := x.plan, wtr := x.wtr }
    ∧ ((∀ c, ¬ candidate c) → x.active = r.far)
    ∧ (∀ c, best c → (∀ f, r.far = some f → ¬ before f c) → x.active = some (c.cls, c.chan))
    ∧ (∀ f, r.far = some f → (∀ c, best c → before f c) → x.active = some f)
    ∧ (∀ o, ¬ wait o → (o ∈ x.list ↔ o ∈ r.list
        ∧ (o.cls = .operator → x.active = some (.operator, o.chan) ∨ target = o.chan)))
    ∧ (fresh → (∃ w ∈ x.list, wait w)
        ∧ (∀ w ∈ x.list, wait w → w.chan = r.sel ∧ (settles → w.cls = .settling) ∧ (¬ settles → w.cls = .remain)))
    ∧ (¬ fresh → ∀ w, wait w → (w ∈ x.list ↔ stands w))
    ∧ (settles ∧ fresh → x.wtr = some 0)
    ∧ (¬ (settles ∧ fresh) → ((∃ w ∈ x.list, w.cls = .settling) → x.wtr = r.wtr)
        ∧ ((∀ w ∈ x.list, w.cls ≠ .settling) → x.wtr = none))
    ∧ (¬ asked → x.plan = r.plan ∧ z.exe = y.exe)
    ∧ (asked →
        let next := if target = 0 then XKind.release else if d.shared = true then .bridge else .select
        x.plan = some target
        ∧ (∃ p, (execOf z g).plan = some p ∧ p.target = target ∧ (p.cls, p.chan) = x.active.getD (.idle, 0) ∧ p.next = next)
        ∧ (execOf z g).confirm = none ∧ (∀ h, h ≠ g → execOf z h = execOf y h) ∧ z.exe.active = y.exe.active
        ∧ (e.job = none → e.owed = [] → e.subst = none → adoptionListed y g = false →
            z.exe.tasks = y.exe.tasks ++ [.exchange g] ∧ (execOf z g).job = some ⟨next, [], 1, none⟩))

/-- R110: the confirm timer's end reports FAR-END-SILENT. R111: after the retry wait the exchange joins the task list
again. R120: 1 s after a faulted clear task another may stand. Then the words that a plan's exchange names when it is first
taken (R108), the same words when an exchange of any kind is tried again (R111), and what the end of a group's exchange comes
to, for the outcome that reaches the executor: a completed bridge, select or release (R109, R110), restore (R116, R117) or
substitution (R119), a fault with no write done and with some (R111, R112), and a recovery's end (R112, R113). That a plan's
exchange names the ports of the definition then in force, also while a substitution of the group is pending (log entry 39),
that a recovery goes to the head of the task list (log entry 14), and where the work that follows an end is taken up (log
entries 15, 16 and 30), is the model's choice or reading. So are the fault fields of the notice STUCK after a recovery, which
R101 and R112 leave open (log entry 42, DESIGN CHOICE: a faulted recovery's own answer, or after a completed one at attempt 3
the answer of the exchange recovered, and in both its attempt and writes done), and the carried channel that the executor keeps
(log entry 37, DEDUCED). -/
def Obligations.ExecutorTimersEnd : Prop :=
  (∀ (s : State) (g : GroupNo),
    ((execOf s.shelf g).confirm ≠ none → ∃ x : Shelf, exec (.confirmTimerExpiry g) s = .next (settled x s)
      ∧ SameButAlarms s.shelf x ∧ (Obj.group g, Cond.farEndSilent) ∈ x.alm.told)
    ∧ ((execOf s.shelf g).retry ≠ none → (execOf s.shelf g).step = .retryWait → ∃ x : Shelf,
        exec (.retryWaitExpiry g) s = .next (worked x s)
        ∧ x.exe.tasks = s.shelf.exe.tasks ++ [.exchange g]
        ∧ execOf x g = { execOf s.shelf g with retry := none, step := .queued }
        ∧ (∀ h, h ≠ g → execOf x h = execOf s.shelf h)
        ∧ x = { s.shelf with exe := { s.shelf.exe with groups := x.exe.groups, tasks := x.exe.tasks } })
    ∧ (s.shelf.exe.clearWait ≠ none → ∃ x : Shelf, exec .clearRetryExpiry s = .next (worked x s)
        ∧ x = { s.shelf with exe := { s.shelf.exe with clearWait := none, tasks := x.exe.tasks } }
        ∧ (s.shelf.rdy.phase = .armed → (∃ p ∈ s.shelf.exe.clearList, portPresent s.shelf p = true) →
            Task.clear ∈ x.exe.tasks ∨ clearListed s.shelf = true)))
  ∧ (∀ (y : Shelf) (g : GroupNo) (d : GroupDef) (j : XJob) (pl : XPlan), defOf y g = some d →
      (execOf y g).job = some j → j.ports = [] → (execOf y g).plan = some pl → (execOf y g).step ≠ .recovery →
      let b := (execOf y g).bridged.getD 0
      let names := fun (channels : List Nat) =>
        (takeTask (.exchange g) y).exe.active = some (.exchange g)
        ∧ (takeTask (.exchange g) y).bp.waitExecutor
          = some (.exchange ((channels.filterMap d.portOf).map (fun p => (slotOf p, controlOffset p))))
      (j.kind = .bridge → names ([0] ++ (if b = 0 ∨ b = pl.target then [] else [b]) ++ [pl.target]))
      ∧ (j.kind = .select → names [0, pl.target])
      ∧ (j.kind = .release → names (if d.shared then [0] ++ (if b = 0 then [] else [b]) else [0, 1])))
  ∧ (∀ (y : Shelf) (g : GroupNo) (d : GroupDef) (j : XJob), defOf y g = some d → (execOf y g).job = some j →
      j.ports ≠ [] → (execOf y g).step ≠ .recovery →
      takeTask (.exchange g) y = { y with
        exe := { y.exe with
          active := some (.exchange g)
          groups := put y.exe.groups g { execOf y g with step := .atBus, saved := [] } }
        bp := { y.bp with
          waitExecutor := some (.exchange (j.ports.map (fun p => (slotOf p.1, controlOffset p.1)))) } })
  ∧ (∀ (y : Shelf) (g : GroupNo) (d : GroupDef) (j : XJob), y.exe.active = some (.exchange g) → defOf y g = some d →
      (execOf y g).job = some j →
      let x := execOf y g
      let r := runOf y g
      let sameLines := fun (z : Shelf) => (runOf z g).sel = r.sel ∧ (runOf z g).stuck = r.stuck
        ∧ (execOf z g).bridged = x.bridged ∧ (execOf z g).carried = x.carried
      let waits := fun (z : Shelf) => runOf z g = r ∧ z.exe.tasks = y.exe.tasks ∧ execOf z g = { x with
        job := some { j with attempt := j.attempt + 1, fault := none }, saved := [], step := .retryWait, retry := some 0 }
      (x.step ≠ .recovery →
        (∀ words, let z := executorEnd (.done words) y
          (∀ pl, x.plan = some pl →
            (j.kind = .bridge → (execOf z g).bridged = some pl.target ∧ (execOf z g).carried = 0 ∧ runOf z g = r
              ∧ ((obsOf y d.protect).rxProt.map ProtWord.bridged ≠ some pl.target →
                  z.exe.tasks = y.exe.tasks ∧ execOf z g = { x with
                    job := none, saved := [], bridged := some pl.target, carried := 0, step := .confirmWait
                    confirm := some 0 })
              ∧ ((obsOf y d.protect).rxProt.map ProtWord.bridged = some pl.target → (execOf z g).confirm = none
                  ∧ (Obj.group g, Cond.farEndSilent) ∉ z.alm.told
                  ∧ (y.rdy.phase = .armed → r.stuck = false → x.owed = [] → x.subst = none →
                      Task.adoption g ∉ y.exe.tasks →
                      (execOf z g).job = some ⟨.select, [], 1, none⟩ ∧ z.exe.tasks = y.exe.tasks ++ [.exchange g])))
            ∧ (j.kind = .select → (runOf z g).sel = pl.target ∧ (execOf z g).carried = pl.target
                ∧ (execOf z g).bridged = x.bridged ∧ (r.sel ≠ pl.target → GroupTold .switched g none z))
            ∧ (j.kind = .release → (runOf z g).sel = 0 ∧ (execOf z g).carried = 0
                ∧ (execOf z g).bridged = (if d.shared then some 0 else x.bridged)
                ∧ (r.sel ≠ 0 → GroupTold .switched g none z)))
          ∧ (j.kind = .restore →
              let owed := x.owed.filter (fun w => decide (w.1 ∉ j.ports.map Prod.fst))
              (execOf z g).owed = owed ∧ (runOf z g).sel = r.sel
              ∧ (x.prepareDue = true → owed = [] → y.rdy.phase = .armed → r.stuck = false →
                  (execOf z g).prepareDue = false ∧ (execOf z g).carried = 0
                  ∧ (execOf z g).bridged = some (if d.shared then 0 else 1))
              ∧ (x.prepareDue = false ∨ owed ≠ [] → (execOf z g).prepareDue = x.prepareDue ∧ sameLines z))
          ∧ (j.kind = .subst ∨ j.kind = .substDest → (execOf z g).subst = none ∧ sameLines z
              ∧ ∀ o, y.ords.list.find?
                  (fun o => decide (o.stage = .completing) && decide (o.circuit.map Prod.fst = some g)) = some o →
                orderOf y o.num = some o → OrderLeaves .completed o y z))
        ∧ (∀ a n off reads, let z := executorEnd (.fault a n off reads 0) y
            GroupTold .fault g (some (some a, j.attempt, false)) z
            ∧ (j.attempt < 3 → waits z) ∧ (3 ≤ j.attempt → GoneStuck g (some a, j.attempt, false) y z))
        ∧ (∀ a n off reads w, 0 < w → let z := executorEnd (.fault a n off reads w) y
            GroupTold .fault g (some (some a, j.attempt, true)) z ∧ runOf z g = r
            ∧ z.exe.tasks = .exchange g :: y.exe.tasks
            ∧ execOf z g = { x with
                job := some { j with fault := some a }, saved := x.saved.drop (x.saved.length - 1 - w)
                step := .recovery }))
      ∧ (x.step = .recovery →
        (∀ words, let z := executorEnd (.done words) y
          (j.attempt < 3 → waits z) ∧ (3 ≤ j.attempt → GoneStuck g (j.fault, j.attempt, true) y z))
        ∧ (∀ a n off reads w,
            GoneStuck g (some a, j.attempt, true) y (executorEnd (.fault a n off reads w) y))))

/-! ### Shelf timing (chapter 7) -/

/-- R136 and R137: Define Reference and Set Timing Options. -/
def Obligations.TimingDefinitionsChange : Prop :=
  ∀ (l : Link) (tag : Byte) (body : List Byte) (s : State),
    (Accepts l .defineReference body s →
      let answers := fun (o : Outcome) (x : Shelf) =>
        exec (.defineReference l tag body) s = .next (taken l .defineReference tag (formed o []) x s)
      (refOfBody body = none → answers .badValue s.shelf)
      ∧ (∀ r d, refOfBody body = some (r, d) →
          let conflict := (∃ p, d.binding = .port p ∧ (classOf s.shelf p ≠ .inService ∨ inWindow s.shelf p = false))
            ∨ (∃ g, d.binding = .group g ∧ defOf s.shelf g = none)
          (conflict → answers .conflict s.shelf)
          ∧ (¬ conflict → d = (refOf s.shelf r).defn → s.shelf.tim.forced ≠ some r → answers .done s.shelf)
          ∧ (¬ conflict → d = (refOf s.shelf r).defn → s.shelf.tim.forced = some r → ∃ x : Shelf,
              answers .done (pump x) ∧ x.tim.forced = none ∧ SameButTiming s.shelf x)
          ∧ (¬ conflict → d ≠ (refOf s.shelf r).defn → ∃ x : Shelf,
              StoredChange (.defineReference l tag body) l .defineReference tag s.shelf.tim.held
                { s with shelf := pump x } s
              ∧ (refOf x r).defn = d ∧ (∀ q, q ≠ r → (refOf x q).defn = (refOf s.shelf q).defn)
              ∧ x.tim.forced ≠ some r ∧ SameButTiming (editing (.refDef r d) s.shelf) x)))
    ∧ (Accepts l .setTimingOptions body s →
      let refused := fun (o : Outcome) =>
        exec (.setTimingOptions l tag body) s = .next (taken l .setTimingOptions tag (formed o []) s.shelf s)
      let inRange := byteAt body 0 ≤ 1 ∧ 2 ≤ byteAt body 1 ∧ byteAt body 1 ≤ 60 ∧ 1 ≤ byteAt body 2 ∧ byteAt body 2 ≤ 72
      let o : TimingOptions := ⟨decide (byteAt body 0 = 1), byteAt body 1, byteAt body 2⟩
      (¬ inRange → refused .badValue)
      ∧ (inRange → o = s.shelf.tim.opts → refused .done)
      ∧ (inRange → o ≠ s.shelf.tim.opts → ∃ x : Shelf,
          StoredChange (.setTimingOptions l tag body) l .setTimingOptions tag s.shelf.tim.held
            { s with shelf := pump x } s
          ∧ x.tim.opts = o ∧ (∀ r, (refOf x r).defn = (refOf s.shelf r).defn)
          ∧ SameButTiming (editing (.timing o) s.shelf) x))

/-- R137 and R127: Lock Out Reference and Force Reference. -/
def Obligations.LockOutAndForce : Prop :=
  ∀ (l : Link) (tag : Byte) (body : List Byte) (s : State),
    (Accepts l .lockOutReference body s →
      let answers := fun (o : Outcome) (x : Shelf) =>
        exec (.lockOutReference l tag body) s = .next (taken l .lockOutReference tag (formed o []) x s)
      (5 ≤ byteAt body 0 ∨ 1 < byteAt body 1 → answers .badValue s.shelf)
      ∧ (∀ (r : RefNo) (on : Bool), r.val ≤ 4 → r.val = byteAt body 0 → byteAt body 1 = on.toNat →
          (on = false → (refOf s.shelf r).locked = false → answers .done s.shelf)
          ∧ (on = true ∨ (refOf s.shelf r).locked = true → ∃ x : Shelf, answers .done (pump x)
              ∧ (refOf x r).locked = on ∧ (∀ q, q ≠ r → (refOf x q).locked = (refOf s.shelf q).locked)
              ∧ (∀ q, (refOf x q).defn = (refOf s.shelf q).defn)
              ∧ (on = true → x.tim.forced ≠ some r ∧ (refOf x r).state ≠ .usable) ∧ SameButTiming s.shelf x)))
    ∧ (Accepts l .forceReference body s →
      let answers := fun (o : Outcome) (x : Shelf) =>
        exec (.forceReference l tag body) s = .next (taken l .forceReference tag (formed o []) x s)
      (byteAt body 0 = 0xFF → ∃ x : Shelf, answers .done (pump x) ∧ x.tim.forced = none ∧ SameButTiming s.shelf x)
      ∧ (5 ≤ byteAt body 0 → byteAt body 0 ≠ 0xFF → answers .badValue s.shelf)
      ∧ (∀ r : RefNo, r.val ≤ 4 → r.val = byteAt body 0 →
          ((refOf s.shelf r).state ≠ .usable → answers .conflict s.shelf)
          ∧ ((refOf s.shelf r).state = .usable → ∃ x : Shelf, answers .done (pump x) ∧ SameButTiming s.shelf x
              ∧ x = timingEvent (fun y => { y with tim := { y.tim with forced := some r, forceSeen := true } }) s.shelf
              ∧ ((refOf x r).state = .usable → x.tim.forced = some r ∧ x.tim.sel = some r))))

/-- R125, R129 to R131: the building inputs and the selector's timers: each makes its change, the references are judged and
the selector then evaluates once (log entry 26), but for the LOCKED timer, which makes the history valid. A building input
that is lost makes its reference UNUSABLE, and one that has nothing else against it then qualifies from 0. Then what an
evaluation selects (R127, R128): the forced reference that is USABLE; else, where the selected reference is none or no longer
USABLE, the best-ranked USABLE one; else that one only where its grade is better or, with the revertive option, where it
ranks above. R129: the state that a change of selection enters. -/
def Obligations.TimingTimersEnd : Prop :=
  (∀ s : State,
    (∀ (i : BuildingInput) (b : Bool),
      let y : Shelf := (match i with
        | .bc1 => { s.shelf with pins := { s.shelf.pins with bc1 := b } }
        | .bc2 => { s.shelf with pins := { s.shelf.pins with bc2 := b } })
      let r : RefNo := (match i with
        | .bc1 => 0
        | .bc2 => 1)
      let x := timingEvent id y
      let old := refOf s.shelf r
      let is := fun (st : RefState) (qual : Option Nat) => refOf x r = { old with state := st, qual := qual }
      exec (.buildingClockInputChange i b) s = .next (worked x s)
      ∧ SameButTiming y x ∧ x.pins = y.pins
      ∧ (old.deriv = none →
          (old.defn.priority = 0 → is .disabled none)
          ∧ (old.defn.priority ≠ 0 → (b = false ∨ old.defn.override = some .gx ∨ old.locked = true) → is .unusable none)
          ∧ (old.defn.priority ≠ 0 → b = true → old.defn.override ≠ some .gx → old.locked = false →
              (old.state = .disabled ∨ old.state = .unusable → is .qualifying (some 0))
              ∧ (old.state = .qualifying ∨ old.state = .usable → is old.state old.qual))))
    ∧ (∀ r : RefNo, (refOf s.shelf r).state = .qualifying →
        let x := timingEvent (setRef r (fun v => { v with state := .usable, qual := none })) s.shelf
        exec (.qualificationTimerExpiry r) s = .next (worked x s) ∧ SameButTiming s.shelf x
        ∧ (refEnabled s.shelf r = true → hasCause s.shelf r = false →
            derivationPort s.shelf r = (refOf s.shelf r).deriv → (refOf x r).state = .usable ∧ (refOf x r).qual = none))
    ∧ (s.shelf.tim.st = .acquiring →
        let x := timingEvent (fun y => { y with tim := { y.tim with st := .locked, acquire := none, lockedFor := some 0 } })
          s.shelf
        exec .acquireTimerExpiry s = .next (worked x s) ∧ SameButTiming s.shelf x
        ∧ (x.tim.sel = s.shelf.tim.sel → x.tim.sel ≠ none →
            x.tim.st = .locked ∧ x.tim.acquire = none ∧ x.tim.lockedFor = some 0))
    ∧ (s.shelf.tim.lockedFor ≠ none → exec .lockedTimerExpiry s
        = .next (settled { s.shelf with tim := { s.shelf.tim with valid := true } } s))
    ∧ (s.shelf.tim.st = .holdover →
        let x := timingEvent (fun y => { y with tim := { y.tim with
          st := .freeRun, sel := none, acquire := none, lockedFor := none, holdFor := none, valid := false } }) s.shelf
        exec .holdoverTimerExpiry s = .next (worked x s) ∧ SameButTiming s.shelf x ∧ x.tim.valid = false
        ∧ (x.tim.sel = none → x.tim.st = .freeRun ∧ x.tim.holdFor = none)))
  ∧ ∀ (f : Shelf → Shelf) (s : Shelf),
      let y := f s
      let x := timingEvent f s
      let usable := fun (r : RefNo) => (refOf x r).state = .usable
      let grade := fun (r : RefNo) => (gradeInUse x r).code
      let above := fun (a b : RefNo) => grade a < grade b
        ∨ grade a = grade b ∧ ((refOf x a).defn.priority < (refOf x b).defn.priority
          ∨ (refOf x a).defn.priority = (refOf x b).defn.priority ∧ a.val < b.val)
      let best := fun (c : RefNo) => usable c ∧ ∀ r, usable r → r ≠ c → above c r
      (∀ r, x.tim.forced = some r → usable r → x.tim.sel = some r)
      ∧ ((∀ r, x.tim.forced = some r → ¬ usable r) →
          ((∀ r, ¬ usable r) → x.tim.sel = none)
          ∧ (∀ c, best c →
              ((∀ r, y.tim.sel = some r → ¬ usable r) → x.tim.sel = some c)
              ∧ (∀ r, y.tim.sel = some r → usable r → x.tim.sel
                  = if grade c < grade r ∨ x.tim.opts.revertive = true ∧ above c r then some c else some r)))
      ∧ (x.tim.sel = y.tim.sel → x.tim.st = y.tim.st)
      ∧ (x.tim.sel ≠ y.tim.sel →
          (∀ c, x.tim.sel = some c → x.tim.st = .acquiring ∧ x.tim.acquire = some 0)
          ∧ (x.tim.sel = none → y.tim.valid = true → x.tim.st = .holdover ∧ x.tim.holdFor = some 0)
          ∧ (x.tim.sel = none → y.tim.valid = false → x.tim.st = .freeRun))

/-! ### Alarms and the record store (chapters 8 and 10) -/

/-- R154: Acknowledge of one entry and of all. That the number acknowledged is one byte is the model's choice (log entry
10). -/
def Obligations.AcknowledgeSetsFlags : Prop :=
  ∀ (l : Link) (tag : Byte) (body : List Byte) (s : State), Accepts l .acknowledge body s →
    let answers := fun (o : Outcome) (data : List Byte) (x : Shelf) =>
      exec (.acknowledge l tag body) s = .next (taken l .acknowledge tag (formed o data) x s)
    let due := fun (e : AlarmEntry) => e.state ≠ .rising ∧ e.acked = false
    (byteAt body 0 = 5 →
      ((∀ e ∈ s.shelf.alm.table, ¬ due e) → answers .done [0#8] s.shelf)
      ∧ ((∃ e ∈ s.shelf.alm.table, due e) → ∃ x : Shelf,
          answers .done [byte1 (s.shelf.alm.table.filter (fun e => decide (e.state ≠ .rising ∧ e.acked = false))).length] x
          ∧ SameButAlarms s.shelf x
          ∧ x.alm.table = s.shelf.alm.table.map (fun e => if e.state ≠ .rising then { e with acked := true } else e)
          ∧ x.alm.history.getLast?
              = some ⟨s.shelf.alm.nextSeq, shelfTime s.shelf, none, none, none, .acknowledged⟩))
    ∧ (byteAt body 0 ≠ 5 → ackTarget body = none → answers .badValue [] s.shelf)
    ∧ (byteAt body 0 ≠ 5 → ∀ o c, ackTarget body = some (o, c) →
        (entryOf s.shelf o c = none → answers .absent [] s.shelf)
        ∧ (∀ e, entryOf s.shelf o c = some e →
            (e.state = .rising → answers .conflict [] s.shelf)
            ∧ (e.state ≠ .rising → e.acked = true → answers .done [] s.shelf)
            ∧ (e.state ≠ .rising → e.acked = false → ∃ x : Shelf, answers .done [] x ∧ SameButAlarms s.shelf x
                ∧ entryOf x o c = some { e with acked := true }
                ∧ x.alm.history.getLast? = some ⟨s.shelf.alm.nextSeq, shelfTime s.shelf, some o, some c, some e.sev,
                    .acknowledged⟩)))

/-- R142: Set Condition: the setting of one condition, in force at once. -/
def Obligations.ConditionSettingChanges : Prop :=
  ∀ (l : Link) (tag : Byte) (body : List Byte) (s : State), Accepts l .setCondition body s →
    let refused := fun (o : Outcome) =>
      exec (.setCondition l tag body) s = .next (taken l .setCondition tag (formed o []) s.shelf s)
    let raise := nat2At body 2
    let clear := nat2At body 4
    let inRange := byteAt body 0 < 24 ∧ byteAt body 1 < 4 ∧ raise ≤ 600 ∧ clear ≤ 300
      ∧ (byteAt body 0 = 0 → raise = 0 ∧ clear = 0)
    (¬ inRange → refused .badValue)
    ∧ (inRange → ∀ (c : Cond) (sev : Severity), (Cond.code c).val = byteAt body 0 → sev.code = byteAt body 1 →
        (settingOf s.shelf c = ⟨sev, raise, clear⟩ → refused .done)
        ∧ (settingOf s.shelf c ≠ ⟨sev, raise, clear⟩ → ∃ (x : Shelf) (v : Vector CondSetting 24),
            v = put s.shelf.alm.settings (Cond.code c) ⟨sev, raise, clear⟩
            ∧ StoredChange (.setCondition l tag body) l .setCondition tag [] { s with shelf := x } s
            ∧ SameButAlarms { editing (.conditions v) s.shelf with alm := { s.shelf.alm with settings := v } } x))

/-- R148: the end of a raise soak raises the entry; the end of a clear soak removes it. R147, R149, R150: a condition that
becomes effectively present makes its entry where there is room, and at 95 in use TABLE-FULL is raised and an eviction or
none decides. R147, R145: what absence, presence and a mask make of an entry. R152, R153: the lamps and the audible
output. That a FALLING entry's return to RAISED raises no TABLE-FULL, also with 95 in use and none standing, where R150 by its
letter would raise it, is the model's reading (log entry 46, DEDUCED). -/
def Obligations.SoaksEnd : Prop :=
  (∀ (s : State) (o : Obj) (c : Cond) (e : AlarmEntry), entryOf s.shelf o c = some e →
    (e.state = .rising → ∃ x : Shelf, exec (.raiseSoakExpiry o c) s = .next (settled x s) ∧ SameButAlarms s.shelf x
      ∧ entryOf x o c = some { e with state := .raised, raiseTime := some (shelfTime s.shelf), count := 1, soak := none }
      ∧ x.alm.history.getLast? = some ⟨s.shelf.alm.nextSeq, shelfTime s.shelf, some o, some c, some e.sev, .raised⟩
      ∧ x.alm.cutOff = (if e.sev = .critical ∨ e.sev = .major then false else s.shelf.alm.cutOff))
    ∧ (e.state = .falling → (o, c) ∉ s.shelf.alm.eff → ∃ x : Shelf,
        exec (.clearSoakExpiry o c) s = .next (settled x s) ∧ SameButAlarms s.shelf x ∧ entryOf x o c = none
        ∧ AlarmOffered o c e.sev .cleared s.shelf x
        ∧ (AlarmsOk s.shelf.alm → c ≠ .tableFull → EntryLeaves o c s.shelf x)))
  ∧ (∀ (x : Shelf) (o : Obj) (c : Cond), c ≠ .tableFull → masked x o c = false → (o, c) ∉ x.alm.eff →
      entryOf x o c = none →
      let y := report o c true x
      let v := settingOf x c
      let sounds := fun (sev : Severity) => sev = .critical ∨ sev = .major
      let record := fun (o : Obj) (c : Cond) (sev : Severity) (tr : Transition) =>
        (⟨x.alm.nextSeq, shelfTime x, some o, some c, some sev, tr⟩ : HistRec)
      let entered := fun (t : List AlarmEntry) => t ++ [if v.raise = 0
        then ⟨o, c, v.sev, .raised, false, some (shelfTime x), 1, none⟩ else ⟨o, c, v.sev, .rising, false, none, 0, some 0⟩]
      let full := if ∃ e ∈ x.alm.table, e.cond = .tableFull then x.alm.table else x.alm.table
        ++ [⟨.shelf, .tableFull, (settingOf x .tableFull).sev, .raised, false, some (shelfTime x), 1, none⟩]
      let due := fun (e : AlarmEntry) => e.state = .raised ∧ e.acked = true ∧ ¬ sounds e.sev ∧ e.cond ≠ .tableFull
      SameButAlarms x y ∧ (o, c) ∈ y.alm.told ∧ (o, c) ∈ y.alm.eff
      ∧ (usedCount x.alm.table < 95 → y.alm.table = entered x.alm.table
          ∧ (v.raise ≠ 0 → y.alm.history = x.alm.history ∧ y.alm.cutOff = x.alm.cutOff ∧ y.out = x.out)
          ∧ (v.raise = 0 → y.alm.history.getLast? = some (record o c v.sev .raised)
              ∧ y.alm.cutOff = (if sounds v.sev then false else x.alm.cutOff)))
      ∧ (95 ≤ usedCount x.alm.table →
          (¬ sounds v.sev ∨ (∀ e ∈ full, ¬ due e) → y.alm.table = full
            ∧ ((∃ e ∈ x.alm.table, e.cond = .tableFull) → y.alm.history = x.alm.history ∧ y.alm.cutOff = x.alm.cutOff)
            ∧ ((∀ e ∈ x.alm.table, e.cond ≠ .tableFull) →
                y.alm.history.getLast? = some (record .shelf .tableFull (settingOf x .tableFull).sev .raised)
                ∧ y.alm.cutOff = (if sounds (settingOf x .tableFull).sev then false else x.alm.cutOff)))
          ∧ (sounds v.sev → ∀ older e newer, full = older ++ e :: newer → due e → (∀ f ∈ older, ¬ due f) →
              y.alm.table = entered (full.filter (fun f => decide (f.key ≠ e.key)))
              ∧ ((∃ f ∈ x.alm.table, f.cond = .tableFull) → AlarmOffered e.obj e.cond e.sev .evicted x y)
              ∧ ((∀ f ∈ x.alm.table, f.cond ≠ .tableFull) →
                  AlarmOffered .shelf .tableFull (settingOf x .tableFull).sev .raised x y))))
  ∧ (∀ (x : Shelf) (o : Obj) (c : Cond) (e : AlarmEntry), entryOf x o c = some e → masked x o c = false →
      let gone := report o c false x
      let back := report o c true x
      let becomes := fun (e' : AlarmEntry) => x.alm.table.map (fun f => if f.key = (o, c) then e' else f)
      let quiet := fun (y : Shelf) => SameButAlarms x y ∧ y.alm.history = x.alm.history ∧ y.alm.cutOff = x.alm.cutOff
        ∧ y.out = x.out
      let leaves := AlarmsOk x.alm → c ≠ .tableFull → EntryLeaves o c x gone
      (o, c) ∉ gone.alm.eff ∧ (o, c) ∈ back.alm.eff
      ∧ (e.state = .rising → leaves ∧ quiet back ∧ back.alm.table = x.alm.table)
      ∧ (e.state = .raised → quiet back ∧ back.alm.table = x.alm.table
          ∧ ((settingOf x c).clear ≠ 0 → quiet gone ∧ gone.alm.table = becomes { e with state := .falling, soak := some 0 })
          ∧ ((settingOf x c).clear = 0 → leaves ∧ AlarmOffered o c e.sev .cleared x gone))
      ∧ (e.state = .falling → quiet gone ∧ gone.alm.table = x.alm.table ∧ quiet back
          ∧ back.alm.table = becomes { e with
              state := .raised, soak := none, count := if e.count < 255 then e.count + 1 else e.count }))
  ∧ (∀ (x : Shelf) (o : Obj) (c : Cond) (b : Bool), masked x o c = true →
      let y := report o c b x
      (o, c) ∉ y.alm.eff
      ∧ (entryOf x o c = none → y.alm.table = x.alm.table ∧ y.alm.history = x.alm.history ∧ y.out = x.out)
      ∧ (∀ e, entryOf x o c = some e → (AlarmsOk x.alm → c ≠ .tableFull → EntryLeaves o c x y)
          ∧ (e.state ≠ .rising → AlarmOffered o c e.sev .masked x y)))
  ∧ ∀ a : Alarms,
      let lit := fun (sev : Severity) => ∃ e ∈ a.table, e.sev = sev ∧ (e.state = .raised ∨ e.state = .falling)
      ((outputsOf a).critical = true ↔ lit .critical) ∧ ((outputsOf a).major = true ↔ lit .major)
      ∧ ((outputsOf a).minor = true ↔ lit .minor) ∧ (outputsOf a).cutOff = a.cutOff
      ∧ ((outputsOf a).audible = true ↔ a.cutOff = false
          ∧ ∃ e ∈ a.table, e.state = .raised ∧ e.acked = false ∧ (e.sev = .critical ∨ e.sev = .major))

/-- R174: Commit. -/
def Obligations.CommitMarksTheNewestEdit : Prop :=
  ∀ (l : Link) (tag : Byte) (body : List Byte) (s : State), Accepts l .commit body s →
    let t := s.shelf.sto
    let answers := fun (o : Outcome) (data : List Byte) (x : Shelf) =>
      exec (.commit l tag body) s = .next (taken l .commit tag (formed o data) x s)
    (t.writer = .stopped → answers .storeFault [] s.shelf)
    ∧ (t.writer ≠ .stopped → t.list = [] → answers .done [] s.shelf)
    ∧ (∀ older e, t.writer ≠ .stopped → t.list = older ++ [e] →
        (t.marks.getLast? = some e.num → answers .accepted (bytes2 e.num) s.shelf)
        ∧ (t.marks.getLast? ≠ some e.num → 4 ≤ t.marks.length → answers .full [] s.shelf)
        ∧ (t.marks.getLast? ≠ some e.num → t.marks.length < 4 → answers .accepted (bytes2 e.num)
            { s.shelf with sto := { t with marks := t.marks ++ [e.num] } }))

/-- R172, R173, R175: the write of the head edit completes, or fails a first and a second time; that the second failure
leaves the count of failed writes as it is is the model's choice (log entry 22). The order of what a completion or a stop
leads to is the model's choice (log entries 3 and 9): the reply is released and starts before the notices of the step; the
Commit Notice gives the occupancy before the freed place is granted; and the Commit FAILED notices go before the notice of
STORE-FAULT. R174: the mark of the edit written leaves
with a Commit Notice, and a stopped store answers every mark FAILED. R171: the freed place goes to the block whose oldest
held edit was offered first. -/
def Obligations.WritesCompleteOrFail : Prop :=
  ∀ (s : State) (e : Edit) (rest : List Edit), s.shelf.sto.list = e :: rest →
    (s.shelf.sto.writer = .writing ∨ s.shelf.sto.writer = .retrying → ∃ t : State,
      exec .storeWriteComplete s = .next t
      ∧ t.shelf.sto.nvm = s.shelf.sto.nvm.store e.value ∧ t.shelf.sto.writtenThrough = some e.num
      ∧ (s.shelf.recs.held = [] → s.shelf.eng.held = [] → s.shelf.tim.held = [] →
          t.shelf.sto.list = rest ∧ t.shelf.sto.writer = if rest = [] then .idle else .writing)
      ∧ t.lock = s.lock ∧ t.shelf.alm = s.shelf.alm ∧ t.shelf.recs.recs = s.shelf.recs.recs
      ∧ (∀ l kind tag b r, (linkOf s l).held = some ⟨kind, tag, b, .awaiting e.num r⟩ → (linkOf s l).tx = none →
          (linkOf t l).tx = some ⟨true, frameBytes (kind + 0x80#8) tag (r.outcome.code :: r.data)⟩
          ∧ (linkOf t l).held = some ⟨kind, tag, b, .sending⟩)
      ∧ ∃ y : Shelf, t = deliverOut (releaseReplies (fun n => decide (n = e.num)) none { s with shelf := y })
          ∧ (∀ more, s.shelf.sto.marks = e.num :: more → y.sto.marks = more
              ∧ y.out = s.shelf.out ++ [Notice.commit e.num true rest.length])
          ∧ (s.shelf.sto.marks.head? ≠ some e.num → y.sto.marks = s.shelf.sto.marks ∧ y.out = s.shelf.out)
          ∧ (∀ h first more, heldBy h s.shelf = first :: more → rest.length < 32 →
              (∀ h' f, h' ≠ h → (heldBy h' s.shelf).head? = some f → first.seq < f.seq) →
              let n := s.shelf.sto.counter
              y.sto.list = rest ++ [⟨n, first.value⟩] ∧ y.sto.counter = (if n = 65535 then 1 else n + 1)
              ∧ y.sto.writer = .writing ∧ heldBy h y = more ∧ ∀ h', h' ≠ h → heldBy h' y = heldBy h' s.shelf))
    ∧ (s.shelf.sto.writer = .writing → exec .storeWriteFailed s = .next (deliverOut { s with shelf :=
        { s.shelf with sto := { s.shelf.sto with
          writer := .retrying, failed := bump 255 s.shelf.sto.failed } } }))
    ∧ (s.shelf.sto.writer = .retrying → ∃ t : State, exec .storeWriteFailed s = .next t
        ∧ t.shelf.sto = { s.shelf.sto with writer := .stopped, marks := [] }
        ∧ t.shelf.recs.held = [] ∧ t.shelf.eng.held = [] ∧ t.shelf.tim.held = []
        ∧ (Obj.shelf, Cond.storeFault) ∈ t.shelf.alm.told
        ∧ t.shelf.recs.recs = s.shelf.recs.recs ∧ t.shelf.eng.defs = s.shelf.eng.defs ∧ t.lock = s.lock
        ∧ (∀ l kind tag b n r, (linkOf s l).held = some ⟨kind, tag, b, .awaiting n r⟩ → (linkOf s l).tx = none →
            (linkOf t l).tx = some ⟨true, frameBytes (kind + 0x80#8) tag [Outcome.storeFault.code]⟩
            ∧ (linkOf t l).held = some ⟨kind, tag, b, .sending⟩)
        ∧ ∃ y : Shelf, t = deliverOut (releaseReplies (fun _ => true) (some .storeFault) { s with shelf := y })
            ∧ (s.shelf.out ++ s.shelf.sto.marks.map (fun m => Notice.commit m false s.shelf.sto.list.length)) <+: y.out)

/-- The work of the blocks for the bus, which follows a command (log entry 4), changes no record, definition, setting or
option, and of the store not the list of edits, their counter, the writer, the non-volatile image or the marks; the pool
count and the write-through flag, which follow an order that opens or leaves, are left out. R14, R15: the grants of the
arbiter and the scanner's wait count. R45, R46: the service of the tag write list and the ends of a tag write. R133, R134:
the same of the grade writes. That the bits of a grade word that have no name are written 0 (log entry 10), and that a port
listed again before its write is acknowledged keeps that place (log entry 40), is the model's choice. -/
def Obligations.BusWorkChangesNoSetting : Prop :=
  (∀ x : Shelf, SameSettings x (pump x) ∧ (pump x).rdy.base = x.rdy.base ∧ (pump x).rdy.ms = x.rdy.ms)
  ∧ (∀ (a : CardAnswer) (s : State), ∃ t, exec (.cardAnswer a) s = .next t ∧ SameSettings s.shelf t.shelf
      ∧ t.lock = s.lock)
  ∧ (∀ s : State, ∃ t, exec .transferTimeout s = .next t ∧ SameSettings s.shelf t.shelf ∧ t.lock = s.lock)
  ∧ (∀ x : Shelf, ∃ y : Shelf, pump x = grant y ∧ y.bp.bus = x.bp.bus ∧ y.bp.waitCount = x.bp.waitCount)
  ∧ (∀ x : Shelf, let b := x.bp
      let granted := fun (r : Requester) (t : Txn) (rest : Backplane) => grant x = { x with bp := { rest with
        bus := some ⟨r, t, [], 0, 0, none⟩
        waitCount := if rest.waitScanner = none then 0 else if b.waitCount < 8 then b.waitCount + 1 else b.waitCount } }
      let none4 := b.probeWaiting = none ∧ b.waitExecutor = none ∧ b.waitTiming = none ∧ b.waitRecords = none
      (b.bus ≠ none → grant x = x)
      ∧ (b.bus = none → none4 → b.waitScanner = none → grant x = x)
      ∧ (b.bus = none → ∀ t, b.waitScanner = some t → b.waitCount = 8 ∨ none4 →
          granted .scanner t { b with waitScanner := none })
      ∧ (b.bus = none → b.waitCount ≠ 8 ∨ b.waitScanner = none →
          (∀ n, b.probeWaiting = some n → granted .backplane (.read n 0) { b with probeWaiting := none })
          ∧ (b.probeWaiting = none → ∀ t, b.waitExecutor = some t → granted .executor t { b with waitExecutor := none })
          ∧ (b.probeWaiting = none → b.waitExecutor = none → ∀ t, b.waitTiming = some t →
              granted .timing t { b with waitTiming := none })
          ∧ (b.probeWaiting = none → b.waitExecutor = none → b.waitTiming = none → ∀ t, b.waitRecords = some t →
              granted .records t { b with waitRecords := none })))
  ∧ (∀ (x : Shelf) (p : PortNo) (rest : List PortNo),
      (x.recs.tagWrite ≠ none ∨ x.recs.tagList = [] → serveRecords x = x)
      ∧ (x.recs.tagWrite = none → x.recs.tagList = p :: rest → serveRecords x = { x with
          recs := { x.recs with tagList := rest, tagWrite := some ⟨p, 0, false⟩ }
          bp := { x.bp with waitRecords := some (.write (slotOf p) (txTagOffset p 0) (tagWord (owedTag x p) 0)) } }))
  ∧ (∀ (x : Shelf) (w : TagWrite), x.recs.tagWrite = some w →
      let rejoined := fun (e : TxnEnd) => tagWriteEnd e x = { x with recs := { x.recs with
        tagWrite := none
        tagList := if slotStateOf x (slotOf w.port) = .present ∧ w.port ∉ x.recs.tagList then x.recs.tagList ++ [w.port]
          else x.recs.tagList } }
      (∀ a n off r v, rejoined (.fault a n off r v))
      ∧ (∀ ws, w.word < 3 → tagWriteEnd (.done ws) x = { x with
          recs := { x.recs with tagWrite := some { w with word := w.word + 1 } }
          bp := { x.bp with waitRecords := some (.write (slotOf w.port) (txTagOffset w.port (w.word + 1))
            (tagWord (owedTag x w.port) (w.word + 1))) } })
      ∧ (∀ ws, w.word = 3 → (w.changed = true → rejoined (.done ws))
          ∧ (w.changed = false → tagWriteEnd (.done ws) x = { x with recs := { x.recs with tagWrite := none } })))
  ∧ (∀ (x : Shelf) (passed : List PortNo) (p : PortNo) (rest : List PortNo),
      let equal := fun (q : PortNo) => at' x.tim.written q = some (at' x.tim.planned q)
      (x.tim.writing ≠ none → serveTiming x = x)
      ∧ (x.tim.writing = none → (∀ q ∈ x.tim.list, equal q) → serveTiming x = { x with tim := { x.tim with list := [] } })
      ∧ (x.tim.writing = none → x.tim.list = passed ++ p :: rest → (∀ q ∈ passed, equal q) → ¬ equal p →
          serveTiming x = { x with
            tim := { x.tim with list := rest, writing := some (p, at' x.tim.planned p) }
            bp := { x.bp with
              waitTiming := some (.write (slotOf p) (gradeOffset p) (BitVec.ofNat 32 (at' x.tim.planned p).code)) } }))
  ∧ ∀ (x : Shelf) (p : PortNo) (g : Grade), x.tim.writing = some (p, g) →
      let l := x.tim.list
      let tail := if p ∈ l then l else l ++ [p]
      let isHere := slotStateOf x (slotOf p) = .present
      (∀ ws, gradeWriteEnd (.done ws) x = { x with tim := { x.tim with
        writing := none
        written := put x.tim.written p (some g)
        list := if at' x.tim.planned p = g ∨ ¬ isHere then l
          else if at' x.tim.planned p = .gx then p :: l.filter (· ≠ p) else tail } })
      ∧ (∀ a n off r v, gradeWriteEnd (.fault a n off r v) x = { x with tim := { x.tim with
          writing := none, written := put x.tim.written p none, list := if isHere then tail else l } })

end
end

