-- ==== Sys2Proof/Laws/Alarms.lean ====
section
/-! SUPPORT. What the alarm unit's operations can do: they change the alarm unit and the notices alone, and they keep
AlarmsOk. -/

namespace Sys2Proof.Machine

/-! ### Frames -/

theorem SameButAlarms.of {s : Shelf} {a : Alarms} {o : List Notice} (h : a.settings = s.alm.settings) :
    SameButAlarms s { s with alm := a, out := o } := ⟨rfl, rfl, rfl, rfl, rfl, rfl, rfl, rfl, rfl, rfl, h⟩

theorem SameButAlarms.rfl' (s : Shelf) : SameButAlarms s s := ⟨rfl, rfl, rfl, rfl, rfl, rfl, rfl, rfl, rfl, rfl, rfl⟩

theorem SameButAlarms.trans' {s t u : Shelf} (h : SameButAlarms s t) (k : SameButAlarms t u) : SameButAlarms s u := by
  obtain ⟨h1, h2, h3, h4, h5, h6, h7, h8, h9, h10, h11⟩ := h
  obtain ⟨k1, k2, k3, k4, k5, k6, k7, k8, k9, k10, k11⟩ := k
  exact ⟨k1.trans h1, k2.trans h2, k3.trans h3, k4.trans h4, k5.trans h5, k6.trans h6, k7.trans h7, k8.trans h8,
    k9.trans h9, k10.trans h10, k11.trans h11⟩

theorem SameButAlarms.alm {s : Shelf} {a : Alarms} (h : a.settings = s.alm.settings) :
    SameButAlarms s { s with alm := a } := .of h
theorem SameButAlarms.tell {s : Shelf} {n : Notice} : SameButAlarms s (tell n s) := .of rfl

/-- A fold of operations that change the alarm unit alone. -/
theorem SameButAlarms.foldl {α : Type} {f : Shelf → α → Shelf} (hf : ∀ s a, SameButAlarms s (f s a)) (l : List α)
    (s : Shelf) : SameButAlarms s (l.foldl f s) := by
  induction l generalizing s with
  | nil => exact .rfl' s
  | cons a l ih => exact (hf s a).trans' (ih _)

theorem makeRecord_frame (o : Option Obj) (c : Option Cond) (v : Option Severity) (t : Transition)
    (e : Option (Bool × Nat)) (s : Shelf) : SameButAlarms s (makeRecord o c v t e s) := .of rfl

theorem recordEntry_frame (e : AlarmEntry) (t : Transition) (s : Shelf) : SameButAlarms s (recordEntry e t s) := .of rfl

theorem setTable_frame (f : List AlarmEntry → List AlarmEntry) (s : Shelf) : SameButAlarms s (setTable f s) := .of rfl

theorem clearCutOff_frame (v : Severity) (s : Shelf) : SameButAlarms s (clearCutOff v s) := by
  unfold clearCutOff
  split
  · exact .of rfl
  · exact .rfl' s

theorem raiseEntry_frame (e : AlarmEntry) (s : Shelf) : SameButAlarms s (raiseEntry e s) :=
  (setTable_frame _ s).trans' ((clearCutOff_frame _ _).trans' (recordEntry_frame _ _ _))

theorem enterRising_frame (o : Obj) (c : Cond) (s : Shelf) : SameButAlarms s (enterRising o c s) := by
  unfold enterRising
  dsimp only
  split
  · exact (setTable_frame _ s).trans' (raiseEntry_frame _ _)
  · exact setTable_frame _ s

theorem raiseTableFull_frame (s : Shelf) : SameButAlarms s (raiseTableFull s) := by
  unfold raiseTableFull
  split
  · exact .rfl' s
  · exact (setTable_frame _ s).trans' ((clearCutOff_frame _ _).trans' (recordEntry_frame _ _ _))

theorem newcomer_frame (o : Obj) (c : Cond) (s : Shelf) : SameButAlarms s (newcomer o c s) := by
  unfold newcomer
  dsimp only
  split
  · exact enterRising_frame o c s
  · refine (raiseTableFull_frame s).trans' ?_
    split
    · split
      · exact (setTable_frame _ _).trans' ((recordEntry_frame _ _ _).trans' (enterRising_frame _ _ _))
      · exact .rfl' _
    · exact .rfl' _

theorem clearTableFull_frame (s : Shelf) : SameButAlarms s (clearTableFull s) := by
  unfold clearTableFull
  split
  · split
    · exact (setTable_frame _ s).trans' (recordEntry_frame _ _ _)
    · exact .rfl' s
  · exact .rfl' s

theorem reoffer_frame (s : Shelf) : SameButAlarms s (reoffer s) := by
  unfold reoffer
  split
  · exact .rfl' s
  · refine .foldl (fun s oc => ?_) _ s
    split
    · exact enterRising_frame _ _ s
    · exact .rfl' s

theorem removeEntry_frame (e : AlarmEntry) (t : Option Transition) (s : Shelf) : SameButAlarms s (removeEntry e t s) := by
  have h : SameButAlarms s (dropEntry e.obj e.cond s) := setTable_frame _ s
  cases t with
  | none => exact h.trans' ((clearTableFull_frame _).trans' (reoffer_frame _))
  | some t => exact h.trans' ((recordEntry_frame _ _ _).trans' ((clearTableFull_frame _).trans' (reoffer_frame _)))

theorem followEntry_frame (e : AlarmEntry) (told m : Bool) (s : Shelf) : SameButAlarms s (followEntry e told m s) := by
  have hf : SameButAlarms s (beginFalling e s) := by
    unfold beginFalling
    dsimp only
    split
    · exact (setTable_frame _ s).trans' (removeEntry_frame _ _ _)
    · exact setTable_frame _ s
  unfold followEntry
  split <;> split
  · exact removeEntry_frame _ _ s
  · exact .rfl' s
  · exact removeEntry_frame _ _ s
  · split
    · exact .rfl' s
    · exact hf
  · exact removeEntry_frame _ _ s
  · split
    · exact setTable_frame _ s
    · exact .rfl' s

theorem follow_frame (o : Obj) (c : Cond) (s : Shelf) : SameButAlarms s (follow o c s) := by
  unfold follow
  dsimp only
  split
  · exact (SameButAlarms.alm rfl).trans' (followEntry_frame _ _ _ _)
  · split
    · exact (SameButAlarms.alm rfl).trans' (newcomer_frame _ _ _)
    · exact SameButAlarms.alm rfl

theorem report_frame (o : Obj) (c : Cond) (b : Bool) (s : Shelf) : SameButAlarms s (report o c b s) :=
  SameButAlarms.trans' (t := setTold o c b s) (.of rfl) (follow_frame _ _ _)

theorem reportChange_frame (o : Obj) (c : Cond) (b : Bool) (s : Shelf) : SameButAlarms s (reportChange o c b s) := by
  unfold reportChange
  split
  · exact .rfl' s
  · exact report_frame o c b s

theorem refreshPort_frame (p : PortNo) (s : Shelf) : SameButAlarms s (refreshPort p s) :=
  SameButAlarms.trans' (t := setPortTold p s) (.of rfl) (.foldl (fun s _ => follow_frame _ _ s) _ _)

theorem endRaiseSoak_frame (o : Obj) (c : Cond) (s : Shelf) : SameButAlarms s (endRaiseSoak o c s) := by
  unfold endRaiseSoak
  repeat' first
    | exact raiseEntry_frame _ s
    | exact .rfl' s
    | split

theorem endClearSoak_frame (o : Obj) (c : Cond) (s : Shelf) : SameButAlarms s (endClearSoak o c s) := by
  unfold endClearSoak
  repeat' first
    | exact removeEntry_frame _ _ s
    | exact .rfl' s
    | split

theorem endSoaks_frame (v : CondSetting) (l : List AlarmEntry) (s : Shelf) : SameButAlarms s (l.foldl (fun s e =>
    match e.state, e.soak with
    | .rising, some ms => if 100 * v.raise ≤ ms then endRaiseSoak e.obj e.cond s else s
    | .falling, some ms => if 1000 * v.clear ≤ ms then endClearSoak e.obj e.cond s else s
    | _, _ => s) s) := by
  refine .foldl (fun s e => ?_) _ _
  split
  · split
    · exact endRaiseSoak_frame _ _ s
    · exact .rfl' s
  · split
    · exact endClearSoak_frame _ _ s
    · exact .rfl' s
  · exact .rfl' s

/-- R142: the change of a setting alters the settings as given, and beside them the alarm unit and the notices alone. -/
theorem changeSetting_frame (c : Cond) (v : CondSetting) (s : Shelf) :
    SameButAlarms { s with alm := { s.alm with settings := put s.alm.settings (Cond.code c) v } } (changeSetting c v s) :=
  endSoaks_frame v _ _

theorem acknowledgeOne_frame (e : AlarmEntry) (s : Shelf) : SameButAlarms s (acknowledgeOne e s) := by
  unfold acknowledgeOne
  split
  · exact .rfl' s
  · exact (setTable_frame _ s).trans' (recordEntry_frame _ _ _)

theorem acknowledgeAll_frame (s : Shelf) : SameButAlarms s (acknowledgeAll s).1 := by
  unfold acknowledgeAll
  dsimp only
  split
  · exact .rfl' s
  · exact (setTable_frame _ s).trans' (makeRecord_frame _ _ _ _ _ _)

/-! ### AlarmsOk

Each lemma is about the alarm unit of the result. -/

theorem history_keep (h : List HistRec) (r : HistRec) (_hh : h.length ≤ 64) : (keepHistory (h ++ [r])).length ≤ 64 := by
  simp only [keepHistory, Config.historyMax, List.length_drop]
  omega

theorem makeRecord_ok {o : Option Obj} {c : Option Cond} {v : Option Severity} {t : Transition}
    {e : Option (Bool × Nat)} {s : Shelf} (h : AlarmsOk s.alm) : AlarmsOk (makeRecord o c v t e s).alm :=
  ⟨h.1, h.2.1, h.2.2.1, history_keep _ _ h.2.2.2.1, h.2.2.2.2⟩

theorem recordEntry_ok {e : AlarmEntry} {t : Transition} {s : Shelf} (h : AlarmsOk s.alm) :
    AlarmsOk (recordEntry e t s).alm := makeRecord_ok h

theorem clearCutOff_ok {v : Severity} {s : Shelf} (h : AlarmsOk s.alm) : AlarmsOk (clearCutOff v s).alm := by
  unfold clearCutOff
  split
  · exact h
  · exact h

/-- A change of the table that keeps every entry's condition and object. -/
theorem mapTable_ok {f : AlarmEntry → AlarmEntry} (hf : ∀ e, (f e).obj = e.obj ∧ (f e).cond = e.cond) {s : Shelf}
    (h : AlarmsOk s.alm) : AlarmsOk (setTable (fun t => t.map f) s).alm := by
  have e1 : ∀ (q : Cond → Bool) (t : List AlarmEntry),
      ((t.map f).filter (fun e => q e.cond)).length = (t.filter (fun e => q e.cond)).length := by
    intro q t
    rw [List.filter_map, List.length_map]
    congr 2
    funext e
    simp [hf]
  refine ⟨?_, ?_, ?_, h.2.2.2.1, h.2.2.2.2⟩
  · exact (e1 (fun c => decide (c ≠ .tableFull)) _).le.trans h.1
  · exact (e1 (fun c => decide (c = .tableFull)) _).le.trans h.2.1
  · have : (s.alm.table.map f).map AlarmEntry.key = s.alm.table.map AlarmEntry.key := by
      simp [AlarmEntry.key, hf]
    simpa [setTable, this] using h.2.2.1

theorem filterTable_ok {q : AlarmEntry → Bool} {s : Shelf} (h : AlarmsOk s.alm) :
    AlarmsOk (setTable (fun t => t.filter q) s).alm := by
  refine ⟨?_, ?_, ?_, h.2.2.2.1, h.2.2.2.2⟩
  · exact (List.Sublist.length_le (List.Sublist.filter _ List.filter_sublist)).trans h.1
  · exact (List.Sublist.length_le (List.Sublist.filter _ List.filter_sublist)).trans h.2.1
  · exact h.2.2.1.sublist (List.Sublist.map _ List.filter_sublist)

theorem putEntry_ok {e : AlarmEntry} {s : Shelf} (h : AlarmsOk s.alm) : AlarmsOk (putEntry e s).alm := by
  refine mapTable_ok (fun x => ?_) h
  split
  · rename_i hx
    exact ⟨hx.1.symm, hx.2.symm⟩
  · exact ⟨rfl, rfl⟩

theorem dropEntry_ok {o : Obj} {c : Cond} {s : Shelf} (h : AlarmsOk s.alm) : AlarmsOk (dropEntry o c s).alm :=
  filterTable_ok h

theorem raiseEntry_ok {e : AlarmEntry} {s : Shelf} (h : AlarmsOk s.alm) : AlarmsOk (raiseEntry e s).alm :=
  recordEntry_ok (clearCutOff_ok (putEntry_ok h))

/-- No entry stands for the object and condition. -/
theorem entryOf_none {s : Shelf} {o : Obj} {c : Cond} (h : entryOf s o c = none) :
    (o, c) ∉ s.alm.table.map AlarmEntry.key := by
  simp only [entryOf, List.find?_eq_none] at h
  simp only [List.mem_map, not_exists, not_and]
  intro e he hk
  have := h e he
  simp [AlarmEntry.key] at hk
  simp [hk] at this

theorem pushOrdinary_ok {e : AlarmEntry} {s : Shelf} (h : AlarmsOk s.alm) (hc : e.cond ≠ .tableFull)
    (hu : usedCount s.alm.table < 95) (hn : entryOf s e.obj e.cond = none) :
    AlarmsOk (setTable (fun t => t ++ [e]) s).alm := by
  refine ⟨?_, ?_, ?_, h.2.2.2.1, h.2.2.2.2⟩
  · simp only [setTable, usedCount, List.filter_append, List.length_append] at *
    simp [hc]
    simp at hu
    omega
  · simp only [setTable, List.filter_append, List.length_append]
    simpa [hc] using h.2.1
  · simp only [setTable, List.map_append, List.map_cons, List.map_nil]
    refine List.Nodup.append h.2.2.1 (by simp) ?_
    intro k hk hk'
    simp only [List.mem_singleton] at hk'
    subst hk'
    exact entryOf_none hn hk

theorem pushTableFull_ok {e : AlarmEntry} {s : Shelf} (h : AlarmsOk s.alm) (hc : e.cond = .tableFull)
    (hn : tableFullStands s.alm.table = false) : AlarmsOk (setTable (fun t => t ++ [e]) s).alm := by
  have hz : s.alm.table.filter (fun e => decide (e.cond = .tableFull)) = [] := by
    simpa [tableFullStands, List.filter_eq_nil_iff] using hn
  refine ⟨?_, ?_, ?_, h.2.2.2.1, h.2.2.2.2⟩
  · simpa [setTable, usedCount, List.filter_append, hc] using h.1
  · simp [setTable, List.filter_append, hz, hc]
  · simp only [setTable, List.map_append, List.map_cons, List.map_nil]
    refine List.Nodup.append h.2.2.1 (by simp) ?_
    intro k hk hk'
    simp only [List.mem_singleton] at hk'
    simp only [List.mem_map] at hk
    obtain ⟨x, hx, hxk⟩ := hk
    have : x.cond = .tableFull := by
      have := congrArg Prod.snd (hxk.trans hk')
      simpa [AlarmEntry.key, hc] using this
    have hm : x ∈ s.alm.table.filter (fun e => decide (e.cond = .tableFull)) := by simp [hx, this]
    simp [hz] at hm

theorem enterRising_ok {o : Obj} {c : Cond} {s : Shelf} (h : AlarmsOk s.alm) (hc : c ≠ .tableFull)
    (hu : usedCount s.alm.table < 95) (hn : entryOf s o c = none) : AlarmsOk (enterRising o c s).alm := by
  unfold enterRising
  dsimp only
  split
  · exact raiseEntry_ok (pushOrdinary_ok h hc hu hn)
  · exact pushOrdinary_ok h hc hu hn

theorem raiseTableFull_ok {s : Shelf} (h : AlarmsOk s.alm) : AlarmsOk (raiseTableFull s).alm := by
  unfold raiseTableFull
  split
  · exact h
  · rename_i hn
    exact recordEntry_ok (clearCutOff_ok (pushTableFull_ok h rfl (by simpa using hn)))

theorem recordEntry_table (e : AlarmEntry) (t : Transition) (s : Shelf) :
    (recordEntry e t s).alm.table = s.alm.table := by
  unfold recordEntry makeRecord tell
  rfl

theorem clearCutOff_table (v : Severity) (s : Shelf) : (clearCutOff v s).alm.table = s.alm.table := by
  unfold clearCutOff
  split <;> rfl

theorem setTable_table (f : List AlarmEntry → List AlarmEntry) (s : Shelf) : (setTable f s).alm.table = f s.alm.table :=
  rfl

theorem pushRaised_table (e : AlarmEntry) (s : Shelf) :
    (recordEntry e .raised (clearCutOff e.sev (setTable (fun t => t ++ [e]) s))).alm.table = s.alm.table ++ [e] := by
  rw [recordEntry_table, clearCutOff_table, setTable_table]

/-- Raising TABLE-FULL makes no ordinary entry. -/
theorem raiseTableFull_table (s : Shelf) : (raiseTableFull s).alm.table = s.alm.table
    ∨ ∃ e : AlarmEntry, e.cond = .tableFull ∧ (raiseTableFull s).alm.table = s.alm.table ++ [e] := by
  unfold raiseTableFull
  split
  · exact .inl rfl
  · exact .inr ⟨_, rfl, pushRaised_table _ s⟩

/-- Raising TABLE-FULL makes an entry of no other condition. -/
theorem mem_raiseTableFull {s : Shelf} {x : AlarmEntry} (h : x ∈ (raiseTableFull s).alm.table) :
    x ∈ s.alm.table ∨ x.cond = .tableFull := by
  rcases raiseTableFull_table s with ht | ⟨e, he, ht⟩
  · exact .inl (ht ▸ h)
  · rw [ht, List.mem_append, List.mem_singleton] at h
    rcases h with h | h
    · exact .inl h
    · exact .inr (h ▸ he)

theorem newcomer_ok {o : Obj} {c : Cond} {s : Shelf} (h : AlarmsOk s.alm) (hc : c ≠ .tableFull)
    (hn : entryOf s o c = none) : AlarmsOk (newcomer o c s).alm := by
  unfold newcomer
  dsimp only
  split
  · rename_i hu
    exact enterRising_ok h hc hu hn
  · have h1 := raiseTableFull_ok h
    split
    · split
      · rename_i e he
        have hmem := List.mem_of_find?_eq_some he
        have hev := List.find?_some he
        have hec : e.cond ≠ .tableFull := by
          intro hx
          simp [evictable, hx] at hev
        refine enterRising_ok (recordEntry_ok (dropEntry_ok h1)) hc ?_ ?_
        · rw [recordEntry_table]
          have hu := h1.1
          have hlt : (List.filter (fun x : AlarmEntry => decide (x.cond ≠ .tableFull))
              (List.filter (fun x : AlarmEntry => !(decide (x.obj = e.obj) && decide (x.cond = e.cond)))
                (raiseTableFull s).alm.table)).length
              < (List.filter (fun x : AlarmEntry => decide (x.cond ≠ .tableFull)) (raiseTableFull s).alm.table).length := by
            rw [List.filter_comm]
            refine List.length_filter_lt_length_iff_exists.2 ⟨e, ?_, ?_⟩
            · simp [hmem, hec]
            · simp
          exact lt_of_lt_of_le hlt hu
        · simp only [entryOf, List.find?_eq_none] at hn ⊢
          rw [recordEntry_table]
          intro x hx
          have hx' := List.mem_of_mem_filter (p := fun x : AlarmEntry => !(decide (x.obj = e.obj) && decide (x.cond = e.cond))) hx
          rcases mem_raiseTableFull hx' with hx' | this
          · exact hn x hx'
          · simp only [this, decide_eq_true_eq, Bool.and_eq_true, not_and]
            intro _ hcc
            exact hc hcc.symm
      · exact h1
    · exact h1

theorem clearTableFull_ok {s : Shelf} (h : AlarmsOk s.alm) : AlarmsOk (clearTableFull s).alm := by
  unfold clearTableFull
  split
  · split
    · exact recordEntry_ok (dropEntry_ok h)
    · exact h
  · exact h

/-- R151: offering the left-out conditions, whatever the order. -/
theorem offerAgain_ok (l : List (Obj × Cond)) {s : Shelf} (h : AlarmsOk s.alm) :
    AlarmsOk (l.foldl (fun s oc =>
      if stillLeftOut s oc && decide (usedCount s.alm.table < Config.ordinaryMax) then
        enterRising oc.1 oc.2 s
      else s) s).alm := by
  induction l generalizing s with
  | nil => exact h
  | cons oc l ih =>
    rw [List.foldl_cons]
    split
    · rename_i hcond
      simp only [stillLeftOut, Bool.and_eq_true, decide_eq_true_eq, isLeftOut, Option.isNone_iff_eq_none,
        Config.ordinaryMax] at hcond
      obtain ⟨⟨⟨⟨hm, hn⟩, _⟩, _⟩, hu⟩ := hcond
      exact ih (enterRising_ok h (h.2.2.2.2 _ hm) (of_decide_eq_true hu) hn)
    · exact ih h

theorem reoffer_ok {s : Shelf} (h : AlarmsOk s.alm) : AlarmsOk (reoffer s).alm := by
  unfold reoffer
  split
  · exact h
  · exact offerAgain_ok _ h

theorem removeEntry_ok {e : AlarmEntry} {t : Option Transition} {s : Shelf} (h : AlarmsOk s.alm) :
    AlarmsOk (removeEntry e t s).alm := by
  have hd := dropEntry_ok (o := e.obj) (c := e.cond) h
  cases t with
  | none => exact reoffer_ok (clearTableFull_ok hd)
  | some t => exact reoffer_ok (clearTableFull_ok (recordEntry_ok hd))

theorem followEntry_ok {e : AlarmEntry} {told m : Bool} {s : Shelf} (h : AlarmsOk s.alm) :
    AlarmsOk (followEntry e told m s).alm := by
  have hf : AlarmsOk (beginFalling e s).alm := by
    unfold beginFalling
    dsimp only
    split
    · exact removeEntry_ok (putEntry_ok h)
    · exact putEntry_ok h
  unfold followEntry
  split <;> split
  · exact removeEntry_ok h
  · exact h
  · exact removeEntry_ok h
  · split
    · exact h
    · exact hf
  · exact removeEntry_ok h
  · split
    · exact putEntry_ok h
    · exact h

theorem mem_joinTail {α : Type} [DecidableEq α] {a b : α} {l : List α} (h : b ∈ joinTail a l) : b = a ∨ b ∈ l := by
  unfold joinTail at h
  split at h
  · exact .inr h
  · rcases List.mem_append.1 h with h | h
    · exact .inr h
    · exact .inl (List.mem_singleton.1 h)

theorem mem_leave {α : Type} [DecidableEq α] {a b : α} {l : List α} (h : b ∈ leave a l) : b ∈ l :=
  List.mem_of_mem_filter h

theorem effJoin_ok {o : Obj} {c : Cond} {b : Bool} {s : Shelf} (h : AlarmsOk s.alm) (hc : c ≠ .tableFull) :
    AlarmsOk { s.alm with eff := if b then joinTail (o, c) s.alm.eff else leave (o, c) s.alm.eff } := by
  refine ⟨h.1, h.2.1, h.2.2.1, h.2.2.2.1, fun oc hoc => ?_⟩
  cases b with
  | true =>
    rcases mem_joinTail hoc with rfl | hm
    · exact hc
    · exact h.2.2.2.2 _ hm
  | false => exact h.2.2.2.2 _ (mem_leave hoc)

theorem follow_ok {o : Obj} {c : Cond} {s : Shelf} (h : AlarmsOk s.alm) (hc : c ≠ .tableFull) :
    AlarmsOk (follow o c s).alm := by
  unfold follow
  dsimp only
  split
  · exact followEntry_ok (effJoin_ok h hc)
  · rename_i hn
    split
    · exact newcomer_ok (effJoin_ok h hc) hc hn
    · exact effJoin_ok h hc

theorem report_ok {o : Obj} {c : Cond} {b : Bool} {s : Shelf} (h : AlarmsOk s.alm) (hc : c ≠ .tableFull) :
    AlarmsOk (report o c b s).alm := follow_ok (s := setTold o c b s) h hc

theorem reportChange_ok {o : Obj} {c : Cond} {b : Bool} {s : Shelf} (h : AlarmsOk s.alm) (hc : c ≠ .tableFull) :
    AlarmsOk (reportChange o c b s).alm := by
  unfold reportChange
  split
  · exact h
  · exact report_ok h hc

theorem condsOf_port (p : PortNo) : ∀ c ∈ condsOf (.port p), c ≠ .tableFull := by
  intro c hc rfl
  revert hc
  simp [condsOf]

theorem followAll_ok {o : Obj} (cs : List Cond) (hcs : ∀ c ∈ cs, c ≠ .tableFull) {s : Shelf} (h : AlarmsOk s.alm) :
    AlarmsOk (cs.foldl (fun s c => follow o c s) s).alm := by
  induction cs generalizing s with
  | nil => exact h
  | cons c cs ih =>
    exact ih (fun d hd => hcs d (List.mem_cons_of_mem _ hd)) (follow_ok h (hcs c List.mem_cons_self))

theorem refreshPort_ok {p : PortNo} {s : Shelf} (h : AlarmsOk s.alm) : AlarmsOk (refreshPort p s).alm := by
  refine followAll_ok _ (fun c hc => condsOf_port p c ?_) (s := setPortTold p s) h
  rcases List.mem_append.1 hc with hc | hc
  · exact List.mem_of_mem_filter hc
  · exact List.mem_of_mem_filter hc

theorem endRaiseSoak_ok {o : Obj} {c : Cond} {s : Shelf} (h : AlarmsOk s.alm) : AlarmsOk (endRaiseSoak o c s).alm := by
  unfold endRaiseSoak
  split
  · split
    · exact raiseEntry_ok h
    · exact h
  · exact h

theorem endClearSoak_ok {o : Obj} {c : Cond} {s : Shelf} (h : AlarmsOk s.alm) : AlarmsOk (endClearSoak o c s).alm := by
  unfold endClearSoak
  split
  · split
    · exact removeEntry_ok h
    · exact h
  · exact h

theorem endSoaks_ok (f : Shelf → AlarmEntry → Shelf) (hf : ∀ s e, AlarmsOk s.alm → AlarmsOk (f s e).alm)
    (l : List AlarmEntry) {s : Shelf} (h : AlarmsOk s.alm) : AlarmsOk (l.foldl f s).alm := by
  induction l generalizing s with
  | nil => exact h
  | cons e l ih => exact ih (hf s e h)

theorem changeSetting_ok {c : Cond} {v : CondSetting} {s : Shelf} (h : AlarmsOk s.alm) :
    AlarmsOk (changeSetting c v s).alm := by
  unfold changeSetting
  refine endSoaks_ok _ (fun s e hs => ?_) _ h
  split
  · split
    · exact endRaiseSoak_ok hs
    · exact hs
  · split
    · exact endClearSoak_ok hs
    · exact hs
  · exact hs

theorem acknowledgeOne_ok {e : AlarmEntry} {s : Shelf} (h : AlarmsOk s.alm) : AlarmsOk (acknowledgeOne e s).alm := by
  unfold acknowledgeOne
  split
  · exact h
  · exact recordEntry_ok (putEntry_ok h)

theorem acknowledgeAll_ok {s : Shelf} (h : AlarmsOk s.alm) : AlarmsOk (acknowledgeAll s).1.alm := by
  unfold acknowledgeAll
  dsimp only
  split
  · exact h
  · refine makeRecord_ok (mapTable_ok (fun e => ?_) h)
    split
    · exact ⟨rfl, rfl⟩
    · exact ⟨rfl, rfl⟩

end Sys2Proof.Machine
end

