-- ==== Sys2Proof/Laws/State.lean ====
section
/-! SUPPORT. The small lemmas of the state: reading back what the named operations write, and what each update of one
block leaves as it was. All are true by rfl or by the library's lemmas of vectors. -/

namespace Sys2Proof.Machine

/-! ### Tables -/

@[simp] theorem at'_put_same {α : Type} {n : Nat} (v : Vector α n) (i : Fin n) (a : α) : at' (put v i a) i = a := by
  simp [at', put]

theorem at'_put_ne {α : Type} {n : Nat} (v : Vector α n) {i j : Fin n} (a : α) (h : j ≠ i) :
    at' (put v i a) j = at' v j := by
  have : i.val ≠ j.val := fun e => h (Fin.ext e.symm)
  simp [at', put, Vector.getElem_set_ne, this]

@[simp] theorem at'_upd_same {α : Type} {n : Nat} (v : Vector α n) (i : Fin n) (f : α → α) :
    at' (upd v i f) i = f (at' v i) := by simp [at', upd]

theorem at'_upd_ne {α : Type} {n : Nat} (v : Vector α n) {i j : Fin n} (f : α → α) (h : j ≠ i) :
    at' (upd v i f) j = at' v j := by
  have : i.val ≠ j.val := fun e => h (Fin.ext e.symm)
  simp [at', upd, Vector.getElem_set_ne, this]

@[simp] theorem at'_mapAll {α β : Type} {n : Nat} (f : α → β) (v : Vector α n) (i : Fin n) :
    at' (mapAll f v) i = f (at' v i) := by
  rcases v with ⟨a, ha⟩
  simp [at', mapAll]

@[simp] theorem at'_tabulate {α : Type} (n : Nat) (f : Fin n → α) (i : Fin n) : at' (tabulate n f) i = f i := by
  simp [at', tabulate]

@[simp] theorem at'_replicate {α : Type} {n : Nat} (a : α) (i : Fin n) : at' (Vector.replicate n a) i = a := by
  simp [at']

/-- Tables that agree at every index are equal. -/
theorem table_ext {α : Type} {n : Nat} {v w : Vector α n} (h : ∀ i, at' v i = at' w i) : v = w :=
  Vector.ext (fun i hi => h ⟨i, hi⟩)

/-! ### Links -/

@[simp] theorem linkOf_setLink_same (l : Link) (f : LinkUnit → LinkUnit) (s : State) :
    linkOf (setLink l f s) l = f (linkOf s l) := by cases l <;> rfl

theorem linkOf_setLink_ne {l m : Link} (f : LinkUnit → LinkUnit) (s : State) (h : m ≠ l) :
    linkOf (setLink l f s) m = linkOf s m := by
  cases l <;> cases m <;> first | rfl | exact absurd rfl h

@[simp] theorem setLink_shelf (l : Link) (f : LinkUnit → LinkUnit) (s : State) : (setLink l f s).shelf = s.shelf := by
  cases l <;> rfl
@[simp] theorem setLink_lock (l : Link) (f : LinkUnit → LinkUnit) (s : State) : (setLink l f s).lock = s.lock := by
  cases l <;> rfl
@[simp] theorem setLink_pending (l : Link) (f : LinkUnit → LinkUnit) (s : State) :
    (setLink l f s).pending = s.pending := by cases l <;> rfl

/-- Two changes of one link unit. -/
theorem setLink_setLink (l : Link) (f g : LinkUnit → LinkUnit) (s : State) :
    setLink l g (setLink l f s) = setLink l (fun u => g (f u)) s := by cases l <;> rfl

/-- Two changes of a link unit that give the same unit are the same. -/
theorem setLink_congr {l : Link} {f g : LinkUnit → LinkUnit} {s : State} (h : f (linkOf s l) = g (linkOf s l)) :
    setLink l f s = setLink l g s := by
  cases l <;> simp only [linkOf] at h <;> simp [setLink, h]

/-- A change that leaves the link unit as it is. -/
theorem setLink_self {l : Link} {f : LinkUnit → LinkUnit} {s : State} (h : f (linkOf s l) = linkOf s l) :
    setLink l f s = s := by
  cases l <;> simp only [linkOf] at h <;> simp [setLink, h]

@[simp] theorem linkOf_shelf (l : Link) (x : Shelf) (s : State) : linkOf { s with shelf := x } l = linkOf s l := by
  cases l <;> rfl
@[simp] theorem linkOf_lock (l : Link) (k : WorkLock) (s : State) : linkOf { s with lock := k } l = linkOf s l := by
  cases l <;> rfl

/-- A change of a link unit and of the shelf commute. -/
theorem setLink_withShelf (l : Link) (f : LinkUnit → LinkUnit) (x : Shelf) (s : State) :
    setLink l f { s with shelf := x } = { setLink l f s with shelf := x } := by cases l <;> rfl
theorem setLink_withLock (l : Link) (f : LinkUnit → LinkUnit) (k : WorkLock) (s : State) :
    setLink l f { s with lock := k } = { setLink l f s with lock := k } := by cases l <;> rfl

/-! ### Offering the notices -/

@[simp] theorem deliverOut_lock (s : State) : (deliverOut s).lock = s.lock := rfl
@[simp] theorem deliverOut_pending (s : State) : (deliverOut s).pending = s.pending := rfl
@[simp] theorem deliverOut_shelf (s : State) : (deliverOut s).shelf = { s.shelf with out := [] } := rfl

@[simp] theorem linkOf_deliverOut (l : Link) (s : State) :
    linkOf (deliverOut s) l = s.shelf.out.foldl (fun u n => offer n u) (linkOf s l) := by cases l <;> rfl

/-- With no notice made, the offering changes nothing. -/
theorem deliverOut_none {s : State} (h : s.shelf.out = []) : deliverOut s = s := by
  obtain ⟨⟨_, _, _, _, _, _, _, _, _, _, _, _⟩, _, _, _, _⟩ := s
  simp only at h
  subst h
  rfl

/-! ### Groups, references, orders and ports -/

@[simp] theorem runOf_setRun_same (g : GroupNo) (f : GroupRun → GroupRun) (s : Shelf) :
    runOf (setRun g f s) g = f (runOf s g) := at'_upd_same _ _ _
theorem runOf_setRun_ne {g h : GroupNo} (f : GroupRun → GroupRun) (s : Shelf) (e : h ≠ g) :
    runOf (setRun g f s) h = runOf s h := at'_upd_ne _ _ e
@[simp] theorem execOf_setExec_same (g : GroupNo) (f : GroupExec → GroupExec) (s : Shelf) :
    execOf (setExec g f s) g = f (execOf s g) := at'_upd_same _ _ _
theorem execOf_setExec_ne {g h : GroupNo} (f : GroupExec → GroupExec) (s : Shelf) (e : h ≠ g) :
    execOf (setExec g f s) h = execOf s h := at'_upd_ne _ _ e
@[simp] theorem refOf_setRef_same (r : RefNo) (f : Ref → Ref) (s : Shelf) : refOf (setRef r f s) r = f (refOf s r) :=
  at'_upd_same _ _ _
theorem refOf_setRef_ne {r q : RefNo} (f : Ref → Ref) (s : Shelf) (e : q ≠ r) : refOf (setRef r f s) q = refOf s q :=
  at'_upd_ne _ _ e
@[simp] theorem obsOf_setObs_same (p : PortNo) (o : Obs) (s : Shelf) : obsOf (setObs p o s) p = o := at'_put_same _ _ _
theorem obsOf_setObs_ne {p q : PortNo} (o : Obs) (s : Shelf) (e : q ≠ p) : obsOf (setObs p o s) q = obsOf s q :=
  at'_put_ne _ _ e
@[simp] theorem recOf_setRecord_same (p : PortNo) (r : PortRec) (s : Shelf) : recOf (setRecord p r s) p = r :=
  at'_put_same _ _ _
theorem recOf_setRecord_ne {p q : PortNo} (r : PortRec) (s : Shelf) (e : q ≠ p) :
    recOf (setRecord p r s) q = recOf s q := at'_put_ne _ _ e

/-! ### What an update of one block leaves -/


@[simp] theorem tell_bp (n : Notice) (s : Shelf) : (tell n s).bp = s.bp := rfl
@[simp] theorem tell_scan (n : Notice) (s : Shelf) : (tell n s).scan = s.scan := rfl
@[simp] theorem tell_recs (n : Notice) (s : Shelf) : (tell n s).recs = s.recs := rfl
@[simp] theorem tell_ords (n : Notice) (s : Shelf) : (tell n s).ords = s.ords := rfl
@[simp] theorem tell_eng (n : Notice) (s : Shelf) : (tell n s).eng = s.eng := rfl
@[simp] theorem tell_exe (n : Notice) (s : Shelf) : (tell n s).exe = s.exe := rfl
@[simp] theorem tell_tim (n : Notice) (s : Shelf) : (tell n s).tim = s.tim := rfl
@[simp] theorem tell_alm (n : Notice) (s : Shelf) : (tell n s).alm = s.alm := rfl
@[simp] theorem tell_sto (n : Notice) (s : Shelf) : (tell n s).sto = s.sto := rfl
@[simp] theorem tell_rdy (n : Notice) (s : Shelf) : (tell n s).rdy = s.rdy := rfl
@[simp] theorem tell_pins (n : Notice) (s : Shelf) : (tell n s).pins = s.pins := rfl

@[simp] theorem setTable_bp (f : List AlarmEntry → List AlarmEntry) (s : Shelf) : (setTable f s).bp = s.bp := rfl
@[simp] theorem setTable_scan (f : List AlarmEntry → List AlarmEntry) (s : Shelf) : (setTable f s).scan = s.scan := rfl
@[simp] theorem setTable_recs (f : List AlarmEntry → List AlarmEntry) (s : Shelf) : (setTable f s).recs = s.recs := rfl
@[simp] theorem setTable_ords (f : List AlarmEntry → List AlarmEntry) (s : Shelf) : (setTable f s).ords = s.ords := rfl
@[simp] theorem setTable_eng (f : List AlarmEntry → List AlarmEntry) (s : Shelf) : (setTable f s).eng = s.eng := rfl
@[simp] theorem setTable_exe (f : List AlarmEntry → List AlarmEntry) (s : Shelf) : (setTable f s).exe = s.exe := rfl
@[simp] theorem setTable_tim (f : List AlarmEntry → List AlarmEntry) (s : Shelf) : (setTable f s).tim = s.tim := rfl
@[simp] theorem setTable_sto (f : List AlarmEntry → List AlarmEntry) (s : Shelf) : (setTable f s).sto = s.sto := rfl
@[simp] theorem setTable_rdy (f : List AlarmEntry → List AlarmEntry) (s : Shelf) : (setTable f s).rdy = s.rdy := rfl
@[simp] theorem setTable_pins (f : List AlarmEntry → List AlarmEntry) (s : Shelf) : (setTable f s).pins = s.pins := rfl
@[simp] theorem setTable_out (f : List AlarmEntry → List AlarmEntry) (s : Shelf) : (setTable f s).out = s.out := rfl

@[simp] theorem setTold_bp (o : Obj) (c : Cond) (b : Bool) (s : Shelf) : (setTold o c b s).bp = s.bp := rfl
@[simp] theorem setTold_scan (o : Obj) (c : Cond) (b : Bool) (s : Shelf) : (setTold o c b s).scan = s.scan := rfl
@[simp] theorem setTold_recs (o : Obj) (c : Cond) (b : Bool) (s : Shelf) : (setTold o c b s).recs = s.recs := rfl
@[simp] theorem setTold_ords (o : Obj) (c : Cond) (b : Bool) (s : Shelf) : (setTold o c b s).ords = s.ords := rfl
@[simp] theorem setTold_eng (o : Obj) (c : Cond) (b : Bool) (s : Shelf) : (setTold o c b s).eng = s.eng := rfl
@[simp] theorem setTold_exe (o : Obj) (c : Cond) (b : Bool) (s : Shelf) : (setTold o c b s).exe = s.exe := rfl
@[simp] theorem setTold_tim (o : Obj) (c : Cond) (b : Bool) (s : Shelf) : (setTold o c b s).tim = s.tim := rfl
@[simp] theorem setTold_sto (o : Obj) (c : Cond) (b : Bool) (s : Shelf) : (setTold o c b s).sto = s.sto := rfl
@[simp] theorem setTold_rdy (o : Obj) (c : Cond) (b : Bool) (s : Shelf) : (setTold o c b s).rdy = s.rdy := rfl
@[simp] theorem setTold_pins (o : Obj) (c : Cond) (b : Bool) (s : Shelf) : (setTold o c b s).pins = s.pins := rfl
@[simp] theorem setTold_out (o : Obj) (c : Cond) (b : Bool) (s : Shelf) : (setTold o c b s).out = s.out := rfl

@[simp] theorem reportPool_bp (n m : Nat) (s : Shelf) : (reportPool n m s).bp = s.bp := rfl
@[simp] theorem reportPool_scan (n m : Nat) (s : Shelf) : (reportPool n m s).scan = s.scan := rfl
@[simp] theorem reportPool_recs (n m : Nat) (s : Shelf) : (reportPool n m s).recs = s.recs := rfl
@[simp] theorem reportPool_ords (n m : Nat) (s : Shelf) : (reportPool n m s).ords = s.ords := rfl
@[simp] theorem reportPool_eng (n m : Nat) (s : Shelf) : (reportPool n m s).eng = s.eng := rfl
@[simp] theorem reportPool_exe (n m : Nat) (s : Shelf) : (reportPool n m s).exe = s.exe := rfl
@[simp] theorem reportPool_tim (n m : Nat) (s : Shelf) : (reportPool n m s).tim = s.tim := rfl
@[simp] theorem reportPool_alm (n m : Nat) (s : Shelf) : (reportPool n m s).alm = s.alm := rfl
@[simp] theorem reportPool_rdy (n m : Nat) (s : Shelf) : (reportPool n m s).rdy = s.rdy := rfl
@[simp] theorem reportPool_pins (n m : Nat) (s : Shelf) : (reportPool n m s).pins = s.pins := rfl
@[simp] theorem reportPool_out (n m : Nat) (s : Shelf) : (reportPool n m s).out = s.out := rfl

@[simp] theorem setRef_bp (r : RefNo) (f : Ref → Ref) (s : Shelf) : (setRef r f s).bp = s.bp := rfl
@[simp] theorem setRef_scan (r : RefNo) (f : Ref → Ref) (s : Shelf) : (setRef r f s).scan = s.scan := rfl
@[simp] theorem setRef_recs (r : RefNo) (f : Ref → Ref) (s : Shelf) : (setRef r f s).recs = s.recs := rfl
@[simp] theorem setRef_ords (r : RefNo) (f : Ref → Ref) (s : Shelf) : (setRef r f s).ords = s.ords := rfl
@[simp] theorem setRef_eng (r : RefNo) (f : Ref → Ref) (s : Shelf) : (setRef r f s).eng = s.eng := rfl
@[simp] theorem setRef_exe (r : RefNo) (f : Ref → Ref) (s : Shelf) : (setRef r f s).exe = s.exe := rfl
@[simp] theorem setRef_alm (r : RefNo) (f : Ref → Ref) (s : Shelf) : (setRef r f s).alm = s.alm := rfl
@[simp] theorem setRef_sto (r : RefNo) (f : Ref → Ref) (s : Shelf) : (setRef r f s).sto = s.sto := rfl
@[simp] theorem setRef_rdy (r : RefNo) (f : Ref → Ref) (s : Shelf) : (setRef r f s).rdy = s.rdy := rfl
@[simp] theorem setRef_pins (r : RefNo) (f : Ref → Ref) (s : Shelf) : (setRef r f s).pins = s.pins := rfl
@[simp] theorem setRef_out (r : RefNo) (f : Ref → Ref) (s : Shelf) : (setRef r f s).out = s.out := rfl

@[simp] theorem setForce_bp (f : Option RefNo) (s : Shelf) : (setForce f s).bp = s.bp := rfl
@[simp] theorem setForce_scan (f : Option RefNo) (s : Shelf) : (setForce f s).scan = s.scan := rfl
@[simp] theorem setForce_recs (f : Option RefNo) (s : Shelf) : (setForce f s).recs = s.recs := rfl
@[simp] theorem setForce_ords (f : Option RefNo) (s : Shelf) : (setForce f s).ords = s.ords := rfl
@[simp] theorem setForce_eng (f : Option RefNo) (s : Shelf) : (setForce f s).eng = s.eng := rfl
@[simp] theorem setForce_exe (f : Option RefNo) (s : Shelf) : (setForce f s).exe = s.exe := rfl
@[simp] theorem setForce_alm (f : Option RefNo) (s : Shelf) : (setForce f s).alm = s.alm := rfl
@[simp] theorem setForce_sto (f : Option RefNo) (s : Shelf) : (setForce f s).sto = s.sto := rfl
@[simp] theorem setForce_rdy (f : Option RefNo) (s : Shelf) : (setForce f s).rdy = s.rdy := rfl
@[simp] theorem setForce_pins (f : Option RefNo) (s : Shelf) : (setForce f s).pins = s.pins := rfl
@[simp] theorem setForce_out (f : Option RefNo) (s : Shelf) : (setForce f s).out = s.out := rfl

@[simp] theorem setRun_bp (g : GroupNo) (f : GroupRun → GroupRun) (s : Shelf) : (setRun g f s).bp = s.bp := rfl
@[simp] theorem setRun_scan (g : GroupNo) (f : GroupRun → GroupRun) (s : Shelf) : (setRun g f s).scan = s.scan := rfl
@[simp] theorem setRun_recs (g : GroupNo) (f : GroupRun → GroupRun) (s : Shelf) : (setRun g f s).recs = s.recs := rfl
@[simp] theorem setRun_ords (g : GroupNo) (f : GroupRun → GroupRun) (s : Shelf) : (setRun g f s).ords = s.ords := rfl
@[simp] theorem setRun_exe (g : GroupNo) (f : GroupRun → GroupRun) (s : Shelf) : (setRun g f s).exe = s.exe := rfl
@[simp] theorem setRun_tim (g : GroupNo) (f : GroupRun → GroupRun) (s : Shelf) : (setRun g f s).tim = s.tim := rfl
@[simp] theorem setRun_alm (g : GroupNo) (f : GroupRun → GroupRun) (s : Shelf) : (setRun g f s).alm = s.alm := rfl
@[simp] theorem setRun_sto (g : GroupNo) (f : GroupRun → GroupRun) (s : Shelf) : (setRun g f s).sto = s.sto := rfl
@[simp] theorem setRun_rdy (g : GroupNo) (f : GroupRun → GroupRun) (s : Shelf) : (setRun g f s).rdy = s.rdy := rfl
@[simp] theorem setRun_pins (g : GroupNo) (f : GroupRun → GroupRun) (s : Shelf) : (setRun g f s).pins = s.pins := rfl
@[simp] theorem setRun_out (g : GroupNo) (f : GroupRun → GroupRun) (s : Shelf) : (setRun g f s).out = s.out := rfl

@[simp] theorem setList_bp (g : GroupNo) (f : List ReqEntry → List ReqEntry) (s : Shelf) : (setList g f s).bp = s.bp := rfl
@[simp] theorem setList_scan (g : GroupNo) (f : List ReqEntry → List ReqEntry) (s : Shelf) : (setList g f s).scan = s.scan := rfl
@[simp] theorem setList_recs (g : GroupNo) (f : List ReqEntry → List ReqEntry) (s : Shelf) : (setList g f s).recs = s.recs := rfl
@[simp] theorem setList_ords (g : GroupNo) (f : List ReqEntry → List ReqEntry) (s : Shelf) : (setList g f s).ords = s.ords := rfl
@[simp] theorem setList_exe (g : GroupNo) (f : List ReqEntry → List ReqEntry) (s : Shelf) : (setList g f s).exe = s.exe := rfl
@[simp] theorem setList_tim (g : GroupNo) (f : List ReqEntry → List ReqEntry) (s : Shelf) : (setList g f s).tim = s.tim := rfl
@[simp] theorem setList_alm (g : GroupNo) (f : List ReqEntry → List ReqEntry) (s : Shelf) : (setList g f s).alm = s.alm := rfl
@[simp] theorem setList_sto (g : GroupNo) (f : List ReqEntry → List ReqEntry) (s : Shelf) : (setList g f s).sto = s.sto := rfl
@[simp] theorem setList_rdy (g : GroupNo) (f : List ReqEntry → List ReqEntry) (s : Shelf) : (setList g f s).rdy = s.rdy := rfl
@[simp] theorem setList_pins (g : GroupNo) (f : List ReqEntry → List ReqEntry) (s : Shelf) : (setList g f s).pins = s.pins := rfl
@[simp] theorem setList_out (g : GroupNo) (f : List ReqEntry → List ReqEntry) (s : Shelf) : (setList g f s).out = s.out := rfl

@[simp] theorem setHoldOff_bp (p : PortNo) (t : Option Nat) (s : Shelf) : (setHoldOff p t s).bp = s.bp := rfl
@[simp] theorem setHoldOff_scan (p : PortNo) (t : Option Nat) (s : Shelf) : (setHoldOff p t s).scan = s.scan := rfl
@[simp] theorem setHoldOff_recs (p : PortNo) (t : Option Nat) (s : Shelf) : (setHoldOff p t s).recs = s.recs := rfl
@[simp] theorem setHoldOff_ords (p : PortNo) (t : Option Nat) (s : Shelf) : (setHoldOff p t s).ords = s.ords := rfl
@[simp] theorem setHoldOff_exe (p : PortNo) (t : Option Nat) (s : Shelf) : (setHoldOff p t s).exe = s.exe := rfl
@[simp] theorem setHoldOff_tim (p : PortNo) (t : Option Nat) (s : Shelf) : (setHoldOff p t s).tim = s.tim := rfl
@[simp] theorem setHoldOff_alm (p : PortNo) (t : Option Nat) (s : Shelf) : (setHoldOff p t s).alm = s.alm := rfl
@[simp] theorem setHoldOff_sto (p : PortNo) (t : Option Nat) (s : Shelf) : (setHoldOff p t s).sto = s.sto := rfl
@[simp] theorem setHoldOff_rdy (p : PortNo) (t : Option Nat) (s : Shelf) : (setHoldOff p t s).rdy = s.rdy := rfl
@[simp] theorem setHoldOff_pins (p : PortNo) (t : Option Nat) (s : Shelf) : (setHoldOff p t s).pins = s.pins := rfl
@[simp] theorem setHoldOff_out (p : PortNo) (t : Option Nat) (s : Shelf) : (setHoldOff p t s).out = s.out := rfl

@[simp] theorem setExec_bp (g : GroupNo) (f : GroupExec → GroupExec) (s : Shelf) : (setExec g f s).bp = s.bp := rfl
@[simp] theorem setExec_scan (g : GroupNo) (f : GroupExec → GroupExec) (s : Shelf) : (setExec g f s).scan = s.scan := rfl
@[simp] theorem setExec_recs (g : GroupNo) (f : GroupExec → GroupExec) (s : Shelf) : (setExec g f s).recs = s.recs := rfl
@[simp] theorem setExec_ords (g : GroupNo) (f : GroupExec → GroupExec) (s : Shelf) : (setExec g f s).ords = s.ords := rfl
@[simp] theorem setExec_eng (g : GroupNo) (f : GroupExec → GroupExec) (s : Shelf) : (setExec g f s).eng = s.eng := rfl
@[simp] theorem setExec_tim (g : GroupNo) (f : GroupExec → GroupExec) (s : Shelf) : (setExec g f s).tim = s.tim := rfl
@[simp] theorem setExec_alm (g : GroupNo) (f : GroupExec → GroupExec) (s : Shelf) : (setExec g f s).alm = s.alm := rfl
@[simp] theorem setExec_sto (g : GroupNo) (f : GroupExec → GroupExec) (s : Shelf) : (setExec g f s).sto = s.sto := rfl
@[simp] theorem setExec_rdy (g : GroupNo) (f : GroupExec → GroupExec) (s : Shelf) : (setExec g f s).rdy = s.rdy := rfl
@[simp] theorem setExec_pins (g : GroupNo) (f : GroupExec → GroupExec) (s : Shelf) : (setExec g f s).pins = s.pins := rfl
@[simp] theorem setExec_out (g : GroupNo) (f : GroupExec → GroupExec) (s : Shelf) : (setExec g f s).out = s.out := rfl

@[simp] theorem setTasks_bp (f : List Task → List Task) (s : Shelf) : (setTasks f s).bp = s.bp := rfl
@[simp] theorem setTasks_scan (f : List Task → List Task) (s : Shelf) : (setTasks f s).scan = s.scan := rfl
@[simp] theorem setTasks_recs (f : List Task → List Task) (s : Shelf) : (setTasks f s).recs = s.recs := rfl
@[simp] theorem setTasks_ords (f : List Task → List Task) (s : Shelf) : (setTasks f s).ords = s.ords := rfl
@[simp] theorem setTasks_eng (f : List Task → List Task) (s : Shelf) : (setTasks f s).eng = s.eng := rfl
@[simp] theorem setTasks_tim (f : List Task → List Task) (s : Shelf) : (setTasks f s).tim = s.tim := rfl
@[simp] theorem setTasks_alm (f : List Task → List Task) (s : Shelf) : (setTasks f s).alm = s.alm := rfl
@[simp] theorem setTasks_sto (f : List Task → List Task) (s : Shelf) : (setTasks f s).sto = s.sto := rfl
@[simp] theorem setTasks_rdy (f : List Task → List Task) (s : Shelf) : (setTasks f s).rdy = s.rdy := rfl
@[simp] theorem setTasks_pins (f : List Task → List Task) (s : Shelf) : (setTasks f s).pins = s.pins := rfl
@[simp] theorem setTasks_out (f : List Task → List Task) (s : Shelf) : (setTasks f s).out = s.out := rfl

@[simp] theorem setActive_bp (a : Option ActiveTask) (s : Shelf) : (setActive a s).bp = s.bp := rfl
@[simp] theorem setActive_scan (a : Option ActiveTask) (s : Shelf) : (setActive a s).scan = s.scan := rfl
@[simp] theorem setActive_recs (a : Option ActiveTask) (s : Shelf) : (setActive a s).recs = s.recs := rfl
@[simp] theorem setActive_ords (a : Option ActiveTask) (s : Shelf) : (setActive a s).ords = s.ords := rfl
@[simp] theorem setActive_eng (a : Option ActiveTask) (s : Shelf) : (setActive a s).eng = s.eng := rfl
@[simp] theorem setActive_tim (a : Option ActiveTask) (s : Shelf) : (setActive a s).tim = s.tim := rfl
@[simp] theorem setActive_alm (a : Option ActiveTask) (s : Shelf) : (setActive a s).alm = s.alm := rfl
@[simp] theorem setActive_sto (a : Option ActiveTask) (s : Shelf) : (setActive a s).sto = s.sto := rfl
@[simp] theorem setActive_rdy (a : Option ActiveTask) (s : Shelf) : (setActive a s).rdy = s.rdy := rfl
@[simp] theorem setActive_pins (a : Option ActiveTask) (s : Shelf) : (setActive a s).pins = s.pins := rfl
@[simp] theorem setActive_out (a : Option ActiveTask) (s : Shelf) : (setActive a s).out = s.out := rfl

@[simp] theorem joinClear_bp (p : PortNo) (s : Shelf) : (joinClear p s).bp = s.bp := rfl
@[simp] theorem joinClear_scan (p : PortNo) (s : Shelf) : (joinClear p s).scan = s.scan := rfl
@[simp] theorem joinClear_recs (p : PortNo) (s : Shelf) : (joinClear p s).recs = s.recs := rfl
@[simp] theorem joinClear_ords (p : PortNo) (s : Shelf) : (joinClear p s).ords = s.ords := rfl
@[simp] theorem joinClear_eng (p : PortNo) (s : Shelf) : (joinClear p s).eng = s.eng := rfl
@[simp] theorem joinClear_tim (p : PortNo) (s : Shelf) : (joinClear p s).tim = s.tim := rfl
@[simp] theorem joinClear_alm (p : PortNo) (s : Shelf) : (joinClear p s).alm = s.alm := rfl
@[simp] theorem joinClear_sto (p : PortNo) (s : Shelf) : (joinClear p s).sto = s.sto := rfl
@[simp] theorem joinClear_rdy (p : PortNo) (s : Shelf) : (joinClear p s).rdy = s.rdy := rfl
@[simp] theorem joinClear_pins (p : PortNo) (s : Shelf) : (joinClear p s).pins = s.pins := rfl
@[simp] theorem joinClear_out (p : PortNo) (s : Shelf) : (joinClear p s).out = s.out := rfl

@[simp] theorem leaveClear_bp (p : PortNo) (s : Shelf) : (leaveClear p s).bp = s.bp := rfl
@[simp] theorem leaveClear_scan (p : PortNo) (s : Shelf) : (leaveClear p s).scan = s.scan := rfl
@[simp] theorem leaveClear_recs (p : PortNo) (s : Shelf) : (leaveClear p s).recs = s.recs := rfl
@[simp] theorem leaveClear_ords (p : PortNo) (s : Shelf) : (leaveClear p s).ords = s.ords := rfl
@[simp] theorem leaveClear_eng (p : PortNo) (s : Shelf) : (leaveClear p s).eng = s.eng := rfl
@[simp] theorem leaveClear_tim (p : PortNo) (s : Shelf) : (leaveClear p s).tim = s.tim := rfl
@[simp] theorem leaveClear_alm (p : PortNo) (s : Shelf) : (leaveClear p s).alm = s.alm := rfl
@[simp] theorem leaveClear_sto (p : PortNo) (s : Shelf) : (leaveClear p s).sto = s.sto := rfl
@[simp] theorem leaveClear_rdy (p : PortNo) (s : Shelf) : (leaveClear p s).rdy = s.rdy := rfl
@[simp] theorem leaveClear_pins (p : PortNo) (s : Shelf) : (leaveClear p s).pins = s.pins := rfl
@[simp] theorem leaveClear_out (p : PortNo) (s : Shelf) : (leaveClear p s).out = s.out := rfl

@[simp] theorem setOrder_bp (n : Nat) (f : Order → Order) (s : Shelf) : (setOrder n f s).bp = s.bp := rfl
@[simp] theorem setOrder_scan (n : Nat) (f : Order → Order) (s : Shelf) : (setOrder n f s).scan = s.scan := rfl
@[simp] theorem setOrder_recs (n : Nat) (f : Order → Order) (s : Shelf) : (setOrder n f s).recs = s.recs := rfl
@[simp] theorem setOrder_eng (n : Nat) (f : Order → Order) (s : Shelf) : (setOrder n f s).eng = s.eng := rfl
@[simp] theorem setOrder_exe (n : Nat) (f : Order → Order) (s : Shelf) : (setOrder n f s).exe = s.exe := rfl
@[simp] theorem setOrder_tim (n : Nat) (f : Order → Order) (s : Shelf) : (setOrder n f s).tim = s.tim := rfl
@[simp] theorem setOrder_alm (n : Nat) (f : Order → Order) (s : Shelf) : (setOrder n f s).alm = s.alm := rfl
@[simp] theorem setOrder_sto (n : Nat) (f : Order → Order) (s : Shelf) : (setOrder n f s).sto = s.sto := rfl
@[simp] theorem setOrder_rdy (n : Nat) (f : Order → Order) (s : Shelf) : (setOrder n f s).rdy = s.rdy := rfl
@[simp] theorem setOrder_pins (n : Nat) (f : Order → Order) (s : Shelf) : (setOrder n f s).pins = s.pins := rfl
@[simp] theorem setOrder_out (n : Nat) (f : Order → Order) (s : Shelf) : (setOrder n f s).out = s.out := rfl

@[simp] theorem setTimer_bp (p : PortNo) (t : CondemnTimer) (s : Shelf) : (setTimer p t s).bp = s.bp := rfl
@[simp] theorem setTimer_scan (p : PortNo) (t : CondemnTimer) (s : Shelf) : (setTimer p t s).scan = s.scan := rfl
@[simp] theorem setTimer_ords (p : PortNo) (t : CondemnTimer) (s : Shelf) : (setTimer p t s).ords = s.ords := rfl
@[simp] theorem setTimer_eng (p : PortNo) (t : CondemnTimer) (s : Shelf) : (setTimer p t s).eng = s.eng := rfl
@[simp] theorem setTimer_exe (p : PortNo) (t : CondemnTimer) (s : Shelf) : (setTimer p t s).exe = s.exe := rfl
@[simp] theorem setTimer_tim (p : PortNo) (t : CondemnTimer) (s : Shelf) : (setTimer p t s).tim = s.tim := rfl
@[simp] theorem setTimer_alm (p : PortNo) (t : CondemnTimer) (s : Shelf) : (setTimer p t s).alm = s.alm := rfl
@[simp] theorem setTimer_sto (p : PortNo) (t : CondemnTimer) (s : Shelf) : (setTimer p t s).sto = s.sto := rfl
@[simp] theorem setTimer_rdy (p : PortNo) (t : CondemnTimer) (s : Shelf) : (setTimer p t s).rdy = s.rdy := rfl
@[simp] theorem setTimer_pins (p : PortNo) (t : CondemnTimer) (s : Shelf) : (setTimer p t s).pins = s.pins := rfl
@[simp] theorem setTimer_out (p : PortNo) (t : CondemnTimer) (s : Shelf) : (setTimer p t s).out = s.out := rfl

@[simp] theorem setCondemn_bp (p : PortNo) (c : Option Condemn) (s : Shelf) : (setCondemn p c s).bp = s.bp := rfl
@[simp] theorem setCondemn_scan (p : PortNo) (c : Option Condemn) (s : Shelf) : (setCondemn p c s).scan = s.scan := rfl
@[simp] theorem setCondemn_ords (p : PortNo) (c : Option Condemn) (s : Shelf) : (setCondemn p c s).ords = s.ords := rfl
@[simp] theorem setCondemn_eng (p : PortNo) (c : Option Condemn) (s : Shelf) : (setCondemn p c s).eng = s.eng := rfl
@[simp] theorem setCondemn_exe (p : PortNo) (c : Option Condemn) (s : Shelf) : (setCondemn p c s).exe = s.exe := rfl
@[simp] theorem setCondemn_tim (p : PortNo) (c : Option Condemn) (s : Shelf) : (setCondemn p c s).tim = s.tim := rfl
@[simp] theorem setCondemn_alm (p : PortNo) (c : Option Condemn) (s : Shelf) : (setCondemn p c s).alm = s.alm := rfl
@[simp] theorem setCondemn_sto (p : PortNo) (c : Option Condemn) (s : Shelf) : (setCondemn p c s).sto = s.sto := rfl
@[simp] theorem setCondemn_rdy (p : PortNo) (c : Option Condemn) (s : Shelf) : (setCondemn p c s).rdy = s.rdy := rfl
@[simp] theorem setCondemn_pins (p : PortNo) (c : Option Condemn) (s : Shelf) : (setCondemn p c s).pins = s.pins := rfl
@[simp] theorem setCondemn_out (p : PortNo) (c : Option Condemn) (s : Shelf) : (setCondemn p c s).out = s.out := rfl

@[simp] theorem setRecord_bp (p : PortNo) (r : PortRec) (s : Shelf) : (setRecord p r s).bp = s.bp := rfl
@[simp] theorem setRecord_scan (p : PortNo) (r : PortRec) (s : Shelf) : (setRecord p r s).scan = s.scan := rfl
@[simp] theorem setRecord_ords (p : PortNo) (r : PortRec) (s : Shelf) : (setRecord p r s).ords = s.ords := rfl
@[simp] theorem setRecord_eng (p : PortNo) (r : PortRec) (s : Shelf) : (setRecord p r s).eng = s.eng := rfl
@[simp] theorem setRecord_exe (p : PortNo) (r : PortRec) (s : Shelf) : (setRecord p r s).exe = s.exe := rfl
@[simp] theorem setRecord_tim (p : PortNo) (r : PortRec) (s : Shelf) : (setRecord p r s).tim = s.tim := rfl
@[simp] theorem setRecord_alm (p : PortNo) (r : PortRec) (s : Shelf) : (setRecord p r s).alm = s.alm := rfl
@[simp] theorem setRecord_sto (p : PortNo) (r : PortRec) (s : Shelf) : (setRecord p r s).sto = s.sto := rfl
@[simp] theorem setRecord_rdy (p : PortNo) (r : PortRec) (s : Shelf) : (setRecord p r s).rdy = s.rdy := rfl
@[simp] theorem setRecord_pins (p : PortNo) (r : PortRec) (s : Shelf) : (setRecord p r s).pins = s.pins := rfl
@[simp] theorem setRecord_out (p : PortNo) (r : PortRec) (s : Shelf) : (setRecord p r s).out = s.out := rfl

@[simp] theorem leaveCandidates_bp (p : PortNo) (s : Shelf) : (leaveCandidates p s).bp = s.bp := rfl
@[simp] theorem leaveCandidates_scan (p : PortNo) (s : Shelf) : (leaveCandidates p s).scan = s.scan := rfl
@[simp] theorem leaveCandidates_ords (p : PortNo) (s : Shelf) : (leaveCandidates p s).ords = s.ords := rfl
@[simp] theorem leaveCandidates_eng (p : PortNo) (s : Shelf) : (leaveCandidates p s).eng = s.eng := rfl
@[simp] theorem leaveCandidates_exe (p : PortNo) (s : Shelf) : (leaveCandidates p s).exe = s.exe := rfl
@[simp] theorem leaveCandidates_tim (p : PortNo) (s : Shelf) : (leaveCandidates p s).tim = s.tim := rfl
@[simp] theorem leaveCandidates_alm (p : PortNo) (s : Shelf) : (leaveCandidates p s).alm = s.alm := rfl
@[simp] theorem leaveCandidates_sto (p : PortNo) (s : Shelf) : (leaveCandidates p s).sto = s.sto := rfl
@[simp] theorem leaveCandidates_rdy (p : PortNo) (s : Shelf) : (leaveCandidates p s).rdy = s.rdy := rfl
@[simp] theorem leaveCandidates_pins (p : PortNo) (s : Shelf) : (leaveCandidates p s).pins = s.pins := rfl
@[simp] theorem leaveCandidates_out (p : PortNo) (s : Shelf) : (leaveCandidates p s).out = s.out := rfl

@[simp] theorem setPhase_bp (p : Phase) (s : Shelf) : (setPhase p s).bp = s.bp := rfl
@[simp] theorem setPhase_scan (p : Phase) (s : Shelf) : (setPhase p s).scan = s.scan := rfl
@[simp] theorem setPhase_recs (p : Phase) (s : Shelf) : (setPhase p s).recs = s.recs := rfl
@[simp] theorem setPhase_ords (p : Phase) (s : Shelf) : (setPhase p s).ords = s.ords := rfl
@[simp] theorem setPhase_eng (p : Phase) (s : Shelf) : (setPhase p s).eng = s.eng := rfl
@[simp] theorem setPhase_exe (p : Phase) (s : Shelf) : (setPhase p s).exe = s.exe := rfl
@[simp] theorem setPhase_tim (p : Phase) (s : Shelf) : (setPhase p s).tim = s.tim := rfl
@[simp] theorem setPhase_alm (p : Phase) (s : Shelf) : (setPhase p s).alm = s.alm := rfl
@[simp] theorem setPhase_sto (p : Phase) (s : Shelf) : (setPhase p s).sto = s.sto := rfl
@[simp] theorem setPhase_pins (p : Phase) (s : Shelf) : (setPhase p s).pins = s.pins := rfl
@[simp] theorem setPhase_out (p : Phase) (s : Shelf) : (setPhase p s).out = s.out := rfl

@[simp] theorem setScan_bp (f : Scanner → Scanner) (s : Shelf) : (setScan f s).bp = s.bp := rfl
@[simp] theorem setScan_recs (f : Scanner → Scanner) (s : Shelf) : (setScan f s).recs = s.recs := rfl
@[simp] theorem setScan_ords (f : Scanner → Scanner) (s : Shelf) : (setScan f s).ords = s.ords := rfl
@[simp] theorem setScan_eng (f : Scanner → Scanner) (s : Shelf) : (setScan f s).eng = s.eng := rfl
@[simp] theorem setScan_exe (f : Scanner → Scanner) (s : Shelf) : (setScan f s).exe = s.exe := rfl
@[simp] theorem setScan_tim (f : Scanner → Scanner) (s : Shelf) : (setScan f s).tim = s.tim := rfl
@[simp] theorem setScan_alm (f : Scanner → Scanner) (s : Shelf) : (setScan f s).alm = s.alm := rfl
@[simp] theorem setScan_sto (f : Scanner → Scanner) (s : Shelf) : (setScan f s).sto = s.sto := rfl
@[simp] theorem setScan_rdy (f : Scanner → Scanner) (s : Shelf) : (setScan f s).rdy = s.rdy := rfl
@[simp] theorem setScan_pins (f : Scanner → Scanner) (s : Shelf) : (setScan f s).pins = s.pins := rfl
@[simp] theorem setScan_out (f : Scanner → Scanner) (s : Shelf) : (setScan f s).out = s.out := rfl

@[simp] theorem setObs_bp (p : PortNo) (o : Obs) (s : Shelf) : (setObs p o s).bp = s.bp := rfl
@[simp] theorem setObs_recs (p : PortNo) (o : Obs) (s : Shelf) : (setObs p o s).recs = s.recs := rfl
@[simp] theorem setObs_ords (p : PortNo) (o : Obs) (s : Shelf) : (setObs p o s).ords = s.ords := rfl
@[simp] theorem setObs_eng (p : PortNo) (o : Obs) (s : Shelf) : (setObs p o s).eng = s.eng := rfl
@[simp] theorem setObs_exe (p : PortNo) (o : Obs) (s : Shelf) : (setObs p o s).exe = s.exe := rfl
@[simp] theorem setObs_tim (p : PortNo) (o : Obs) (s : Shelf) : (setObs p o s).tim = s.tim := rfl
@[simp] theorem setObs_alm (p : PortNo) (o : Obs) (s : Shelf) : (setObs p o s).alm = s.alm := rfl
@[simp] theorem setObs_sto (p : PortNo) (o : Obs) (s : Shelf) : (setObs p o s).sto = s.sto := rfl
@[simp] theorem setObs_rdy (p : PortNo) (o : Obs) (s : Shelf) : (setObs p o s).rdy = s.rdy := rfl
@[simp] theorem setObs_pins (p : PortNo) (o : Obs) (s : Shelf) : (setObs p o s).pins = s.pins := rfl
@[simp] theorem setObs_out (p : PortNo) (o : Obs) (s : Shelf) : (setObs p o s).out = s.out := rfl

@[simp] theorem setBp_scan (f : Backplane → Backplane) (s : Shelf) : (setBp f s).scan = s.scan := rfl
@[simp] theorem setBp_recs (f : Backplane → Backplane) (s : Shelf) : (setBp f s).recs = s.recs := rfl
@[simp] theorem setBp_ords (f : Backplane → Backplane) (s : Shelf) : (setBp f s).ords = s.ords := rfl
@[simp] theorem setBp_eng (f : Backplane → Backplane) (s : Shelf) : (setBp f s).eng = s.eng := rfl
@[simp] theorem setBp_exe (f : Backplane → Backplane) (s : Shelf) : (setBp f s).exe = s.exe := rfl
@[simp] theorem setBp_tim (f : Backplane → Backplane) (s : Shelf) : (setBp f s).tim = s.tim := rfl
@[simp] theorem setBp_alm (f : Backplane → Backplane) (s : Shelf) : (setBp f s).alm = s.alm := rfl
@[simp] theorem setBp_sto (f : Backplane → Backplane) (s : Shelf) : (setBp f s).sto = s.sto := rfl
@[simp] theorem setBp_rdy (f : Backplane → Backplane) (s : Shelf) : (setBp f s).rdy = s.rdy := rfl
@[simp] theorem setBp_pins (f : Backplane → Backplane) (s : Shelf) : (setBp f s).pins = s.pins := rfl
@[simp] theorem setBp_out (f : Backplane → Backplane) (s : Shelf) : (setBp f s).out = s.out := rfl

@[simp] theorem setSlot_scan (n : SlotNo) (f : SlotRec → SlotRec) (s : Shelf) : (setSlot n f s).scan = s.scan := rfl
@[simp] theorem setSlot_recs (n : SlotNo) (f : SlotRec → SlotRec) (s : Shelf) : (setSlot n f s).recs = s.recs := rfl
@[simp] theorem setSlot_ords (n : SlotNo) (f : SlotRec → SlotRec) (s : Shelf) : (setSlot n f s).ords = s.ords := rfl
@[simp] theorem setSlot_eng (n : SlotNo) (f : SlotRec → SlotRec) (s : Shelf) : (setSlot n f s).eng = s.eng := rfl
@[simp] theorem setSlot_exe (n : SlotNo) (f : SlotRec → SlotRec) (s : Shelf) : (setSlot n f s).exe = s.exe := rfl
@[simp] theorem setSlot_tim (n : SlotNo) (f : SlotRec → SlotRec) (s : Shelf) : (setSlot n f s).tim = s.tim := rfl
@[simp] theorem setSlot_alm (n : SlotNo) (f : SlotRec → SlotRec) (s : Shelf) : (setSlot n f s).alm = s.alm := rfl
@[simp] theorem setSlot_sto (n : SlotNo) (f : SlotRec → SlotRec) (s : Shelf) : (setSlot n f s).sto = s.sto := rfl
@[simp] theorem setSlot_rdy (n : SlotNo) (f : SlotRec → SlotRec) (s : Shelf) : (setSlot n f s).rdy = s.rdy := rfl
@[simp] theorem setSlot_pins (n : SlotNo) (f : SlotRec → SlotRec) (s : Shelf) : (setSlot n f s).pins = s.pins := rfl
@[simp] theorem setSlot_out (n : SlotNo) (f : SlotRec → SlotRec) (s : Shelf) : (setSlot n f s).out = s.out := rfl

/-! ### Shelf time

A proof rewrites with these two; letting the kernel unfold shelf time against its wrap at 4294967296 is slow. -/

theorem shelfTime_eq (s : Shelf) : shelfTime s = (s.rdy.ms / 1000 + s.rdy.base) % 4294967296 := rfl
@[simp] theorem setShelfTime_rdy (v : Nat) (s : Shelf) :
    (setShelfTime v s).rdy = { s.rdy with base := baseFor v (secondsCounted s) } := rfl
@[simp] theorem setShelfTime_bp (v : Nat) (s : Shelf) : (setShelfTime v s).bp = s.bp := rfl
@[simp] theorem setShelfTime_scan (v : Nat) (s : Shelf) : (setShelfTime v s).scan = s.scan := rfl
@[simp] theorem setShelfTime_eng (v : Nat) (s : Shelf) : (setShelfTime v s).eng = s.eng := rfl
@[simp] theorem setShelfTime_alm (v : Nat) (s : Shelf) : (setShelfTime v s).alm = s.alm := rfl
@[simp] theorem setShelfTime_out (v : Nat) (s : Shelf) : (setShelfTime v s).out = s.out := rfl

end Sys2Proof.Machine
end

