-- ==== Sys2Proof/Laws/Told.lean ====
section
/-! SUPPORT. What the alarm unit's operations leave of what is told and of the entries: a report tells its own condition
alone, an entry is replaced or removed by its key, and a removed entry comes back only for a condition that is present. -/

namespace Sys2Proof.Machine

/-! ### What is told and what stands effectively present -/

/-- The told and effective states of two shelves agree. -/
def SameTold (s x : Shelf) : Prop := x.alm.told = s.alm.told ∧ x.alm.eff = s.alm.eff

theorem SameTold.rfl' (s : Shelf) : SameTold s s := ⟨rfl, rfl⟩
theorem SameTold.trans' {s t u : Shelf} (h : SameTold s t) (k : SameTold t u) : SameTold s u :=
  ⟨k.1.trans h.1, k.2.trans h.2⟩

theorem SameTold.foldl {α : Type} {f : Shelf → α → Shelf} (hf : ∀ s a, SameTold s (f s a)) (l : List α)
    (s : Shelf) : SameTold s (l.foldl f s) := by
  induction l generalizing s with
  | nil => exact .rfl' s
  | cons a l ih => exact (hf s a).trans' (ih _)

theorem recordEntry_told (e : AlarmEntry) (t : Transition) (s : Shelf) : SameTold s (recordEntry e t s) := ⟨rfl, rfl⟩
theorem setTable_told (f : List AlarmEntry → List AlarmEntry) (s : Shelf) : SameTold s (setTable f s) := ⟨rfl, rfl⟩
theorem clearCutOff_told (v : Severity) (s : Shelf) : SameTold s (clearCutOff v s) := by
  unfold clearCutOff
  split <;> exact ⟨rfl, rfl⟩
theorem raiseEntry_told (e : AlarmEntry) (s : Shelf) : SameTold s (raiseEntry e s) :=
  (setTable_told _ s).trans' ((clearCutOff_told _ _).trans' (recordEntry_told _ _ _))
theorem enterRising_told (o : Obj) (c : Cond) (s : Shelf) : SameTold s (enterRising o c s) := by
  unfold enterRising
  dsimp only
  split
  · exact (setTable_told _ s).trans' (raiseEntry_told _ _)
  · exact setTable_told _ s
theorem raiseTableFull_told (s : Shelf) : SameTold s (raiseTableFull s) := by
  unfold raiseTableFull
  split
  · exact .rfl' s
  · exact (setTable_told _ s).trans' ((clearCutOff_told _ _).trans' (recordEntry_told _ _ _))
theorem newcomer_told (o : Obj) (c : Cond) (s : Shelf) : SameTold s (newcomer o c s) := by
  unfold newcomer
  split
  · exact enterRising_told _ _ _
  · dsimp only
    split
    · split
      · exact (raiseTableFull_told s).trans' ((setTable_told _ _).trans'
          ((recordEntry_told _ _ _).trans' (enterRising_told _ _ _)))
      · exact raiseTableFull_told s
    · exact raiseTableFull_told s
theorem clearTableFull_told (s : Shelf) : SameTold s (clearTableFull s) := by
  unfold clearTableFull
  split
  · split
    · exact (setTable_told _ _).trans' (recordEntry_told _ _ _)
    · exact .rfl' s
  · exact .rfl' s
theorem reoffer_told (s : Shelf) : SameTold s (reoffer s) := by
  unfold reoffer
  split
  · exact .rfl' s
  · refine SameTold.foldl (fun s oc => ?_) _ _
    split
    · exact enterRising_told _ _ _
    · exact .rfl' _
theorem removeEntry_told (e : AlarmEntry) (t : Option Transition) (s : Shelf) : SameTold s (removeEntry e t s) := by
  unfold removeEntry
  refine SameTold.trans' ?_ ((clearTableFull_told _).trans' (reoffer_told _))
  cases t <;> exact ⟨rfl, rfl⟩
theorem followEntry_told (e : AlarmEntry) (told m : Bool) (s : Shelf) : SameTold s (followEntry e told m s) := by
  unfold followEntry
  split
  · split
    · exact removeEntry_told _ _ _
    · exact .rfl' s
  · split
    · exact removeEntry_told _ _ _
    · split
      · exact .rfl' s
      · unfold beginFalling
        dsimp only
        split
        · exact (setTable_told _ _).trans' (removeEntry_told _ _ _)
        · exact setTable_told _ _
  · split
    · exact removeEntry_told _ _ _
    · split
      · exact setTable_told _ _
      · exact .rfl' s

/-- Following a condition changes nothing that is told. -/
theorem follow_told (o : Obj) (c : Cond) (s : Shelf) : (follow o c s).alm.told = s.alm.told := by
  unfold follow
  dsimp only
  split
  · exact (followEntry_told _ _ _ _).1
  · split
    · exact (newcomer_told _ _ _).1
    · rfl

/-- A report tells its own condition and leaves what else is told. -/
theorem report_told (o : Obj) (c : Cond) (b : Bool) (s : Shelf) :
    (report o c b s).alm.told = if b then joinTail (o, c) s.alm.told else leave (o, c) s.alm.told :=
  follow_told o c _

theorem joinTail_self {α : Type} [DecidableEq α] (a : α) (l : List α) : a ∈ joinTail a l := by
  unfold joinTail
  split
  · assumption
  · simp

theorem leave_self {α : Type} [DecidableEq α] (a : α) (l : List α) : a ∉ leave a l := by simp [leave]

/-- After a report the condition is told as it says. -/
theorem report_isTold (o : Obj) (c : Cond) (b : Bool) (s : Shelf) : isTold (report o c b s) o c = b := by
  unfold isTold
  rw [report_told]
  cases b
  · simpa using leave_self (o, c) s.alm.told
  · simpa using joinTail_self (o, c) s.alm.told

theorem reportChange_isTold (o : Obj) (c : Cond) (b : Bool) (s : Shelf) : isTold (reportChange o c b s) o c = b := by
  unfold reportChange
  split
  · assumption
  · exact report_isTold o c b s

theorem reportChange_present (o : Obj) (c : Cond) (s : Shelf) : (o, c) ∈ (reportChange o c true s).alm.told :=
  of_decide_eq_true (reportChange_isTold o c true s)
theorem reportChange_absent (o : Obj) (c : Cond) (s : Shelf) : (o, c) ∉ (reportChange o c false s).alm.told :=
  of_decide_eq_false (reportChange_isTold o c false s)

/-! ### Entries -/

theorem entryOf_key {s : Shelf} {o : Obj} {c : Cond} {e : AlarmEntry} (h : entryOf s o c = some e) :
    e ∈ s.alm.table ∧ e.obj = o ∧ e.cond = c := by
  have a := List.find?_some h
  simp only [Bool.and_eq_true, decide_eq_true_eq] at a
  exact ⟨List.mem_of_find?_eq_some h, a.1, a.2⟩

theorem entryOf_eq {s t : Shelf} (h : t.alm.table = s.alm.table) (o : Obj) (c : Cond) : entryOf t o c = entryOf s o c := by
  unfold entryOf
  rw [h]

/-- The entry of an object and condition is replaced. -/
theorem entryOf_put {s : Shelf} {e f : AlarmEntry} (h : entryOf s f.obj f.cond = some e) :
    entryOf (putEntry f s) f.obj f.cond = some f := by
  simp only [entryOf, putEntry, setTable] at h ⊢
  generalize s.alm.table = l at h ⊢
  induction l with
  | nil => simp at h
  | cons x l ih =>
    rw [List.map_cons, List.find?_cons]
    by_cases hx : x.obj = f.obj ∧ x.cond = f.cond
    · simp [hx]
    · rw [if_neg hx]
      have hd : (decide (x.obj = f.obj) && decide (x.cond = f.cond)) = false := by
        rcases not_and_or.1 hx with k | k <;> simp [k]
      rw [List.find?_cons, hd] at h
      rw [hd]
      exact ih h

theorem entryOf_drop (s : Shelf) (o : Obj) (c : Cond) : entryOf (dropEntry o c s) o c = none := by
  simp only [entryOf, dropEntry, setTable, List.find?_eq_none]
  intro x hx
  have := (List.mem_filter.1 hx).2
  simpa [Decidable.imp_iff_not_or] using this

/-- An entry that joins the tail leaves the entry of another condition as it was. -/
theorem entryOf_push {s : Shelf} {e : AlarmEntry} {o : Obj} {c : Cond} (h : (e.obj, e.cond) ≠ (o, c)) :
    entryOf (setTable (fun t => t ++ [e]) s) o c = entryOf s o c := by
  have hd : (decide (e.obj = o) && decide (e.cond = c)) = false := by
    by_cases a : e.obj = o
    · have b : e.cond ≠ c := fun b => h (by rw [a, b])
      simp [b]
    · simp [a]
  simp [entryOf, setTable, List.find?_append, hd]

theorem entryOf_put_other {s : Shelf} {f : AlarmEntry} {o : Obj} {c : Cond} (h : (f.obj, f.cond) ≠ (o, c)) :
    entryOf (putEntry f s) o c = entryOf s o c := by
  simp only [entryOf, putEntry, setTable]
  induction s.alm.table with
  | nil => rfl
  | cons x l ih =>
    rw [List.map_cons, List.find?_cons, List.find?_cons, ih]
    by_cases hx : x.obj = f.obj ∧ x.cond = f.cond
    · have hd : (decide (f.obj = o) && decide (f.cond = c)) = false := by
        by_cases a : f.obj = o
        · have b : f.cond ≠ c := fun b => h (by rw [a, b])
          simp [b]
        · simp [a]
      rw [if_pos hx, hx.1, hx.2, hd]
    · rw [if_neg hx]

/-- The entry that a raise soak's end leaves. -/
def raisedEntry (e : AlarmEntry) (s : Shelf) : AlarmEntry :=
  { e with state := .raised, raiseTime := some (shelfTime s), count := 1, soak := none }

theorem raiseEntry_table (e : AlarmEntry) (s : Shelf) :
    (raiseEntry e s).alm.table = (putEntry (raisedEntry e s) s).alm.table := by
  unfold raiseEntry
  rw [recordEntry_table, clearCutOff_table]
  rfl

theorem entryOf_enterRising {s : Shelf} {p : Obj} {d : Cond} {o : Obj} {c : Cond} (h : (p, d) ≠ (o, c)) :
    entryOf (enterRising p d s) o c = entryOf s o c := by
  unfold enterRising
  dsimp only
  have push : entryOf (setTable (fun t => t ++ [⟨p, d, (settingOf s d).sev, .rising, false, none, 0, some 0⟩]) s) o c
      = entryOf s o c := entryOf_push h
  split
  · rw [← push, entryOf_eq (raiseEntry_table _ _)]
    exact entryOf_put_other h
  · exact push

/-- Freed places bring no entry of a condition that is not effectively present. -/
theorem entryOf_reoffer {s : Shelf} {o : Obj} {c : Cond} (h : (o, c) ∉ s.alm.eff) :
    entryOf (reoffer s) o c = entryOf s o c := by
  unfold reoffer
  split
  · rfl
  · have key : ∀ (l : List (Obj × Cond)) (x : Shelf), x.alm.eff = s.alm.eff →
        entryOf (l.foldl (fun s oc => if stillLeftOut s oc
          && decide (usedCount s.alm.table < Config.ordinaryMax) then enterRising oc.1 oc.2 s else s) x) o c
          = entryOf x o c := by
      intro l
      induction l with
      | nil => intro x _; rfl
      | cons oc l ih =>
        intro x hx
        rw [List.foldl_cons]
        split
        · rename_i hc
          simp only [stillLeftOut, Bool.and_eq_true, decide_eq_true_eq] at hc
          rw [ih _ ((enterRising_told _ _ _).2.trans hx)]
          refine entryOf_enterRising (fun e => h ?_)
          rw [← hx, ← e]
          exact hc.1.1.1.1
        · exact ih _ hx
    exact key objectOrder s rfl

/-- A removed entry of a condition that is not effectively present does not come back. -/
theorem entryOf_remove {s : Shelf} {e : AlarmEntry} {t : Option Transition} (h : (e.obj, e.cond) ∉ s.alm.eff) :
    entryOf (removeEntry e t s) e.obj e.cond = none := by
  unfold removeEntry
  dsimp only
  have none_drop : ∀ x : Shelf, entryOf x e.obj e.cond = none →
      entryOf (clearTableFull x) e.obj e.cond = none := by
    intro x hx
    unfold clearTableFull
    split
    · split
      · rename_i f _
        refine (entryOf_eq (recordEntry_table f .cleared (dropEntry .shelf .tableFull x)) _ _).trans ?_
        simp only [entryOf, dropEntry, setTable, List.find?_eq_none] at hx ⊢
        exact fun y hy => hx y (List.mem_of_mem_filter hy)
      · exact hx
    · exact hx
  have kept : ∀ x : Shelf, x.alm.eff = s.alm.eff → (clearTableFull x).alm.eff = s.alm.eff := fun x hx =>
    (clearTableFull_told x).2.trans hx
  cases t with
  | none =>
    rw [entryOf_reoffer (fun m => h (by rwa [kept (dropEntry e.obj e.cond s) rfl] at m))]
    exact none_drop _ (entryOf_drop s e.obj e.cond)
  | some t =>
    rw [entryOf_reoffer (fun m => h (by rwa [kept (recordEntry e t (dropEntry e.obj e.cond s)) rfl] at m))]
    exact none_drop _ (entryOf_drop s e.obj e.cond)

/-- The history ends with the record just made. -/
theorem keepHistory_last (h : List HistRec) (r : HistRec) : (keepHistory (h ++ [r])).getLast? = some r := by
  unfold keepHistory
  rw [List.getLast?_drop]
  simp [Config.historyMax]

end Sys2Proof.Machine
end

