-- ==== Sys2Proof/Laws/Free.lean ====
section
/-! SUPPORT. The walk over every operation of the shelf for a property that rests on the alarm unit, the store and the
notices alone: it is kept by each, where the reports, the notices and the offers of edits keep it. -/

set_option linter.unusedTactic false
set_option linter.unreachableTactic false

namespace Sys2Proof.Machine

/-- What a property must meet for the walk. -/
structure FreeOf (P : Shelf → Prop) : Prop where
  base : ∀ s t : Shelf, t.alm = s.alm → t.sto = s.sto → t.out = s.out → P s → P t
  note : ∀ n s, P s → P (tell n s)
  report : ∀ o c b s, c ≠ .tableFull → P s → P (report o c b s)
  refresh : ∀ p s, P s → P (refreshPort p s)
  told : ∀ o c b s, P s → P (setTold o c b s)
  pool : ∀ n m s, P s → P (reportPool n m s)
  offer : ∀ h v s, P s → P (offerOwn h v s)

section
variable {P : Shelf → Prop}

theorem tableFull_ne {c : Cond} (h : decide (c = .tableFull) = false) : c ≠ .tableFull := of_decide_eq_false h

theorem free_report (K : FreeOf P) {o : Obj} {c : Cond} {b : Bool} {s : Shelf} (hc : c ≠ .tableFull) (h : P s) :
    P (report o c b s) := K.report o c b s hc h

theorem free_reportChange (K : FreeOf P) {o : Obj} {c : Cond} {b : Bool} {s : Shelf} (hc : c ≠ .tableFull) (h : P s) :
    P (reportChange o c b s) := by
  unfold reportChange
  split
  · exact h
  · exact K.report o c b s hc h

theorem free_refreshPort (K : FreeOf P) {p : PortNo} {s : Shelf} (h : P s) : P (refreshPort p s) := K.refresh p s h
theorem free_reportPool (K : FreeOf P) {n m : Nat} {s : Shelf} (h : P s) : P (reportPool n m s) := K.pool n m s h
theorem free_offerOwn (K : FreeOf P) {e : EditHolder} {v : ItemValue} {s : Shelf} (h : P s) : P (offerOwn e v s) :=
  K.offer e v s h
theorem free_tell (K : FreeOf P) {n : Notice} {s : Shelf} (h : P s) : P (tell n s) := K.note n s h

theorem free_foldl {α : Type} {f : Shelf → α → Shelf} (l : List α) (hf : ∀ s a, P s → P (f s a)) {s : Shelf} (h : P s) :
    P (l.foldl f s) := by
  induction l generalizing s with
  | nil => exact h
  | cons a l ih => exact ih (hf s a h)

theorem free_bp (K : FreeOf P) {s : Shelf} {x : Backplane} (h : P s) : P { s with bp := x } :=
  K.base s _ rfl rfl rfl h
theorem free_scan (K : FreeOf P) {s : Shelf} {x : Scanner} (h : P s) : P { s with scan := x } :=
  K.base s _ rfl rfl rfl h
theorem free_recs (K : FreeOf P) {s : Shelf} {x : Records} (h : P s) : P { s with recs := x } :=
  K.base s _ rfl rfl rfl h
theorem free_ords (K : FreeOf P) {s : Shelf} {x : Orders} (h : P s) : P { s with ords := x } :=
  K.base s _ rfl rfl rfl h
theorem free_eng (K : FreeOf P) {s : Shelf} {x : Engine} (h : P s) : P { s with eng := x } :=
  K.base s _ rfl rfl rfl h
theorem free_exe (K : FreeOf P) {s : Shelf} {x : Executor} (h : P s) : P { s with exe := x } :=
  K.base s _ rfl rfl rfl h
theorem free_tim (K : FreeOf P) {s : Shelf} {x : Timing} (h : P s) : P { s with tim := x } :=
  K.base s _ rfl rfl rfl h
theorem free_rdy (K : FreeOf P) {s : Shelf} {x : Readiness} (h : P s) : P { s with rdy := x } :=
  K.base s _ rfl rfl rfl h
theorem free_pins (K : FreeOf P) {s : Shelf} {x : Pins} (h : P s) : P { s with pins := x } :=
  K.base s _ rfl rfl rfl h

theorem free_setRef (K : FreeOf P) {r : RefNo} {f : Ref → Ref} {s : Shelf} (h : P s) :
    P (setRef r f s) := K.base s _ rfl rfl rfl h
theorem free_setForce (K : FreeOf P) {f : Option RefNo} {s : Shelf} (h : P s) :
    P (setForce f s) := K.base s _ rfl rfl rfl h
theorem free_setRun (K : FreeOf P) {g : GroupNo} {f : GroupRun → GroupRun} {s : Shelf} (h : P s) :
    P (setRun g f s) := K.base s _ rfl rfl rfl h
theorem free_setExec (K : FreeOf P) {g : GroupNo} {f : GroupExec → GroupExec} {s : Shelf} (h : P s) :
    P (setExec g f s) := K.base s _ rfl rfl rfl h
theorem free_setTasks (K : FreeOf P) {f : List Task → List Task} {s : Shelf} (h : P s) :
    P (setTasks f s) := K.base s _ rfl rfl rfl h
theorem free_setActive (K : FreeOf P) {a : Option ActiveTask} {s : Shelf} (h : P s) :
    P (setActive a s) := K.base s _ rfl rfl rfl h
theorem free_setOrder (K : FreeOf P) {n : Nat} {f : Order → Order} {s : Shelf} (h : P s) :
    P (setOrder n f s) := K.base s _ rfl rfl rfl h
theorem free_setList (K : FreeOf P) {g : GroupNo} {f : List ReqEntry → List ReqEntry} {s : Shelf} (h : P s) :
    P (setList g f s) := K.base s _ rfl rfl rfl h
theorem free_setHoldOff (K : FreeOf P) {p : PortNo} {t : Option Nat} {s : Shelf} (h : P s) :
    P (setHoldOff p t s) := K.base s _ rfl rfl rfl h
theorem free_setTimer (K : FreeOf P) {p : PortNo} {t : CondemnTimer} {s : Shelf} (h : P s) :
    P (setTimer p t s) := K.base s _ rfl rfl rfl h
theorem free_setCondemn (K : FreeOf P) {p : PortNo} {c : Option Condemn} {s : Shelf} (h : P s) :
    P (setCondemn p c s) := K.base s _ rfl rfl rfl h
theorem free_setPhase (K : FreeOf P) {p : Phase} {s : Shelf} (h : P s) :
    P (setPhase p s) := K.base s _ rfl rfl rfl h
theorem free_setScan (K : FreeOf P) {f : Scanner → Scanner} {s : Shelf} (h : P s) :
    P (setScan f s) := K.base s _ rfl rfl rfl h
theorem free_setObs (K : FreeOf P) {p : PortNo} {o : Obs} {s : Shelf} (h : P s) :
    P (setObs p o s) := K.base s _ rfl rfl rfl h
theorem free_setBp (K : FreeOf P) {f : Backplane → Backplane} {s : Shelf} (h : P s) :
    P (setBp f s) := K.base s _ rfl rfl rfl h
theorem free_setSlot (K : FreeOf P) {n : SlotNo} {f : SlotRec → SlotRec} {s : Shelf} (h : P s) :
    P (setSlot n f s) := K.base s _ rfl rfl rfl h
theorem free_setDef (K : FreeOf P) {g : GroupNo} {d : Option GroupDef} {s : Shelf} (h : P s) :
    P (setDef g d s) := K.base s _ rfl rfl rfl h
theorem free_setRecord (K : FreeOf P) {p : PortNo} {r : PortRec} {s : Shelf} (h : P s) :
    P (setRecord p r s) := K.base s _ rfl rfl rfl h

/-! Timing.lean -/

theorem free_judgeRef (K : FreeOf P) {moved : Bool} {r : RefNo} {s : Shelf} (h : P s) :
    P (judgeRef moved r s) := by
  unfold judgeRef
  try dsimp only
  repeat' first
      | with_reducible assumption
      | with_reducible apply free_setRef K
      | split

theorem free_rederiveRef (K : FreeOf P) {r : RefNo} {s : Shelf} (h : P s) :
    P (rederiveRef r s) := by
  unfold rederiveRef
  try dsimp only
  repeat' first
      | with_reducible assumption
      | with_reducible apply free_judgeRef K
      | with_reducible apply free_setRef K
      | split

theorem free_rederiveAll (K : FreeOf P) {s : Shelf} (h : P s) :
    P (rederiveAll s) := by
  unfold rederiveAll
  try dsimp only
  repeat' first
      | with_reducible assumption
      | with_reducible apply free_rederiveRef K
      | with_reducible apply free_foldl (P := P)
      | (intro _ _ _; try dsimp only)
      | (intro _ _; try dsimp only)
      | split

theorem free_selectReference (K : FreeOf P) {s : Shelf} (h : P s) : P (selectReference s) := by
  unfold selectReference
  split
  · split
    · exact h
    · exact free_tim K h
  · split
    · exact free_tim K h
    · exact h

theorem free_settleForce (K : FreeOf P) {s : Shelf} (h : P s) :
    P (settleForce s) := by
  unfold settleForce
  try dsimp only
  repeat' first
      | with_reducible assumption
      | split
      | with_reducible apply free_tim K

theorem free_keepLastGrade (K : FreeOf P) {s : Shelf} (h : P s) :
    P (keepLastGrade s) := by
  unfold keepLastGrade
  try dsimp only
  repeat' first
      | with_reducible assumption
      | split
      | with_reducible apply free_tim K

theorem free_joinGradeList (K : FreeOf P) {p : PortNo} {s : Shelf} (h : P s) :
    P (joinGradeList p s) := by
  unfold joinGradeList
  try dsimp only
  repeat' first
      | with_reducible assumption
      | split
      | with_reducible apply free_tim K

theorem free_replan (K : FreeOf P) {s : Shelf} (h : P s) :
    P (replan s) := by
  unfold replan
  try dsimp only
  repeat' first
      | with_reducible assumption
      | with_reducible apply free_joinGradeList K
      | with_reducible apply free_foldl (P := P)
      | (intro _ _ _; try dsimp only)
      | (intro _ _; try dsimp only)
      | split
      | with_reducible apply free_tim K

theorem free_gradesOwed (K : FreeOf P) {n : SlotNo} {s : Shelf} (h : P s) :
    P (gradesOwed n s) := by
  unfold gradesOwed
  try dsimp only
  repeat' first
      | with_reducible assumption
      | with_reducible apply free_foldl (P := P)
      | (intro _ _ _; try dsimp only)
      | (intro _ _; try dsimp only)
      | split
      | with_reducible apply free_tim K

theorem free_gradesGone (K : FreeOf P) {n : SlotNo} {s : Shelf} (h : P s) :
    P (gradesGone n s) := by
  unfold gradesGone
  try dsimp only
  repeat' first
      | with_reducible assumption
      | with_reducible apply free_foldl (P := P)
      | (intro _ _ _; try dsimp only)
      | (intro _ _; try dsimp only)
      | split
      | with_reducible apply free_tim K

theorem free_gradeWritten (K : FreeOf P) {p : PortNo} {g : Grade} {s : Shelf} (h : P s) :
    P (gradeWritten p g s) := by
  unfold gradeWritten
  try dsimp only
  repeat' first
      | with_reducible assumption
      | with_reducible apply free_joinGradeList K
      | split
      | with_reducible apply free_tim K

theorem free_gradeFaulted (K : FreeOf P) {p : PortNo} {s : Shelf} (h : P s) :
    P (gradeFaulted p s) := by
  unfold gradeFaulted
  try dsimp only
  repeat' first
      | with_reducible assumption
      | split
      | with_reducible apply free_tim K

theorem free_reportTiming (K : FreeOf P) {s : Shelf} (h : P s) :
    P (reportTiming s) := by
  unfold reportTiming
  try dsimp only
  repeat' first
      | with_reducible assumption
      | with_reducible apply free_reportChange K
      | with_reducible apply free_foldl (P := P)
      | (intro _ _ _; try dsimp only)
      | (intro _ _; try dsimp only)
      | split
      | exact tableFull_ne rfl

theorem free_timingEvent (K : FreeOf P) {f : Shelf → Shelf} (hf : ∀ s, P s → P (f s)) {s : Shelf} (h : P s) :
    P (timingEvent f s) := by
  have h1 : P (replan (reportTiming (keepLastGrade (selectReference (settleForce (rederiveAll (f s))))))) :=
    free_replan K (free_reportTiming K (free_keepLastGrade K (free_selectReference K (free_settleForce K
      (free_rederiveAll K (hf s h))))))
  unfold timingEvent
  dsimp only
  split
  · exact h1
  · exact free_tell K h1

theorem free_timingRun (K : FreeOf P) {s : Shelf} (h : P s) : P (timingRun s) :=
  free_timingEvent K (fun _ h => h) h

theorem free_clearForceOn (K : FreeOf P) {r : RefNo} {s : Shelf} (h : P s) :
    P (clearForceOn r s) := by
  unfold clearForceOn
  try dsimp only
  repeat' first
      | with_reducible assumption
      | with_reducible apply free_setForce K
      | split

theorem free_qualified (K : FreeOf P) {r : RefNo} {s : Shelf} (h : P s) :
    P (qualified r s) := by
  unfold qualified
  try dsimp only
  repeat' first
      | with_reducible assumption
      | with_reducible apply free_setRef K
      | with_reducible apply free_timingEvent K
      | (intro _ _ _; try dsimp only)
      | (intro _ _; try dsimp only)
      | split

theorem free_acquired (K : FreeOf P) {s : Shelf} (h : P s) :
    P (acquired s) := by
  unfold acquired
  try dsimp only
  repeat' first
      | with_reducible assumption
      | with_reducible apply free_timingEvent K
      | (intro _ _ _; try dsimp only)
      | (intro _ _; try dsimp only)
      | split
      | with_reducible apply free_tim K

theorem free_lockedLong (K : FreeOf P) {s : Shelf} (h : P s) :
    P (lockedLong s) := by
  unfold lockedLong
  try dsimp only
  repeat' first
      | with_reducible assumption
      | split
      | with_reducible apply free_tim K

theorem free_holdoverOver (K : FreeOf P) {s : Shelf} (h : P s) :
    P (holdoverOver s) := by
  unfold holdoverOver
  try dsimp only
  repeat' first
      | with_reducible assumption
      | with_reducible apply free_timingEvent K
      | (intro _ _ _; try dsimp only)
      | (intro _ _; try dsimp only)
      | split
      | with_reducible apply free_tim K

theorem free_changeTimingOptions (K : FreeOf P) {o : TimingOptions} {s : Shelf} (h : P s) :
    P (changeTimingOptions o s) := by
  unfold changeTimingOptions
  try dsimp only
  repeat' first
      | with_reducible assumption
      | with_reducible apply free_holdoverOver K
      | with_reducible apply free_timingEvent K
      | (intro _ _ _; try dsimp only)
      | (intro _ _; try dsimp only)
      | split
      | with_reducible apply free_tim K

theorem free_rebind (K : FreeOf P) {src dst : PortNo} {s : Shelf} (h : P s) :
    P (rebind src dst s) := by
  unfold rebind
  try dsimp only
  repeat' first
      | with_reducible assumption
      | with_reducible apply free_offerOwn K
      | with_reducible apply free_setRef K
      | with_reducible apply free_timingEvent K
      | with_reducible apply free_foldl (P := P)
      | (intro _ _ _; try dsimp only)
      | (intro _ _; try dsimp only)
      | split

/-! Tasks.lean -/

theorem free_joinExchange (K : FreeOf P) {g : GroupNo} {kind : XKind} {s : Shelf} (h : P s) :
    P (joinExchange g kind s) := by
  unfold joinExchange
  try dsimp only
  repeat' first
      | with_reducible assumption
      | with_reducible apply free_setExec K
      | with_reducible apply free_setTasks K
      | split

theorem free_joinAdoption (K : FreeOf P) {g : GroupNo} {s : Shelf} (h : P s) :
    P (joinAdoption g s) := by
  unfold joinAdoption
  try dsimp only
  repeat' first
      | with_reducible assumption
      | with_reducible apply free_setExec K
      | with_reducible apply free_setTasks K
      | split

theorem free_scheduleGroup (K : FreeOf P) {g : GroupNo} {s : Shelf} (h : P s) :
    P (scheduleGroup g s) := by
  unfold scheduleGroup
  try dsimp only
  repeat' first
      | with_reducible assumption
      | with_reducible apply free_joinAdoption K
      | with_reducible apply free_joinExchange K
      | split

theorem free_askAdoption (K : FreeOf P) {g : GroupNo} {s : Shelf} (h : P s) :
    P (askAdoption g s) := by
  unfold askAdoption
  try dsimp only
  repeat' first
      | with_reducible assumption
      | with_reducible apply free_joinAdoption K
      | with_reducible apply free_setExec K
      | split

theorem free_askAdoptionFor (K : FreeOf P) {g : GroupNo} {s : Shelf} (h : P s) :
    P (askAdoptionFor g s) := by
  unfold askAdoptionFor
  try dsimp only
  repeat' first
      | with_reducible assumption
      | with_reducible apply free_askAdoption K
      | with_reducible apply free_setExec K
      | split

theorem free_adoptAgain (K : FreeOf P) {g : GroupNo} {s : Shelf} (h : P s) :
    P (adoptAgain g s) := by
  unfold adoptAgain
  try dsimp only
  repeat' first
      | with_reducible assumption
      | with_reducible apply free_askAdoption K
      | split

theorem free_syncClear (K : FreeOf P) {s : Shelf} (h : P s) :
    P (syncClear s) := by
  unfold syncClear
  try dsimp only
  repeat' first
      | with_reducible assumption
      | with_reducible apply free_setTasks K
      | split

theorem free_joinClear (K : FreeOf P) {p : PortNo} {s : Shelf} (h : P s) :
    P (joinClear p s) := by
  unfold joinClear
  try dsimp only
  repeat' first
      | with_reducible assumption
      | split
      | with_reducible apply free_exe K

theorem free_leaveClear (K : FreeOf P) {p : PortNo} {s : Shelf} (h : P s) :
    P (leaveClear p s) := by
  unfold leaveClear
  try dsimp only
  repeat' first
      | with_reducible assumption
      | split
      | with_reducible apply free_exe K

theorem free_dropTasks (K : FreeOf P) {g : GroupNo} {s : Shelf} (h : P s) :
    P (dropTasks g s) := by
  unfold dropTasks
  try dsimp only
  repeat' first
      | with_reducible assumption
      | with_reducible apply free_setTasks K
      | split

theorem free_endConfirm (K : FreeOf P) {g : GroupNo} {s : Shelf} (h : P s) :
    P (endConfirm g s) := by
  unfold endConfirm
  try dsimp only
  repeat' first
      | with_reducible assumption
      | with_reducible apply free_reportChange K
      | with_reducible apply free_setExec K
      | split
      | exact tableFull_ne rfl

/-! Moves.lean -/

theorem free_orderNotice (K : FreeOf P) {e : OrderEvent} {o : Order} {s : Shelf} (h : P s) :
    P (orderNotice e o s) := by
  unfold orderNotice
  try dsimp only
  repeat' first
      | with_reducible assumption
      | with_reducible apply free_tell K
      | split

theorem free_noticeOf (K : FreeOf P) {e : OrderEvent} {num : Nat} {s : Shelf} (h : P s) :
    P (noticeOf e num s) := by
  unfold noticeOf
  try dsimp only
  repeat' first
      | with_reducible assumption
      | with_reducible apply free_orderNotice K
      | split

theorem free_reportPatch (K : FreeOf P) {num : Nat} {s : Shelf} (h : P s) :
    P (reportPatch num s) := by
  unfold reportPatch
  try dsimp only
  repeat' first
      | with_reducible assumption
      | with_reducible apply free_reportChange K
      | split
      | exact tableFull_ne rfl

theorem free_reportMisPatch (K : FreeOf P) {num : Nat} {s : Shelf} (h : P s) :
    P (reportMisPatch num s) := by
  unfold reportMisPatch
  try dsimp only
  repeat' first
      | with_reducible assumption
      | with_reducible apply free_reportChange K
      | split
      | exact tableFull_ne rfl

theorem free_setStage (K : FreeOf P) {num : Nat} {st : Stage} {s : Shelf} (h : P s) :
    P (setStage num st s) := by
  unfold setStage
  try dsimp only
  repeat' first
      | with_reducible assumption
      | with_reducible apply free_setOrder K
      | split

theorem free_refreshOrder (K : FreeOf P) {num : Nat} {s : Shelf} (h : P s) :
    P (refreshOrder num s) := by
  unfold refreshOrder
  try dsimp only
  repeat' first
      | with_reducible assumption
      | with_reducible apply free_refreshPort K
      | split

theorem free_enterStage (K : FreeOf P) {num : Nat} {st : Stage} {s : Shelf} (h : P s) :
    P (enterStage num st s) := by
  unfold enterStage
  try dsimp only
  repeat' first
      | with_reducible assumption
      | with_reducible apply free_noticeOf K
      | with_reducible apply free_refreshOrder K
      | with_reducible apply free_reportMisPatch K
      | with_reducible apply free_reportPatch K
      | with_reducible apply free_setStage K
      | split

theorem free_enterVerifying (K : FreeOf P) {num : Nat} {s : Shelf} (h : P s) :
    P (enterVerifying num s) := by
  unfold enterVerifying
  try dsimp only
  repeat' first
      | with_reducible assumption
      | with_reducible apply free_enterStage K
      | split

theorem free_judgeDest (K : FreeOf P) {num : Nat} {s : Shelf} (h : P s) :
    P (judgeDest num s) := by
  unfold judgeDest
  try dsimp only
  repeat' first
      | with_reducible assumption
      | with_reducible apply free_enterVerifying K
      | with_reducible apply free_reportMisPatch K
      | split

theorem free_enterAwaitLight (K : FreeOf P) {num : Nat} {s : Shelf} (h : P s) :
    P (enterAwaitLight num s) := by
  unfold enterAwaitLight
  try dsimp only
  repeat' first
      | with_reducible assumption
      | with_reducible apply free_enterStage K
      | with_reducible apply free_judgeDest K
      | with_reducible apply free_setOrder K
      | split

theorem free_judgeSource (K : FreeOf P) {num : Nat} {s : Shelf} (h : P s) :
    P (judgeSource num s) := by
  unfold judgeSource
  try dsimp only
  repeat' first
      | with_reducible assumption
      | with_reducible apply free_enterAwaitLight K
      | split

theorem free_enterAwaitDark (K : FreeOf P) {num : Nat} {s : Shelf} (h : P s) :
    P (enterAwaitDark num s) := by
  unfold enterAwaitDark
  try dsimp only
  repeat' first
      | with_reducible assumption
      | with_reducible apply free_enterStage K
      | with_reducible apply free_judgeSource K
      | with_reducible apply free_timingRun K
      | split

theorem free_holdReport (K : FreeOf P) {num : Nat} {granted : Bool} {s : Shelf} (h : P s) :
    P (holdReport num granted s) := by
  unfold holdReport
  try dsimp only
  repeat' first
      | with_reducible assumption
      | with_reducible apply free_enterAwaitDark K
      | with_reducible apply free_noticeOf K
      | with_reducible apply free_reportPatch K
      | with_reducible apply free_setOrder K
      | split

/-! Engine.lean -/

theorem free_askPlan (K : FreeOf P) {g : GroupNo} {d : GroupDef} {active : Option (ReqClass × Nat)} {s : Shelf} (h : P s) :
    P (askPlan g d active s) := by
  unfold askPlan
  try dsimp only
  repeat' first
      | with_reducible assumption
      | with_reducible apply free_endConfirm K
      | with_reducible apply free_scheduleGroup K
      | with_reducible apply free_setExec K
      | with_reducible apply free_setRun K
      | split

theorem free_actOn (K : FreeOf P) {g : GroupNo} {d : GroupDef} {s : Shelf} (h : P s) :
    P (actOn g d s) := by
  unfold actOn
  try dsimp only
  repeat' first
      | with_reducible assumption
      | with_reducible apply free_askPlan K
      | split

theorem free_reportGroup (K : FreeOf P) {g : GroupNo} {s : Shelf} (h : P s) :
    P (reportGroup g s) := by
  unfold reportGroup
  try dsimp only
  repeat' first
      | with_reducible assumption
      | with_reducible apply free_reportChange K
      | split
      | exact tableFull_ne rfl

theorem free_evaluate (K : FreeOf P) {g : GroupNo} {s : Shelf} (h : P s) :
    P (evaluate g s) := by
  unfold evaluate
  try dsimp only
  repeat' first
      | with_reducible assumption
      | with_reducible apply free_actOn K
      | with_reducible apply free_reportGroup K
      | with_reducible apply free_setRun K
      | split

theorem free_groupNotice (K : FreeOf P) {e : GroupEvent} {g : GroupNo} {fault : Option (Option BusAnswer × Nat × Bool)} {s : Shelf} (h : P s) :
    P (groupNotice e g fault s) := by
  unfold groupNotice
  try dsimp only
  repeat' first
      | with_reducible assumption
      | with_reducible apply free_tell K
      | split

theorem free_setGranted (K : FreeOf P) {g : GroupNo} {b : Bool} {s : Shelf} (h : P s) :
    P (setGranted g b s) := by
  unfold setGranted
  try dsimp only
  repeat' first
      | with_reducible assumption
      | with_reducible apply free_setList K
      | split

theorem free_judgeHold (K : FreeOf P) {g : GroupNo} {s : Shelf} (h : P s) :
    P (judgeHold g s) := by
  unfold judgeHold
  try dsimp only
  repeat' first
      | with_reducible assumption
      | with_reducible apply free_holdReport K
      | with_reducible apply free_setGranted K
      | split

theorem free_placeHold (K : FreeOf P) {g : GroupNo} {num chan : Nat} {s : Shelf} (h : P s) :
    P (placeHold g num chan s) := by
  unfold placeHold
  try dsimp only
  repeat' first
      | with_reducible assumption
      | with_reducible apply free_evaluate K
      | with_reducible apply free_judgeHold K
      | with_reducible apply free_setList K
      | split

theorem free_removeHold (K : FreeOf P) {g : GroupNo} {num : Nat} {s : Shelf} (h : P s) :
    P (removeHold g num s) := by
  unfold removeHold
  try dsimp only
  repeat' first
      | with_reducible assumption
      | with_reducible apply free_evaluate K
      | with_reducible apply free_setList K
      | split

theorem free_startHoldOff (K : FreeOf P) {g : GroupNo} {d : GroupDef} {p : PortNo} {e : ReqClass × Nat} {s : Shelf} (h : P s) :
    P (startHoldOff g d p e s) := by
  unfold startHoldOff
  try dsimp only
  repeat' first
      | with_reducible assumption
      | with_reducible apply free_setHoldOff K
      | with_reducible apply free_setList K
      | split

theorem free_stopHoldOff (K : FreeOf P) {g : GroupNo} {p : PortNo} {e : ReqClass × Nat} {s : Shelf} (h : P s) :
    P (stopHoldOff g p e s) := by
  unfold stopHoldOff
  try dsimp only
  repeat' first
      | with_reducible assumption
      | with_reducible apply free_setHoldOff K
      | with_reducible apply free_setList K
      | split

theorem free_evaluateIfChanged (K : FreeOf P) {g : GroupNo} {before after : Shelf} (_hbefore : P before) (hafter : P after) :
    P (evaluateIfChanged g before after) := by
  unfold evaluateIfChanged
  try dsimp only
  repeat' first
      | with_reducible assumption
      | with_reducible apply free_evaluate K
      | split

theorem free_engineCondition (K : FreeOf P) {p : PortNo} {old new : PortCond} {s : Shelf} (h : P s) :
    P (engineCondition p old new s) := by
  unfold engineCondition
  try dsimp only
  repeat' first
      | with_reducible assumption
      | with_reducible apply free_evaluateIfChanged K
      | with_reducible apply free_startHoldOff K
      | with_reducible apply free_stopHoldOff K
      | split

theorem free_holdOffOver (K : FreeOf P) {p : PortNo} {s : Shelf} (h : P s) :
    P (holdOffOver p s) := by
  unfold holdOffOver
  try dsimp only
  repeat' first
      | with_reducible assumption
      | with_reducible apply free_evaluateIfChanged K
      | with_reducible apply free_setHoldOff K
      | with_reducible apply free_setList K
      | split

theorem free_refreshFar (K : FreeOf P) {g : GroupNo} {d : GroupDef} {s : Shelf} (h : P s) :
    P (refreshFar g d s) := by
  unfold refreshFar
  try dsimp only
  repeat' first
      | with_reducible assumption
      | with_reducible apply free_evaluate K
      | with_reducible apply free_setRun K
      | split

theorem free_engineWord (K : FreeOf P) {p : PortNo} {s : Shelf} (h : P s) :
    P (engineWord p s) := by
  unfold engineWord
  try dsimp only
  repeat' first
      | with_reducible assumption
      | with_reducible apply free_refreshFar K
      | split

theorem free_wtrOver (K : FreeOf P) {g : GroupNo} {s : Shelf} (h : P s) :
    P (wtrOver g s) := by
  unfold wtrOver
  try dsimp only
  repeat' first
      | with_reducible assumption
      | with_reducible apply free_evaluate K
      | with_reducible apply free_setRun K
      | split

theorem free_setSelected (K : FreeOf P) {g : GroupNo} {c : Nat} {s : Shelf} (h : P s) :
    P (setSelected g c s) := by
  unfold setSelected
  try dsimp only
  repeat' first
      | with_reducible assumption
      | with_reducible apply free_setRun K
      | split

theorem free_timingFollows (K : FreeOf P) {g : GroupNo} {before after : Shelf} (_hbefore : P before) (hafter : P after) :
    P (timingFollows g before after) := by
  unfold timingFollows
  try dsimp only
  repeat' first
      | with_reducible assumption
      | with_reducible apply free_timingRun K
      | split

theorem free_selectionFollows (K : FreeOf P) {g : GroupNo} {before after : Shelf} (_hbefore : P before) (hafter : P after) :
    P (selectionFollows g before after) := by
  unfold selectionFollows
  try dsimp only
  repeat' first
      | with_reducible assumption
      | with_reducible apply free_timingRun K
      | with_reducible apply free_judgeHold K
      | split

theorem free_planCompleted (K : FreeOf P) {g : GroupNo} {c : Nat} {s : Shelf} (h : P s) :
    P (planCompleted g c s) := by
  unfold planCompleted
  try dsimp only
  repeat' first
      | with_reducible assumption
      | with_reducible apply free_evaluate K
      | with_reducible apply free_groupNotice K
      | with_reducible apply free_judgeHold K
      | with_reducible apply free_scheduleGroup K
      | with_reducible apply free_setExec K
      | with_reducible apply free_setRun K
      | with_reducible apply free_setSelected K
      | with_reducible apply free_timingFollows K
      | split

theorem free_adopted (K : FreeOf P) {g : GroupNo} {c : Nat} {s : Shelf} (h : P s) :
    P (adopted g c s) := by
  unfold adopted
  try dsimp only
  repeat' first
      | with_reducible assumption
      | with_reducible apply free_selectionFollows K
      | with_reducible apply free_evaluate K
      | with_reducible apply free_groupNotice K
      | with_reducible apply free_scheduleGroup K
      | with_reducible apply free_setRun K
      | with_reducible apply free_setSelected K
      | split

theorem free_engineStuck (K : FreeOf P) {g : GroupNo} {fault : Option BusAnswer × Nat × Bool} {s : Shelf} (h : P s) :
    P (engineStuck g fault s) := by
  unfold engineStuck
  try dsimp only
  repeat' first
      | with_reducible assumption
      | with_reducible apply free_evaluate K
      | with_reducible apply free_groupNotice K
      | with_reducible apply free_setRun K
      | split

theorem free_barGroup (K : FreeOf P) {g : GroupNo} {s : Shelf} (h : P s) :
    P (barGroup g s) := by
  unfold barGroup
  try dsimp only
  repeat' first
      | with_reducible assumption
      | with_reducible apply free_evaluateIfChanged K
      | with_reducible apply free_setList K
      | split

theorem free_pinGroup (K : FreeOf P) {g : GroupNo} {chan : Nat} {s : Shelf} (h : P s) :
    P (pinGroup g chan s) := by
  unfold pinGroup
  try dsimp only
  repeat' first
      | with_reducible assumption
      | with_reducible apply free_evaluateIfChanged K
      | with_reducible apply free_setList K
      | split

theorem free_operatorSwitchGroup (K : FreeOf P) {g : GroupNo} {chan : Nat} {s : Shelf} (h : P s) :
    P (operatorSwitchGroup g chan s) := by
  unfold operatorSwitchGroup
  try dsimp only
  repeat' first
      | with_reducible assumption
      | with_reducible apply free_evaluateIfChanged K
      | with_reducible apply free_setList K
      | split

theorem free_clearGroupRequests (K : FreeOf P) {g : GroupNo} {s : Shelf} (h : P s) :
    P (clearGroupRequests g s) := by
  unfold clearGroupRequests
  try dsimp only
  repeat' first
      | with_reducible assumption
      | with_reducible apply free_evaluateIfChanged K
      | with_reducible apply free_setList K
      | split

theorem free_joinMember (K : FreeOf P) {g : GroupNo} {d : GroupDef} {p : PortNo} {s : Shelf} (h : P s) :
    P (joinMember g d p s) := by
  unfold joinMember
  try dsimp only
  repeat' first
      | with_reducible assumption
      | with_reducible apply free_startHoldOff K
      | split

theorem free_stopMembers (K : FreeOf P) {d : GroupDef} {s : Shelf} (h : P s) :
    P (stopMembers d s) := by
  unfold stopMembers
  try dsimp only
  repeat' first
      | with_reducible assumption
      | with_reducible apply free_setHoldOff K
      | with_reducible apply free_foldl (P := P)
      | (intro _ _ _; try dsimp only)
      | (intro _ _; try dsimp only)
      | split

theorem free_defineRun (K : FreeOf P) {g : GroupNo} {d : GroupDef} {s : Shelf} (h : P s) :
    P (defineRun g d s) := by
  unfold defineRun
  try dsimp only
  repeat' first
      | with_reducible assumption
      | with_reducible apply free_joinMember K
      | with_reducible apply free_reportGroup K
      | with_reducible apply free_setDef K
      | with_reducible apply free_setRun K
      | with_reducible apply free_stopMembers K
      | with_reducible apply free_foldl (P := P)
      | (intro _ _ _; try dsimp only)
      | (intro _ _; try dsimp only)
      | split

theorem free_undefineRun (K : FreeOf P) {g : GroupNo} {d : GroupDef} {s : Shelf} (h : P s) :
    P (undefineRun g d s) := by
  unfold undefineRun
  try dsimp only
  repeat' first
      | with_reducible assumption
      | with_reducible apply free_reportGroup K
      | with_reducible apply free_setDef K
      | with_reducible apply free_setRun K
      | with_reducible apply free_stopMembers K
      | split

theorem free_substituteMember (K : FreeOf P) {g : GroupNo} {src dst : PortNo} {s : Shelf} (h : P s) :
    P (substituteMember g src dst s) := by
  unfold substituteMember
  try dsimp only
  repeat' first
      | with_reducible assumption
      | with_reducible apply free_evaluate K
      | with_reducible apply free_joinMember K
      | with_reducible apply free_offerOwn K
      | with_reducible apply free_setDef K
      | with_reducible apply free_setHoldOff K
      | with_reducible apply free_setRun K
      | with_reducible apply free_stopHoldOff K
      | split

/-! Orders.lean -/

theorem free_poolUpdate (K : FreeOf P) {s : Shelf} (h : P s) :
    P (poolUpdate s) := by
  unfold poolUpdate
  try dsimp only
  repeat' first
      | with_reducible assumption
      | with_reducible apply free_reportChange K
      | with_reducible apply free_reportPool K
      | split
      | exact tableFull_ne rfl

theorem free_reportTags (K : FreeOf P) {p : PortNo} {s : Shelf} (h : P s) :
    P (reportTags p s) := by
  unfold reportTags
  try dsimp only
  repeat' first
      | with_reducible assumption
      | with_reducible apply free_reportChange K
      | split
      | exact tableFull_ne rfl

theorem free_reportNoSpare (K : FreeOf P) {p : PortNo} {s : Shelf} (h : P s) :
    P (reportNoSpare p s) := by
  unfold reportNoSpare
  try dsimp only
  repeat' first
      | with_reducible assumption
      | with_reducible apply free_reportChange K
      | split
      | exact tableFull_ne rfl

theorem free_reportMissing (K : FreeOf P) {n : SlotNo} {s : Shelf} (h : P s) :
    P (reportMissing n s) := by
  unfold reportMissing
  try dsimp only
  repeat' first
      | with_reducible assumption
      | with_reducible apply free_reportChange K
      | split
      | exact tableFull_ne rfl

theorem free_joinTags (K : FreeOf P) {p : PortNo} {s : Shelf} (h : P s) :
    P (joinTags p s) := by
  unfold joinTags
  try dsimp only
  repeat' first
      | with_reducible assumption
      | split
      | with_reducible apply free_recs K

theorem free_tagOwedChanged (K : FreeOf P) {p : PortNo} {s : Shelf} (h : P s) :
    P (tagOwedChanged p s) := by
  unfold tagOwedChanged
  try dsimp only
  repeat' first
      | with_reducible assumption
      | with_reducible apply free_joinTags K
      | split
      | with_reducible apply free_recs K

theorem free_syncTimer (K : FreeOf P) {p : PortNo} {s : Shelf} (h : P s) :
    P (syncTimer p s) := by
  unfold syncTimer
  try dsimp only
  repeat' first
      | with_reducible assumption
      | with_reducible apply free_setTimer K
      | split

theorem free_leaveCandidates (K : FreeOf P) {p : PortNo} {s : Shelf} (h : P s) :
    P (leaveCandidates p s) := by
  unfold leaveCandidates
  try dsimp only
  repeat' first
      | with_reducible assumption
      | split
      | with_reducible apply free_recs K

theorem free_enterCandidates (K : FreeOf P) {p : PortNo} {s : Shelf} (h : P s) :
    P (enterCandidates p s) := by
  unfold enterCandidates
  try dsimp only
  repeat' first
      | with_reducible assumption
      | split
      | with_reducible apply free_recs K

theorem free_syncCandidate (K : FreeOf P) {p : PortNo} {s : Shelf} (h : P s) :
    P (syncCandidate p s) := by
  unfold syncCandidate
  try dsimp only
  repeat' first
      | with_reducible assumption
      | with_reducible apply free_leaveCandidates K
      | split

theorem free_syncPort (K : FreeOf P) {p : PortNo} {s : Shelf} (h : P s) :
    P (syncPort p s) := by
  unfold syncPort
  try dsimp only
  repeat' first
      | with_reducible assumption
      | with_reducible apply free_syncCandidate K
      | with_reducible apply free_syncTimer K
      | split

theorem free_setExpired (K : FreeOf P) {p : PortNo} {b : Bool} {s : Shelf} (h : P s) :
    P (setExpired p b s) := by
  unfold setExpired
  try dsimp only
  repeat' first
      | with_reducible assumption
      | with_reducible apply free_reportChange K
      | split
      | with_reducible apply free_ords K
      | exact tableFull_ne rfl

theorem free_startOrder (K : FreeOf P) {s : Shelf} {num : Nat} (h : P s) :
    P (startOrder s num) := by
  unfold startOrder
  try dsimp only
  repeat' first
      | with_reducible assumption
      | with_reducible apply free_enterAwaitDark K
      | with_reducible apply free_enterStage K
      | with_reducible apply free_placeHold K
      | split

theorem free_startCheck (K : FreeOf P) {s : Shelf} (h : P s) :
    P (startCheck s) := by
  unfold startCheck
  try dsimp only
  repeat' first
      | with_reducible assumption
      | with_reducible apply free_startOrder K
      | with_reducible apply free_foldl (P := P)
      | (intro _ _ _; try dsimp only)
      | (intro _ _; try dsimp only)
      | split

theorem free_openOrder (K : FreeOf P) {origin : Origin} {src dst : PortNo} {unprotected : Bool} {dark light : Nat} {s : Shelf} (h : P s) :
    P (openOrder origin src dst unprotected dark light s).1 := by
  unfold openOrder
  try dsimp only
  repeat' first
      | with_reducible assumption
      | with_reducible apply free_orderNotice K
      | with_reducible apply free_poolUpdate K
      | with_reducible apply free_reportNoSpare K
      | with_reducible apply free_setExpired K
      | with_reducible apply free_startCheck K
      | with_reducible apply free_syncPort K
      | split
      | with_reducible apply free_ords K

theorem free_tryCondemn (K : FreeOf P) {p : PortNo} {s : Shelf} (h : P s) :
    P (tryCondemn p s).1 := by
  unfold tryCondemn
  try dsimp only
  repeat' first
      | with_reducible assumption
      | with_reducible apply free_openOrder K
      | split

theorem free_retryCondemned (K : FreeOf P) {s : Shelf} (h : P s) :
    P (retryCondemned s) := by
  unfold retryCondemned
  try dsimp only
  repeat' first
      | with_reducible assumption
      | with_reducible apply free_tryCondemn K
      | with_reducible apply free_foldl (P := P)
      | (intro _ _ _; try dsimp only)
      | (intro _ _; try dsimp only)
      | split

theorem free_condemnPort (K : FreeOf P) {p : PortNo} {c : Condemn} {s : Shelf} (h : P s) :
    P (condemnPort p c s).1 := by
  unfold condemnPort
  try dsimp only
  repeat' first
      | with_reducible assumption
      | with_reducible apply free_reportNoSpare K
      | with_reducible apply free_setCondemn K
      | with_reducible apply free_syncTimer K
      | with_reducible apply free_tryCondemn K
      | split

theorem free_manualCondemn (K : FreeOf P) {p : PortNo} {c : Condemn} {s : Shelf} (h : P s) :
    P (manualCondemn p c s).1 := by
  unfold manualCondemn
  try dsimp only
  repeat' first
      | with_reducible assumption
      | with_reducible apply free_condemnPort K
      | with_reducible apply free_leaveCandidates K
      | split

theorem free_autoCondemn (K : FreeOf P) {p : PortNo} {s : Shelf} (h : P s) :
    P (autoCondemn p s) := by
  unfold autoCondemn
  try dsimp only
  repeat' first
      | with_reducible assumption
      | with_reducible apply free_leaveCandidates K
      | with_reducible apply free_condemnPort K
      | split

theorem free_trigger (K : FreeOf P) {p : PortNo} {s : Shelf} (h : P s) :
    P (trigger p s) := by
  unfold trigger
  try dsimp only
  repeat' first
      | with_reducible assumption
      | with_reducible apply free_autoCondemn K
      | split

theorem free_sweep (K : FreeOf P) {s : Shelf} (h : P s) :
    P (sweep s) := by
  unfold sweep
  try dsimp only
  repeat' first
      | with_reducible assumption
      | with_reducible apply free_trigger K
      | with_reducible apply free_foldl (P := P)
      | (intro _ _ _; try dsimp only)
      | (intro _ _; try dsimp only)
      | split

theorem free_condemnTimerOver (K : FreeOf P) {p : PortNo} {s : Shelf} (h : P s) :
    P (condemnTimerOver p s) := by
  unfold condemnTimerOver
  try dsimp only
  repeat' first
      | with_reducible assumption
      | with_reducible apply free_setTimer K
      | with_reducible apply free_trigger K
      | split

theorem free_poolEvent (K : FreeOf P) {s : Shelf} (h : P s) :
    P (poolEvent s) := by
  unfold poolEvent
  try dsimp only
  repeat' first
      | with_reducible assumption
      | with_reducible apply free_poolUpdate K
      | with_reducible apply free_retryCondemned K
      | split

theorem free_clearCondemn (K : FreeOf P) {p : PortNo} {s : Shelf} (h : P s) :
    P (clearCondemn p s) := by
  unfold clearCondemn
  try dsimp only
  repeat' first
      | with_reducible assumption
      | with_reducible apply free_reportNoSpare K
      | with_reducible apply free_setCondemn K
      | with_reducible apply free_syncTimer K
      | split

theorem free_setTagsTold (K : FreeOf P) {p : PortNo} {s : Shelf} (h : P s) : P (setTagsTold p s) :=
  K.told _ _ _ _ (K.told _ _ _ _ h)

theorem free_classChanged (K : FreeOf P) {p : PortNo} {old : ServiceClass} {s : Shelf} (h : P s) :
    P (classChanged p old s) := by
  unfold classChanged
  try dsimp only
  repeat' first
      | with_reducible assumption
      | with_reducible apply free_poolEvent K
      | with_reducible apply free_refreshPort K
      | with_reducible apply free_reportMissing K
      | with_reducible apply free_setTagsTold K
      | with_reducible apply free_syncPort K
      | with_reducible apply free_tagOwedChanged K
      | split

theorem free_recordsCondition (K : FreeOf P) {p : PortNo} {old new : PortCond} {s : Shelf} (h : P s) :
    P (recordsCondition p old new s) := by
  unfold recordsCondition
  try dsimp only
  repeat' first
      | with_reducible assumption
      | with_reducible apply free_enterCandidates K
      | with_reducible apply free_reportTags K
      | with_reducible apply free_syncTimer K
      | with_reducible apply free_trigger K
      | split

theorem free_settleCondemn (K : FreeOf P) {o : Order} {ending : OrderEvent} {s : Shelf} (h : P s) :
    P (settleCondemn o ending s) := by
  unfold settleCondemn
  try dsimp only
  repeat' first
      | with_reducible assumption
      | with_reducible apply free_setCondemn K
      | split

theorem free_dropHold (K : FreeOf P) {o : Order} {s : Shelf} (h : P s) :
    P (dropHold o s) := by
  unfold dropHold
  try dsimp only
  repeat' first
      | with_reducible assumption
      | with_reducible apply free_removeHold K
      | split

theorem free_endOrderAlarms (K : FreeOf P) {o : Order} {s : Shelf} (h : P s) :
    P (endOrderAlarms o s) := by
  unfold endOrderAlarms
  try dsimp only
  repeat' first
      | with_reducible assumption
      | with_reducible apply free_refreshPort K
      | with_reducible apply free_reportChange K
      | split
      | exact tableFull_ne rfl

theorem free_orderOut (K : FreeOf P) {o : Order} {ending : OrderEvent} {s : Shelf} (h : P s) :
    P (orderOut o ending s) := by
  unfold orderOut
  try dsimp only
  repeat' first
      | with_reducible assumption
      | with_reducible apply free_dropHold K
      | with_reducible apply free_endOrderAlarms K
      | with_reducible apply free_orderNotice K
      | with_reducible apply free_poolUpdate K
      | with_reducible apply free_reportNoSpare K
      | with_reducible apply free_retryCondemned K
      | with_reducible apply free_setExpired K
      | with_reducible apply free_settleCondemn K
      | with_reducible apply free_startCheck K
      | with_reducible apply free_syncPort K
      | with_reducible apply free_timingRun K
      | split
      | with_reducible apply free_ords K

theorem free_orderGone (K : FreeOf P) {o : Order} {s : Shelf} (h : P s) :
    P (orderGone o s) := by
  unfold orderGone
  try dsimp only
  repeat' first
      | with_reducible assumption
      | with_reducible apply free_dropHold K
      | with_reducible apply free_endOrderAlarms K
      | with_reducible apply free_orderNotice K
      | with_reducible apply free_poolUpdate K
      | with_reducible apply free_reportNoSpare K
      | with_reducible apply free_retryCondemned K
      | with_reducible apply free_setExpired K
      | with_reducible apply free_settleCondemn K
      | with_reducible apply free_startCheck K
      | with_reducible apply free_syncPort K
      | with_reducible apply free_timingRun K
      | split
      | with_reducible apply free_ords K

theorem free_leaveOrder (K : FreeOf P) {num : Nat} {ending : OrderEvent} {s : Shelf} (h : P s) :
    P (leaveOrder num ending s) := by
  unfold leaveOrder
  split
  · exact h
  · exact free_orderGone K (free_orderOut K h)

theorem free_expireOrder (K : FreeOf P) {num : Nat} {s : Shelf} (h : P s) :
    P (expireOrder num s) := by
  unfold expireOrder
  try dsimp only
  repeat' first
      | with_reducible assumption
      | with_reducible apply free_leaveOrder K
      | split

theorem free_lapse (K : FreeOf P) {num : Nat} {s : Shelf} (h : P s) :
    P (lapse num s) := by
  unfold lapse
  try dsimp only
  repeat' first
      | with_reducible assumption
      | with_reducible apply free_enterAwaitLight K
      | with_reducible apply free_expireOrder K
      | split

theorem free_destEvent (K : FreeOf P) {p : PortNo} {s : Shelf} (h : P s) :
    P (destEvent p s) := by
  unfold destEvent
  try dsimp only
  repeat' first
      | with_reducible assumption
      | with_reducible apply free_judgeDest K
      | with_reducible apply free_lapse K
      | split

theorem free_sourceEvent (K : FreeOf P) {p : PortNo} {s : Shelf} (h : P s) :
    P (sourceEvent p s) := by
  unfold sourceEvent
  try dsimp only
  repeat' first
      | with_reducible assumption
      | with_reducible apply free_judgeSource K
      | split

theorem free_darkOver (K : FreeOf P) {num : Nat} {s : Shelf} (h : P s) :
    P (darkOver num s) := by
  unfold darkOver
  try dsimp only
  repeat' first
      | with_reducible assumption
      | with_reducible apply free_expireOrder K
      | split

theorem free_lightOver (K : FreeOf P) {num : Nat} {s : Shelf} (h : P s) :
    P (lightOver num s) := by
  unfold lightOver
  try dsimp only
  repeat' first
      | with_reducible assumption
      | with_reducible apply free_expireOrder K
      | split

theorem free_changeRecords (K : FreeOf P) {o : Order} {s : Shelf} (h : P s) :
    P (changeRecords o s) := by
  unfold changeRecords
  try dsimp only
  repeat' first
      | with_reducible assumption
      | with_reducible apply free_classChanged K
      | with_reducible apply free_offerOwn K
      | with_reducible apply free_reportNoSpare K
      | with_reducible apply free_setCondemn K
      | with_reducible apply free_setRecord K
      | with_reducible apply free_substituteMember K
      | split

theorem free_askSubstitution (K : FreeOf P) {g : GroupNo} {chan : Nat} {src dst : PortNo} {s : Shelf} (h : P s) :
    P (askSubstitution g chan src dst s) := by
  unfold askSubstitution
  try dsimp only
  repeat' first
      | with_reducible assumption
      | with_reducible apply free_leaveClear K
      | with_reducible apply free_scheduleGroup K
      | with_reducible apply free_setExec K
      | split

theorem free_completeOrder (K : FreeOf P) {num : Nat} {s : Shelf} (h : P s) :
    P (completeOrder num s) := by
  unfold completeOrder
  try dsimp only
  repeat' first
      | with_reducible assumption
      | with_reducible apply free_askSubstitution K
      | with_reducible apply free_changeRecords K
      | with_reducible apply free_leaveClear K
      | with_reducible apply free_leaveOrder K
      | with_reducible apply free_noticeOf K
      | with_reducible apply free_rebind K
      | with_reducible apply free_refreshOrder K
      | with_reducible apply free_reportMisPatch K
      | with_reducible apply free_reportPatch K
      | with_reducible apply free_setStage K
      | split

theorem free_verifyOver (K : FreeOf P) {num : Nat} {s : Shelf} (h : P s) :
    P (verifyOver num s) := by
  unfold verifyOver
  try dsimp only
  repeat' first
      | with_reducible assumption
      | with_reducible apply free_completeOrder K
      | split

/-! Executor.lean -/

theorem free_exchangeValues (K : FreeOf P) {words : List Word} {s : Shelf} (h : P s) :
    P (exchangeValues words s).2 := by
  unfold exchangeValues
  try dsimp only
  repeat' first
      | with_reducible assumption
      | with_reducible apply free_setExec K
      | split

theorem free_finishPreparation (K : FreeOf P) {g : GroupNo} {s : Shelf} (h : P s) :
    P (finishPreparation g s) := by
  unfold finishPreparation
  try dsimp only
  repeat' first
      | with_reducible assumption
      | with_reducible apply free_evaluate K
      | with_reducible apply free_setExec K
      | split

theorem free_prepareGroup (K : FreeOf P) {g : GroupNo} {s : Shelf} (h : P s) :
    P (prepareGroup g s) := by
  unfold prepareGroup
  try dsimp only
  repeat' first
      | with_reducible assumption
      | with_reducible apply free_finishPreparation K
      | with_reducible apply free_scheduleGroup K
      | with_reducible apply free_setExec K
      | split

theorem free_enterArmed (K : FreeOf P) {s : Shelf} (h : P s) :
    P (enterArmed s) := by
  unfold enterArmed
  try dsimp only
  repeat' first
      | with_reducible assumption
      | with_reducible apply free_evaluate K
      | with_reducible apply free_prepareGroup K
      | with_reducible apply free_scheduleGroup K
      | with_reducible apply free_setPhase K
      | with_reducible apply free_startCheck K
      | with_reducible apply free_sweep K
      | with_reducible apply free_syncClear K
      | with_reducible apply free_tell K
      | with_reducible apply free_foldl (P := P)
      | (intro _ _ _; try dsimp only)
      | (intro _ _; try dsimp only)
      | split

theorem free_armingEnded (K : FreeOf P) {g : GroupNo} {s : Shelf} (h : P s) :
    P (armingEnded g s) := by
  unfold armingEnded
  try dsimp only
  repeat' first
      | with_reducible assumption
      | with_reducible apply free_enterArmed K
      | split
      | with_reducible apply free_exe K

theorem free_substitutionEnded (K : FreeOf P) {g : GroupNo} {ending : OrderEvent} {s : Shelf} (h : P s) :
    P (substitutionEnded g ending s) := by
  unfold substitutionEnded
  try dsimp only
  repeat' first
      | with_reducible assumption
      | with_reducible apply free_leaveOrder K
      | split

theorem free_groupStuck (K : FreeOf P) {g : GroupNo} {fault : Option BusAnswer × Nat × Bool} {s : Shelf} (h : P s) :
    P (groupStuck g fault s) := by
  unfold groupStuck
  try dsimp only
  repeat' first
      | with_reducible assumption
      | with_reducible apply free_dropTasks K
      | with_reducible apply free_engineStuck K
      | with_reducible apply free_reportChange K
      | with_reducible apply free_setExec K
      | with_reducible apply free_substitutionEnded K
      | split
      | exact tableFull_ne rfl

theorem free_judgeConfirm (K : FreeOf P) {g : GroupNo} {s : Shelf} (h : P s) :
    P (judgeConfirm g s) := by
  unfold judgeConfirm
  try dsimp only
  repeat' first
      | with_reducible assumption
      | with_reducible apply free_endConfirm K
      | with_reducible apply free_scheduleGroup K
      | with_reducible apply free_setExec K
      | split

theorem free_executorWord (K : FreeOf P) {p : PortNo} {s : Shelf} (h : P s) :
    P (executorWord p s) := by
  unfold executorWord
  try dsimp only
  repeat' first
      | with_reducible assumption
      | with_reducible apply free_judgeConfirm K
      | split

theorem free_confirmOver (K : FreeOf P) {g : GroupNo} {s : Shelf} (h : P s) :
    P (confirmOver g s) := by
  unfold confirmOver
  try dsimp only
  repeat' first
      | with_reducible assumption
      | with_reducible apply free_reportChange K
      | split
      | exact tableFull_ne rfl

theorem free_endJob (K : FreeOf P) {g : GroupNo} {s : Shelf} (h : P s) :
    P (endJob g s) := by
  unfold endJob
  try dsimp only
  repeat' first
      | with_reducible assumption
      | with_reducible apply free_setExec K
      | split

theorem free_exchangeDone (K : FreeOf P) {g : GroupNo} {j : XJob} {s : Shelf} (h : P s) :
    P (exchangeDone g j s) := by
  unfold exchangeDone
  try dsimp only
  repeat' first
      | with_reducible assumption
      | with_reducible apply free_endJob K
      | with_reducible apply free_finishPreparation K
      | with_reducible apply free_judgeConfirm K
      | with_reducible apply free_planCompleted K
      | with_reducible apply free_scheduleGroup K
      | with_reducible apply free_setExec K
      | with_reducible apply free_substitutionEnded K
      | split

theorem free_retryLater (K : FreeOf P) {g : GroupNo} {j : XJob} {fault : Option BusAnswer × Nat × Bool} {s : Shelf} (h : P s) :
    P (retryLater g j fault s) := by
  unfold retryLater
  try dsimp only
  repeat' first
      | with_reducible assumption
      | with_reducible apply free_groupStuck K
      | with_reducible apply free_setExec K
      | split

theorem free_exchangeFaulted (K : FreeOf P) {g : GroupNo} {j : XJob} {a : BusAnswer} {writes : Nat} {s : Shelf} (h : P s) :
    P (exchangeFaulted g j a writes s) := by
  unfold exchangeFaulted
  try dsimp only
  repeat' first
      | with_reducible assumption
      | with_reducible apply free_groupNotice K
      | with_reducible apply free_retryLater K
      | with_reducible apply free_setExec K
      | with_reducible apply free_setTasks K
      | split

theorem free_groupExchangeEnd (K : FreeOf P) {g : GroupNo} {e : TxnEnd} {s : Shelf} (h : P s) :
    P (groupExchangeEnd g e s) := by
  unfold groupExchangeEnd
  try dsimp only
  repeat' first
      | with_reducible assumption
      | with_reducible apply free_exchangeDone K
      | with_reducible apply free_exchangeFaulted K
      | with_reducible apply free_groupStuck K
      | with_reducible apply free_retryLater K
      | split

theorem free_clearEnd (K : FreeOf P) {ports : List PortNo} {e : TxnEnd} {s : Shelf} (h : P s) :
    P (clearEnd ports e s) := by
  unfold clearEnd
  try dsimp only
  repeat' first
      | with_reducible assumption
      | with_reducible apply free_leaveClear K
      | with_reducible apply free_syncClear K
      | with_reducible apply free_foldl (P := P)
      | (intro _ _ _; try dsimp only)
      | (intro _ _; try dsimp only)
      | split
      | with_reducible apply free_exe K

theorem free_adoptionEnd (K : FreeOf P) {g : GroupNo} {got : List (PortNo × Option Word)} {s : Shelf} (h : P s) :
    P (adoptionEnd g got s) := by
  unfold adoptionEnd
  try dsimp only
  repeat' first
      | with_reducible assumption
      | with_reducible apply free_adoptAgain K
      | with_reducible apply free_adopted K
      | with_reducible apply free_armingEnded K
      | with_reducible apply free_groupStuck K
      | with_reducible apply free_reportChange K
      | with_reducible apply free_setExec K
      | split
      | exact tableFull_ne rfl

theorem free_askExecutor (K : FreeOf P) {t : Txn} {s : Shelf} (h : P s) :
    P (askExecutor t s) := by
  unfold askExecutor
  try dsimp only
  repeat' first
      | with_reducible assumption
      | split
      | with_reducible apply free_bp K

theorem free_adoptNext (K : FreeOf P) {g : GroupNo} {l : List PortNo} {got : List (PortNo × Option Word)} {s : Shelf}
    (h : P s) : P (adoptNext g l got s) := by
  induction l generalizing got with
  | nil => exact free_adoptionEnd K (free_setActive K h)
  | cons p rest ih =>
    unfold adoptNext
    split
    · exact free_askExecutor K (free_setActive K h)
    · exact ih

theorem free_adoptRead (K : FreeOf P) {g : GroupNo} {rest : List PortNo} {got : List (PortNo × Option Word)} {e : TxnEnd} {s : Shelf} (h : P s) :
    P (adoptRead g rest got e s) := by
  unfold adoptRead
  try dsimp only
  repeat' first
      | with_reducible assumption
      | with_reducible apply free_adoptNext K
      | split

theorem free_clearSource (K : FreeOf P) {x : GroupExec} {i j : XJob} {s : Shelf} (h : P s) : P (clearSource x i j s) := by
  unfold clearSource
  split
  · split
    · exact free_joinClear K h
    · exact h
  · exact h

theorem free_takeExchange (K : FreeOf P) {g : GroupNo} {s : Shelf} (h : P s) :
    P (takeExchange g s) := by
  unfold takeExchange
  try dsimp only
  repeat' first
      | with_reducible assumption
      | with_reducible apply free_askExecutor K
      | with_reducible apply free_exchangeDone K
      | with_reducible apply free_clearSource K
      | with_reducible apply free_setActive K
      | with_reducible apply free_setExec K
      | split

theorem free_takeTask (K : FreeOf P) {t : Task} {s : Shelf} (h : P s) :
    P (takeTask t s) := by
  unfold takeTask
  try dsimp only
  repeat' first
      | with_reducible assumption
      | with_reducible apply free_adoptNext K
      | with_reducible apply free_armingEnded K
      | with_reducible apply free_askExecutor K
      | with_reducible apply free_setActive K
      | with_reducible apply free_takeExchange K
      | split

theorem free_serveExecutor (K : FreeOf P) {k : Nat} {s : Shelf} (h : P s) : P (serveExecutor k s) := by
  induction k generalizing s with
  | zero => exact h
  | succ k ih =>
    unfold serveExecutor
    split
    · exact h
    · split
      · exact h
      · exact ih (free_takeTask K (free_setTasks K h))

theorem free_executorEnd (K : FreeOf P) {e : TxnEnd} {s : Shelf} (h : P s) :
    P (executorEnd e s) := by
  unfold executorEnd
  try dsimp only
  repeat' first
      | with_reducible assumption
      | with_reducible apply free_adoptRead K
      | with_reducible apply free_clearEnd K
      | with_reducible apply free_groupExchangeEnd K
      | with_reducible apply free_setActive K
      | split

theorem free_retryOver (K : FreeOf P) {g : GroupNo} {s : Shelf} (h : P s) :
    P (retryOver g s) := by
  unfold retryOver
  try dsimp only
  repeat' first
      | with_reducible assumption
      | with_reducible apply free_setExec K
      | with_reducible apply free_setTasks K
      | split

theorem free_clearRetryOver (K : FreeOf P) {s : Shelf} (h : P s) :
    P (clearRetryOver s) := by
  unfold clearRetryOver
  try dsimp only
  repeat' first
      | with_reducible assumption
      | with_reducible apply free_syncClear K
      | split
      | with_reducible apply free_exe K

theorem free_oweAgain (K : FreeOf P) {n : SlotNo} {g : GroupNo} {s : Shelf} (h : P s) :
    P (oweAgain n g s) := by
  unfold oweAgain
  try dsimp only
  repeat' first
      | with_reducible assumption
      | with_reducible apply free_scheduleGroup K
      | with_reducible apply free_setExec K
      | split

theorem free_executorPresent (K : FreeOf P) {n : SlotNo} {s : Shelf} (h : P s) :
    P (executorPresent n s) := by
  unfold executorPresent
  try dsimp only
  repeat' first
      | with_reducible assumption
      | with_reducible apply free_askAdoptionFor K
      | with_reducible apply free_oweAgain K
      | with_reducible apply free_syncClear K
      | with_reducible apply free_foldl (P := P)
      | (intro _ _ _; try dsimp only)
      | (intro _ _; try dsimp only)
      | split

theorem free_executorGone (K : FreeOf P) {n : SlotNo} {s : Shelf} (h : P s) :
    P (executorGone n s) := by
  unfold executorGone
  try dsimp only
  repeat' first
      | with_reducible assumption
      | with_reducible apply free_finishPreparation K
      | with_reducible apply free_setExec K
      | with_reducible apply free_foldl (P := P)
      | (intro _ _ _; try dsimp only)
      | (intro _ _; try dsimp only)
      | split

/-! Scanner.lean -/

theorem free_conditionFirst (K : FreeOf P) {p : PortNo} {old new : PortCond} {s : Shelf} (h : P s) :
    P (conditionFirst p old new s) := by
  unfold conditionFirst
  try dsimp only
  repeat' first
      | with_reducible assumption
      | with_reducible apply free_engineCondition K
      | with_reducible apply free_refreshPort K
      | split

theorem free_conditionRest (K : FreeOf P) {p : PortNo} {old new : PortCond} {s : Shelf} (h : P s) :
    P (conditionRest p old new s) := by
  unfold conditionRest
  try dsimp only
  repeat' first
      | with_reducible assumption
      | with_reducible apply free_destEvent K
      | with_reducible apply free_recordsCondition K
      | with_reducible apply free_sourceEvent K
      | split

theorem free_tagEvent (K : FreeOf P) {p : PortNo} {s : Shelf} (h : P s) :
    P (tagEvent p s) := by
  unfold tagEvent
  try dsimp only
  repeat' first
      | with_reducible assumption
      | with_reducible apply free_destEvent K
      | with_reducible apply free_reportTags K
      | split

theorem free_wordEvent (K : FreeOf P) {p : PortNo} {s : Shelf} (h : P s) :
    P (wordEvent p s) := by
  unfold wordEvent
  try dsimp only
  repeat' first
      | with_reducible assumption
      | with_reducible apply free_engineWord K
      | with_reducible apply free_executorWord K
      | split

theorem free_changeFirst (K : FreeOf P) {x : ObsChange} {s : Shelf} (h : P s) :
    P (changeFirst s x) := by
  unfold changeFirst
  try dsimp only
  repeat' first
      | with_reducible assumption
      | with_reducible apply free_conditionFirst K
      | split

theorem free_changeRest (K : FreeOf P) {x : ObsChange} {s : Shelf} (h : P s) :
    P (changeRest s x) := by
  unfold changeRest
  try dsimp only
  repeat' first
      | with_reducible assumption
      | with_reducible apply free_conditionRest K
      | with_reducible apply free_tagEvent K
      | with_reducible apply free_wordEvent K
      | split

theorem free_observeAll (K : FreeOf P) {l : List (PortNo × Obs)} {s : Shelf} (h : P s) :
    P (observeAll l s) := by
  unfold observeAll
  try dsimp only
  repeat' first
      | with_reducible assumption
      | with_reducible apply free_changeFirst K
      | with_reducible apply free_changeRest K
      | with_reducible apply free_setObs K
      | with_reducible apply free_timingRun K
      | with_reducible apply free_foldl (P := P)
      | (intro _ _ _; try dsimp only)
      | (intro _ _; try dsimp only)
      | split

theorem free_observe (K : FreeOf P) {p : PortNo} {o : Obs} {s : Shelf} (h : P s) :
    P (observe p o s) := by
  unfold observe
  try dsimp only
  repeat' first
      | with_reducible assumption
      | with_reducible apply free_observeAll K
      | split

theorem free_observeBases (K : FreeOf P) {l : List PortNo} {s : Shelf} (h : P s) :
    P (observeBases l s) := by
  unfold observeBases
  try dsimp only
  repeat' first
      | with_reducible assumption
      | with_reducible apply free_observeAll K
      | split

theorem free_scannerSlot (K : FreeOf P) {n : SlotNo} {s : Shelf} (h : P s) :
    P (scannerSlot n s) := by
  unfold scannerSlot
  try dsimp only
  repeat' first
      | with_reducible assumption
      | with_reducible apply free_observeBases K
      | split

theorem free_resumeAll (K : FreeOf P) {s : Shelf} (h : P s) :
    P (resumeAll s) := by
  unfold resumeAll
  try dsimp only
  repeat' first
      | with_reducible assumption
      | with_reducible apply free_setScan K
      | split

theorem free_modeChanged (K : FreeOf P) {before : Shelf} {after : Shelf} (_hbefore : P before) (hafter : P after) :
    P (modeChanged before after) := by
  unfold modeChanged
  try dsimp only
  repeat' first
      | with_reducible assumption
      | with_reducible apply free_resumeAll K
      | split

theorem free_batteryChanged (K : FreeOf P) {b : Bool} {s : Shelf} (h : P s) :
    P (batteryChanged b s) := by
  unfold batteryChanged
  try dsimp only
  repeat' first
      | with_reducible assumption
      | with_reducible apply free_modeChanged K
      | split
      | with_reducible apply free_pins K

theorem free_windowChanged (K : FreeOf P) {s : Shelf} (h : P s) :
    P (windowChanged s) := by
  unfold windowChanged
  try dsimp only
  repeat' first
      | with_reducible assumption
      | with_reducible apply free_observeBases K
      | split

theorem free_takePending (K : FreeOf P) {s : Shelf} (h : P s) :
    P (takePending s) := by
  unfold takePending
  try dsimp only
  repeat' first
      | with_reducible assumption
      | with_reducible apply free_modeChanged K
      | with_reducible apply free_setScan K
      | split

theorem free_cycleStart (K : FreeOf P) {s : Shelf} (h : P s) :
    P (cycleStart s) := by
  unfold cycleStart
  try dsimp only
  repeat' first
      | with_reducible assumption
      | with_reducible apply free_setScan K
      | with_reducible apply free_takePending K
      | with_reducible apply free_windowChanged K
      | split

theorem free_reportOverrun (K : FreeOf P) {b : Bool} {s : Shelf} (h : P s) :
    P (reportOverrun b s) := by
  unfold reportOverrun
  try dsimp only
  repeat' first
      | with_reducible assumption
      | with_reducible apply free_reportChange K
      | with_reducible apply free_setScan K
      | split
      | exact tableFull_ne rfl

theorem free_cycleEnd (K : FreeOf P) {s : Shelf} (h : P s) :
    P (cycleEnd s) := by
  unfold cycleEnd
  try dsimp only
  repeat' first
      | with_reducible assumption
      | with_reducible apply free_cycleStart K
      | with_reducible apply free_reportOverrun K
      | with_reducible apply free_setScan K
      | split

theorem free_periodOver (K : FreeOf P) {s : Shelf} (h : P s) :
    P (periodOver s) := by
  unfold periodOver
  try dsimp only
  repeat' first
      | with_reducible assumption
      | with_reducible apply free_cycleStart K
      | with_reducible apply free_reportOverrun K
      | with_reducible apply free_setScan K
      | split

theorem free_askScanner (K : FreeOf P) {j : ScanJob} {t : Txn} {s : Shelf} (h : P s) :
    P (askScanner j t s) := by
  unfold askScanner
  try dsimp only
  repeat' first
      | with_reducible assumption
      | with_reducible apply free_setScan K
      | split
      | with_reducible apply free_bp K

theorem free_takeAttention (K : FreeOf P) {s : Shelf} (h : P s) : P ((takeAttention s).getD s) := by
  unfold takeAttention
  split
  · exact h
  · simp only [Option.getD_some]
    exact free_setScan K (free_bp K h)

theorem free_visit (K : FreeOf P) {v : Nat} {s : Shelf} (h : P s) :
    P (visit v s) := by
  unfold visit
  try dsimp only
  repeat' first
      | with_reducible assumption
      | with_reducible apply free_askScanner K
      | with_reducible apply free_setScan K
      | split

theorem free_scanStep (K : FreeOf P) {s : Shelf} (h : P s) :
    P (scanStep s) := by
  unfold scanStep
  try dsimp only
  repeat' first
      | with_reducible assumption
      | with_reducible apply free_askScanner K
      | with_reducible apply free_cycleEnd K
      | with_reducible apply free_setScan K
      | with_reducible apply free_takeAttention K
      | with_reducible apply free_visit K
      | split

theorem free_serveScanner (K : FreeOf P) {k : Nat} {s : Shelf} (h : P s) : P (serveScanner k s) := by
  induction k generalizing s with
  | zero => exact h
  | succ k ih =>
    unfold serveScanner
    split
    · exact h
    · exact ih (free_scanStep K h)

theorem free_endVisit (K : FreeOf P) {cyclic : Bool} {s : Shelf} (h : P s) :
    P (endVisit cyclic s) := by
  unfold endVisit
  try dsimp only
  repeat' first
      | with_reducible assumption
      | with_reducible apply free_setScan K
      | split

theorem free_statusRead (K : FreeOf P) {p : PortNo} {cyclic : Bool} {e : TxnEnd} {s : Shelf} (h : P s) :
    P (statusRead p cyclic e s) := by
  unfold statusRead
  try dsimp only
  repeat' first
      | with_reducible assumption
      | with_reducible apply free_askScanner K
      | with_reducible apply free_endVisit K
      | with_reducible apply free_observe K
      | split

theorem free_tagRead (K : FreeOf P) {p : PortNo} {cyclic : Bool} {e : TxnEnd} {s : Shelf} (h : P s) :
    P (tagRead p cyclic e s) := by
  unfold tagRead
  try dsimp only
  repeat' first
      | with_reducible assumption
      | with_reducible apply free_endVisit K
      | with_reducible apply free_observe K
      | split

theorem free_scannerEnd (K : FreeOf P) {e : TxnEnd} {s : Shelf} (h : P s) :
    P (scannerEnd e s) := by
  unfold scannerEnd
  try dsimp only
  repeat' first
      | with_reducible assumption
      | with_reducible apply free_setScan K
      | with_reducible apply free_statusRead K
      | with_reducible apply free_tagRead K
      | split

/-! Bus.lean -/

theorem free_enterWatch (K : FreeOf P) {s : Shelf} (h : P s) :
    P (enterWatch s) := by
  unfold enterWatch
  try dsimp only
  repeat' first
      | with_reducible assumption
      | with_reducible apply free_askAdoption K
      | with_reducible apply free_cycleStart K
      | with_reducible apply free_syncTimer K
      | with_reducible apply free_tell K
      | with_reducible apply free_foldl (P := P)
      | (intro _ _ _; try dsimp only)
      | (intro _ _; try dsimp only)
      | split
      | with_reducible apply free_rdy K

theorem free_startArming (K : FreeOf P) {cause : ArmCause} {s : Shelf} (h : P s) : P (startArming cause s) := by
  have h1 : P { s with
      rdy := { s.rdy with phase := .arming, armCause := some cause, armingFor := none }
      exe := { s.exe with arming := armingGroups s } } := K.base s _ rfl rfl rfl h
  unfold startArming
  dsimp only
  split
  · split
    · exact free_enterArmed K h1
    · exact free_foldl (P := P) _ (fun s g h => free_askAdoption K h) h1
  · exact h

theorem free_joinAttention (K : FreeOf P) {n : SlotNo} {s : Shelf} (h : P s) :
    P (joinAttention n s) := by
  unfold joinAttention
  try dsimp only
  repeat' first
      | with_reducible assumption
      | with_reducible apply free_setBp K
      | split

theorem free_syncReprobe (K : FreeOf P) {n : SlotNo} {s : Shelf} (h : P s) :
    P (syncReprobe n s) := by
  unfold syncReprobe
  try dsimp only
  repeat' first
      | with_reducible assumption
      | with_reducible apply free_setBp K
      | split

theorem free_cardPresent (K : FreeOf P) {n : SlotNo} {s : Shelf} (h : P s) :
    P (cardPresent n s) := by
  unfold cardPresent
  try dsimp only
  repeat' first
      | with_reducible assumption
      | with_reducible apply free_executorPresent K
      | with_reducible apply free_gradesOwed K
      | with_reducible apply free_joinAttention K
      | with_reducible apply free_joinTags K
      | with_reducible apply free_foldl (P := P)
      | (intro _ _ _; try dsimp only)
      | (intro _ _; try dsimp only)
      | split

theorem free_cardGone (K : FreeOf P) {n : SlotNo} {s : Shelf} (h : P s) :
    P (cardGone n s) := by
  unfold cardGone
  try dsimp only
  repeat' first
      | with_reducible assumption
      | with_reducible apply free_executorGone K
      | with_reducible apply free_gradesGone K
      | with_reducible apply free_setBp K
      | split
      | with_reducible apply free_recs K

theorem free_slotChange (K : FreeOf P) {n : SlotNo} {r : SlotRec} {s : Shelf} (h : P s) :
    P (slotChange n r s) := by
  unfold slotChange
  try dsimp only
  repeat' first
      | with_reducible assumption
      | with_reducible apply free_cardGone K
      | with_reducible apply free_cardPresent K
      | with_reducible apply free_reportChange K
      | with_reducible apply free_reportMissing K
      | with_reducible apply free_scannerSlot K
      | with_reducible apply free_setSlot K
      | with_reducible apply free_syncReprobe K
      | with_reducible apply free_tell K
      | split
      | exact tableFull_ne rfl

theorem free_countFault (K : FreeOf P) {n : SlotNo} {faulted : Bool} {s : Shelf} (h : P s) :
    P (countFault n faulted s) := by
  unfold countFault
  try dsimp only
  repeat' first
      | with_reducible assumption
      | with_reducible apply free_setSlot K
      | with_reducible apply free_slotChange K
      | split

theorem free_countFaults (K : FreeOf P) {u : BusUse} {fault : Option (Transfer × BusAnswer)} {s : Shelf} (h : P s) :
    P (countFaults u fault s) := by
  unfold countFaults
  try dsimp only
  repeat' first
      | with_reducible assumption
      | with_reducible apply free_countFault K
      | with_reducible apply free_foldl (P := P)
      | (intro _ _ _; try dsimp only)
      | (intro _ _; try dsimp only)
      | split

theorem free_enterFault (K : FreeOf P) {u : BusUse} {t : Transfer} {a : BusAnswer} {s : Shelf} (h : P s) :
    P (enterFault u t a s) := by
  unfold enterFault
  try dsimp only
  repeat' first
      | with_reducible assumption
      | with_reducible apply free_reportChange K
      | with_reducible apply free_setBp K
      | split
      | exact tableFull_ne rfl

theorem free_probeOutcome (K : FreeOf P) {n : SlotNo} {e : TxnEnd} {s : Shelf} (h : P s) :
    P (probeOutcome n e s) := by
  unfold probeOutcome
  try dsimp only
  repeat' first
      | with_reducible assumption
      | with_reducible apply free_setSlot K
      | with_reducible apply free_slotChange K
      | with_reducible apply free_syncReprobe K
      | split

theorem free_discoveryNext (K : FreeOf P) {n : SlotNo} {s : Shelf} (h : P s) :
    P (discoveryNext n s) := by
  unfold discoveryNext
  try dsimp only
  repeat' first
      | with_reducible assumption
      | with_reducible apply free_enterWatch K
      | with_reducible apply free_setBp K
      | split

theorem free_tagWriteEnd (K : FreeOf P) {e : TxnEnd} {s : Shelf} (h : P s) :
    P (tagWriteEnd e s) := by
  unfold tagWriteEnd
  try dsimp only
  repeat' first
      | with_reducible assumption
      | with_reducible apply free_joinTags K
      | with_reducible apply free_setBp K
      | split
      | with_reducible apply free_recs K

theorem free_gradeWriteEnd (K : FreeOf P) {e : TxnEnd} {s : Shelf} (h : P s) :
    P (gradeWriteEnd e s) := by
  unfold gradeWriteEnd
  try dsimp only
  repeat' first
      | with_reducible assumption
      | with_reducible apply free_gradeFaulted K
      | with_reducible apply free_gradeWritten K
      | split
      | with_reducible apply free_tim K

theorem free_deliver (K : FreeOf P) {u : BusUse} {e : TxnEnd} {s : Shelf} (h : P s) :
    P (deliver u e s) := by
  unfold deliver
  try dsimp only
  repeat' first
      | with_reducible assumption
      | with_reducible apply free_discoveryNext K
      | with_reducible apply free_executorEnd K
      | with_reducible apply free_gradeWriteEnd K
      | with_reducible apply free_probeOutcome K
      | with_reducible apply free_scannerEnd K
      | with_reducible apply free_tagWriteEnd K
      | split

theorem free_endTransaction (K : FreeOf P) {u : BusUse} {fault : Option (Transfer × BusAnswer)} {s : Shelf} (h : P s) :
    P (endTransaction u fault s) := by
  unfold endTransaction
  try dsimp only
  repeat' first
      | with_reducible assumption
      | with_reducible apply free_countFaults K
      | with_reducible apply free_deliver K
      | with_reducible apply free_enterFault K
      | with_reducible apply free_setBp K
      | split

theorem free_releaseAttention (K : FreeOf P) {t : Transfer} {s : Shelf} (h : P s) :
    P (releaseAttention t s) := by
  unfold releaseAttention
  try dsimp only
  repeat' first
      | with_reducible assumption
      | with_reducible apply free_setBp K
      | split

theorem free_transferAcked (K : FreeOf P) {u : BusUse} {t : Transfer} {w : Word} {s : Shelf} (h : P s) :
    P (transferAcked u t w s) := by
  unfold transferAcked
  try dsimp only
  repeat' first
      | with_reducible assumption
      | with_reducible apply free_endTransaction K
      | with_reducible apply free_releaseAttention K
      | with_reducible apply free_setBp K
      | split

theorem free_transferRetried (K : FreeOf P) {u : BusUse} {t : Transfer} {s : Shelf} (h : P s) :
    P (transferRetried u t s) := by
  unfold transferRetried
  try dsimp only
  repeat' first
      | with_reducible assumption
      | with_reducible apply free_endTransaction K
      | with_reducible apply free_setBp K
      | split

theorem free_askProbe (K : FreeOf P) {s : Shelf} (h : P s) :
    P (askProbe s) := by
  unfold askProbe
  try dsimp only
  repeat' first
      | with_reducible assumption
      | with_reducible apply free_setBp K
      | split

theorem free_serveRecords (K : FreeOf P) {s : Shelf} (h : P s) :
    P (serveRecords s) := by
  unfold serveRecords
  try dsimp only
  repeat' first
      | with_reducible assumption
      | with_reducible apply free_setBp K
      | split
      | with_reducible apply free_recs K

theorem free_serveGrades (K : FreeOf P) {l : List PortNo} {s : Shelf} (h : P s) : P (serveGrades l s) := by
  induction l generalizing s with
  | nil => exact free_tim K h
  | cons p rest ih =>
    unfold serveGrades
    split
    · exact free_setBp K (free_tim K h)
    · exact ih h

theorem free_serveTiming (K : FreeOf P) {s : Shelf} (h : P s) :
    P (serveTiming s) := by
  unfold serveTiming
  try dsimp only
  repeat' first
      | with_reducible assumption
      | with_reducible apply free_serveGrades K
      | split

theorem free_grant (K : FreeOf P) {s : Shelf} (h : P s) :
    P (grant s) := by
  unfold grant
  try dsimp only
  repeat' first
      | with_reducible assumption
      | with_reducible apply free_setBp K
      | split

theorem free_pump (K : FreeOf P) {s : Shelf} (h : P s) :
    P (pump s) := by
  unfold pump
  try dsimp only
  repeat' first
      | with_reducible assumption
      | with_reducible apply free_askProbe K
      | with_reducible apply free_grant K
      | with_reducible apply free_serveExecutor K
      | with_reducible apply free_serveRecords K
      | with_reducible apply free_serveScanner K
      | with_reducible apply free_serveTiming K
      | split

theorem free_answerCard (K : FreeOf P) {a : CardAnswer} {s : Shelf} (h : P s) :
    P (answerCard a s) := by
  unfold answerCard
  try dsimp only
  repeat' first
      | with_reducible assumption
      | with_reducible apply free_endTransaction K
      | with_reducible apply free_pump K
      | with_reducible apply free_transferAcked K
      | with_reducible apply free_transferRetried K
      | split

theorem free_transferTimedOut (K : FreeOf P) {s : Shelf} (h : P s) :
    P (transferTimedOut s) := by
  unfold transferTimedOut
  try dsimp only
  repeat' first
      | with_reducible assumption
      | with_reducible apply free_endTransaction K
      | with_reducible apply free_pump K
      | split

theorem free_valuesReturned (K : FreeOf P) {s : Shelf} (h : P s) :
    P (valuesReturned s) := by
  unfold valuesReturned
  try dsimp only
  repeat' first
      | with_reducible assumption
      | with_reducible apply free_exchangeValues K
      | with_reducible apply free_setBp K
      | split

theorem free_reprobeOver (K : FreeOf P) {n : SlotNo} {s : Shelf} (h : P s) :
    P (reprobeOver n s) := by
  unfold reprobeOver
  try dsimp only
  repeat' first
      | with_reducible assumption
      | with_reducible apply free_pump K
      | with_reducible apply free_setBp K
      | split

theorem free_attentionAsserted (K : FreeOf P) {n : SlotNo} {s : Shelf} (h : P s) :
    P (attentionAsserted n s) := by
  unfold attentionAsserted
  try dsimp only
  repeat' first
      | with_reducible assumption
      | with_reducible apply free_joinAttention K
      | with_reducible apply free_pump K
      | with_reducible apply free_setBp K
      | split

theorem free_clearBusFaults (K : FreeOf P) {s : Shelf} (h : P s) :
    P (clearBusFaults s) := by
  unfold clearBusFaults
  try dsimp only
  repeat' first
      | with_reducible assumption
      | with_reducible apply free_reportChange K
      | with_reducible apply free_setBp K
      | split
      | exact tableFull_ne rfl

/-! LockRequests.lean -/

theorem free_setShelfTime (K : FreeOf P) {v : Nat} {s : Shelf} (h : P s) : P (setShelfTime v s) :=
  K.base s _ rfl rfl rfl h

/-! Requests.lean -/

theorem free_editRecord (K : FreeOf P) {p : PortNo} {r : PortRec} {s : Shelf} (h : P s) :
    P (editRecord p r s) := by
  unfold editRecord
  try dsimp only
  repeat' first
      | with_reducible assumption
      | with_reducible apply free_classChanged K
      | with_reducible apply free_reportNoSpare K
      | with_reducible apply free_reportTags K
      | with_reducible apply free_setCondemn K
      | with_reducible apply free_setExpired K
      | with_reducible apply free_setRecord K
      | split

theorem free_dropAutomatic (K : FreeOf P) {s : Shelf} (h : P s) :
    P (dropAutomatic s) := by
  unfold dropAutomatic
  try dsimp only
  repeat' first
      | with_reducible assumption
      | with_reducible apply free_clearCondemn K
      | with_reducible apply free_foldl (P := P)
      | (intro _ _ _; try dsimp only)
      | (intro _ _; try dsimp only)
      | split

theorem free_changeReassign (K : FreeOf P) {r : Reassign} {s : Shelf} (h : P s) :
    P (changeReassign r s) := by
  unfold changeReassign
  try dsimp only
  repeat' first
      | with_reducible assumption
      | with_reducible apply free_dropAutomatic K
      | with_reducible apply free_poolUpdate K
      | with_reducible apply free_retryCondemned K
      | with_reducible apply free_sweep K
      | with_reducible apply free_trigger K
      | with_reducible apply free_foldl (P := P)
      | (intro _ _ _; try dsimp only)
      | (intro _ _; try dsimp only)
      | split
      | with_reducible apply free_recs K

theorem free_changeIdentity (K : FreeOf P) {v : List Byte} {s : Shelf} (h : P s) :
    P (changeIdentity v s) := by
  unfold changeIdentity
  try dsimp only
  repeat' first
      | with_reducible assumption
      | with_reducible apply free_tagOwedChanged K
      | with_reducible apply free_foldl (P := P)
      | (intro _ _ _; try dsimp only)
      | (intro _ _; try dsimp only)
      | split
      | with_reducible apply free_recs K

theorem free_installGroup (K : FreeOf P) {g : GroupNo} {d : GroupDef} {s : Shelf} (h : P s) :
    P (installGroup g d s) := by
  unfold installGroup
  try dsimp only
  repeat' first
      | with_reducible assumption
      | with_reducible apply free_defineRun K
      | with_reducible apply free_joinClear K
      | with_reducible apply free_leaveClear K
      | with_reducible apply free_prepareGroup K
      | with_reducible apply free_setExec K
      | with_reducible apply free_syncClear K
      | with_reducible apply free_syncPort K
      | with_reducible apply free_timingRun K
      | with_reducible apply free_foldl (P := P)
      | (intro _ _ _; try dsimp only)
      | (intro _ _; try dsimp only)
      | split

theorem free_removeGroup (K : FreeOf P) {g : GroupNo} {d : GroupDef} {s : Shelf} (h : P s) :
    P (removeGroup g d s) := by
  unfold removeGroup
  try dsimp only
  repeat' first
      | with_reducible assumption
      | with_reducible apply free_dropTasks K
      | with_reducible apply free_joinClear K
      | with_reducible apply free_setExec K
      | with_reducible apply free_syncClear K
      | with_reducible apply free_syncPort K
      | with_reducible apply free_timingRun K
      | with_reducible apply free_undefineRun K
      | with_reducible apply free_foldl (P := P)
      | (intro _ _ _; try dsimp only)
      | (intro _ _; try dsimp only)
      | split

/-! Settings.lean -/

theorem free_changeReference (K : FreeOf P) {r : RefNo} {d : RefDef} {s : Shelf} (h : P s) :
    P (changeReference r d s) := by
  unfold changeReference
  try dsimp only
  repeat' first
      | with_reducible assumption
      | with_reducible apply free_clearForceOn K
      | with_reducible apply free_setRef K
      | with_reducible apply free_timingEvent K
      | (intro _ _ _; try dsimp only)
      | (intro _ _; try dsimp only)
      | split

theorem free_lockOut (K : FreeOf P) {r : RefNo} {on : Bool} {s : Shelf} (h : P s) :
    P (lockOut r on s) := by
  unfold lockOut
  try dsimp only
  repeat' first
      | with_reducible assumption
      | with_reducible apply free_clearForceOn K
      | with_reducible apply free_setRef K
      | with_reducible apply free_timingEvent K
      | (intro _ _ _; try dsimp only)
      | (intro _ _; try dsimp only)
      | split

theorem free_changeStartOptions (K : FreeOf P) {o : StartOptions} {s : Shelf} (h : P s) :
    P (changeStartOptions o s) := by
  unfold changeStartOptions
  try dsimp only
  repeat' first
      | with_reducible assumption
      | with_reducible apply free_startArming K
      | split
      | with_reducible apply free_rdy K

/-! Events.lean -/

theorem free_buildingChanged (K : FreeOf P) {i : BuildingInput} {present : Bool} {s : Shelf} (h : P s) :
    P (buildingChanged i present s) := by
  unfold buildingChanged
  try dsimp only
  repeat' first
      | with_reducible assumption
      | with_reducible apply free_timingRun K
      | split
      | with_reducible apply free_pins K

theorem free_armingDelayOver (K : FreeOf P) {s : Shelf} (h : P s) :
    P (armingDelayOver s) := by
  unfold armingDelayOver
  try dsimp only
  repeat' first
      | with_reducible assumption
      | with_reducible apply free_startArming K
      | split

end

end Sys2Proof.Machine
end

