-- ==== Sys2Proof/Laws/Notices.lean ====
section
/-! SUPPORT. Notices: between the offers of a step, what has been made stays made. -/

namespace Sys2Proof.Machine

/-- The notices of the one shelf are the first of the other's. -/
def Grows (s x : Shelf) : Prop := s.out <+: x.out

theorem Grows.rfl' (s : Shelf) : Grows s s := List.prefix_refl _
theorem Grows.trans' {s t u : Shelf} (h : Grows s t) (k : Grows t u) : Grows s u := List.IsPrefix.trans h k

theorem Grows.foldl {α : Type} {f : Shelf → α → Shelf} (hf : ∀ s a, Grows s (f s a)) (l : List α)
    (s : Shelf) : Grows s (l.foldl f s) := by
  induction l generalizing s with
  | nil => exact .rfl' s
  | cons a l ih => exact (hf s a).trans' (ih _)

theorem tell_grows (n : Notice) (s : Shelf) : Grows s (tell n s) := List.prefix_append _ _
theorem recordEntry_grows (e : AlarmEntry) (t : Transition) (s : Shelf) : Grows s (recordEntry e t s) := tell_grows _ _
theorem setTable_grows (f : List AlarmEntry → List AlarmEntry) (s : Shelf) : Grows s (setTable f s) := .rfl' s
theorem clearCutOff_grows (v : Severity) (s : Shelf) : Grows s (clearCutOff v s) := by
  unfold clearCutOff
  split <;> exact .rfl' _
theorem raiseEntry_grows (e : AlarmEntry) (s : Shelf) : Grows s (raiseEntry e s) :=
  (setTable_grows _ s).trans' ((clearCutOff_grows _ _).trans' (recordEntry_grows _ _ _))
theorem enterRising_grows (o : Obj) (c : Cond) (s : Shelf) : Grows s (enterRising o c s) := by
  unfold enterRising
  dsimp only
  split
  · exact (setTable_grows _ s).trans' (raiseEntry_grows _ _)
  · exact setTable_grows _ s
theorem raiseTableFull_grows (s : Shelf) : Grows s (raiseTableFull s) := by
  unfold raiseTableFull
  split
  · exact .rfl' s
  · exact (setTable_grows _ s).trans' ((clearCutOff_grows _ _).trans' (recordEntry_grows _ _ _))
theorem newcomer_grows (o : Obj) (c : Cond) (s : Shelf) : Grows s (newcomer o c s) := by
  unfold newcomer
  split
  · exact enterRising_grows _ _ _
  · dsimp only
    split
    · split
      · exact (raiseTableFull_grows s).trans' ((setTable_grows _ _).trans'
          ((recordEntry_grows _ _ _).trans' (enterRising_grows _ _ _)))
      · exact raiseTableFull_grows s
    · exact raiseTableFull_grows s
theorem clearTableFull_grows (s : Shelf) : Grows s (clearTableFull s) := by
  unfold clearTableFull
  split
  · split
    · exact (setTable_grows _ _).trans' (recordEntry_grows _ _ _)
    · exact .rfl' s
  · exact .rfl' s
theorem reoffer_grows (s : Shelf) : Grows s (reoffer s) := by
  unfold reoffer
  split
  · exact .rfl' s
  · refine Grows.foldl (fun s oc => ?_) _ _
    split
    · exact enterRising_grows _ _ _
    · exact .rfl' _
theorem removeEntry_grows (e : AlarmEntry) (t : Option Transition) (s : Shelf) : Grows s (removeEntry e t s) := by
  unfold removeEntry
  refine Grows.trans' ?_ ((clearTableFull_grows _).trans' (reoffer_grows _))
  cases t
  · exact .rfl' s
  · exact recordEntry_grows e _ (dropEntry e.obj e.cond s)
theorem followEntry_grows (e : AlarmEntry) (told m : Bool) (s : Shelf) : Grows s (followEntry e told m s) := by
  unfold followEntry
  split
  · split
    · exact removeEntry_grows _ _ _
    · exact .rfl' s
  · split
    · exact removeEntry_grows _ _ _
    · split
      · exact .rfl' s
      · unfold beginFalling
        dsimp only
        split
        · exact (setTable_grows _ _).trans' (removeEntry_grows _ _ _)
        · exact setTable_grows _ _
  · split
    · exact removeEntry_grows _ _ _
    · split
      · exact setTable_grows _ _
      · exact .rfl' s

theorem follow_grows (o : Obj) (c : Cond) (s : Shelf) : Grows s (follow o c s) := by
  unfold follow
  dsimp only
  split
  · refine .trans' ?_ (followEntry_grows _ _ _ _)
    exact .rfl' s
  · split
    · refine .trans' ?_ (newcomer_grows _ _ _)
      exact .rfl' s
    · exact .rfl' _

theorem report_grows (o : Obj) (c : Cond) (b : Bool) (s : Shelf) : Grows s (report o c b s) :=
  .trans' (t := setTold o c b s) (.rfl' _) (follow_grows _ _ _)

theorem refreshPort_grows (p : PortNo) (s : Shelf) : Grows s (refreshPort p s) :=
  .trans' (t := setPortTold p s) (.rfl' _) (Grows.foldl (fun _ _ => follow_grows _ _ _) _ _)

theorem offerOwn_out (e : EditHolder) (v : ItemValue) (s : Shelf) : (offerOwn e v s).out = s.out := by
  unfold offerOwn
  split
  · rfl
  · split
    · rfl
    · split
      · cases e <;> rfl
      · rfl

/-- A notice that has been made stays made. -/
theorem made_free (n : Notice) : FreeOf (fun s => n ∈ s.out) where
  base := fun _ _ _ _ h hs => by rw [h]; exact hs
  note := fun _ s h => (tell_grows _ s).subset h
  report := fun _ _ _ s _ h => (report_grows _ _ _ s).subset h
  refresh := fun _ s h => (refreshPort_grows _ s).subset h
  told := fun _ _ _ _ h => h
  pool := fun _ _ _ h => h
  offer := fun e v s h => by rw [offerOwn_out]; exact h

end Sys2Proof.Machine
end

