-- ==== Sys2Proof/Laws/Keep.lean ====
section
/-! SUPPORT. One walk over the shelf's operations: a property that the alarm unit's reports and the pool report keep, and
that rests on nothing but the alarm unit, the store and the settings in force, is kept by every one of them. -/

set_option linter.unusedTactic false
set_option linter.unreachableTactic false

namespace Sys2Proof.Machine

/-- The settings in force: the working copies of the stored items but the condition settings (R170), what of the
readiness controller no event of the cards or timers changes, and the edits the blocks hold. -/
structure Cfg where
  recs : Vector PortRec 48
  identity : List Byte
  reassign : Reassign
  defs : Vector (Option GroupDef) 8
  refs : List (RefDef × Bool)
  thresholds : Thresholds
  timing : TimingOptions
  start : StartOptions
  base : Nat
  ms : Nat
  cause : ResetCause
  held : List HeldEdit × List HeldEdit × List HeldEdit

/-- The settings in force of a shelf. -/
def cfg (s : Shelf) : Cfg :=
  ⟨s.recs.recs, s.recs.identity, s.recs.reassign, s.eng.defs, s.tim.refs.toList.map (fun x => (x.defn, x.locked)),
   s.scan.thresholds, s.tim.opts, s.rdy.opts, s.rdy.base, s.rdy.ms, s.rdy.cause,
   (s.recs.held, s.eng.held, s.tim.held)⟩

/-- What a property must meet for the walk: it rests on the alarm unit, the store and the settings, and the reports keep
it. -/
structure Keeps (P : Shelf → Prop) : Prop where
  base : ∀ s t : Shelf, t.alm = s.alm → t.sto = s.sto → cfg t = cfg s → P s → P t
  report : ∀ o c b s, c ≠ .tableFull → P s → P (report o c b s)
  refresh : ∀ p s, P s → P (refreshPort p s)
  told : ∀ o c b s, P s → P (setTold o c b s)
  pool : ∀ n m s, P s → P (reportPool n m s)

section
variable {P : Shelf → Prop}

theorem ne_tableFull {c : Cond} (h : decide (c = .tableFull) = false) : c ≠ .tableFull := of_decide_eq_false h

theorem keep_report (K : Keeps P) {o : Obj} {c : Cond} {b : Bool} {s : Shelf} (hc : c ≠ .tableFull) (h : P s) :
    P (report o c b s) := K.report o c b s hc h

theorem keep_reportChange (K : Keeps P) {o : Obj} {c : Cond} {b : Bool} {s : Shelf} (hc : c ≠ .tableFull) (h : P s) :
    P (reportChange o c b s) := by
  unfold reportChange
  split
  · exact h
  · exact K.report o c b s hc h

theorem keep_refreshPort (K : Keeps P) {p : PortNo} {s : Shelf} (h : P s) : P (refreshPort p s) := K.refresh p s h

theorem keep_reportPool (K : Keeps P) {n m : Nat} {s : Shelf} (h : P s) : P (reportPool n m s) := K.pool n m s h

theorem keep_foldl {α : Type} {f : Shelf → α → Shelf} (l : List α) (hf : ∀ s a, P s → P (f s a)) {s : Shelf} (h : P s) :
    P (l.foldl f s) := by
  induction l generalizing s with
  | nil => exact h
  | cons a l ih => exact ih (hf s a h)

theorem keep_bp (K : Keeps P) {s : Shelf} {x : Backplane} (h : P s) : P { s with bp := x } := K.base s _ rfl rfl rfl h
theorem keep_ords (K : Keeps P) {s : Shelf} {x : Orders} (h : P s) : P { s with ords := x } := K.base s _ rfl rfl rfl h
theorem keep_exe (K : Keeps P) {s : Shelf} {x : Executor} (h : P s) : P { s with exe := x } := K.base s _ rfl rfl rfl h
theorem keep_pins (K : Keeps P) {s : Shelf} {x : Pins} (h : P s) : P { s with pins := x } := K.base s _ rfl rfl rfl h
theorem keep_out (K : Keeps P) {s : Shelf} {x : List Notice} (h : P s) : P { s with out := x } :=
  K.base s _ rfl rfl rfl h

theorem keep_scan (K : Keeps P) {s : Shelf} {x : Scanner} (hx : x.thresholds = s.scan.thresholds) (h : P s) :
    P { s with scan := x } := K.base s _ rfl rfl (by simp [cfg, hx]) h

theorem keep_recs (K : Keeps P) {s : Shelf} {x : Records} (h1 : x.recs = s.recs.recs)
    (h2 : x.identity = s.recs.identity) (h3 : x.reassign = s.recs.reassign) (h4 : x.held = s.recs.held) (h : P s) :
    P { s with recs := x } := K.base s _ rfl rfl (by simp [cfg, h1, h2, h3, h4]) h

theorem keep_eng (K : Keeps P) {s : Shelf} {x : Engine} (h1 : x.defs = s.eng.defs) (h2 : x.held = s.eng.held) (h : P s) :
    P { s with eng := x } := K.base s _ rfl rfl (by simp [cfg, h1, h2]) h

theorem keep_tim (K : Keeps P) {s : Shelf} {x : Timing} (h1 : x.refs = s.tim.refs) (h2 : x.opts = s.tim.opts)
    (h3 : x.held = s.tim.held) (h : P s) : P { s with tim := x } := K.base s _ rfl rfl (by simp [cfg, h1, h2, h3]) h

theorem keep_rdy (K : Keeps P) {s : Shelf} {x : Readiness} (h1 : x.opts = s.rdy.opts) (h2 : x.base = s.rdy.base)
    (h3 : x.ms = s.rdy.ms) (h4 : x.cause = s.rdy.cause) (h : P s) : P { s with rdy := x } :=
  K.base s _ rfl rfl (by simp [cfg, h1, h2, h3, h4]) h

theorem keep_tell (K : Keeps P) {n : Notice} {s : Shelf} (h : P s) : P (tell n s) := keep_out K h

/-! Setters whose function is given. -/

theorem keep_setRef (K : Keeps P) {r : RefNo} {f : Ref → Ref} (hf : ∀ x, (f x).defn = x.defn ∧ (f x).locked = x.locked)
    {s : Shelf} (h : P s) : P (setRef r f s) := by
  refine K.base s _ rfl rfl ?_ h
  have e : (upd s.tim.refs r f).toList.map (fun x => (x.defn, x.locked))
      = s.tim.refs.toList.map (fun x => (x.defn, x.locked)) := by
    simp only [upd, Vector.toList_set, List.map_set]
    apply List.ext_getElem
    · simp
    · intro i h1 h2
      simp only [List.getElem_set, List.getElem_map]
      split
      · rename_i hi; subst hi; simp [hf]
      · rfl
  simp [cfg, setRef, e]

theorem keep_setForce (K : Keeps P) {f : Option RefNo} {s : Shelf} (h : P s) : P (setForce f s) :=
  keep_tim K rfl rfl rfl h
theorem keep_setRun (K : Keeps P) {g : GroupNo} {f : GroupRun → GroupRun} {s : Shelf} (h : P s) : P (setRun g f s) :=
  keep_eng K rfl rfl h
theorem keep_setExec (K : Keeps P) {g : GroupNo} {f : GroupExec → GroupExec} {s : Shelf} (h : P s) : P (setExec g f s) :=
  keep_exe K h
theorem keep_setTasks (K : Keeps P) {f : List Task → List Task} {s : Shelf} (h : P s) : P (setTasks f s) := keep_exe K h
theorem keep_setActive (K : Keeps P) {a : Option ActiveTask} {s : Shelf} (h : P s) : P (setActive a s) := keep_exe K h
theorem keep_setOrder (K : Keeps P) {n : Nat} {f : Order → Order} {s : Shelf} (h : P s) : P (setOrder n f s) :=
  keep_ords K h
theorem keep_setList (K : Keeps P) {g : GroupNo} {f : List ReqEntry → List ReqEntry} {s : Shelf} (h : P s) :
    P (setList g f s) := keep_setRun K h
theorem keep_setHoldOff (K : Keeps P) {p : PortNo} {t : Option Nat} {s : Shelf} (h : P s) : P (setHoldOff p t s) :=
  keep_eng K rfl rfl h
theorem keep_setTimer (K : Keeps P) {p : PortNo} {t : CondemnTimer} {s : Shelf} (h : P s) : P (setTimer p t s) :=
  keep_recs K rfl rfl rfl rfl h
theorem keep_setCondemn (K : Keeps P) {p : PortNo} {c : Option Condemn} {s : Shelf} (h : P s) : P (setCondemn p c s) :=
  keep_recs K rfl rfl rfl rfl h
theorem keep_setPhase (K : Keeps P) {p : Phase} {s : Shelf} (h : P s) : P (setPhase p s) :=
  keep_rdy K rfl rfl rfl rfl h
theorem keep_setScan (K : Keeps P) {f : Scanner → Scanner} (hf : ∀ c, (f c).thresholds = c.thresholds) {s : Shelf}
    (h : P s) : P (setScan f s) := keep_scan K (hf _) h
theorem keep_setObs (K : Keeps P) {p : PortNo} {o : Obs} {s : Shelf} (h : P s) : P (setObs p o s) :=
  keep_setScan (f := fun c => { c with obs := put c.obs p o }) K (fun _ => rfl) h
theorem keep_setBp (K : Keeps P) {f : Backplane → Backplane} {s : Shelf} (h : P s) : P (setBp f s) := keep_bp K h
theorem keep_setSlot (K : Keeps P) {n : SlotNo} {f : SlotRec → SlotRec} {s : Shelf} (h : P s) : P (setSlot n f s) :=
  keep_bp K h

/-! Timing.lean -/

theorem keep_judgeRef (K : Keeps P) {moved : Bool} {r : RefNo} {s : Shelf} (h : P s) :
    P (judgeRef moved r s) := by
  unfold judgeRef
  try dsimp only
  repeat' first
      | with_reducible assumption
      | with_reducible apply keep_setRef K
      | exact fun _ => ⟨rfl, rfl⟩
      | split

theorem keep_rederiveRef (K : Keeps P) {r : RefNo} {s : Shelf} (h : P s) :
    P (rederiveRef r s) := by
  unfold rederiveRef
  try dsimp only
  repeat' first
      | with_reducible assumption
      | with_reducible apply keep_judgeRef K
      | with_reducible apply keep_setRef K
      | exact fun _ => ⟨rfl, rfl⟩
      | split

theorem keep_rederiveAll (K : Keeps P) {s : Shelf} (h : P s) :
    P (rederiveAll s) := by
  unfold rederiveAll
  try dsimp only
  repeat' first
      | with_reducible assumption
      | with_reducible apply keep_rederiveRef K
      | with_reducible apply keep_foldl (P := P)
      | (intro _ _ _; try dsimp only)
      | (intro _ _; try dsimp only)
      | split

theorem keep_selectReference (K : Keeps P) {s : Shelf} (h : P s) : P (selectReference s) := by
  unfold selectReference
  split
  · split
    · exact h
    · exact keep_tim K rfl rfl rfl h
  · split
    · refine keep_tim K ?_ ?_ ?_ h
      all_goals (split <;> rfl)
    · exact h

theorem keep_settleForce (K : Keeps P) {s : Shelf} (h : P s) :
    P (settleForce s) := by
  unfold settleForce
  try dsimp only
  repeat' first
      | with_reducible assumption
      | split
      | with_reducible apply keep_tim K
      | exact rfl

theorem keep_keepLastGrade (K : Keeps P) {s : Shelf} (h : P s) :
    P (keepLastGrade s) := by
  unfold keepLastGrade
  try dsimp only
  repeat' first
      | with_reducible assumption
      | split
      | with_reducible apply keep_tim K
      | exact rfl

theorem keep_joinGradeList (K : Keeps P) {p : PortNo} {s : Shelf} (h : P s) :
    P (joinGradeList p s) := by
  unfold joinGradeList
  try dsimp only
  repeat' first
      | with_reducible assumption
      | split
      | with_reducible apply keep_tim K
      | exact rfl

theorem keep_replan (K : Keeps P) {s : Shelf} (h : P s) :
    P (replan s) := by
  unfold replan
  try dsimp only
  repeat' first
      | with_reducible assumption
      | with_reducible apply keep_joinGradeList K
      | with_reducible apply keep_foldl (P := P)
      | (intro _ _ _; try dsimp only)
      | (intro _ _; try dsimp only)
      | split
      | with_reducible apply keep_tim K
      | exact rfl

theorem keep_gradesOwed (K : Keeps P) {n : SlotNo} {s : Shelf} (h : P s) :
    P (gradesOwed n s) := by
  unfold gradesOwed
  try dsimp only
  repeat' first
      | with_reducible assumption
      | with_reducible apply keep_foldl (P := P)
      | (intro _ _ _; try dsimp only)
      | (intro _ _; try dsimp only)
      | split
      | with_reducible apply keep_tim K
      | exact rfl

theorem keep_gradesGone (K : Keeps P) {n : SlotNo} {s : Shelf} (h : P s) :
    P (gradesGone n s) := by
  unfold gradesGone
  try dsimp only
  repeat' first
      | with_reducible assumption
      | with_reducible apply keep_foldl (P := P)
      | (intro _ _ _; try dsimp only)
      | (intro _ _; try dsimp only)
      | split
      | with_reducible apply keep_tim K
      | exact rfl

theorem keep_gradeWritten (K : Keeps P) {p : PortNo} {g : Grade} {s : Shelf} (h : P s) :
    P (gradeWritten p g s) := by
  unfold gradeWritten
  try dsimp only
  repeat' first
      | with_reducible assumption
      | with_reducible apply keep_joinGradeList K
      | split
      | with_reducible apply keep_tim K
      | exact rfl

theorem keep_gradeFaulted (K : Keeps P) {p : PortNo} {s : Shelf} (h : P s) :
    P (gradeFaulted p s) := by
  unfold gradeFaulted
  try dsimp only
  repeat' first
      | with_reducible assumption
      | split
      | with_reducible apply keep_tim K
      | exact rfl

theorem keep_reportTiming (K : Keeps P) {s : Shelf} (h : P s) :
    P (reportTiming s) := by
  unfold reportTiming
  try dsimp only
  repeat' first
      | with_reducible assumption
      | with_reducible apply keep_reportChange K
      | with_reducible apply keep_foldl (P := P)
      | (intro _ _ _; try dsimp only)
      | (intro _ _; try dsimp only)
      | split
      | exact ne_tableFull rfl

theorem keep_timingEvent (K : Keeps P) {f : Shelf → Shelf} (hf : ∀ s, P s → P (f s)) {s : Shelf} (h : P s) :
    P (timingEvent f s) := by
  have h1 : P (replan (reportTiming (keepLastGrade (selectReference (settleForce (rederiveAll (f s))))))) :=
    keep_replan K (keep_reportTiming K (keep_keepLastGrade K (keep_selectReference K (keep_settleForce K
      (keep_rederiveAll K (hf s h))))))
  unfold timingEvent
  dsimp only
  split
  · exact h1
  · exact keep_tell K h1

theorem keep_timingRun (K : Keeps P) {s : Shelf} (h : P s) : P (timingRun s) :=
  keep_timingEvent K (fun _ h => h) h

theorem keep_clearForceOn (K : Keeps P) {r : RefNo} {s : Shelf} (h : P s) :
    P (clearForceOn r s) := by
  unfold clearForceOn
  try dsimp only
  repeat' first
      | with_reducible assumption
      | with_reducible apply keep_setForce K
      | split

theorem keep_qualified (K : Keeps P) {r : RefNo} {s : Shelf} (h : P s) :
    P (qualified r s) := by
  unfold qualified
  try dsimp only
  repeat' first
      | with_reducible assumption
      | with_reducible apply keep_setRef K
      | with_reducible apply keep_timingEvent K
      | (intro _ _ _; try dsimp only)
      | (intro _ _; try dsimp only)
      | exact fun _ => ⟨rfl, rfl⟩
      | split

theorem keep_acquired (K : Keeps P) {s : Shelf} (h : P s) :
    P (acquired s) := by
  unfold acquired
  try dsimp only
  repeat' first
      | with_reducible assumption
      | with_reducible apply keep_timingEvent K
      | (intro _ _ _; try dsimp only)
      | (intro _ _; try dsimp only)
      | split
      | with_reducible apply keep_tim K
      | exact rfl

theorem keep_lockedLong (K : Keeps P) {s : Shelf} (h : P s) :
    P (lockedLong s) := by
  unfold lockedLong
  try dsimp only
  repeat' first
      | with_reducible assumption
      | split
      | with_reducible apply keep_tim K
      | exact rfl

theorem keep_holdoverOver (K : Keeps P) {s : Shelf} (h : P s) :
    P (holdoverOver s) := by
  unfold holdoverOver
  try dsimp only
  repeat' first
      | with_reducible assumption
      | with_reducible apply keep_timingEvent K
      | (intro _ _ _; try dsimp only)
      | (intro _ _; try dsimp only)
      | split
      | with_reducible apply keep_tim K
      | exact rfl

/-! Tasks.lean -/

theorem keep_joinExchange (K : Keeps P) {g : GroupNo} {kind : XKind} {s : Shelf} (h : P s) :
    P (joinExchange g kind s) := by
  unfold joinExchange
  try dsimp only
  repeat' first
      | with_reducible assumption
      | with_reducible apply keep_setExec K
      | with_reducible apply keep_setTasks K
      | split

theorem keep_joinAdoption (K : Keeps P) {g : GroupNo} {s : Shelf} (h : P s) :
    P (joinAdoption g s) := by
  unfold joinAdoption
  try dsimp only
  repeat' first
      | with_reducible assumption
      | with_reducible apply keep_setExec K
      | with_reducible apply keep_setTasks K
      | split

theorem keep_scheduleGroup (K : Keeps P) {g : GroupNo} {s : Shelf} (h : P s) :
    P (scheduleGroup g s) := by
  unfold scheduleGroup
  try dsimp only
  repeat' first
      | with_reducible assumption
      | with_reducible apply keep_joinAdoption K
      | with_reducible apply keep_joinExchange K
      | split

theorem keep_askAdoption (K : Keeps P) {g : GroupNo} {s : Shelf} (h : P s) :
    P (askAdoption g s) := by
  unfold askAdoption
  try dsimp only
  repeat' first
      | with_reducible assumption
      | with_reducible apply keep_joinAdoption K
      | with_reducible apply keep_setExec K
      | split

theorem keep_askAdoptionFor (K : Keeps P) {g : GroupNo} {s : Shelf} (h : P s) :
    P (askAdoptionFor g s) := by
  unfold askAdoptionFor
  try dsimp only
  repeat' first
      | with_reducible assumption
      | with_reducible apply keep_askAdoption K
      | with_reducible apply keep_setExec K
      | split

theorem keep_adoptAgain (K : Keeps P) {g : GroupNo} {s : Shelf} (h : P s) :
    P (adoptAgain g s) := by
  unfold adoptAgain
  try dsimp only
  repeat' first
      | with_reducible assumption
      | with_reducible apply keep_askAdoption K
      | split

theorem keep_syncClear (K : Keeps P) {s : Shelf} (h : P s) :
    P (syncClear s) := by
  unfold syncClear
  try dsimp only
  repeat' first
      | with_reducible assumption
      | with_reducible apply keep_setTasks K
      | split

theorem keep_joinClear (K : Keeps P) {p : PortNo} {s : Shelf} (h : P s) :
    P (joinClear p s) := by
  unfold joinClear
  try dsimp only
  repeat' first
      | with_reducible assumption
      | split
      | with_reducible apply keep_exe K

theorem keep_leaveClear (K : Keeps P) {p : PortNo} {s : Shelf} (h : P s) :
    P (leaveClear p s) := by
  unfold leaveClear
  try dsimp only
  repeat' first
      | with_reducible assumption
      | split
      | with_reducible apply keep_exe K

theorem keep_dropTasks (K : Keeps P) {g : GroupNo} {s : Shelf} (h : P s) :
    P (dropTasks g s) := by
  unfold dropTasks
  try dsimp only
  repeat' first
      | with_reducible assumption
      | with_reducible apply keep_setTasks K
      | split

theorem keep_endConfirm (K : Keeps P) {g : GroupNo} {s : Shelf} (h : P s) :
    P (endConfirm g s) := by
  unfold endConfirm
  try dsimp only
  repeat' first
      | with_reducible assumption
      | with_reducible apply keep_reportChange K
      | with_reducible apply keep_setExec K
      | split
      | exact ne_tableFull rfl

/-! Moves.lean -/

theorem keep_orderNotice (K : Keeps P) {e : OrderEvent} {o : Order} {s : Shelf} (h : P s) :
    P (orderNotice e o s) := by
  unfold orderNotice
  try dsimp only
  repeat' first
      | with_reducible assumption
      | with_reducible apply keep_tell K
      | split

theorem keep_noticeOf (K : Keeps P) {e : OrderEvent} {num : Nat} {s : Shelf} (h : P s) :
    P (noticeOf e num s) := by
  unfold noticeOf
  try dsimp only
  repeat' first
      | with_reducible assumption
      | with_reducible apply keep_orderNotice K
      | split

theorem keep_reportPatch (K : Keeps P) {num : Nat} {s : Shelf} (h : P s) :
    P (reportPatch num s) := by
  unfold reportPatch
  try dsimp only
  repeat' first
      | with_reducible assumption
      | with_reducible apply keep_reportChange K
      | split
      | exact ne_tableFull rfl

theorem keep_reportMisPatch (K : Keeps P) {num : Nat} {s : Shelf} (h : P s) :
    P (reportMisPatch num s) := by
  unfold reportMisPatch
  try dsimp only
  repeat' first
      | with_reducible assumption
      | with_reducible apply keep_reportChange K
      | split
      | exact ne_tableFull rfl

theorem keep_setStage (K : Keeps P) {num : Nat} {st : Stage} {s : Shelf} (h : P s) :
    P (setStage num st s) := by
  unfold setStage
  try dsimp only
  repeat' first
      | with_reducible assumption
      | with_reducible apply keep_setOrder K
      | split

theorem keep_refreshOrder (K : Keeps P) {num : Nat} {s : Shelf} (h : P s) :
    P (refreshOrder num s) := by
  unfold refreshOrder
  try dsimp only
  repeat' first
      | with_reducible assumption
      | with_reducible apply keep_refreshPort K
      | split

theorem keep_enterStage (K : Keeps P) {num : Nat} {st : Stage} {s : Shelf} (h : P s) :
    P (enterStage num st s) := by
  unfold enterStage
  try dsimp only
  repeat' first
      | with_reducible assumption
      | with_reducible apply keep_noticeOf K
      | with_reducible apply keep_refreshOrder K
      | with_reducible apply keep_reportMisPatch K
      | with_reducible apply keep_reportPatch K
      | with_reducible apply keep_setStage K
      | split

theorem keep_enterVerifying (K : Keeps P) {num : Nat} {s : Shelf} (h : P s) :
    P (enterVerifying num s) := by
  unfold enterVerifying
  try dsimp only
  repeat' first
      | with_reducible assumption
      | with_reducible apply keep_enterStage K
      | split

theorem keep_judgeDest (K : Keeps P) {num : Nat} {s : Shelf} (h : P s) :
    P (judgeDest num s) := by
  unfold judgeDest
  try dsimp only
  repeat' first
      | with_reducible assumption
      | with_reducible apply keep_enterVerifying K
      | with_reducible apply keep_reportMisPatch K
      | split

theorem keep_enterAwaitLight (K : Keeps P) {num : Nat} {s : Shelf} (h : P s) :
    P (enterAwaitLight num s) := by
  unfold enterAwaitLight
  try dsimp only
  repeat' first
      | with_reducible assumption
      | with_reducible apply keep_enterStage K
      | with_reducible apply keep_judgeDest K
      | with_reducible apply keep_setOrder K
      | split

theorem keep_judgeSource (K : Keeps P) {num : Nat} {s : Shelf} (h : P s) :
    P (judgeSource num s) := by
  unfold judgeSource
  try dsimp only
  repeat' first
      | with_reducible assumption
      | with_reducible apply keep_enterAwaitLight K
      | split

theorem keep_enterAwaitDark (K : Keeps P) {num : Nat} {s : Shelf} (h : P s) :
    P (enterAwaitDark num s) := by
  unfold enterAwaitDark
  try dsimp only
  repeat' first
      | with_reducible assumption
      | with_reducible apply keep_enterStage K
      | with_reducible apply keep_judgeSource K
      | with_reducible apply keep_timingRun K
      | split

theorem keep_holdReport (K : Keeps P) {num : Nat} {granted : Bool} {s : Shelf} (h : P s) :
    P (holdReport num granted s) := by
  unfold holdReport
  try dsimp only
  repeat' first
      | with_reducible assumption
      | with_reducible apply keep_enterAwaitDark K
      | with_reducible apply keep_noticeOf K
      | with_reducible apply keep_reportPatch K
      | with_reducible apply keep_setOrder K
      | split

/-! Engine.lean -/

theorem keep_askPlan (K : Keeps P) {g : GroupNo} {d : GroupDef} {active : Option (ReqClass × Nat)} {s : Shelf} (h : P s) :
    P (askPlan g d active s) := by
  unfold askPlan
  try dsimp only
  repeat' first
      | with_reducible assumption
      | with_reducible apply keep_endConfirm K
      | with_reducible apply keep_scheduleGroup K
      | with_reducible apply keep_setExec K
      | with_reducible apply keep_setRun K
      | split

theorem keep_actOn (K : Keeps P) {g : GroupNo} {d : GroupDef} {s : Shelf} (h : P s) :
    P (actOn g d s) := by
  unfold actOn
  try dsimp only
  repeat' first
      | with_reducible assumption
      | with_reducible apply keep_askPlan K
      | split

theorem keep_reportGroup (K : Keeps P) {g : GroupNo} {s : Shelf} (h : P s) :
    P (reportGroup g s) := by
  unfold reportGroup
  try dsimp only
  repeat' first
      | with_reducible assumption
      | with_reducible apply keep_reportChange K
      | split
      | exact ne_tableFull rfl

theorem keep_evaluate (K : Keeps P) {g : GroupNo} {s : Shelf} (h : P s) :
    P (evaluate g s) := by
  unfold evaluate
  try dsimp only
  repeat' first
      | with_reducible assumption
      | with_reducible apply keep_actOn K
      | with_reducible apply keep_reportGroup K
      | with_reducible apply keep_setRun K
      | split

theorem keep_groupNotice (K : Keeps P) {e : GroupEvent} {g : GroupNo} {fault : Option (Option BusAnswer × Nat × Bool)} {s : Shelf} (h : P s) :
    P (groupNotice e g fault s) := by
  unfold groupNotice
  try dsimp only
  repeat' first
      | with_reducible assumption
      | with_reducible apply keep_tell K
      | split

theorem keep_setGranted (K : Keeps P) {g : GroupNo} {b : Bool} {s : Shelf} (h : P s) :
    P (setGranted g b s) := by
  unfold setGranted
  try dsimp only
  repeat' first
      | with_reducible assumption
      | with_reducible apply keep_setList K
      | split

theorem keep_judgeHold (K : Keeps P) {g : GroupNo} {s : Shelf} (h : P s) :
    P (judgeHold g s) := by
  unfold judgeHold
  try dsimp only
  repeat' first
      | with_reducible assumption
      | with_reducible apply keep_holdReport K
      | with_reducible apply keep_setGranted K
      | split

theorem keep_placeHold (K : Keeps P) {g : GroupNo} {num chan : Nat} {s : Shelf} (h : P s) :
    P (placeHold g num chan s) := by
  unfold placeHold
  try dsimp only
  repeat' first
      | with_reducible assumption
      | with_reducible apply keep_evaluate K
      | with_reducible apply keep_judgeHold K
      | with_reducible apply keep_setList K
      | split

theorem keep_removeHold (K : Keeps P) {g : GroupNo} {num : Nat} {s : Shelf} (h : P s) :
    P (removeHold g num s) := by
  unfold removeHold
  try dsimp only
  repeat' first
      | with_reducible assumption
      | with_reducible apply keep_evaluate K
      | with_reducible apply keep_setList K
      | split

theorem keep_startHoldOff (K : Keeps P) {g : GroupNo} {d : GroupDef} {p : PortNo} {e : ReqClass × Nat} {s : Shelf} (h : P s) :
    P (startHoldOff g d p e s) := by
  unfold startHoldOff
  try dsimp only
  repeat' first
      | with_reducible assumption
      | with_reducible apply keep_setHoldOff K
      | with_reducible apply keep_setList K
      | split

theorem keep_stopHoldOff (K : Keeps P) {g : GroupNo} {p : PortNo} {e : ReqClass × Nat} {s : Shelf} (h : P s) :
    P (stopHoldOff g p e s) := by
  unfold stopHoldOff
  try dsimp only
  repeat' first
      | with_reducible assumption
      | with_reducible apply keep_setHoldOff K
      | with_reducible apply keep_setList K
      | split

theorem keep_evaluateIfChanged (K : Keeps P) {g : GroupNo} {before after : Shelf} (_hbefore : P before) (hafter : P after) :
    P (evaluateIfChanged g before after) := by
  unfold evaluateIfChanged
  try dsimp only
  repeat' first
      | with_reducible assumption
      | with_reducible apply keep_evaluate K
      | split

theorem keep_engineCondition (K : Keeps P) {p : PortNo} {old new : PortCond} {s : Shelf} (h : P s) :
    P (engineCondition p old new s) := by
  unfold engineCondition
  try dsimp only
  repeat' first
      | with_reducible assumption
      | with_reducible apply keep_evaluateIfChanged K
      | with_reducible apply keep_startHoldOff K
      | with_reducible apply keep_stopHoldOff K
      | split

theorem keep_holdOffOver (K : Keeps P) {p : PortNo} {s : Shelf} (h : P s) :
    P (holdOffOver p s) := by
  unfold holdOffOver
  try dsimp only
  repeat' first
      | with_reducible assumption
      | with_reducible apply keep_evaluateIfChanged K
      | with_reducible apply keep_setHoldOff K
      | with_reducible apply keep_setList K
      | split

theorem keep_refreshFar (K : Keeps P) {g : GroupNo} {d : GroupDef} {s : Shelf} (h : P s) :
    P (refreshFar g d s) := by
  unfold refreshFar
  try dsimp only
  repeat' first
      | with_reducible assumption
      | with_reducible apply keep_evaluate K
      | with_reducible apply keep_setRun K
      | split

theorem keep_engineWord (K : Keeps P) {p : PortNo} {s : Shelf} (h : P s) :
    P (engineWord p s) := by
  unfold engineWord
  try dsimp only
  repeat' first
      | with_reducible assumption
      | with_reducible apply keep_refreshFar K
      | split

theorem keep_wtrOver (K : Keeps P) {g : GroupNo} {s : Shelf} (h : P s) :
    P (wtrOver g s) := by
  unfold wtrOver
  try dsimp only
  repeat' first
      | with_reducible assumption
      | with_reducible apply keep_evaluate K
      | with_reducible apply keep_setRun K
      | split

theorem keep_setSelected (K : Keeps P) {g : GroupNo} {c : Nat} {s : Shelf} (h : P s) :
    P (setSelected g c s) := by
  unfold setSelected
  try dsimp only
  repeat' first
      | with_reducible assumption
      | with_reducible apply keep_setRun K
      | split

theorem keep_timingFollows (K : Keeps P) {g : GroupNo} {before after : Shelf} (_hbefore : P before) (hafter : P after) :
    P (timingFollows g before after) := by
  unfold timingFollows
  try dsimp only
  repeat' first
      | with_reducible assumption
      | with_reducible apply keep_timingRun K
      | split

theorem keep_selectionFollows (K : Keeps P) {g : GroupNo} {before after : Shelf} (_hbefore : P before) (hafter : P after) :
    P (selectionFollows g before after) := by
  unfold selectionFollows
  try dsimp only
  repeat' first
      | with_reducible assumption
      | with_reducible apply keep_timingRun K
      | with_reducible apply keep_judgeHold K
      | split

theorem keep_planCompleted (K : Keeps P) {g : GroupNo} {c : Nat} {s : Shelf} (h : P s) :
    P (planCompleted g c s) := by
  unfold planCompleted
  try dsimp only
  repeat' first
      | with_reducible assumption
      | with_reducible apply keep_evaluate K
      | with_reducible apply keep_groupNotice K
      | with_reducible apply keep_judgeHold K
      | with_reducible apply keep_scheduleGroup K
      | with_reducible apply keep_setExec K
      | with_reducible apply keep_setRun K
      | with_reducible apply keep_setSelected K
      | with_reducible apply keep_timingFollows K
      | split

theorem keep_adopted (K : Keeps P) {g : GroupNo} {c : Nat} {s : Shelf} (h : P s) :
    P (adopted g c s) := by
  unfold adopted
  try dsimp only
  repeat' first
      | with_reducible assumption
      | with_reducible apply keep_selectionFollows K
      | with_reducible apply keep_evaluate K
      | with_reducible apply keep_groupNotice K
      | with_reducible apply keep_scheduleGroup K
      | with_reducible apply keep_setRun K
      | with_reducible apply keep_setSelected K
      | split

theorem keep_engineStuck (K : Keeps P) {g : GroupNo} {fault : Option BusAnswer × Nat × Bool} {s : Shelf} (h : P s) :
    P (engineStuck g fault s) := by
  unfold engineStuck
  try dsimp only
  repeat' first
      | with_reducible assumption
      | with_reducible apply keep_evaluate K
      | with_reducible apply keep_groupNotice K
      | with_reducible apply keep_setRun K
      | split

theorem keep_barGroup (K : Keeps P) {g : GroupNo} {s : Shelf} (h : P s) :
    P (barGroup g s) := by
  unfold barGroup
  try dsimp only
  repeat' first
      | with_reducible assumption
      | with_reducible apply keep_evaluateIfChanged K
      | with_reducible apply keep_setList K
      | split

theorem keep_pinGroup (K : Keeps P) {g : GroupNo} {chan : Nat} {s : Shelf} (h : P s) :
    P (pinGroup g chan s) := by
  unfold pinGroup
  try dsimp only
  repeat' first
      | with_reducible assumption
      | with_reducible apply keep_evaluateIfChanged K
      | with_reducible apply keep_setList K
      | split

theorem keep_operatorSwitchGroup (K : Keeps P) {g : GroupNo} {chan : Nat} {s : Shelf} (h : P s) :
    P (operatorSwitchGroup g chan s) := by
  unfold operatorSwitchGroup
  try dsimp only
  repeat' first
      | with_reducible assumption
      | with_reducible apply keep_evaluateIfChanged K
      | with_reducible apply keep_setList K
      | split

theorem keep_clearGroupRequests (K : Keeps P) {g : GroupNo} {s : Shelf} (h : P s) :
    P (clearGroupRequests g s) := by
  unfold clearGroupRequests
  try dsimp only
  repeat' first
      | with_reducible assumption
      | with_reducible apply keep_evaluateIfChanged K
      | with_reducible apply keep_setList K
      | split

theorem keep_joinMember (K : Keeps P) {g : GroupNo} {d : GroupDef} {p : PortNo} {s : Shelf} (h : P s) :
    P (joinMember g d p s) := by
  unfold joinMember
  try dsimp only
  repeat' first
      | with_reducible assumption
      | with_reducible apply keep_startHoldOff K
      | split

theorem keep_stopMembers (K : Keeps P) {d : GroupDef} {s : Shelf} (h : P s) :
    P (stopMembers d s) := by
  unfold stopMembers
  try dsimp only
  repeat' first
      | with_reducible assumption
      | with_reducible apply keep_setHoldOff K
      | with_reducible apply keep_foldl (P := P)
      | (intro _ _ _; try dsimp only)
      | (intro _ _; try dsimp only)
      | split

/-! Orders.lean -/

theorem keep_poolUpdate (K : Keeps P) {s : Shelf} (h : P s) :
    P (poolUpdate s) := by
  unfold poolUpdate
  try dsimp only
  repeat' first
      | with_reducible assumption
      | with_reducible apply keep_reportChange K
      | with_reducible apply keep_reportPool K
      | split
      | exact ne_tableFull rfl

theorem keep_reportTags (K : Keeps P) {p : PortNo} {s : Shelf} (h : P s) :
    P (reportTags p s) := by
  unfold reportTags
  try dsimp only
  repeat' first
      | with_reducible assumption
      | with_reducible apply keep_reportChange K
      | split
      | exact ne_tableFull rfl

theorem keep_reportNoSpare (K : Keeps P) {p : PortNo} {s : Shelf} (h : P s) :
    P (reportNoSpare p s) := by
  unfold reportNoSpare
  try dsimp only
  repeat' first
      | with_reducible assumption
      | with_reducible apply keep_reportChange K
      | split
      | exact ne_tableFull rfl

theorem keep_reportMissing (K : Keeps P) {n : SlotNo} {s : Shelf} (h : P s) :
    P (reportMissing n s) := by
  unfold reportMissing
  try dsimp only
  repeat' first
      | with_reducible assumption
      | with_reducible apply keep_reportChange K
      | split
      | exact ne_tableFull rfl

theorem keep_joinTags (K : Keeps P) {p : PortNo} {s : Shelf} (h : P s) :
    P (joinTags p s) := by
  unfold joinTags
  try dsimp only
  repeat' first
      | with_reducible assumption
      | split
      | with_reducible apply keep_recs K
      | exact rfl

theorem keep_tagOwedChanged (K : Keeps P) {p : PortNo} {s : Shelf} (h : P s) :
    P (tagOwedChanged p s) := by
  unfold tagOwedChanged
  try dsimp only
  repeat' first
      | with_reducible assumption
      | with_reducible apply keep_joinTags K
      | split
      | with_reducible apply keep_recs K
      | exact rfl

theorem keep_syncTimer (K : Keeps P) {p : PortNo} {s : Shelf} (h : P s) :
    P (syncTimer p s) := by
  unfold syncTimer
  try dsimp only
  repeat' first
      | with_reducible assumption
      | with_reducible apply keep_setTimer K
      | split

theorem keep_leaveCandidates (K : Keeps P) {p : PortNo} {s : Shelf} (h : P s) :
    P (leaveCandidates p s) := by
  unfold leaveCandidates
  try dsimp only
  repeat' first
      | with_reducible assumption
      | split
      | with_reducible apply keep_recs K
      | exact rfl

theorem keep_enterCandidates (K : Keeps P) {p : PortNo} {s : Shelf} (h : P s) :
    P (enterCandidates p s) := by
  unfold enterCandidates
  try dsimp only
  repeat' first
      | with_reducible assumption
      | split
      | with_reducible apply keep_recs K
      | exact rfl

theorem keep_syncCandidate (K : Keeps P) {p : PortNo} {s : Shelf} (h : P s) :
    P (syncCandidate p s) := by
  unfold syncCandidate
  try dsimp only
  repeat' first
      | with_reducible assumption
      | with_reducible apply keep_leaveCandidates K
      | split

theorem keep_syncPort (K : Keeps P) {p : PortNo} {s : Shelf} (h : P s) :
    P (syncPort p s) := by
  unfold syncPort
  try dsimp only
  repeat' first
      | with_reducible assumption
      | with_reducible apply keep_syncCandidate K
      | with_reducible apply keep_syncTimer K
      | split

theorem keep_setExpired (K : Keeps P) {p : PortNo} {b : Bool} {s : Shelf} (h : P s) :
    P (setExpired p b s) := by
  unfold setExpired
  try dsimp only
  repeat' first
      | with_reducible assumption
      | with_reducible apply keep_reportChange K
      | split
      | with_reducible apply keep_ords K
      | exact ne_tableFull rfl

theorem keep_startOrder (K : Keeps P) {s : Shelf} {num : Nat} (h : P s) :
    P (startOrder s num) := by
  unfold startOrder
  try dsimp only
  repeat' first
      | with_reducible assumption
      | with_reducible apply keep_enterAwaitDark K
      | with_reducible apply keep_enterStage K
      | with_reducible apply keep_placeHold K
      | split

theorem keep_startCheck (K : Keeps P) {s : Shelf} (h : P s) :
    P (startCheck s) := by
  unfold startCheck
  try dsimp only
  repeat' first
      | with_reducible assumption
      | with_reducible apply keep_startOrder K
      | with_reducible apply keep_foldl (P := P)
      | (intro _ _ _; try dsimp only)
      | (intro _ _; try dsimp only)
      | split

theorem keep_openOrder (K : Keeps P) {origin : Origin} {src dst : PortNo} {unprotected : Bool} {dark light : Nat} {s : Shelf} (h : P s) :
    P (openOrder origin src dst unprotected dark light s).1 := by
  unfold openOrder
  try dsimp only
  repeat' first
      | with_reducible assumption
      | with_reducible apply keep_orderNotice K
      | with_reducible apply keep_poolUpdate K
      | with_reducible apply keep_reportNoSpare K
      | with_reducible apply keep_setExpired K
      | with_reducible apply keep_startCheck K
      | with_reducible apply keep_syncPort K
      | split
      | with_reducible apply keep_ords K

theorem keep_tryCondemn (K : Keeps P) {p : PortNo} {s : Shelf} (h : P s) :
    P (tryCondemn p s).1 := by
  unfold tryCondemn
  try dsimp only
  repeat' first
      | with_reducible assumption
      | with_reducible apply keep_openOrder K
      | split

theorem keep_retryCondemned (K : Keeps P) {s : Shelf} (h : P s) :
    P (retryCondemned s) := by
  unfold retryCondemned
  try dsimp only
  repeat' first
      | with_reducible assumption
      | with_reducible apply keep_tryCondemn K
      | with_reducible apply keep_foldl (P := P)
      | (intro _ _ _; try dsimp only)
      | (intro _ _; try dsimp only)
      | split

theorem keep_condemnPort (K : Keeps P) {p : PortNo} {c : Condemn} {s : Shelf} (h : P s) :
    P (condemnPort p c s).1 := by
  unfold condemnPort
  try dsimp only
  repeat' first
      | with_reducible assumption
      | with_reducible apply keep_reportNoSpare K
      | with_reducible apply keep_setCondemn K
      | with_reducible apply keep_syncTimer K
      | with_reducible apply keep_tryCondemn K
      | split

theorem keep_manualCondemn (K : Keeps P) {p : PortNo} {c : Condemn} {s : Shelf} (h : P s) :
    P (manualCondemn p c s).1 := by
  unfold manualCondemn
  try dsimp only
  repeat' first
      | with_reducible assumption
      | with_reducible apply keep_condemnPort K
      | with_reducible apply keep_leaveCandidates K
      | split

theorem keep_autoCondemn (K : Keeps P) {p : PortNo} {s : Shelf} (h : P s) :
    P (autoCondemn p s) := by
  unfold autoCondemn
  try dsimp only
  repeat' first
      | with_reducible assumption
      | with_reducible apply keep_leaveCandidates K
      | with_reducible apply keep_condemnPort K
      | split

theorem keep_trigger (K : Keeps P) {p : PortNo} {s : Shelf} (h : P s) :
    P (trigger p s) := by
  unfold trigger
  try dsimp only
  repeat' first
      | with_reducible assumption
      | with_reducible apply keep_autoCondemn K
      | split

theorem keep_sweep (K : Keeps P) {s : Shelf} (h : P s) :
    P (sweep s) := by
  unfold sweep
  try dsimp only
  repeat' first
      | with_reducible assumption
      | with_reducible apply keep_trigger K
      | with_reducible apply keep_foldl (P := P)
      | (intro _ _ _; try dsimp only)
      | (intro _ _; try dsimp only)
      | split

theorem keep_condemnTimerOver (K : Keeps P) {p : PortNo} {s : Shelf} (h : P s) :
    P (condemnTimerOver p s) := by
  unfold condemnTimerOver
  try dsimp only
  repeat' first
      | with_reducible assumption
      | with_reducible apply keep_setTimer K
      | with_reducible apply keep_trigger K
      | split

theorem keep_poolEvent (K : Keeps P) {s : Shelf} (h : P s) :
    P (poolEvent s) := by
  unfold poolEvent
  try dsimp only
  repeat' first
      | with_reducible assumption
      | with_reducible apply keep_poolUpdate K
      | with_reducible apply keep_retryCondemned K
      | split

theorem keep_clearCondemn (K : Keeps P) {p : PortNo} {s : Shelf} (h : P s) :
    P (clearCondemn p s) := by
  unfold clearCondemn
  try dsimp only
  repeat' first
      | with_reducible assumption
      | with_reducible apply keep_reportNoSpare K
      | with_reducible apply keep_setCondemn K
      | with_reducible apply keep_syncTimer K
      | split

theorem keep_setTagsTold (K : Keeps P) {p : PortNo} {s : Shelf} (h : P s) : P (setTagsTold p s) :=
  K.told _ _ _ _ (K.told _ _ _ _ h)

theorem keep_classChanged (K : Keeps P) {p : PortNo} {old : ServiceClass} {s : Shelf} (h : P s) :
    P (classChanged p old s) := by
  unfold classChanged
  try dsimp only
  repeat' first
      | with_reducible assumption
      | with_reducible apply keep_poolEvent K
      | with_reducible apply keep_refreshPort K
      | with_reducible apply keep_reportMissing K
      | with_reducible apply keep_setTagsTold K
      | with_reducible apply keep_syncPort K
      | with_reducible apply keep_tagOwedChanged K
      | split

theorem keep_recordsCondition (K : Keeps P) {p : PortNo} {old new : PortCond} {s : Shelf} (h : P s) :
    P (recordsCondition p old new s) := by
  unfold recordsCondition
  try dsimp only
  repeat' first
      | with_reducible assumption
      | with_reducible apply keep_enterCandidates K
      | with_reducible apply keep_reportTags K
      | with_reducible apply keep_syncTimer K
      | with_reducible apply keep_trigger K
      | split

theorem keep_settleCondemn (K : Keeps P) {o : Order} {ending : OrderEvent} {s : Shelf} (h : P s) :
    P (settleCondemn o ending s) := by
  unfold settleCondemn
  try dsimp only
  repeat' first
      | with_reducible assumption
      | with_reducible apply keep_setCondemn K
      | split

theorem keep_dropHold (K : Keeps P) {o : Order} {s : Shelf} (h : P s) :
    P (dropHold o s) := by
  unfold dropHold
  try dsimp only
  repeat' first
      | with_reducible assumption
      | with_reducible apply keep_removeHold K
      | split

theorem keep_endOrderAlarms (K : Keeps P) {o : Order} {s : Shelf} (h : P s) :
    P (endOrderAlarms o s) := by
  unfold endOrderAlarms
  try dsimp only
  repeat' first
      | with_reducible assumption
      | with_reducible apply keep_refreshPort K
      | with_reducible apply keep_reportChange K
      | split
      | exact ne_tableFull rfl

theorem keep_orderOut (K : Keeps P) {o : Order} {ending : OrderEvent} {s : Shelf} (h : P s) :
    P (orderOut o ending s) := by
  unfold orderOut
  try dsimp only
  repeat' first
      | with_reducible assumption
      | with_reducible apply keep_dropHold K
      | with_reducible apply keep_endOrderAlarms K
      | with_reducible apply keep_orderNotice K
      | with_reducible apply keep_poolUpdate K
      | with_reducible apply keep_reportNoSpare K
      | with_reducible apply keep_retryCondemned K
      | with_reducible apply keep_setExpired K
      | with_reducible apply keep_settleCondemn K
      | with_reducible apply keep_startCheck K
      | with_reducible apply keep_syncPort K
      | with_reducible apply keep_timingRun K
      | split
      | with_reducible apply keep_ords K

theorem keep_orderGone (K : Keeps P) {o : Order} {s : Shelf} (h : P s) :
    P (orderGone o s) := by
  unfold orderGone
  try dsimp only
  repeat' first
      | with_reducible assumption
      | with_reducible apply keep_dropHold K
      | with_reducible apply keep_endOrderAlarms K
      | with_reducible apply keep_orderNotice K
      | with_reducible apply keep_poolUpdate K
      | with_reducible apply keep_reportNoSpare K
      | with_reducible apply keep_retryCondemned K
      | with_reducible apply keep_setExpired K
      | with_reducible apply keep_settleCondemn K
      | with_reducible apply keep_startCheck K
      | with_reducible apply keep_syncPort K
      | with_reducible apply keep_timingRun K
      | split
      | with_reducible apply keep_ords K

theorem keep_leaveOrder (K : Keeps P) {num : Nat} {ending : OrderEvent} {s : Shelf} (h : P s) :
    P (leaveOrder num ending s) := by
  unfold leaveOrder
  split
  · exact h
  · exact keep_orderGone K (keep_orderOut K h)

theorem keep_expireOrder (K : Keeps P) {num : Nat} {s : Shelf} (h : P s) :
    P (expireOrder num s) := by
  unfold expireOrder
  try dsimp only
  repeat' first
      | with_reducible assumption
      | with_reducible apply keep_leaveOrder K
      | split

theorem keep_lapse (K : Keeps P) {num : Nat} {s : Shelf} (h : P s) :
    P (lapse num s) := by
  unfold lapse
  try dsimp only
  repeat' first
      | with_reducible assumption
      | with_reducible apply keep_enterAwaitLight K
      | with_reducible apply keep_expireOrder K
      | split

theorem keep_destEvent (K : Keeps P) {p : PortNo} {s : Shelf} (h : P s) :
    P (destEvent p s) := by
  unfold destEvent
  try dsimp only
  repeat' first
      | with_reducible assumption
      | with_reducible apply keep_judgeDest K
      | with_reducible apply keep_lapse K
      | split

theorem keep_sourceEvent (K : Keeps P) {p : PortNo} {s : Shelf} (h : P s) :
    P (sourceEvent p s) := by
  unfold sourceEvent
  try dsimp only
  repeat' first
      | with_reducible assumption
      | with_reducible apply keep_judgeSource K
      | split

theorem keep_darkOver (K : Keeps P) {num : Nat} {s : Shelf} (h : P s) :
    P (darkOver num s) := by
  unfold darkOver
  try dsimp only
  repeat' first
      | with_reducible assumption
      | with_reducible apply keep_expireOrder K
      | split

theorem keep_lightOver (K : Keeps P) {num : Nat} {s : Shelf} (h : P s) :
    P (lightOver num s) := by
  unfold lightOver
  try dsimp only
  repeat' first
      | with_reducible assumption
      | with_reducible apply keep_expireOrder K
      | split

theorem keep_askSubstitution (K : Keeps P) {g : GroupNo} {chan : Nat} {src dst : PortNo} {s : Shelf} (h : P s) :
    P (askSubstitution g chan src dst s) := by
  unfold askSubstitution
  try dsimp only
  repeat' first
      | with_reducible assumption
      | with_reducible apply keep_leaveClear K
      | with_reducible apply keep_scheduleGroup K
      | with_reducible apply keep_setExec K
      | split

/-! Executor.lean -/

theorem keep_exchangeValues (K : Keeps P) {words : List Word} {s : Shelf} (h : P s) :
    P (exchangeValues words s).2 := by
  unfold exchangeValues
  try dsimp only
  repeat' first
      | with_reducible assumption
      | with_reducible apply keep_setExec K
      | split

theorem keep_finishPreparation (K : Keeps P) {g : GroupNo} {s : Shelf} (h : P s) :
    P (finishPreparation g s) := by
  unfold finishPreparation
  try dsimp only
  repeat' first
      | with_reducible assumption
      | with_reducible apply keep_evaluate K
      | with_reducible apply keep_setExec K
      | split

theorem keep_prepareGroup (K : Keeps P) {g : GroupNo} {s : Shelf} (h : P s) :
    P (prepareGroup g s) := by
  unfold prepareGroup
  try dsimp only
  repeat' first
      | with_reducible assumption
      | with_reducible apply keep_finishPreparation K
      | with_reducible apply keep_scheduleGroup K
      | with_reducible apply keep_setExec K
      | split

theorem keep_enterArmed (K : Keeps P) {s : Shelf} (h : P s) :
    P (enterArmed s) := by
  unfold enterArmed
  try dsimp only
  repeat' first
      | with_reducible assumption
      | with_reducible apply keep_evaluate K
      | with_reducible apply keep_prepareGroup K
      | with_reducible apply keep_scheduleGroup K
      | with_reducible apply keep_setPhase K
      | with_reducible apply keep_startCheck K
      | with_reducible apply keep_sweep K
      | with_reducible apply keep_syncClear K
      | with_reducible apply keep_tell K
      | with_reducible apply keep_foldl (P := P)
      | (intro _ _ _; try dsimp only)
      | (intro _ _; try dsimp only)
      | split

theorem keep_armingEnded (K : Keeps P) {g : GroupNo} {s : Shelf} (h : P s) :
    P (armingEnded g s) := by
  unfold armingEnded
  try dsimp only
  repeat' first
      | with_reducible assumption
      | with_reducible apply keep_enterArmed K
      | split
      | with_reducible apply keep_exe K

theorem keep_substitutionEnded (K : Keeps P) {g : GroupNo} {ending : OrderEvent} {s : Shelf} (h : P s) :
    P (substitutionEnded g ending s) := by
  unfold substitutionEnded
  try dsimp only
  repeat' first
      | with_reducible assumption
      | with_reducible apply keep_leaveOrder K
      | split

theorem keep_groupStuck (K : Keeps P) {g : GroupNo} {fault : Option BusAnswer × Nat × Bool} {s : Shelf} (h : P s) :
    P (groupStuck g fault s) := by
  unfold groupStuck
  try dsimp only
  repeat' first
      | with_reducible assumption
      | with_reducible apply keep_dropTasks K
      | with_reducible apply keep_engineStuck K
      | with_reducible apply keep_reportChange K
      | with_reducible apply keep_setExec K
      | with_reducible apply keep_substitutionEnded K
      | split
      | exact ne_tableFull rfl

theorem keep_judgeConfirm (K : Keeps P) {g : GroupNo} {s : Shelf} (h : P s) :
    P (judgeConfirm g s) := by
  unfold judgeConfirm
  try dsimp only
  repeat' first
      | with_reducible assumption
      | with_reducible apply keep_endConfirm K
      | with_reducible apply keep_scheduleGroup K
      | with_reducible apply keep_setExec K
      | split

theorem keep_executorWord (K : Keeps P) {p : PortNo} {s : Shelf} (h : P s) :
    P (executorWord p s) := by
  unfold executorWord
  try dsimp only
  repeat' first
      | with_reducible assumption
      | with_reducible apply keep_judgeConfirm K
      | split

theorem keep_confirmOver (K : Keeps P) {g : GroupNo} {s : Shelf} (h : P s) :
    P (confirmOver g s) := by
  unfold confirmOver
  try dsimp only
  repeat' first
      | with_reducible assumption
      | with_reducible apply keep_reportChange K
      | split
      | exact ne_tableFull rfl

theorem keep_endJob (K : Keeps P) {g : GroupNo} {s : Shelf} (h : P s) :
    P (endJob g s) := by
  unfold endJob
  try dsimp only
  repeat' first
      | with_reducible assumption
      | with_reducible apply keep_setExec K
      | split

theorem keep_exchangeDone (K : Keeps P) {g : GroupNo} {j : XJob} {s : Shelf} (h : P s) :
    P (exchangeDone g j s) := by
  unfold exchangeDone
  try dsimp only
  repeat' first
      | with_reducible assumption
      | with_reducible apply keep_endJob K
      | with_reducible apply keep_finishPreparation K
      | with_reducible apply keep_judgeConfirm K
      | with_reducible apply keep_planCompleted K
      | with_reducible apply keep_scheduleGroup K
      | with_reducible apply keep_setExec K
      | with_reducible apply keep_substitutionEnded K
      | split

theorem keep_retryLater (K : Keeps P) {g : GroupNo} {j : XJob} {fault : Option BusAnswer × Nat × Bool} {s : Shelf} (h : P s) :
    P (retryLater g j fault s) := by
  unfold retryLater
  try dsimp only
  repeat' first
      | with_reducible assumption
      | with_reducible apply keep_groupStuck K
      | with_reducible apply keep_setExec K
      | split

theorem keep_exchangeFaulted (K : Keeps P) {g : GroupNo} {j : XJob} {a : BusAnswer} {writes : Nat} {s : Shelf} (h : P s) :
    P (exchangeFaulted g j a writes s) := by
  unfold exchangeFaulted
  try dsimp only
  repeat' first
      | with_reducible assumption
      | with_reducible apply keep_groupNotice K
      | with_reducible apply keep_retryLater K
      | with_reducible apply keep_setExec K
      | with_reducible apply keep_setTasks K
      | split

theorem keep_groupExchangeEnd (K : Keeps P) {g : GroupNo} {e : TxnEnd} {s : Shelf} (h : P s) :
    P (groupExchangeEnd g e s) := by
  unfold groupExchangeEnd
  try dsimp only
  repeat' first
      | with_reducible assumption
      | with_reducible apply keep_exchangeDone K
      | with_reducible apply keep_exchangeFaulted K
      | with_reducible apply keep_groupStuck K
      | with_reducible apply keep_retryLater K
      | split

theorem keep_clearEnd (K : Keeps P) {ports : List PortNo} {e : TxnEnd} {s : Shelf} (h : P s) :
    P (clearEnd ports e s) := by
  unfold clearEnd
  try dsimp only
  repeat' first
      | with_reducible assumption
      | with_reducible apply keep_leaveClear K
      | with_reducible apply keep_syncClear K
      | with_reducible apply keep_foldl (P := P)
      | (intro _ _ _; try dsimp only)
      | (intro _ _; try dsimp only)
      | split
      | with_reducible apply keep_exe K

theorem keep_adoptionEnd (K : Keeps P) {g : GroupNo} {got : List (PortNo × Option Word)} {s : Shelf} (h : P s) :
    P (adoptionEnd g got s) := by
  unfold adoptionEnd
  try dsimp only
  repeat' first
      | with_reducible assumption
      | with_reducible apply keep_adoptAgain K
      | with_reducible apply keep_adopted K
      | with_reducible apply keep_armingEnded K
      | with_reducible apply keep_groupStuck K
      | with_reducible apply keep_reportChange K
      | with_reducible apply keep_setExec K
      | split
      | exact ne_tableFull rfl

theorem keep_askExecutor (K : Keeps P) {t : Txn} {s : Shelf} (h : P s) :
    P (askExecutor t s) := by
  unfold askExecutor
  try dsimp only
  repeat' first
      | with_reducible assumption
      | split
      | with_reducible apply keep_bp K

theorem keep_adoptNext (K : Keeps P) {g : GroupNo} {l : List PortNo} {got : List (PortNo × Option Word)} {s : Shelf}
    (h : P s) : P (adoptNext g l got s) := by
  induction l generalizing got with
  | nil => exact keep_adoptionEnd K (keep_setActive K h)
  | cons p rest ih =>
    unfold adoptNext
    split
    · exact keep_askExecutor K (keep_setActive K h)
    · exact ih

theorem keep_adoptRead (K : Keeps P) {g : GroupNo} {rest : List PortNo} {got : List (PortNo × Option Word)} {e : TxnEnd} {s : Shelf} (h : P s) :
    P (adoptRead g rest got e s) := by
  unfold adoptRead
  try dsimp only
  repeat' first
      | with_reducible assumption
      | with_reducible apply keep_adoptNext K
      | split

theorem keep_clearSource (K : Keeps P) {x : GroupExec} {i j : XJob} {s : Shelf} (h : P s) : P (clearSource x i j s) := by
  unfold clearSource
  split
  · split
    · exact keep_joinClear K h
    · exact h
  · exact h

theorem keep_takeExchange (K : Keeps P) {g : GroupNo} {s : Shelf} (h : P s) :
    P (takeExchange g s) := by
  unfold takeExchange
  try dsimp only
  repeat' first
      | with_reducible assumption
      | with_reducible apply keep_askExecutor K
      | with_reducible apply keep_exchangeDone K
      | with_reducible apply keep_clearSource K
      | with_reducible apply keep_setActive K
      | with_reducible apply keep_setExec K
      | split

theorem keep_takeTask (K : Keeps P) {t : Task} {s : Shelf} (h : P s) :
    P (takeTask t s) := by
  unfold takeTask
  try dsimp only
  repeat' first
      | with_reducible assumption
      | with_reducible apply keep_adoptNext K
      | with_reducible apply keep_armingEnded K
      | with_reducible apply keep_askExecutor K
      | with_reducible apply keep_setActive K
      | with_reducible apply keep_takeExchange K
      | split

theorem keep_serveExecutor (K : Keeps P) {k : Nat} {s : Shelf} (h : P s) : P (serveExecutor k s) := by
  induction k generalizing s with
  | zero => exact h
  | succ k ih =>
    unfold serveExecutor
    split
    · exact h
    · split
      · exact h
      · exact ih (keep_takeTask K (keep_setTasks K h))

theorem keep_executorEnd (K : Keeps P) {e : TxnEnd} {s : Shelf} (h : P s) :
    P (executorEnd e s) := by
  unfold executorEnd
  try dsimp only
  repeat' first
      | with_reducible assumption
      | with_reducible apply keep_adoptRead K
      | with_reducible apply keep_clearEnd K
      | with_reducible apply keep_groupExchangeEnd K
      | with_reducible apply keep_setActive K
      | split

theorem keep_retryOver (K : Keeps P) {g : GroupNo} {s : Shelf} (h : P s) :
    P (retryOver g s) := by
  unfold retryOver
  try dsimp only
  repeat' first
      | with_reducible assumption
      | with_reducible apply keep_setExec K
      | with_reducible apply keep_setTasks K
      | split

theorem keep_clearRetryOver (K : Keeps P) {s : Shelf} (h : P s) :
    P (clearRetryOver s) := by
  unfold clearRetryOver
  try dsimp only
  repeat' first
      | with_reducible assumption
      | with_reducible apply keep_syncClear K
      | split
      | with_reducible apply keep_exe K

theorem keep_oweAgain (K : Keeps P) {n : SlotNo} {g : GroupNo} {s : Shelf} (h : P s) :
    P (oweAgain n g s) := by
  unfold oweAgain
  try dsimp only
  repeat' first
      | with_reducible assumption
      | with_reducible apply keep_scheduleGroup K
      | with_reducible apply keep_setExec K
      | split

theorem keep_executorPresent (K : Keeps P) {n : SlotNo} {s : Shelf} (h : P s) :
    P (executorPresent n s) := by
  unfold executorPresent
  try dsimp only
  repeat' first
      | with_reducible assumption
      | with_reducible apply keep_askAdoptionFor K
      | with_reducible apply keep_oweAgain K
      | with_reducible apply keep_syncClear K
      | with_reducible apply keep_foldl (P := P)
      | (intro _ _ _; try dsimp only)
      | (intro _ _; try dsimp only)
      | split

theorem keep_executorGone (K : Keeps P) {n : SlotNo} {s : Shelf} (h : P s) :
    P (executorGone n s) := by
  unfold executorGone
  try dsimp only
  repeat' first
      | with_reducible assumption
      | with_reducible apply keep_finishPreparation K
      | with_reducible apply keep_setExec K
      | with_reducible apply keep_foldl (P := P)
      | (intro _ _ _; try dsimp only)
      | (intro _ _; try dsimp only)
      | split

/-! Scanner.lean -/

theorem keep_conditionFirst (K : Keeps P) {p : PortNo} {old new : PortCond} {s : Shelf} (h : P s) :
    P (conditionFirst p old new s) := by
  unfold conditionFirst
  try dsimp only
  repeat' first
      | with_reducible assumption
      | with_reducible apply keep_engineCondition K
      | with_reducible apply keep_refreshPort K
      | split

theorem keep_conditionRest (K : Keeps P) {p : PortNo} {old new : PortCond} {s : Shelf} (h : P s) :
    P (conditionRest p old new s) := by
  unfold conditionRest
  try dsimp only
  repeat' first
      | with_reducible assumption
      | with_reducible apply keep_destEvent K
      | with_reducible apply keep_recordsCondition K
      | with_reducible apply keep_sourceEvent K
      | split

theorem keep_tagEvent (K : Keeps P) {p : PortNo} {s : Shelf} (h : P s) :
    P (tagEvent p s) := by
  unfold tagEvent
  try dsimp only
  repeat' first
      | with_reducible assumption
      | with_reducible apply keep_destEvent K
      | with_reducible apply keep_reportTags K
      | split

theorem keep_wordEvent (K : Keeps P) {p : PortNo} {s : Shelf} (h : P s) :
    P (wordEvent p s) := by
  unfold wordEvent
  try dsimp only
  repeat' first
      | with_reducible assumption
      | with_reducible apply keep_engineWord K
      | with_reducible apply keep_executorWord K
      | split

theorem keep_changeFirst (K : Keeps P) {x : ObsChange} {s : Shelf} (h : P s) :
    P (changeFirst s x) := by
  unfold changeFirst
  try dsimp only
  repeat' first
      | with_reducible assumption
      | with_reducible apply keep_conditionFirst K
      | split

theorem keep_changeRest (K : Keeps P) {x : ObsChange} {s : Shelf} (h : P s) :
    P (changeRest s x) := by
  unfold changeRest
  try dsimp only
  repeat' first
      | with_reducible assumption
      | with_reducible apply keep_conditionRest K
      | with_reducible apply keep_tagEvent K
      | with_reducible apply keep_wordEvent K
      | split

theorem keep_observeAll (K : Keeps P) {l : List (PortNo × Obs)} {s : Shelf} (h : P s) :
    P (observeAll l s) := by
  unfold observeAll
  try dsimp only
  repeat' first
      | with_reducible assumption
      | with_reducible apply keep_changeFirst K
      | with_reducible apply keep_changeRest K
      | with_reducible apply keep_setObs K
      | with_reducible apply keep_timingRun K
      | with_reducible apply keep_foldl (P := P)
      | (intro _ _ _; try dsimp only)
      | (intro _ _; try dsimp only)
      | split

theorem keep_observe (K : Keeps P) {p : PortNo} {o : Obs} {s : Shelf} (h : P s) :
    P (observe p o s) := by
  unfold observe
  try dsimp only
  repeat' first
      | with_reducible assumption
      | with_reducible apply keep_observeAll K
      | split

theorem keep_observeBases (K : Keeps P) {l : List PortNo} {s : Shelf} (h : P s) :
    P (observeBases l s) := by
  unfold observeBases
  try dsimp only
  repeat' first
      | with_reducible assumption
      | with_reducible apply keep_observeAll K
      | split

theorem keep_scannerSlot (K : Keeps P) {n : SlotNo} {s : Shelf} (h : P s) :
    P (scannerSlot n s) := by
  unfold scannerSlot
  try dsimp only
  repeat' first
      | with_reducible assumption
      | with_reducible apply keep_observeBases K
      | split

theorem keep_resumeAll (K : Keeps P) {s : Shelf} (h : P s) :
    P (resumeAll s) := by
  unfold resumeAll
  try dsimp only
  repeat' first
      | with_reducible assumption
      | with_reducible apply keep_setScan K
      | exact fun _ => rfl
      | split

theorem keep_modeChanged (K : Keeps P) {before : Shelf} {after : Shelf} (_hbefore : P before) (hafter : P after) :
    P (modeChanged before after) := by
  unfold modeChanged
  try dsimp only
  repeat' first
      | with_reducible assumption
      | with_reducible apply keep_resumeAll K
      | split

theorem keep_batteryChanged (K : Keeps P) {b : Bool} {s : Shelf} (h : P s) :
    P (batteryChanged b s) := by
  unfold batteryChanged
  try dsimp only
  repeat' first
      | with_reducible assumption
      | with_reducible apply keep_modeChanged K
      | split
      | with_reducible apply keep_pins K

theorem keep_windowChanged (K : Keeps P) {s : Shelf} (h : P s) :
    P (windowChanged s) := by
  unfold windowChanged
  try dsimp only
  repeat' first
      | with_reducible assumption
      | with_reducible apply keep_observeBases K
      | split

theorem keep_takePending (K : Keeps P) {s : Shelf} (h : P s) :
    P (takePending s) := by
  unfold takePending
  try dsimp only
  repeat' first
      | with_reducible assumption
      | with_reducible apply keep_modeChanged K
      | with_reducible apply keep_setScan K
      | exact fun _ => rfl
      | split

theorem keep_cycleStart (K : Keeps P) {s : Shelf} (h : P s) :
    P (cycleStart s) := by
  unfold cycleStart
  try dsimp only
  repeat' first
      | with_reducible assumption
      | with_reducible apply keep_setScan K
      | with_reducible apply keep_takePending K
      | with_reducible apply keep_windowChanged K
      | exact fun _ => rfl
      | split

theorem keep_reportOverrun (K : Keeps P) {b : Bool} {s : Shelf} (h : P s) :
    P (reportOverrun b s) := by
  unfold reportOverrun
  try dsimp only
  repeat' first
      | with_reducible assumption
      | with_reducible apply keep_reportChange K
      | with_reducible apply keep_setScan K
      | exact fun _ => rfl
      | split
      | exact ne_tableFull rfl

theorem keep_cycleEnd (K : Keeps P) {s : Shelf} (h : P s) :
    P (cycleEnd s) := by
  unfold cycleEnd
  try dsimp only
  repeat' first
      | with_reducible assumption
      | with_reducible apply keep_cycleStart K
      | with_reducible apply keep_reportOverrun K
      | with_reducible apply keep_setScan K
      | exact fun _ => rfl
      | split

theorem keep_periodOver (K : Keeps P) {s : Shelf} (h : P s) :
    P (periodOver s) := by
  unfold periodOver
  try dsimp only
  repeat' first
      | with_reducible assumption
      | with_reducible apply keep_cycleStart K
      | with_reducible apply keep_reportOverrun K
      | with_reducible apply keep_setScan K
      | exact fun _ => rfl
      | split

theorem keep_askScanner (K : Keeps P) {j : ScanJob} {t : Txn} {s : Shelf} (h : P s) :
    P (askScanner j t s) := by
  unfold askScanner
  try dsimp only
  repeat' first
      | with_reducible assumption
      | with_reducible apply keep_setScan K
      | exact fun _ => rfl
      | split
      | with_reducible apply keep_bp K

theorem keep_takeAttention (K : Keeps P) {s : Shelf} (h : P s) : P ((takeAttention s).getD s) := by
  unfold takeAttention
  split
  · exact h
  · simp only [Option.getD_some]
    refine keep_setScan K ?_ (keep_bp K h)
    exact fun _ => rfl

theorem keep_visit (K : Keeps P) {v : Nat} {s : Shelf} (h : P s) :
    P (visit v s) := by
  unfold visit
  try dsimp only
  repeat' first
      | with_reducible assumption
      | with_reducible apply keep_askScanner K
      | with_reducible apply keep_setScan K
      | exact fun _ => rfl
      | split

theorem keep_scanStep (K : Keeps P) {s : Shelf} (h : P s) :
    P (scanStep s) := by
  unfold scanStep
  try dsimp only
  repeat' first
      | with_reducible assumption
      | with_reducible apply keep_askScanner K
      | with_reducible apply keep_cycleEnd K
      | with_reducible apply keep_setScan K
      | with_reducible apply keep_takeAttention K
      | with_reducible apply keep_visit K
      | exact fun _ => rfl
      | split

theorem keep_serveScanner (K : Keeps P) {k : Nat} {s : Shelf} (h : P s) : P (serveScanner k s) := by
  induction k generalizing s with
  | zero => exact h
  | succ k ih =>
    unfold serveScanner
    split
    · exact h
    · exact ih (keep_scanStep K h)

theorem keep_endVisit (K : Keeps P) {cyclic : Bool} {s : Shelf} (h : P s) :
    P (endVisit cyclic s) := by
  unfold endVisit
  try dsimp only
  repeat' first
      | with_reducible assumption
      | with_reducible apply keep_setScan K
      | exact fun _ => rfl
      | split

theorem keep_statusRead (K : Keeps P) {p : PortNo} {cyclic : Bool} {e : TxnEnd} {s : Shelf} (h : P s) :
    P (statusRead p cyclic e s) := by
  unfold statusRead
  try dsimp only
  repeat' first
      | with_reducible assumption
      | with_reducible apply keep_askScanner K
      | with_reducible apply keep_endVisit K
      | with_reducible apply keep_observe K
      | split

theorem keep_tagRead (K : Keeps P) {p : PortNo} {cyclic : Bool} {e : TxnEnd} {s : Shelf} (h : P s) :
    P (tagRead p cyclic e s) := by
  unfold tagRead
  try dsimp only
  repeat' first
      | with_reducible assumption
      | with_reducible apply keep_endVisit K
      | with_reducible apply keep_observe K
      | split

theorem keep_scannerEnd (K : Keeps P) {e : TxnEnd} {s : Shelf} (h : P s) :
    P (scannerEnd e s) := by
  unfold scannerEnd
  try dsimp only
  repeat' first
      | with_reducible assumption
      | with_reducible apply keep_setScan K
      | with_reducible apply keep_statusRead K
      | with_reducible apply keep_tagRead K
      | exact fun _ => rfl
      | split

/-! Bus.lean -/

theorem keep_enterWatch (K : Keeps P) {s : Shelf} (h : P s) :
    P (enterWatch s) := by
  unfold enterWatch
  try dsimp only
  repeat' first
      | with_reducible assumption
      | with_reducible apply keep_askAdoption K
      | with_reducible apply keep_cycleStart K
      | with_reducible apply keep_syncTimer K
      | with_reducible apply keep_tell K
      | with_reducible apply keep_foldl (P := P)
      | (intro _ _ _; try dsimp only)
      | (intro _ _; try dsimp only)
      | split
      | with_reducible apply keep_rdy K
      | exact rfl

theorem keep_startArming (K : Keeps P) {cause : ArmCause} {s : Shelf} (h : P s) : P (startArming cause s) := by
  have h1 : P { s with
      rdy := { s.rdy with phase := .arming, armCause := some cause, armingFor := none }
      exe := { s.exe with arming := armingGroups s } } := K.base s _ rfl rfl rfl h
  unfold startArming
  dsimp only
  split
  · split
    · exact keep_enterArmed K h1
    · exact keep_foldl (P := P) _ (fun s g h => keep_askAdoption K h) h1
  · exact h

theorem keep_joinAttention (K : Keeps P) {n : SlotNo} {s : Shelf} (h : P s) :
    P (joinAttention n s) := by
  unfold joinAttention
  try dsimp only
  repeat' first
      | with_reducible assumption
      | with_reducible apply keep_setBp K
      | split

theorem keep_syncReprobe (K : Keeps P) {n : SlotNo} {s : Shelf} (h : P s) :
    P (syncReprobe n s) := by
  unfold syncReprobe
  try dsimp only
  repeat' first
      | with_reducible assumption
      | with_reducible apply keep_setBp K
      | split

theorem keep_cardPresent (K : Keeps P) {n : SlotNo} {s : Shelf} (h : P s) :
    P (cardPresent n s) := by
  unfold cardPresent
  try dsimp only
  repeat' first
      | with_reducible assumption
      | with_reducible apply keep_executorPresent K
      | with_reducible apply keep_gradesOwed K
      | with_reducible apply keep_joinAttention K
      | with_reducible apply keep_joinTags K
      | with_reducible apply keep_foldl (P := P)
      | (intro _ _ _; try dsimp only)
      | (intro _ _; try dsimp only)
      | split

theorem keep_cardGone (K : Keeps P) {n : SlotNo} {s : Shelf} (h : P s) :
    P (cardGone n s) := by
  unfold cardGone
  try dsimp only
  repeat' first
      | with_reducible assumption
      | with_reducible apply keep_executorGone K
      | with_reducible apply keep_gradesGone K
      | with_reducible apply keep_setBp K
      | split
      | with_reducible apply keep_recs K
      | exact rfl

theorem keep_slotChange (K : Keeps P) {n : SlotNo} {r : SlotRec} {s : Shelf} (h : P s) :
    P (slotChange n r s) := by
  unfold slotChange
  try dsimp only
  repeat' first
      | with_reducible assumption
      | with_reducible apply keep_cardGone K
      | with_reducible apply keep_cardPresent K
      | with_reducible apply keep_reportChange K
      | with_reducible apply keep_reportMissing K
      | with_reducible apply keep_scannerSlot K
      | with_reducible apply keep_setSlot K
      | with_reducible apply keep_syncReprobe K
      | with_reducible apply keep_tell K
      | split
      | exact ne_tableFull rfl

theorem keep_countFault (K : Keeps P) {n : SlotNo} {faulted : Bool} {s : Shelf} (h : P s) :
    P (countFault n faulted s) := by
  unfold countFault
  try dsimp only
  repeat' first
      | with_reducible assumption
      | with_reducible apply keep_setSlot K
      | with_reducible apply keep_slotChange K
      | split

theorem keep_countFaults (K : Keeps P) {u : BusUse} {fault : Option (Transfer × BusAnswer)} {s : Shelf} (h : P s) :
    P (countFaults u fault s) := by
  unfold countFaults
  try dsimp only
  repeat' first
      | with_reducible assumption
      | with_reducible apply keep_countFault K
      | with_reducible apply keep_foldl (P := P)
      | (intro _ _ _; try dsimp only)
      | (intro _ _; try dsimp only)
      | split

theorem keep_enterFault (K : Keeps P) {u : BusUse} {t : Transfer} {a : BusAnswer} {s : Shelf} (h : P s) :
    P (enterFault u t a s) := by
  unfold enterFault
  try dsimp only
  repeat' first
      | with_reducible assumption
      | with_reducible apply keep_reportChange K
      | with_reducible apply keep_setBp K
      | split
      | exact ne_tableFull rfl

theorem keep_probeOutcome (K : Keeps P) {n : SlotNo} {e : TxnEnd} {s : Shelf} (h : P s) :
    P (probeOutcome n e s) := by
  unfold probeOutcome
  try dsimp only
  repeat' first
      | with_reducible assumption
      | with_reducible apply keep_setSlot K
      | with_reducible apply keep_slotChange K
      | with_reducible apply keep_syncReprobe K
      | split

theorem keep_discoveryNext (K : Keeps P) {n : SlotNo} {s : Shelf} (h : P s) :
    P (discoveryNext n s) := by
  unfold discoveryNext
  try dsimp only
  repeat' first
      | with_reducible assumption
      | with_reducible apply keep_enterWatch K
      | with_reducible apply keep_setBp K
      | split

theorem keep_tagWriteEnd (K : Keeps P) {e : TxnEnd} {s : Shelf} (h : P s) :
    P (tagWriteEnd e s) := by
  unfold tagWriteEnd
  try dsimp only
  repeat' first
      | with_reducible assumption
      | with_reducible apply keep_joinTags K
      | with_reducible apply keep_setBp K
      | split
      | with_reducible apply keep_recs K
      | exact rfl

theorem keep_gradeWriteEnd (K : Keeps P) {e : TxnEnd} {s : Shelf} (h : P s) :
    P (gradeWriteEnd e s) := by
  unfold gradeWriteEnd
  try dsimp only
  repeat' first
      | with_reducible assumption
      | with_reducible apply keep_gradeFaulted K
      | with_reducible apply keep_gradeWritten K
      | split
      | with_reducible apply keep_tim K
      | exact rfl

theorem keep_deliver (K : Keeps P) {u : BusUse} {e : TxnEnd} {s : Shelf} (h : P s) :
    P (deliver u e s) := by
  unfold deliver
  try dsimp only
  repeat' first
      | with_reducible assumption
      | with_reducible apply keep_discoveryNext K
      | with_reducible apply keep_executorEnd K
      | with_reducible apply keep_gradeWriteEnd K
      | with_reducible apply keep_probeOutcome K
      | with_reducible apply keep_scannerEnd K
      | with_reducible apply keep_tagWriteEnd K
      | split

theorem keep_endTransaction (K : Keeps P) {u : BusUse} {fault : Option (Transfer × BusAnswer)} {s : Shelf} (h : P s) :
    P (endTransaction u fault s) := by
  unfold endTransaction
  try dsimp only
  repeat' first
      | with_reducible assumption
      | with_reducible apply keep_countFaults K
      | with_reducible apply keep_deliver K
      | with_reducible apply keep_enterFault K
      | with_reducible apply keep_setBp K
      | split

theorem keep_releaseAttention (K : Keeps P) {t : Transfer} {s : Shelf} (h : P s) :
    P (releaseAttention t s) := by
  unfold releaseAttention
  try dsimp only
  repeat' first
      | with_reducible assumption
      | with_reducible apply keep_setBp K
      | split

theorem keep_transferAcked (K : Keeps P) {u : BusUse} {t : Transfer} {w : Word} {s : Shelf} (h : P s) :
    P (transferAcked u t w s) := by
  unfold transferAcked
  try dsimp only
  repeat' first
      | with_reducible assumption
      | with_reducible apply keep_endTransaction K
      | with_reducible apply keep_releaseAttention K
      | with_reducible apply keep_setBp K
      | split

theorem keep_transferRetried (K : Keeps P) {u : BusUse} {t : Transfer} {s : Shelf} (h : P s) :
    P (transferRetried u t s) := by
  unfold transferRetried
  try dsimp only
  repeat' first
      | with_reducible assumption
      | with_reducible apply keep_endTransaction K
      | with_reducible apply keep_setBp K
      | split

theorem keep_askProbe (K : Keeps P) {s : Shelf} (h : P s) :
    P (askProbe s) := by
  unfold askProbe
  try dsimp only
  repeat' first
      | with_reducible assumption
      | with_reducible apply keep_setBp K
      | split

theorem keep_serveRecords (K : Keeps P) {s : Shelf} (h : P s) :
    P (serveRecords s) := by
  unfold serveRecords
  try dsimp only
  repeat' first
      | with_reducible assumption
      | with_reducible apply keep_setBp K
      | split
      | with_reducible apply keep_recs K
      | exact rfl

theorem keep_serveGrades (K : Keeps P) {l : List PortNo} {s : Shelf} (h : P s) : P (serveGrades l s) := by
  induction l generalizing s with
  | nil => exact keep_tim K rfl rfl rfl h
  | cons p rest ih =>
    unfold serveGrades
    split
    · exact keep_setBp K (keep_tim K rfl rfl rfl h)
    · exact ih h

theorem keep_serveTiming (K : Keeps P) {s : Shelf} (h : P s) :
    P (serveTiming s) := by
  unfold serveTiming
  try dsimp only
  repeat' first
      | with_reducible assumption
      | with_reducible apply keep_serveGrades K
      | split

theorem keep_grant (K : Keeps P) {s : Shelf} (h : P s) :
    P (grant s) := by
  unfold grant
  try dsimp only
  repeat' first
      | with_reducible assumption
      | with_reducible apply keep_setBp K
      | split

theorem keep_pump (K : Keeps P) {s : Shelf} (h : P s) :
    P (pump s) := by
  unfold pump
  try dsimp only
  repeat' first
      | with_reducible assumption
      | with_reducible apply keep_askProbe K
      | with_reducible apply keep_grant K
      | with_reducible apply keep_serveExecutor K
      | with_reducible apply keep_serveRecords K
      | with_reducible apply keep_serveScanner K
      | with_reducible apply keep_serveTiming K
      | split

theorem keep_answerCard (K : Keeps P) {a : CardAnswer} {s : Shelf} (h : P s) :
    P (answerCard a s) := by
  unfold answerCard
  try dsimp only
  repeat' first
      | with_reducible assumption
      | with_reducible apply keep_endTransaction K
      | with_reducible apply keep_pump K
      | with_reducible apply keep_transferAcked K
      | with_reducible apply keep_transferRetried K
      | split

theorem keep_transferTimedOut (K : Keeps P) {s : Shelf} (h : P s) :
    P (transferTimedOut s) := by
  unfold transferTimedOut
  try dsimp only
  repeat' first
      | with_reducible assumption
      | with_reducible apply keep_endTransaction K
      | with_reducible apply keep_pump K
      | split

theorem keep_valuesReturned (K : Keeps P) {s : Shelf} (h : P s) :
    P (valuesReturned s) := by
  unfold valuesReturned
  try dsimp only
  repeat' first
      | with_reducible assumption
      | with_reducible apply keep_exchangeValues K
      | with_reducible apply keep_setBp K
      | split

theorem keep_reprobeOver (K : Keeps P) {n : SlotNo} {s : Shelf} (h : P s) :
    P (reprobeOver n s) := by
  unfold reprobeOver
  try dsimp only
  repeat' first
      | with_reducible assumption
      | with_reducible apply keep_pump K
      | with_reducible apply keep_setBp K
      | split

theorem keep_attentionAsserted (K : Keeps P) {n : SlotNo} {s : Shelf} (h : P s) :
    P (attentionAsserted n s) := by
  unfold attentionAsserted
  try dsimp only
  repeat' first
      | with_reducible assumption
      | with_reducible apply keep_joinAttention K
      | with_reducible apply keep_pump K
      | with_reducible apply keep_setBp K
      | split

theorem keep_clearBusFaults (K : Keeps P) {s : Shelf} (h : P s) :
    P (clearBusFaults s) := by
  unfold clearBusFaults
  try dsimp only
  repeat' first
      | with_reducible assumption
      | with_reducible apply keep_reportChange K
      | with_reducible apply keep_setBp K
      | split
      | exact ne_tableFull rfl

end

end Sys2Proof.Machine
end

