-- ==== Sys2Proof/Laws/Settings.lean ====
section
/-! SUPPORT. The walk of Laws/Keep for the settings in force: what only works on cards, orders, groups and alarms changes
no record, definition or setting, and nothing that waits in the store. -/

namespace Sys2Proof.Machine

/-- The settings in force, the condition settings and what waits in the store are as they were. -/
def Wide (s x : Shelf) : Prop := cfg x = cfg s ∧ x.alm.settings = s.alm.settings
  ∧ x.sto.list = s.sto.list ∧ x.sto.counter = s.sto.counter ∧ x.sto.writer = s.sto.writer ∧ x.sto.nvm = s.sto.nvm ∧ x.sto.marks = s.sto.marks

theorem wide_alarms {s x y : Shelf} (h : SameButAlarms x y) (k : Wide s x) : Wide s y := by
  obtain ⟨h1, h2, h3, h4, h5, h6, h7, h8, h9, h10, h11⟩ := h
  obtain ⟨k1, k2, k3, k4, k5, k6, k7⟩ := k
  exact ⟨by rw [← k1]; simp [cfg, h2, h3, h5, h7, h9], h11.trans k2, by rw [h8, k3], by rw [h8, k4], by rw [h8, k5], by rw [h8, k6], by rw [h8, k7]⟩

theorem wide (s : Shelf) : Keeps (Wide s) where
  base := by
    intro a b h1 h2 h3 h
    unfold Wide
    rw [h1, h2, h3]
    exact h
  report := fun o c b x _ h => wide_alarms (report_frame o c b x) h
  refresh := fun p x h => wide_alarms (refreshPort_frame p x) h
  told := fun _ _ _ _ h => h
  pool := fun n m x h => h

theorem wide_settings {s x : Shelf} (h : Wide s x) : SameSettings s x ∧ x.rdy.base = s.rdy.base ∧ x.rdy.ms = s.rdy.ms := by
  obtain ⟨k1, k2, k3, k4, k5, k6, k7⟩ := h
  simp only [cfg, Cfg.mk.injEq] at k1
  obtain ⟨e1, e2, e3, e4, e5, e6, e7, e8, e9, e10, -⟩ := k1
  refine ⟨⟨e1, e2, e3, e4, fun r => ?_, e6, e7, e8, k2, k3, k4, k5, k6, k7⟩, e9, e10⟩
  have := congrArg (fun l => l[r.val]?) e5
  simp only [List.getElem?_map, Vector.getElem?_toList] at this
  have a : x.tim.refs[r.val]? = some (refOf x r) := by simp [refOf, at']
  have b : s.tim.refs[r.val]? = some (refOf s r) := by simp [refOf, at']
  rw [a, b] at this
  simpa using this

theorem wide_rfl (s : Shelf) : Wide s s := ⟨rfl, rfl, rfl, rfl, rfl, rfl, rfl⟩

end Sys2Proof.Machine
end

