-- ==== Sys2Proof/Laws/Stays.lean ====
section
/-! SUPPORT. The walk over the operations of the timing selector, the executor's lists, the move orders, the engine and
the fibre records for a property of what they leave alone: the backplane controller, the scanner, the readiness controller
and the pins. -/

set_option linter.unusedTactic false
set_option linter.unreachableTactic false

namespace Sys2Proof.Machine

/-- A property of the backplane controller, the scanner, the readiness controller and the pins. -/
structure StaysOf (P : Shelf → Prop) : Prop where
  base : ∀ s t : Shelf, t.bp = s.bp → t.scan = s.scan → t.rdy = s.rdy → t.pins = s.pins → P s → P t

section
variable {P : Shelf → Prop}

theorem stay_alarms (K : StaysOf P) {s x : Shelf} (hx : SameButAlarms s x) (h : P s) : P x := by
  obtain ⟨h1, h2, -, -, -, -, -, -, h9, h10, -⟩ := hx
  exact K.base s x h1 h2 h9 h10 h

theorem stay_report (K : StaysOf P) {o : Obj} {c : Cond} {b : Bool} {s : Shelf} (h : P s) : P (report o c b s) :=
  stay_alarms K (report_frame o c b s) h
theorem stay_reportChange (K : StaysOf P) {o : Obj} {c : Cond} {b : Bool} {s : Shelf} (h : P s) :
    P (reportChange o c b s) := stay_alarms K (reportChange_frame o c b s) h
theorem stay_refreshPort (K : StaysOf P) {p : PortNo} {s : Shelf} (h : P s) : P (refreshPort p s) :=
  stay_alarms K (refreshPort_frame p s) h
theorem stay_reportPool (K : StaysOf P) {n m : Nat} {s : Shelf} (h : P s) : P (reportPool n m s) :=
  K.base s _ rfl rfl rfl rfl h
theorem stay_setHeld (K : StaysOf P) {e : EditHolder} {l : List HeldEdit} {s : Shelf} (h : P s) : P (setHeld e l s) := by
  cases e <;> exact K.base s _ rfl rfl rfl rfl h
theorem stay_sto (K : StaysOf P) {s : Shelf} {x : Store} (h : P s) : P { s with sto := x } :=
  K.base s _ rfl rfl rfl rfl h
theorem stay_offerOwn (K : StaysOf P) {e : EditHolder} {v : ItemValue} {s : Shelf} (h : P s) : P (offerOwn e v s) := by
  unfold offerOwn
  split
  · exact h
  · split
    · exact stay_sto K h
    · split
      · exact stay_setHeld K (stay_sto K h)
      · exact h
theorem stay_tell (K : StaysOf P) {n : Notice} {s : Shelf} (h : P s) : P (tell n s) := K.base s _ rfl rfl rfl rfl h

theorem stay_foldl {α : Type} {f : Shelf → α → Shelf} (l : List α) (hf : ∀ s a, P s → P (f s a)) {s : Shelf} (h : P s) :
    P (l.foldl f s) := by
  induction l generalizing s with
  | nil => exact h
  | cons a l ih => exact ih (hf s a h)

theorem stay_recs (K : StaysOf P) {s : Shelf} {x : Records} (h : P s) : P { s with recs := x } :=
  K.base s _ rfl rfl rfl rfl h
theorem stay_ords (K : StaysOf P) {s : Shelf} {x : Orders} (h : P s) : P { s with ords := x } :=
  K.base s _ rfl rfl rfl rfl h
theorem stay_eng (K : StaysOf P) {s : Shelf} {x : Engine} (h : P s) : P { s with eng := x } :=
  K.base s _ rfl rfl rfl rfl h
theorem stay_exe (K : StaysOf P) {s : Shelf} {x : Executor} (h : P s) : P { s with exe := x } :=
  K.base s _ rfl rfl rfl rfl h
theorem stay_tim (K : StaysOf P) {s : Shelf} {x : Timing} (h : P s) : P { s with tim := x } :=
  K.base s _ rfl rfl rfl rfl h

theorem stay_setRef (K : StaysOf P) {r : RefNo} {f : Ref → Ref} {s : Shelf} (h : P s) :
    P (setRef r f s) := K.base s _ rfl rfl rfl rfl h
theorem stay_setForce (K : StaysOf P) {f : Option RefNo} {s : Shelf} (h : P s) :
    P (setForce f s) := K.base s _ rfl rfl rfl rfl h
theorem stay_setRun (K : StaysOf P) {g : GroupNo} {f : GroupRun → GroupRun} {s : Shelf} (h : P s) :
    P (setRun g f s) := K.base s _ rfl rfl rfl rfl h
theorem stay_setExec (K : StaysOf P) {g : GroupNo} {f : GroupExec → GroupExec} {s : Shelf} (h : P s) :
    P (setExec g f s) := K.base s _ rfl rfl rfl rfl h
theorem stay_setTasks (K : StaysOf P) {f : List Task → List Task} {s : Shelf} (h : P s) :
    P (setTasks f s) := K.base s _ rfl rfl rfl rfl h
theorem stay_setActive (K : StaysOf P) {a : Option ActiveTask} {s : Shelf} (h : P s) :
    P (setActive a s) := K.base s _ rfl rfl rfl rfl h
theorem stay_setOrder (K : StaysOf P) {n : Nat} {f : Order → Order} {s : Shelf} (h : P s) :
    P (setOrder n f s) := K.base s _ rfl rfl rfl rfl h
theorem stay_setList (K : StaysOf P) {g : GroupNo} {f : List ReqEntry → List ReqEntry} {s : Shelf} (h : P s) :
    P (setList g f s) := K.base s _ rfl rfl rfl rfl h
theorem stay_setHoldOff (K : StaysOf P) {p : PortNo} {t : Option Nat} {s : Shelf} (h : P s) :
    P (setHoldOff p t s) := K.base s _ rfl rfl rfl rfl h
theorem stay_setTimer (K : StaysOf P) {p : PortNo} {t : CondemnTimer} {s : Shelf} (h : P s) :
    P (setTimer p t s) := K.base s _ rfl rfl rfl rfl h
theorem stay_setCondemn (K : StaysOf P) {p : PortNo} {c : Option Condemn} {s : Shelf} (h : P s) :
    P (setCondemn p c s) := K.base s _ rfl rfl rfl rfl h
theorem stay_setDef (K : StaysOf P) {g : GroupNo} {d : Option GroupDef} {s : Shelf} (h : P s) :
    P (setDef g d s) := K.base s _ rfl rfl rfl rfl h
theorem stay_setRecord (K : StaysOf P) {p : PortNo} {r : PortRec} {s : Shelf} (h : P s) :
    P (setRecord p r s) := K.base s _ rfl rfl rfl rfl h

/-! Timing.lean -/

theorem stay_judgeRef (K : StaysOf P) {moved : Bool} {r : RefNo} {s : Shelf} (h : P s) :
    P (judgeRef moved r s) := by
  unfold judgeRef
  try dsimp only
  repeat' first
      | with_reducible assumption
      | with_reducible apply stay_setRef K
      | split

theorem stay_rederiveRef (K : StaysOf P) {r : RefNo} {s : Shelf} (h : P s) :
    P (rederiveRef r s) := by
  unfold rederiveRef
  try dsimp only
  repeat' first
      | with_reducible assumption
      | with_reducible apply stay_judgeRef K
      | with_reducible apply stay_setRef K
      | split

theorem stay_rederiveAll (K : StaysOf P) {s : Shelf} (h : P s) :
    P (rederiveAll s) := by
  unfold rederiveAll
  try dsimp only
  repeat' first
      | with_reducible assumption
      | with_reducible apply stay_rederiveRef K
      | with_reducible apply stay_foldl (P := P)
      | (intro _ _ _; try dsimp only)
      | (intro _ _; try dsimp only)
      | split

theorem stay_selectReference (K : StaysOf P) {s : Shelf} (h : P s) : P (selectReference s) := by
  unfold selectReference
  split
  · split
    · exact h
    · exact stay_tim K h
  · split
    · exact stay_tim K h
    · exact h

theorem stay_settleForce (K : StaysOf P) {s : Shelf} (h : P s) :
    P (settleForce s) := by
  unfold settleForce
  try dsimp only
  repeat' first
      | with_reducible assumption
      | split
      | with_reducible apply stay_tim K

theorem stay_keepLastGrade (K : StaysOf P) {s : Shelf} (h : P s) :
    P (keepLastGrade s) := by
  unfold keepLastGrade
  try dsimp only
  repeat' first
      | with_reducible assumption
      | split
      | with_reducible apply stay_tim K

theorem stay_joinGradeList (K : StaysOf P) {p : PortNo} {s : Shelf} (h : P s) :
    P (joinGradeList p s) := by
  unfold joinGradeList
  try dsimp only
  repeat' first
      | with_reducible assumption
      | split
      | with_reducible apply stay_tim K

theorem stay_replan (K : StaysOf P) {s : Shelf} (h : P s) :
    P (replan s) := by
  unfold replan
  try dsimp only
  repeat' first
      | with_reducible assumption
      | with_reducible apply stay_joinGradeList K
      | with_reducible apply stay_foldl (P := P)
      | (intro _ _ _; try dsimp only)
      | (intro _ _; try dsimp only)
      | split
      | with_reducible apply stay_tim K

theorem stay_gradesOwed (K : StaysOf P) {n : SlotNo} {s : Shelf} (h : P s) :
    P (gradesOwed n s) := by
  unfold gradesOwed
  try dsimp only
  repeat' first
      | with_reducible assumption
      | with_reducible apply stay_foldl (P := P)
      | (intro _ _ _; try dsimp only)
      | (intro _ _; try dsimp only)
      | split
      | with_reducible apply stay_tim K

theorem stay_gradesGone (K : StaysOf P) {n : SlotNo} {s : Shelf} (h : P s) :
    P (gradesGone n s) := by
  unfold gradesGone
  try dsimp only
  repeat' first
      | with_reducible assumption
      | with_reducible apply stay_foldl (P := P)
      | (intro _ _ _; try dsimp only)
      | (intro _ _; try dsimp only)
      | split
      | with_reducible apply stay_tim K

theorem stay_gradeWritten (K : StaysOf P) {p : PortNo} {g : Grade} {s : Shelf} (h : P s) :
    P (gradeWritten p g s) := by
  unfold gradeWritten
  try dsimp only
  repeat' first
      | with_reducible assumption
      | with_reducible apply stay_joinGradeList K
      | split
      | with_reducible apply stay_tim K

theorem stay_gradeFaulted (K : StaysOf P) {p : PortNo} {s : Shelf} (h : P s) :
    P (gradeFaulted p s) := by
  unfold gradeFaulted
  try dsimp only
  repeat' first
      | with_reducible assumption
      | split
      | with_reducible apply stay_tim K

theorem stay_reportTiming (K : StaysOf P) {s : Shelf} (h : P s) :
    P (reportTiming s) := by
  unfold reportTiming
  try dsimp only
  repeat' first
      | with_reducible assumption
      | with_reducible apply stay_reportChange K
      | with_reducible apply stay_foldl (P := P)
      | (intro _ _ _; try dsimp only)
      | (intro _ _; try dsimp only)
      | split
      | assumption

theorem stay_timingEvent (K : StaysOf P) {f : Shelf → Shelf} (hf : ∀ s, P s → P (f s)) {s : Shelf} (h : P s) :
    P (timingEvent f s) := by
  have h1 : P (replan (reportTiming (keepLastGrade (selectReference (settleForce (rederiveAll (f s))))))) :=
    stay_replan K (stay_reportTiming K (stay_keepLastGrade K (stay_selectReference K (stay_settleForce K
      (stay_rederiveAll K (hf s h))))))
  unfold timingEvent
  dsimp only
  split
  · exact h1
  · exact stay_tell K h1

theorem stay_timingRun (K : StaysOf P) {s : Shelf} (h : P s) : P (timingRun s) :=
  stay_timingEvent K (fun _ h => h) h

theorem stay_clearForceOn (K : StaysOf P) {r : RefNo} {s : Shelf} (h : P s) :
    P (clearForceOn r s) := by
  unfold clearForceOn
  try dsimp only
  repeat' first
      | with_reducible assumption
      | with_reducible apply stay_setForce K
      | split

theorem stay_qualified (K : StaysOf P) {r : RefNo} {s : Shelf} (h : P s) :
    P (qualified r s) := by
  unfold qualified
  try dsimp only
  repeat' first
      | with_reducible assumption
      | with_reducible apply stay_setRef K
      | with_reducible apply stay_timingEvent K
      | (intro _ _ _; try dsimp only)
      | (intro _ _; try dsimp only)
      | split

theorem stay_acquired (K : StaysOf P) {s : Shelf} (h : P s) :
    P (acquired s) := by
  unfold acquired
  try dsimp only
  repeat' first
      | with_reducible assumption
      | with_reducible apply stay_timingEvent K
      | (intro _ _ _; try dsimp only)
      | (intro _ _; try dsimp only)
      | split
      | with_reducible apply stay_tim K

theorem stay_lockedLong (K : StaysOf P) {s : Shelf} (h : P s) :
    P (lockedLong s) := by
  unfold lockedLong
  try dsimp only
  repeat' first
      | with_reducible assumption
      | split
      | with_reducible apply stay_tim K

theorem stay_holdoverOver (K : StaysOf P) {s : Shelf} (h : P s) :
    P (holdoverOver s) := by
  unfold holdoverOver
  try dsimp only
  repeat' first
      | with_reducible assumption
      | with_reducible apply stay_timingEvent K
      | (intro _ _ _; try dsimp only)
      | (intro _ _; try dsimp only)
      | split
      | with_reducible apply stay_tim K

theorem stay_changeTimingOptions (K : StaysOf P) {o : TimingOptions} {s : Shelf} (h : P s) :
    P (changeTimingOptions o s) := by
  unfold changeTimingOptions
  try dsimp only
  repeat' first
      | with_reducible assumption
      | with_reducible apply stay_holdoverOver K
      | with_reducible apply stay_timingEvent K
      | (intro _ _ _; try dsimp only)
      | (intro _ _; try dsimp only)
      | split
      | with_reducible apply stay_tim K

theorem stay_rebind (K : StaysOf P) {src dst : PortNo} {s : Shelf} (h : P s) :
    P (rebind src dst s) := by
  unfold rebind
  try dsimp only
  repeat' first
      | with_reducible assumption
      | with_reducible apply stay_offerOwn K
      | with_reducible apply stay_setRef K
      | with_reducible apply stay_timingEvent K
      | with_reducible apply stay_foldl (P := P)
      | (intro _ _ _; try dsimp only)
      | (intro _ _; try dsimp only)
      | split

/-! Tasks.lean -/

theorem stay_joinExchange (K : StaysOf P) {g : GroupNo} {kind : XKind} {s : Shelf} (h : P s) :
    P (joinExchange g kind s) := by
  unfold joinExchange
  try dsimp only
  repeat' first
      | with_reducible assumption
      | with_reducible apply stay_setExec K
      | with_reducible apply stay_setTasks K
      | split

theorem stay_joinAdoption (K : StaysOf P) {g : GroupNo} {s : Shelf} (h : P s) :
    P (joinAdoption g s) := by
  unfold joinAdoption
  try dsimp only
  repeat' first
      | with_reducible assumption
      | with_reducible apply stay_setExec K
      | with_reducible apply stay_setTasks K
      | split

theorem stay_scheduleGroup (K : StaysOf P) {g : GroupNo} {s : Shelf} (h : P s) :
    P (scheduleGroup g s) := by
  unfold scheduleGroup
  try dsimp only
  repeat' first
      | with_reducible assumption
      | with_reducible apply stay_joinAdoption K
      | with_reducible apply stay_joinExchange K
      | split

theorem stay_askAdoption (K : StaysOf P) {g : GroupNo} {s : Shelf} (h : P s) :
    P (askAdoption g s) := by
  unfold askAdoption
  try dsimp only
  repeat' first
      | with_reducible assumption
      | with_reducible apply stay_joinAdoption K
      | with_reducible apply stay_setExec K
      | split

theorem stay_askAdoptionFor (K : StaysOf P) {g : GroupNo} {s : Shelf} (h : P s) :
    P (askAdoptionFor g s) := by
  unfold askAdoptionFor
  try dsimp only
  repeat' first
      | with_reducible assumption
      | with_reducible apply stay_askAdoption K
      | with_reducible apply stay_setExec K
      | split

theorem stay_adoptAgain (K : StaysOf P) {g : GroupNo} {s : Shelf} (h : P s) :
    P (adoptAgain g s) := by
  unfold adoptAgain
  try dsimp only
  repeat' first
      | with_reducible assumption
      | with_reducible apply stay_askAdoption K
      | split

theorem stay_syncClear (K : StaysOf P) {s : Shelf} (h : P s) :
    P (syncClear s) := by
  unfold syncClear
  try dsimp only
  repeat' first
      | with_reducible assumption
      | with_reducible apply stay_setTasks K
      | split

theorem stay_joinClear (K : StaysOf P) {p : PortNo} {s : Shelf} (h : P s) :
    P (joinClear p s) := by
  unfold joinClear
  try dsimp only
  repeat' first
      | with_reducible assumption
      | split
      | with_reducible apply stay_exe K

theorem stay_leaveClear (K : StaysOf P) {p : PortNo} {s : Shelf} (h : P s) :
    P (leaveClear p s) := by
  unfold leaveClear
  try dsimp only
  repeat' first
      | with_reducible assumption
      | split
      | with_reducible apply stay_exe K

theorem stay_dropTasks (K : StaysOf P) {g : GroupNo} {s : Shelf} (h : P s) :
    P (dropTasks g s) := by
  unfold dropTasks
  try dsimp only
  repeat' first
      | with_reducible assumption
      | with_reducible apply stay_setTasks K
      | split

theorem stay_endConfirm (K : StaysOf P) {g : GroupNo} {s : Shelf} (h : P s) :
    P (endConfirm g s) := by
  unfold endConfirm
  try dsimp only
  repeat' first
      | with_reducible assumption
      | with_reducible apply stay_reportChange K
      | with_reducible apply stay_setExec K
      | split
      | assumption

/-! Moves.lean -/

theorem stay_orderNotice (K : StaysOf P) {e : OrderEvent} {o : Order} {s : Shelf} (h : P s) :
    P (orderNotice e o s) := by
  unfold orderNotice
  try dsimp only
  repeat' first
      | with_reducible assumption
      | with_reducible apply stay_tell K
      | split

theorem stay_noticeOf (K : StaysOf P) {e : OrderEvent} {num : Nat} {s : Shelf} (h : P s) :
    P (noticeOf e num s) := by
  unfold noticeOf
  try dsimp only
  repeat' first
      | with_reducible assumption
      | with_reducible apply stay_orderNotice K
      | split

theorem stay_reportPatch (K : StaysOf P) {num : Nat} {s : Shelf} (h : P s) :
    P (reportPatch num s) := by
  unfold reportPatch
  try dsimp only
  repeat' first
      | with_reducible assumption
      | with_reducible apply stay_reportChange K
      | split
      | assumption

theorem stay_reportMisPatch (K : StaysOf P) {num : Nat} {s : Shelf} (h : P s) :
    P (reportMisPatch num s) := by
  unfold reportMisPatch
  try dsimp only
  repeat' first
      | with_reducible assumption
      | with_reducible apply stay_reportChange K
      | split
      | assumption

theorem stay_setStage (K : StaysOf P) {num : Nat} {st : Stage} {s : Shelf} (h : P s) :
    P (setStage num st s) := by
  unfold setStage
  try dsimp only
  repeat' first
      | with_reducible assumption
      | with_reducible apply stay_setOrder K
      | split

theorem stay_refreshOrder (K : StaysOf P) {num : Nat} {s : Shelf} (h : P s) :
    P (refreshOrder num s) := by
  unfold refreshOrder
  try dsimp only
  repeat' first
      | with_reducible assumption
      | with_reducible apply stay_refreshPort K
      | split

theorem stay_enterStage (K : StaysOf P) {num : Nat} {st : Stage} {s : Shelf} (h : P s) :
    P (enterStage num st s) := by
  unfold enterStage
  try dsimp only
  repeat' first
      | with_reducible assumption
      | with_reducible apply stay_noticeOf K
      | with_reducible apply stay_refreshOrder K
      | with_reducible apply stay_reportMisPatch K
      | with_reducible apply stay_reportPatch K
      | with_reducible apply stay_setStage K
      | split

theorem stay_enterVerifying (K : StaysOf P) {num : Nat} {s : Shelf} (h : P s) :
    P (enterVerifying num s) := by
  unfold enterVerifying
  try dsimp only
  repeat' first
      | with_reducible assumption
      | with_reducible apply stay_enterStage K
      | split

theorem stay_judgeDest (K : StaysOf P) {num : Nat} {s : Shelf} (h : P s) :
    P (judgeDest num s) := by
  unfold judgeDest
  try dsimp only
  repeat' first
      | with_reducible assumption
      | with_reducible apply stay_enterVerifying K
      | with_reducible apply stay_reportMisPatch K
      | split

theorem stay_enterAwaitLight (K : StaysOf P) {num : Nat} {s : Shelf} (h : P s) :
    P (enterAwaitLight num s) := by
  unfold enterAwaitLight
  try dsimp only
  repeat' first
      | with_reducible assumption
      | with_reducible apply stay_enterStage K
      | with_reducible apply stay_judgeDest K
      | with_reducible apply stay_setOrder K
      | split

theorem stay_judgeSource (K : StaysOf P) {num : Nat} {s : Shelf} (h : P s) :
    P (judgeSource num s) := by
  unfold judgeSource
  try dsimp only
  repeat' first
      | with_reducible assumption
      | with_reducible apply stay_enterAwaitLight K
      | split

theorem stay_enterAwaitDark (K : StaysOf P) {num : Nat} {s : Shelf} (h : P s) :
    P (enterAwaitDark num s) := by
  unfold enterAwaitDark
  try dsimp only
  repeat' first
      | with_reducible assumption
      | with_reducible apply stay_enterStage K
      | with_reducible apply stay_judgeSource K
      | with_reducible apply stay_timingRun K
      | split

theorem stay_holdReport (K : StaysOf P) {num : Nat} {granted : Bool} {s : Shelf} (h : P s) :
    P (holdReport num granted s) := by
  unfold holdReport
  try dsimp only
  repeat' first
      | with_reducible assumption
      | with_reducible apply stay_enterAwaitDark K
      | with_reducible apply stay_noticeOf K
      | with_reducible apply stay_reportPatch K
      | with_reducible apply stay_setOrder K
      | split

/-! Engine.lean -/

theorem stay_askPlan (K : StaysOf P) {g : GroupNo} {d : GroupDef} {active : Option (ReqClass × Nat)} {s : Shelf} (h : P s) :
    P (askPlan g d active s) := by
  unfold askPlan
  try dsimp only
  repeat' first
      | with_reducible assumption
      | with_reducible apply stay_endConfirm K
      | with_reducible apply stay_scheduleGroup K
      | with_reducible apply stay_setExec K
      | with_reducible apply stay_setRun K
      | split

theorem stay_actOn (K : StaysOf P) {g : GroupNo} {d : GroupDef} {s : Shelf} (h : P s) :
    P (actOn g d s) := by
  unfold actOn
  try dsimp only
  repeat' first
      | with_reducible assumption
      | with_reducible apply stay_askPlan K
      | split

theorem stay_reportGroup (K : StaysOf P) {g : GroupNo} {s : Shelf} (h : P s) :
    P (reportGroup g s) := by
  unfold reportGroup
  try dsimp only
  repeat' first
      | with_reducible assumption
      | with_reducible apply stay_reportChange K
      | split
      | assumption

theorem stay_evaluate (K : StaysOf P) {g : GroupNo} {s : Shelf} (h : P s) :
    P (evaluate g s) := by
  unfold evaluate
  try dsimp only
  repeat' first
      | with_reducible assumption
      | with_reducible apply stay_actOn K
      | with_reducible apply stay_reportGroup K
      | with_reducible apply stay_setRun K
      | split

theorem stay_groupNotice (K : StaysOf P) {e : GroupEvent} {g : GroupNo} {fault : Option (Option BusAnswer × Nat × Bool)} {s : Shelf} (h : P s) :
    P (groupNotice e g fault s) := by
  unfold groupNotice
  try dsimp only
  repeat' first
      | with_reducible assumption
      | with_reducible apply stay_tell K
      | split

theorem stay_setGranted (K : StaysOf P) {g : GroupNo} {b : Bool} {s : Shelf} (h : P s) :
    P (setGranted g b s) := by
  unfold setGranted
  try dsimp only
  repeat' first
      | with_reducible assumption
      | with_reducible apply stay_setList K
      | split

theorem stay_judgeHold (K : StaysOf P) {g : GroupNo} {s : Shelf} (h : P s) :
    P (judgeHold g s) := by
  unfold judgeHold
  try dsimp only
  repeat' first
      | with_reducible assumption
      | with_reducible apply stay_holdReport K
      | with_reducible apply stay_setGranted K
      | split

theorem stay_placeHold (K : StaysOf P) {g : GroupNo} {num chan : Nat} {s : Shelf} (h : P s) :
    P (placeHold g num chan s) := by
  unfold placeHold
  try dsimp only
  repeat' first
      | with_reducible assumption
      | with_reducible apply stay_evaluate K
      | with_reducible apply stay_judgeHold K
      | with_reducible apply stay_setList K
      | split

theorem stay_removeHold (K : StaysOf P) {g : GroupNo} {num : Nat} {s : Shelf} (h : P s) :
    P (removeHold g num s) := by
  unfold removeHold
  try dsimp only
  repeat' first
      | with_reducible assumption
      | with_reducible apply stay_evaluate K
      | with_reducible apply stay_setList K
      | split

theorem stay_startHoldOff (K : StaysOf P) {g : GroupNo} {d : GroupDef} {p : PortNo} {e : ReqClass × Nat} {s : Shelf} (h : P s) :
    P (startHoldOff g d p e s) := by
  unfold startHoldOff
  try dsimp only
  repeat' first
      | with_reducible assumption
      | with_reducible apply stay_setHoldOff K
      | with_reducible apply stay_setList K
      | split

theorem stay_stopHoldOff (K : StaysOf P) {g : GroupNo} {p : PortNo} {e : ReqClass × Nat} {s : Shelf} (h : P s) :
    P (stopHoldOff g p e s) := by
  unfold stopHoldOff
  try dsimp only
  repeat' first
      | with_reducible assumption
      | with_reducible apply stay_setHoldOff K
      | with_reducible apply stay_setList K
      | split

theorem stay_evaluateIfChanged (K : StaysOf P) {g : GroupNo} {before after : Shelf} (_hbefore : P before) (hafter : P after) :
    P (evaluateIfChanged g before after) := by
  unfold evaluateIfChanged
  try dsimp only
  repeat' first
      | with_reducible assumption
      | with_reducible apply stay_evaluate K
      | split

theorem stay_engineCondition (K : StaysOf P) {p : PortNo} {old new : PortCond} {s : Shelf} (h : P s) :
    P (engineCondition p old new s) := by
  unfold engineCondition
  try dsimp only
  repeat' first
      | with_reducible assumption
      | with_reducible apply stay_evaluateIfChanged K
      | with_reducible apply stay_startHoldOff K
      | with_reducible apply stay_stopHoldOff K
      | split

theorem stay_holdOffOver (K : StaysOf P) {p : PortNo} {s : Shelf} (h : P s) :
    P (holdOffOver p s) := by
  unfold holdOffOver
  try dsimp only
  repeat' first
      | with_reducible assumption
      | with_reducible apply stay_evaluateIfChanged K
      | with_reducible apply stay_setHoldOff K
      | with_reducible apply stay_setList K
      | split

theorem stay_refreshFar (K : StaysOf P) {g : GroupNo} {d : GroupDef} {s : Shelf} (h : P s) :
    P (refreshFar g d s) := by
  unfold refreshFar
  try dsimp only
  repeat' first
      | with_reducible assumption
      | with_reducible apply stay_evaluate K
      | with_reducible apply stay_setRun K
      | split

theorem stay_engineWord (K : StaysOf P) {p : PortNo} {s : Shelf} (h : P s) :
    P (engineWord p s) := by
  unfold engineWord
  try dsimp only
  repeat' first
      | with_reducible assumption
      | with_reducible apply stay_refreshFar K
      | split

theorem stay_wtrOver (K : StaysOf P) {g : GroupNo} {s : Shelf} (h : P s) :
    P (wtrOver g s) := by
  unfold wtrOver
  try dsimp only
  repeat' first
      | with_reducible assumption
      | with_reducible apply stay_evaluate K
      | with_reducible apply stay_setRun K
      | split

theorem stay_setSelected (K : StaysOf P) {g : GroupNo} {c : Nat} {s : Shelf} (h : P s) :
    P (setSelected g c s) := by
  unfold setSelected
  try dsimp only
  repeat' first
      | with_reducible assumption
      | with_reducible apply stay_setRun K
      | split

theorem stay_timingFollows (K : StaysOf P) {g : GroupNo} {before after : Shelf} (_hbefore : P before) (hafter : P after) :
    P (timingFollows g before after) := by
  unfold timingFollows
  try dsimp only
  repeat' first
      | with_reducible assumption
      | with_reducible apply stay_timingRun K
      | split

theorem stay_selectionFollows (K : StaysOf P) {g : GroupNo} {before after : Shelf} (_hbefore : P before) (hafter : P after) :
    P (selectionFollows g before after) := by
  unfold selectionFollows
  try dsimp only
  repeat' first
      | with_reducible assumption
      | with_reducible apply stay_timingRun K
      | with_reducible apply stay_judgeHold K
      | split

theorem stay_planCompleted (K : StaysOf P) {g : GroupNo} {c : Nat} {s : Shelf} (h : P s) :
    P (planCompleted g c s) := by
  unfold planCompleted
  try dsimp only
  repeat' first
      | with_reducible assumption
      | with_reducible apply stay_evaluate K
      | with_reducible apply stay_groupNotice K
      | with_reducible apply stay_judgeHold K
      | with_reducible apply stay_scheduleGroup K
      | with_reducible apply stay_setExec K
      | with_reducible apply stay_setRun K
      | with_reducible apply stay_setSelected K
      | with_reducible apply stay_timingFollows K
      | split

theorem stay_adopted (K : StaysOf P) {g : GroupNo} {c : Nat} {s : Shelf} (h : P s) :
    P (adopted g c s) := by
  unfold adopted
  try dsimp only
  repeat' first
      | with_reducible assumption
      | with_reducible apply stay_selectionFollows K
      | with_reducible apply stay_evaluate K
      | with_reducible apply stay_groupNotice K
      | with_reducible apply stay_scheduleGroup K
      | with_reducible apply stay_setRun K
      | with_reducible apply stay_setSelected K
      | split

theorem stay_engineStuck (K : StaysOf P) {g : GroupNo} {fault : Option BusAnswer × Nat × Bool} {s : Shelf} (h : P s) :
    P (engineStuck g fault s) := by
  unfold engineStuck
  try dsimp only
  repeat' first
      | with_reducible assumption
      | with_reducible apply stay_evaluate K
      | with_reducible apply stay_groupNotice K
      | with_reducible apply stay_setRun K
      | split

theorem stay_barGroup (K : StaysOf P) {g : GroupNo} {s : Shelf} (h : P s) :
    P (barGroup g s) := by
  unfold barGroup
  try dsimp only
  repeat' first
      | with_reducible assumption
      | with_reducible apply stay_evaluateIfChanged K
      | with_reducible apply stay_setList K
      | split

theorem stay_pinGroup (K : StaysOf P) {g : GroupNo} {chan : Nat} {s : Shelf} (h : P s) :
    P (pinGroup g chan s) := by
  unfold pinGroup
  try dsimp only
  repeat' first
      | with_reducible assumption
      | with_reducible apply stay_evaluateIfChanged K
      | with_reducible apply stay_setList K
      | split

theorem stay_operatorSwitchGroup (K : StaysOf P) {g : GroupNo} {chan : Nat} {s : Shelf} (h : P s) :
    P (operatorSwitchGroup g chan s) := by
  unfold operatorSwitchGroup
  try dsimp only
  repeat' first
      | with_reducible assumption
      | with_reducible apply stay_evaluateIfChanged K
      | with_reducible apply stay_setList K
      | split

theorem stay_clearGroupRequests (K : StaysOf P) {g : GroupNo} {s : Shelf} (h : P s) :
    P (clearGroupRequests g s) := by
  unfold clearGroupRequests
  try dsimp only
  repeat' first
      | with_reducible assumption
      | with_reducible apply stay_evaluateIfChanged K
      | with_reducible apply stay_setList K
      | split

theorem stay_joinMember (K : StaysOf P) {g : GroupNo} {d : GroupDef} {p : PortNo} {s : Shelf} (h : P s) :
    P (joinMember g d p s) := by
  unfold joinMember
  try dsimp only
  repeat' first
      | with_reducible assumption
      | with_reducible apply stay_startHoldOff K
      | split

theorem stay_stopMembers (K : StaysOf P) {d : GroupDef} {s : Shelf} (h : P s) :
    P (stopMembers d s) := by
  unfold stopMembers
  try dsimp only
  repeat' first
      | with_reducible assumption
      | with_reducible apply stay_setHoldOff K
      | with_reducible apply stay_foldl (P := P)
      | (intro _ _ _; try dsimp only)
      | (intro _ _; try dsimp only)
      | split

theorem stay_defineRun (K : StaysOf P) {g : GroupNo} {d : GroupDef} {s : Shelf} (h : P s) :
    P (defineRun g d s) := by
  unfold defineRun
  try dsimp only
  repeat' first
      | with_reducible assumption
      | with_reducible apply stay_joinMember K
      | with_reducible apply stay_reportGroup K
      | with_reducible apply stay_setDef K
      | with_reducible apply stay_setRun K
      | with_reducible apply stay_stopMembers K
      | with_reducible apply stay_foldl (P := P)
      | (intro _ _ _; try dsimp only)
      | (intro _ _; try dsimp only)
      | split

theorem stay_undefineRun (K : StaysOf P) {g : GroupNo} {d : GroupDef} {s : Shelf} (h : P s) :
    P (undefineRun g d s) := by
  unfold undefineRun
  try dsimp only
  repeat' first
      | with_reducible assumption
      | with_reducible apply stay_reportGroup K
      | with_reducible apply stay_setDef K
      | with_reducible apply stay_setRun K
      | with_reducible apply stay_stopMembers K
      | split

theorem stay_substituteMember (K : StaysOf P) {g : GroupNo} {src dst : PortNo} {s : Shelf} (h : P s) :
    P (substituteMember g src dst s) := by
  unfold substituteMember
  try dsimp only
  repeat' first
      | with_reducible assumption
      | with_reducible apply stay_evaluate K
      | with_reducible apply stay_joinMember K
      | with_reducible apply stay_offerOwn K
      | with_reducible apply stay_setDef K
      | with_reducible apply stay_setHoldOff K
      | with_reducible apply stay_setRun K
      | with_reducible apply stay_stopHoldOff K
      | split

/-! Orders.lean -/

theorem stay_poolUpdate (K : StaysOf P) {s : Shelf} (h : P s) :
    P (poolUpdate s) := by
  unfold poolUpdate
  try dsimp only
  repeat' first
      | with_reducible assumption
      | with_reducible apply stay_reportChange K
      | with_reducible apply stay_reportPool K
      | split
      | assumption

theorem stay_reportTags (K : StaysOf P) {p : PortNo} {s : Shelf} (h : P s) :
    P (reportTags p s) := by
  unfold reportTags
  try dsimp only
  repeat' first
      | with_reducible assumption
      | with_reducible apply stay_reportChange K
      | split
      | assumption

theorem stay_reportNoSpare (K : StaysOf P) {p : PortNo} {s : Shelf} (h : P s) :
    P (reportNoSpare p s) := by
  unfold reportNoSpare
  try dsimp only
  repeat' first
      | with_reducible assumption
      | with_reducible apply stay_reportChange K
      | split
      | assumption

theorem stay_reportMissing (K : StaysOf P) {n : SlotNo} {s : Shelf} (h : P s) :
    P (reportMissing n s) := by
  unfold reportMissing
  try dsimp only
  repeat' first
      | with_reducible assumption
      | with_reducible apply stay_reportChange K
      | split
      | assumption

theorem stay_joinTags (K : StaysOf P) {p : PortNo} {s : Shelf} (h : P s) :
    P (joinTags p s) := by
  unfold joinTags
  try dsimp only
  repeat' first
      | with_reducible assumption
      | split
      | with_reducible apply stay_recs K

theorem stay_tagOwedChanged (K : StaysOf P) {p : PortNo} {s : Shelf} (h : P s) :
    P (tagOwedChanged p s) := by
  unfold tagOwedChanged
  try dsimp only
  repeat' first
      | with_reducible assumption
      | with_reducible apply stay_joinTags K
      | split
      | with_reducible apply stay_recs K

theorem stay_syncTimer (K : StaysOf P) {p : PortNo} {s : Shelf} (h : P s) :
    P (syncTimer p s) := by
  unfold syncTimer
  try dsimp only
  repeat' first
      | with_reducible assumption
      | with_reducible apply stay_setTimer K
      | split

theorem stay_leaveCandidates (K : StaysOf P) {p : PortNo} {s : Shelf} (h : P s) :
    P (leaveCandidates p s) := by
  unfold leaveCandidates
  try dsimp only
  repeat' first
      | with_reducible assumption
      | split
      | with_reducible apply stay_recs K

theorem stay_enterCandidates (K : StaysOf P) {p : PortNo} {s : Shelf} (h : P s) :
    P (enterCandidates p s) := by
  unfold enterCandidates
  try dsimp only
  repeat' first
      | with_reducible assumption
      | split
      | with_reducible apply stay_recs K

theorem stay_syncCandidate (K : StaysOf P) {p : PortNo} {s : Shelf} (h : P s) :
    P (syncCandidate p s) := by
  unfold syncCandidate
  try dsimp only
  repeat' first
      | with_reducible assumption
      | with_reducible apply stay_leaveCandidates K
      | split

theorem stay_syncPort (K : StaysOf P) {p : PortNo} {s : Shelf} (h : P s) :
    P (syncPort p s) := by
  unfold syncPort
  try dsimp only
  repeat' first
      | with_reducible assumption
      | with_reducible apply stay_syncCandidate K
      | with_reducible apply stay_syncTimer K
      | split

theorem stay_setExpired (K : StaysOf P) {p : PortNo} {b : Bool} {s : Shelf} (h : P s) :
    P (setExpired p b s) := by
  unfold setExpired
  try dsimp only
  repeat' first
      | with_reducible assumption
      | with_reducible apply stay_reportChange K
      | split
      | with_reducible apply stay_ords K
      | assumption

theorem stay_startOrder (K : StaysOf P) {s : Shelf} {num : Nat} (h : P s) :
    P (startOrder s num) := by
  unfold startOrder
  try dsimp only
  repeat' first
      | with_reducible assumption
      | with_reducible apply stay_enterAwaitDark K
      | with_reducible apply stay_enterStage K
      | with_reducible apply stay_placeHold K
      | split

theorem stay_startCheck (K : StaysOf P) {s : Shelf} (h : P s) :
    P (startCheck s) := by
  unfold startCheck
  try dsimp only
  repeat' first
      | with_reducible assumption
      | with_reducible apply stay_startOrder K
      | with_reducible apply stay_foldl (P := P)
      | (intro _ _ _; try dsimp only)
      | (intro _ _; try dsimp only)
      | split

theorem stay_openOrder (K : StaysOf P) {origin : Origin} {src dst : PortNo} {unprotected : Bool} {dark light : Nat} {s : Shelf} (h : P s) :
    P (openOrder origin src dst unprotected dark light s).1 := by
  unfold openOrder
  try dsimp only
  repeat' first
      | with_reducible assumption
      | with_reducible apply stay_orderNotice K
      | with_reducible apply stay_poolUpdate K
      | with_reducible apply stay_reportNoSpare K
      | with_reducible apply stay_setExpired K
      | with_reducible apply stay_startCheck K
      | with_reducible apply stay_syncPort K
      | split
      | with_reducible apply stay_ords K

theorem stay_tryCondemn (K : StaysOf P) {p : PortNo} {s : Shelf} (h : P s) :
    P (tryCondemn p s).1 := by
  unfold tryCondemn
  try dsimp only
  repeat' first
      | with_reducible assumption
      | with_reducible apply stay_openOrder K
      | split

theorem stay_retryCondemned (K : StaysOf P) {s : Shelf} (h : P s) :
    P (retryCondemned s) := by
  unfold retryCondemned
  try dsimp only
  repeat' first
      | with_reducible assumption
      | with_reducible apply stay_tryCondemn K
      | with_reducible apply stay_foldl (P := P)
      | (intro _ _ _; try dsimp only)
      | (intro _ _; try dsimp only)
      | split

theorem stay_condemnPort (K : StaysOf P) {p : PortNo} {c : Condemn} {s : Shelf} (h : P s) :
    P (condemnPort p c s).1 := by
  unfold condemnPort
  try dsimp only
  repeat' first
      | with_reducible assumption
      | with_reducible apply stay_reportNoSpare K
      | with_reducible apply stay_setCondemn K
      | with_reducible apply stay_syncTimer K
      | with_reducible apply stay_tryCondemn K
      | split

theorem stay_manualCondemn (K : StaysOf P) {p : PortNo} {c : Condemn} {s : Shelf} (h : P s) :
    P (manualCondemn p c s).1 := by
  unfold manualCondemn
  try dsimp only
  repeat' first
      | with_reducible assumption
      | with_reducible apply stay_condemnPort K
      | with_reducible apply stay_leaveCandidates K
      | split

theorem stay_autoCondemn (K : StaysOf P) {p : PortNo} {s : Shelf} (h : P s) :
    P (autoCondemn p s) := by
  unfold autoCondemn
  try dsimp only
  repeat' first
      | with_reducible assumption
      | with_reducible apply stay_leaveCandidates K
      | with_reducible apply stay_condemnPort K
      | split

theorem stay_trigger (K : StaysOf P) {p : PortNo} {s : Shelf} (h : P s) :
    P (trigger p s) := by
  unfold trigger
  try dsimp only
  repeat' first
      | with_reducible assumption
      | with_reducible apply stay_autoCondemn K
      | split

theorem stay_sweep (K : StaysOf P) {s : Shelf} (h : P s) :
    P (sweep s) := by
  unfold sweep
  try dsimp only
  repeat' first
      | with_reducible assumption
      | with_reducible apply stay_trigger K
      | with_reducible apply stay_foldl (P := P)
      | (intro _ _ _; try dsimp only)
      | (intro _ _; try dsimp only)
      | split

theorem stay_condemnTimerOver (K : StaysOf P) {p : PortNo} {s : Shelf} (h : P s) :
    P (condemnTimerOver p s) := by
  unfold condemnTimerOver
  try dsimp only
  repeat' first
      | with_reducible assumption
      | with_reducible apply stay_setTimer K
      | with_reducible apply stay_trigger K
      | split

theorem stay_poolEvent (K : StaysOf P) {s : Shelf} (h : P s) :
    P (poolEvent s) := by
  unfold poolEvent
  try dsimp only
  repeat' first
      | with_reducible assumption
      | with_reducible apply stay_poolUpdate K
      | with_reducible apply stay_retryCondemned K
      | split

theorem stay_clearCondemn (K : StaysOf P) {p : PortNo} {s : Shelf} (h : P s) :
    P (clearCondemn p s) := by
  unfold clearCondemn
  try dsimp only
  repeat' first
      | with_reducible assumption
      | with_reducible apply stay_reportNoSpare K
      | with_reducible apply stay_setCondemn K
      | with_reducible apply stay_syncTimer K
      | split

theorem stay_setTagsTold (K : StaysOf P) {p : PortNo} {s : Shelf} (h : P s) : P (setTagsTold p s) :=
  K.base s _ rfl rfl rfl rfl h

theorem stay_classChanged (K : StaysOf P) {p : PortNo} {old : ServiceClass} {s : Shelf} (h : P s) :
    P (classChanged p old s) := by
  unfold classChanged
  try dsimp only
  repeat' first
      | with_reducible assumption
      | with_reducible apply stay_poolEvent K
      | with_reducible apply stay_refreshPort K
      | with_reducible apply stay_reportMissing K
      | with_reducible apply stay_setTagsTold K
      | with_reducible apply stay_syncPort K
      | with_reducible apply stay_tagOwedChanged K
      | split

theorem stay_recordsCondition (K : StaysOf P) {p : PortNo} {old new : PortCond} {s : Shelf} (h : P s) :
    P (recordsCondition p old new s) := by
  unfold recordsCondition
  try dsimp only
  repeat' first
      | with_reducible assumption
      | with_reducible apply stay_enterCandidates K
      | with_reducible apply stay_reportTags K
      | with_reducible apply stay_syncTimer K
      | with_reducible apply stay_trigger K
      | split

theorem stay_settleCondemn (K : StaysOf P) {o : Order} {ending : OrderEvent} {s : Shelf} (h : P s) :
    P (settleCondemn o ending s) := by
  unfold settleCondemn
  try dsimp only
  repeat' first
      | with_reducible assumption
      | with_reducible apply stay_setCondemn K
      | split

theorem stay_dropHold (K : StaysOf P) {o : Order} {s : Shelf} (h : P s) :
    P (dropHold o s) := by
  unfold dropHold
  try dsimp only
  repeat' first
      | with_reducible assumption
      | with_reducible apply stay_removeHold K
      | split

theorem stay_endOrderAlarms (K : StaysOf P) {o : Order} {s : Shelf} (h : P s) :
    P (endOrderAlarms o s) := by
  unfold endOrderAlarms
  try dsimp only
  repeat' first
      | with_reducible assumption
      | with_reducible apply stay_refreshPort K
      | with_reducible apply stay_reportChange K
      | split
      | assumption

theorem stay_orderOut (K : StaysOf P) {o : Order} {ending : OrderEvent} {s : Shelf} (h : P s) :
    P (orderOut o ending s) := by
  unfold orderOut
  try dsimp only
  repeat' first
      | with_reducible assumption
      | with_reducible apply stay_dropHold K
      | with_reducible apply stay_endOrderAlarms K
      | with_reducible apply stay_orderNotice K
      | with_reducible apply stay_poolUpdate K
      | with_reducible apply stay_reportNoSpare K
      | with_reducible apply stay_retryCondemned K
      | with_reducible apply stay_setExpired K
      | with_reducible apply stay_settleCondemn K
      | with_reducible apply stay_startCheck K
      | with_reducible apply stay_syncPort K
      | with_reducible apply stay_timingRun K
      | split
      | with_reducible apply stay_ords K

theorem stay_orderGone (K : StaysOf P) {o : Order} {s : Shelf} (h : P s) :
    P (orderGone o s) := by
  unfold orderGone
  try dsimp only
  repeat' first
      | with_reducible assumption
      | with_reducible apply stay_dropHold K
      | with_reducible apply stay_endOrderAlarms K
      | with_reducible apply stay_orderNotice K
      | with_reducible apply stay_poolUpdate K
      | with_reducible apply stay_reportNoSpare K
      | with_reducible apply stay_retryCondemned K
      | with_reducible apply stay_setExpired K
      | with_reducible apply stay_settleCondemn K
      | with_reducible apply stay_startCheck K
      | with_reducible apply stay_syncPort K
      | with_reducible apply stay_timingRun K
      | split
      | with_reducible apply stay_ords K

theorem stay_leaveOrder (K : StaysOf P) {num : Nat} {ending : OrderEvent} {s : Shelf} (h : P s) :
    P (leaveOrder num ending s) := by
  unfold leaveOrder
  split
  · exact h
  · exact stay_orderGone K (stay_orderOut K h)

theorem stay_expireOrder (K : StaysOf P) {num : Nat} {s : Shelf} (h : P s) :
    P (expireOrder num s) := by
  unfold expireOrder
  try dsimp only
  repeat' first
      | with_reducible assumption
      | with_reducible apply stay_leaveOrder K
      | split

theorem stay_lapse (K : StaysOf P) {num : Nat} {s : Shelf} (h : P s) :
    P (lapse num s) := by
  unfold lapse
  try dsimp only
  repeat' first
      | with_reducible assumption
      | with_reducible apply stay_enterAwaitLight K
      | with_reducible apply stay_expireOrder K
      | split

theorem stay_destEvent (K : StaysOf P) {p : PortNo} {s : Shelf} (h : P s) :
    P (destEvent p s) := by
  unfold destEvent
  try dsimp only
  repeat' first
      | with_reducible assumption
      | with_reducible apply stay_judgeDest K
      | with_reducible apply stay_lapse K
      | split

theorem stay_sourceEvent (K : StaysOf P) {p : PortNo} {s : Shelf} (h : P s) :
    P (sourceEvent p s) := by
  unfold sourceEvent
  try dsimp only
  repeat' first
      | with_reducible assumption
      | with_reducible apply stay_judgeSource K
      | split

theorem stay_darkOver (K : StaysOf P) {num : Nat} {s : Shelf} (h : P s) :
    P (darkOver num s) := by
  unfold darkOver
  try dsimp only
  repeat' first
      | with_reducible assumption
      | with_reducible apply stay_expireOrder K
      | split

theorem stay_lightOver (K : StaysOf P) {num : Nat} {s : Shelf} (h : P s) :
    P (lightOver num s) := by
  unfold lightOver
  try dsimp only
  repeat' first
      | with_reducible assumption
      | with_reducible apply stay_expireOrder K
      | split

theorem stay_changeRecords (K : StaysOf P) {o : Order} {s : Shelf} (h : P s) :
    P (changeRecords o s) := by
  unfold changeRecords
  try dsimp only
  repeat' first
      | with_reducible assumption
      | with_reducible apply stay_classChanged K
      | with_reducible apply stay_offerOwn K
      | with_reducible apply stay_reportNoSpare K
      | with_reducible apply stay_setCondemn K
      | with_reducible apply stay_setRecord K
      | with_reducible apply stay_substituteMember K
      | split

theorem stay_askSubstitution (K : StaysOf P) {g : GroupNo} {chan : Nat} {src dst : PortNo} {s : Shelf} (h : P s) :
    P (askSubstitution g chan src dst s) := by
  unfold askSubstitution
  try dsimp only
  repeat' first
      | with_reducible assumption
      | with_reducible apply stay_leaveClear K
      | with_reducible apply stay_scheduleGroup K
      | with_reducible apply stay_setExec K
      | split

theorem stay_completeOrder (K : StaysOf P) {num : Nat} {s : Shelf} (h : P s) :
    P (completeOrder num s) := by
  unfold completeOrder
  try dsimp only
  repeat' first
      | with_reducible assumption
      | with_reducible apply stay_askSubstitution K
      | with_reducible apply stay_changeRecords K
      | with_reducible apply stay_leaveClear K
      | with_reducible apply stay_leaveOrder K
      | with_reducible apply stay_noticeOf K
      | with_reducible apply stay_rebind K
      | with_reducible apply stay_refreshOrder K
      | with_reducible apply stay_reportMisPatch K
      | with_reducible apply stay_reportPatch K
      | with_reducible apply stay_setStage K
      | split

theorem stay_verifyOver (K : StaysOf P) {num : Nat} {s : Shelf} (h : P s) :
    P (verifyOver num s) := by
  unfold verifyOver
  try dsimp only
  repeat' first
      | with_reducible assumption
      | with_reducible apply stay_completeOrder K
      | split

end

end Sys2Proof.Machine
end

