-- ==== Sys2Proof/Laws/Watch.lean ====
section
/-! SUPPORT. The walk of Laws/Stays carried on over observations, preparation, arming and the entry to WATCH: what the
phases come to, and that an order that leaves the list tells its ending and changes no setting. -/

namespace Sys2Proof.Machine

/-- That the cards' blocks are as they were is a property that the walk takes. -/
theorem cards (s : Shelf) : StaysOf (SameCards s) where
  base := fun _ _ h1 h2 h3 h4 h => ⟨h1.trans h.1, h2.trans h.2.1, h3.trans h.2.2.1, h4.trans h.2.2.2⟩

theorem orderOut_told (o : Order) (e : OrderEvent) (s : Shelf) :
    Notice.order e o.num o.origin o.src o.dst o.circuit o.stage o.granted ∈ (orderOut o e s).out := by
  simp [orderOut, orderNotice, tell]

theorem leave_out {s : Shelf} {num : Nat} {e : OrderEvent} {o : Order} (h : orderOf s num = some o) :
    Notice.order e o.num o.origin o.src o.dst o.circuit o.stage o.granted ∈ (leaveOrder num e s).out := by
  unfold leaveOrder
  rw [h]
  exact free_orderGone (made_free _) (orderOut_told o e s)

theorem order_num {s : Shelf} {n : Nat} {o : Order} (h : orderOf s n = some o) : o.num = n := by
  have := List.find?_some h
  simpa using this

theorem leave_ended {s : Shelf} {num : Nat} {e : OrderEvent} {o : Order} (h : orderOf s num = some o) :
    Notice.order e o.num o.origin o.src o.dst o.circuit o.stage o.granted ∈ (leaveOrder num e s).out
      ∧ SameSettings s (leaveOrder num e s) ∧ SameCards s (leaveOrder num e s) :=
  ⟨leave_out h, (wide_settings (keep_leaveOrder (wide s) (wide_rfl s))).1, stay_leaveOrder (cards s) ⟨rfl, rfl, rfl, rfl⟩⟩

/-- The readiness controller is `r`. -/
theorem rdyIs (r : Readiness) : StaysOf (fun s => s.rdy = r) where
  base := fun _ _ _ _ h3 _ h => h3.trans h

section
variable {P : Shelf → Prop}
theorem stay_finishPreparation (K : StaysOf P) {g : GroupNo} {s : Shelf} (h : P s) : P (finishPreparation g s) := by
  unfold finishPreparation
  split
  · exact h
  · dsimp only
    split
    · exact stay_evaluate K (stay_setExec K h)
    · exact h
theorem stay_prepareGroup (K : StaysOf P) {g : GroupNo} {s : Shelf} (h : P s) : P (prepareGroup g s) := by
  unfold prepareGroup
  split
  · exact h
  · split
    · exact stay_finishPreparation K (stay_scheduleGroup K (stay_setExec K h))
    · exact h
theorem stay_enterArmed (K : StaysOf P) {s : Shelf} (h : P (setPhase .armed s)) : P (enterArmed s) :=
  stay_syncClear K (stay_foldl _ (fun _ _ h => stay_scheduleGroup K h) (stay_sweep K (stay_startCheck K (stay_foldl _ (fun _ _ h => stay_evaluate K h) (stay_foldl _ (fun _ _ h => stay_prepareGroup K h) (stay_tell K h))))))
end

theorem enterArmed_rdy (s : Shelf) : (enterArmed s).rdy = { s.rdy with phase := .armed } :=
  stay_enterArmed (rdyIs { s.rdy with phase := .armed }) (by rfl)

theorem startArming_rdy {s : Shelf} (h : s.rdy.phase = .watch) (c : ArmCause) : (startArming c s).rdy
    = { s.rdy with phase := if (armingGroups s).isEmpty then .armed else .arming, armCause := some c, armingFor := none } := by
  unfold startArming
  rw [if_pos h]
  dsimp only
  split
  · rw [enterArmed_rdy]
  · exact stay_foldl (P := fun x => x.rdy = { s.rdy with phase := .arming, armCause := some c, armingFor := none }) _ (fun _ _ h => stay_askAdoption (rdyIs _) h) rfl

theorem armingGroups_empty (s : Shelf) : (armingGroups s).isEmpty = false ↔ ∃ g, (defOf s g).isSome = true ∧ (execOf s g).prepareDue = false := by
  unfold armingGroups
  rw [List.isEmpty_eq_false_iff, Ne, List.filter_eq_nil_iff]
  constructor
  · intro h
    by_contra hc
    apply h
    intro g _ hg
    simp only [Bool.and_eq_true, Bool.not_eq_true'] at hg
    exact hc ⟨g, hg⟩
  · rintro ⟨g, h1, h2⟩ h
    have := h g (by simp [allGroups])
    simp [h1, h2] at this

/-- The scanner's cycle, its period, and the readiness controller. -/
def CycleIs (c : Cycle) (p : Option Nat) (r : Readiness) (s : Shelf) : Prop := s.scan.cycle = c ∧ s.scan.period = p ∧ s.rdy = r

theorem cycleIs (c : Cycle) (p : Option Nat) (r : Readiness) : StaysOf (CycleIs c p r) where
  base := fun _ _ _ h2 h3 _ h => ⟨by rw [h2]; exact h.1, by rw [h2]; exact h.2.1, h3.trans h.2.2⟩

section
variable {P : Shelf → Prop}
theorem stay_conditionFirst (K : StaysOf P) {p : PortNo} {o n : PortCond} {s : Shelf} (h : P s) : P (conditionFirst p o n s) :=
  stay_engineCondition K (stay_refreshPort K h)
theorem stay_conditionRest (K : StaysOf P) {p : PortNo} {o n : PortCond} {s : Shelf} (h : P s) : P (conditionRest p o n s) :=
  stay_destEvent K (stay_sourceEvent K (stay_recordsCondition K h))
theorem stay_tagEvent (K : StaysOf P) {p : PortNo} {s : Shelf} (h : P s) : P (tagEvent p s) :=
  stay_destEvent K (stay_reportTags K h)
theorem stay_judgeConfirm (K : StaysOf P) {g : GroupNo} {s : Shelf} (h : P s) : P (judgeConfirm g s) := by
  unfold judgeConfirm
  dsimp only
  repeat' split
  · exact stay_scheduleGroup K (stay_endConfirm K (stay_setExec K h))
  · exact h
  · exact h
  · exact h
theorem stay_executorWord (K : StaysOf P) {p : PortNo} {s : Shelf} (h : P s) : P (executorWord p s) := by
  unfold executorWord
  split
  · exact stay_judgeConfirm K h
  · exact h
  · exact h
theorem stay_wordEvent (K : StaysOf P) {p : PortNo} {s : Shelf} (h : P s) : P (wordEvent p s) :=
  stay_executorWord K (stay_engineWord K h)
theorem stay_changeFirst (K : StaysOf P) {x : ObsChange} {s : Shelf} (h : P s) : P (changeFirst s x) := by
  unfold changeFirst
  split
  · exact h
  · exact stay_conditionFirst K h
theorem stay_changeRest (K : StaysOf P) {x : ObsChange} {s : Shelf} (h : P s) : P (changeRest s x) := by
  unfold changeRest
  dsimp only
  have h1 : P (if x.new.cond = x.old.cond then s else conditionRest x.port x.old.cond x.new.cond s) := by
    split
    · exact h
    · exact stay_conditionRest K h
  generalize (if x.new.cond = x.old.cond then s else conditionRest x.port x.old.cond x.new.cond s) = s1 at h1
  have h2 : P (if x.new.rxTag = x.old.rxTag then s1 else tagEvent x.port s1) := by
    split
    · exact h1
    · exact stay_tagEvent K h1
  generalize (if x.new.rxTag = x.old.rxTag then s1 else tagEvent x.port s1) = s2 at h2
  split
  · exact h2
  · exact stay_wordEvent K h2
/-- Once the observations have changed, the events that follow keep what the walk keeps. -/
theorem stay_observeAll (K : StaysOf P) {l : List (PortNo × Obs)} {s : Shelf}
    (h : P (l.foldl (fun s x => setObs x.1 x.2 s) s)) : P (observeAll l s) := by
  unfold observeAll
  dsimp only
  refine stay_foldl (f := changeRest) _ (fun _ _ h => stay_changeRest K h) ?_
  have h1 := stay_foldl (P := P) (f := changeFirst) (l.map (fun x => ObsChange.mk x.1 (obsOf s x.1) x.2))
    (fun _ _ h => stay_changeFirst K h) h
  split
  · exact stay_timingRun K h1
  · exact h1
theorem stay_observe (K : StaysOf P) {p : PortNo} {o : Obs} {s : Shelf} (h : P (setObs p o s)) : P (observe p o s) :=
  stay_observeAll K h
/-- A property that no observation changes. -/
theorem stay_observeBases (K : StaysOf P) (ho : ∀ p o s, P s → P (setObs p o s)) {l : List PortNo} {s : Shelf} (h : P s) :
    P (observeBases l s) :=
  stay_observeAll K (stay_foldl (f := fun s (x : PortNo × Obs) => setObs x.1 x.2 s) _ (fun s x h => ho x.1 x.2 s h) h)
end

theorem windowChanged_cycle {c : Cycle} {p : Option Nat} {r : Readiness} {s : Shelf} (h : CycleIs c p r s) : CycleIs c p r (windowChanged s) :=
  stay_observeBases (cycleIs c p r) (fun _ _ _ h => h) h

theorem takePending_rdy (s : Shelf) : (takePending s).rdy = s.rdy := by
  unfold takePending modeChanged resumeAll setScan
  cases s.scan.pending
  · rfl
  · dsimp only; split
    · split <;> rfl
    · rfl
theorem takePending_out (s : Shelf) : (takePending s).out = s.out := by
  unfold takePending modeChanged resumeAll setScan
  cases s.scan.pending
  · rfl
  · dsimp only; split
    · split <;> rfl
    · rfl

theorem cycleStart_cycle (s : Shelf) : CycleIs (.running 0 false) (some 0) s.rdy (cycleStart s) :=
  windowChanged_cycle ⟨rfl, rfl, takePending_rdy s⟩

theorem enterWatch_cycle (s : Shelf) : CycleIs (.running 0 false) (some 0) { s.rdy with phase := .watch, armingFor := some 0 } (enterWatch s) := by
  have K := cycleIs (.running 0 false) (some 0) { s.rdy with phase := .watch, armingFor := some 0 }
  unfold enterWatch
  dsimp only
  refine stay_foldl _ (fun _ _ h => stay_syncTimer K h) (stay_foldl _ (fun x g h => ?_) (cycleStart_cycle _))
  split
  · exact stay_askAdoption K h
  · exact h

theorem told_stays (n : Notice) (s0 : Shelf) (f : Shelf → GroupNo → Bool) : n ∈ (allPorts.foldl (fun s p => syncTimer p s)
    (allGroups.foldl (fun s g => if f s g then askAdoption g s else s) (cycleStart (tell n s0)))).out := by
  have h1 : n ∈ (tell n s0).out := by simp [tell]
  have h2 : n ∈ (cycleStart (tell n s0)).out := free_cycleStart (made_free n) h1
  generalize cycleStart (tell n s0) = x at h2
  have h3 : n ∈ (allGroups.foldl (fun s g => if f s g then askAdoption g s else s) x).out := by
    refine free_foldl (P := fun s => n ∈ s.out) _ (fun y g hy => ?_) h2
    split
    · exact free_askAdoption (made_free n) hy
    · exact hy
  exact free_foldl (P := fun s => n ∈ s.out) _ (fun y g hy => free_syncTimer (made_free n) hy) h3

theorem enterWatch_out (s : Shelf) : startUpNotice { s with rdy := { s.rdy with phase := .watch, armingFor := some 0 } } ∈ (enterWatch s).out := by
  unfold enterWatch
  dsimp only
  generalize hz : ({ s with rdy := { s.rdy with phase := .watch, armingFor := some 0 } } : Shelf) = z
  exact told_stays _ z (fun s g => (defOf s g).isSome)

end Sys2Proof.Machine
end

