-- ==== Sys2Proof/Laws/Bus.lean ====
section
/-! SUPPORT. Answers of the cards: what each answer does to its transfer, what the end of a transaction or of a probe does
to the slot records and the bus fault record, and that an observation changes one port's observation alone. -/

namespace Sys2Proof.Machine

section

/-- A card's answer, and then what its transfer comes to. -/
theorem exec_answer (a : CardAnswer) (s : State) : exec (.cardAnswer a) s = .next (settled (answerCard a s.shelf) s) := rfl

theorem answer_ack {s : Shelf} {u : BusUse} {t : Transfer} (hb : s.bp.bus = some u) (ht : transferOf u = some t) (w : Word) :
    answerCard (.ack w) s = pump (transferAcked u t w s) := by
  unfold answerCard; rw [hb]; dsimp only; rw [ht]
theorem answer_retry {s : Shelf} {u : BusUse} {t : Transfer} (hb : s.bp.bus = some u) (ht : transferOf u = some t) :
    answerCard .retry s = pump (transferRetried u t s) := by
  unfold answerCard; rw [hb]; dsimp only; rw [ht]
theorem answer_fault {s : Shelf} {u : BusUse} {t : Transfer} (hb : s.bp.bus = some u) (ht : transferOf u = some t) :
    answerCard .fault s = pump (endTransaction u (some (t, .fault)) s) := by
  unfold answerCard; rw [hb]; dsimp only; rw [ht]

/-- The slot records, the bus fault record, the bus and the readiness controller. -/
def SlotsAre (v : Vector SlotRec 12) (f l : Option BusFault) (u : Option BusUse) (r : Readiness) (s : Shelf) : Prop :=
  s.bp.slots = v ∧ s.bp.firstCause = f ∧ s.bp.lastFault = l ∧ s.bp.bus = u ∧ s.rdy = r

variable {v : Vector SlotRec 12} {f l : Option BusFault} {u : Option BusUse} {r : Readiness}

theorem slotsAre (v : Vector SlotRec 12) (f l : Option BusFault) (u : Option BusUse) (r : Readiness) : StaysOf (SlotsAre v f l u r) where
  base := fun _ _ h1 _ h3 _ h => by unfold SlotsAre; rw [h1, h3]; exact h

theorem scannerSlot_slots (n : SlotNo) {s : Shelf} (h : SlotsAre v f l u r s) : SlotsAre v f l u r (scannerSlot n s) :=
  stay_observeBases (slotsAre v f l u r) (fun _ _ _ h => h) h

theorem oweAgain_slots (n : SlotNo) (g : GroupNo) {s : Shelf} (h : SlotsAre v f l u r s) : SlotsAre v f l u r (oweAgain n g s) := by
  have K := slotsAre v f l u r
  unfold oweAgain
  split
  · exact h
  · split
    · exact stay_scheduleGroup K (stay_setExec K h)
    · exact h

theorem cardPresent_slots (n : SlotNo) {s : Shelf} (h : SlotsAre v f l u r s) : SlotsAre v f l u r (cardPresent n s) := by
  have K := slotsAre v f l u r
  unfold cardPresent
  dsimp only
  have h1 : SlotsAre v f l u r (executorPresent n (((portsOf n).filter (fun p => decide (classOf (gradesOwed n s) p = .inService))).foldl (fun s p => joinTags p s) (gradesOwed n s))) := by
    have h2 : SlotsAre v f l u r (((portsOf n).filter (fun p => decide (classOf (gradesOwed n s) p = .inService))).foldl (fun s p => joinTags p s) (gradesOwed n s)) :=
      stay_foldl _ (fun _ _ h => stay_joinTags K h) (stay_gradesOwed K h)
    generalize (((portsOf n).filter (fun p => decide (classOf (gradesOwed n s) p = .inService))).foldl (fun s p => joinTags p s) (gradesOwed n s)) = y at *
    unfold executorPresent
    dsimp only
    split
    · exact h2
    · refine stay_syncClear K (stay_foldl _ (fun x g h => ?_) h2)
      split
      · exact stay_askAdoptionFor K h
      · exact oweAgain_slots n g h
  split
  · exact h1
  · exact h1

theorem cardGone_slots (n : SlotNo) {s : Shelf} (h : SlotsAre v f l u r s) : SlotsAre v f l u r (cardGone n s) := by
  have K := slotsAre v f l u r
  unfold cardGone executorGone
  dsimp only
  refine stay_foldl (P := SlotsAre v f l u r) _ (fun x g h => stay_finishPreparation K (stay_setExec K h)) ?_
  have hg := stay_gradesGone K (n := n) h
  exact hg

theorem slotChange_slots (n : SlotNo) (q : SlotRec) {s : Shelf} (h : SlotsAre v f l u r s) : SlotsAre (upd v n (fun _ => q)) f l u r (slotChange n q s) := by
  have K := slotsAre (upd v n (fun _ => q)) f l u r
  unfold slotChange
  dsimp only
  have h0 : SlotsAre (upd v n (fun _ => q)) f l u r (syncReprobe n (setSlot n (fun _ => q) s)) := by
    obtain ⟨h1, h2⟩ := h
    exact ⟨congrArg (fun w => upd w n (fun _ => q)) h1, h2⟩
  have h1 := stay_reportMissing K (n := n) (stay_reportChange K (o := .slot n) (c := .cardFailed) (b := decide (q.state = .failed))
    (scannerSlot_slots n (stay_tell K (n := .slot n q.state q.kind q.rev) h0)))
  split
  · exact cardPresent_slots n h1
  · exact cardGone_slots n h1

theorem probeOutcome_slots (n : SlotNo) (e : TxnEnd) {s : Shelf} (h : SlotsAre v f l u r s) :
    SlotsAre (upd v n (fun _ => probeRecord e)) f l u r (probeOutcome n e s) := by
  unfold probeOutcome
  dsimp only
  split
  · obtain ⟨h1, h2⟩ := h
    exact ⟨congrArg (fun w => upd w n (fun _ => probeRecord e)) h1, h2⟩
  · exact slotChange_slots n _ h

theorem countFault_absent {n : SlotNo} {b : Bool} {s : Shelf} (h : slotStateOf s n ≠ .present) : countFault n b s = s := by
  unfold countFault slotStateOf at *
  dsimp only
  rw [if_pos h]

/-- R5: what the end of a transaction makes of a slot's record. -/
def countedSlot (faulted : Bool) (r : SlotRec) : SlotRec :=
  if r.state ≠ .present then r
  else if !faulted then { r with faults := 0 }
  else if r.faults + 1 < 3 then { r with faults := r.faults + 1 }
  else ⟨.failed, none, none, 3⟩

theorem countFault_slots (n : SlotNo) (b : Bool) {s : Shelf} (h : SlotsAre v f l u r s) :
    ∃ x, SlotsAre x f l u r (countFault n b s) ∧ ∀ m, at' x m = if m = n then countedSlot b (at' v n) else at' v m := by
  have e : at' s.bp.slots n = at' v n := by rw [h.1]
  have keep : countedSlot b (at' v n) = at' v n → ∀ m, at' v m = if m = n then countedSlot b (at' v n) else at' v m := by
    intro k m
    by_cases hm : m = n
    · subst hm; rw [if_pos rfl, k]
    · rw [if_neg hm]
  have up : ∀ q, countedSlot b (at' v n) = q (at' v n) → ∀ m, at' (upd v n q) m
      = if m = n then countedSlot b (at' v n) else at' v m := by
    intro q k m
    by_cases hm : m = n
    · subst hm; rw [at'_upd_same, if_pos rfl, k]
    · rw [at'_upd_ne _ _ hm, if_neg hm]
  have one : ∀ q, SlotsAre (upd v n q) f l u r (setSlot n q s) := fun q => ⟨congrArg (fun w => upd w n q) h.1, h.2⟩
  unfold countFault
  dsimp only
  rw [e]
  by_cases hp : (at' v n).state ≠ .present
  · rw [if_pos hp]
    exact ⟨v, h, keep (by unfold countedSlot; rw [if_pos hp])⟩
  · rw [if_neg hp]
    by_cases hb : (!b) = true
    · rw [if_pos hb]
      exact ⟨_, one _, up _ (by unfold countedSlot; rw [if_neg hp, if_pos hb])⟩
    · rw [if_neg hb]
      by_cases hf : (at' v n).faults + 1 < 3
      · rw [if_pos hf]
        exact ⟨_, one _, up _ (by unfold countedSlot; rw [if_neg hp, if_neg hb, if_pos hf])⟩
      · rw [if_neg hf]
        exact ⟨_, slotChange_slots n _ h, up _ (by unfold countedSlot; rw [if_neg hp, if_neg hb, if_neg hf])⟩

theorem countFault_foldl (ns : List SlotNo) {s : Shelf} (h : SlotsAre v f l u r s) :
    ∃ x, SlotsAre x f l u r (ns.foldl (fun s n => countFault n false s) s)
      ∧ ∀ m, at' x m = if m ∈ ns then countedSlot false (at' v m) else at' v m := by
  have idem : ∀ a, countedSlot false (countedSlot false a) = countedSlot false a := by
    intro a; unfold countedSlot; simp; split <;> simp_all
  induction ns generalizing s v with
  | nil => exact ⟨v, h, fun m => by simp⟩
  | cons n ns ih =>
    obtain ⟨x, h1, h2⟩ := countFault_slots n false h
    obtain ⟨y, h3, h4⟩ := ih h1
    refine ⟨y, h3, fun m => ?_⟩
    rw [h4, h2]
    by_cases hm : m = n
    · subst hm; simp [idem]
    · simp [hm]

/-- R5: the slot records after a transaction. -/
theorem countFaults_slots (w : BusUse) (fault : Option (Transfer × BusAnswer)) {s : Shelf} (h : SlotsAre v f l u r s) :
    ∃ x, SlotsAre x f l u r (countFaults w fault s)
      ∧ ∀ m, at' x m = if fault.map (fun a => a.1.slot) = some m then countedSlot true (at' v m)
          else if m ∈ ackedSlots w then countedSlot false (at' v m) else at' v m := by
  unfold countFaults
  dsimp only
  obtain ⟨x, k1, k2⟩ := countFault_foldl
    (allSlots.filter (fun n => decide (n ∈ ackedSlots w) && decide (fault.map (fun a => a.1.slot) ≠ some n))) h
  cases fault with
  | none =>
    refine ⟨x, k1, fun m => ?_⟩
    rw [k2]
    simp [allSlots]
  | some a =>
    obtain ⟨y, k3, k4⟩ := countFault_slots a.1.slot true k1
    refine ⟨y, k3, fun m => ?_⟩
    rw [k4]
    by_cases hm : m = a.1.slot
    · subst hm
      rw [if_pos rfl, k2]
      simp
    · rw [if_neg hm, k2]
      simp [allSlots, Ne.symm hm]

/-- R5, R7, R13, R18: what the end of a transaction leaves before its outcome reaches the requester. -/
theorem endTransaction_spec (u : BusUse) (fault : Option (Transfer × BusAnswer)) (s : Shelf) :
    ∃ y : Shelf, endTransaction u fault s = deliver u (match fault with
        | none => .done u.reads
        | some (t, a) => .fault a t.slot t.off u.reads.length u.writes) y
      ∧ y.bp.bus = none
      ∧ (∀ m, at' y.bp.slots m = if fault.map (fun a => a.1.slot) = some m then countedSlot true (at' s.bp.slots m)
          else if m ∈ ackedSlots u then countedSlot false (at' s.bp.slots m) else at' s.bp.slots m)
      ∧ ((∀ t a, fault = some (t, a) → u.req = .backplane ∧ a = .timeout) →
          y.bp.firstCause = s.bp.firstCause ∧ y.bp.lastFault = s.bp.lastFault)
      ∧ (∀ t a, fault = some (t, a) → ¬ (u.req = .backplane ∧ a = .timeout) →
          y.bp.firstCause = s.bp.firstCause.or (some ⟨u.req, u.txn.kind, t.slot, t.off, a⟩)
          ∧ y.bp.lastFault = some ⟨u.req, u.txn.kind, t.slot, t.off, a⟩ ∧ (Obj.shelf, Cond.busFault) ∈ y.alm.told) := by
  have base : SlotsAre s.bp.slots s.bp.firstCause s.bp.lastFault none s.rdy (setBp (fun b => { b with bus := none }) s) := ⟨rfl, rfl, rfl, rfl, rfl⟩
  obtain ⟨x, k1, k2⟩ := countFaults_slots u fault base
  unfold endTransaction
  dsimp only
  generalize countFaults u fault (setBp (fun b => { b with bus := none }) s) = z at k1
  obtain ⟨a1, a2, a3, a4, -⟩ := k1
  cases fault with
  | none =>
    refine ⟨z, rfl, a4, fun m => by rw [a1, k2], fun _ => ⟨a2, a3⟩, fun t a h => by cases h⟩
  | some f =>
    obtain ⟨t, a⟩ := f
    dsimp only
    refine ⟨enterFault u t a z, rfl, ?_⟩
    unfold enterFault
    by_cases hc : u.req = .backplane ∧ a = .timeout
    · rw [if_pos hc]
      refine ⟨a4, fun m => by rw [a1, k2], fun _ => ⟨a2, a3⟩, fun t' a' h hn => ?_⟩
      cases h
      exact absurd hc hn
    · rw [if_neg hc]
      dsimp only
      have fr := reportChange_frame .shelf .busFault true (setBp (fun b => { b with firstCause := b.firstCause.or (some ⟨u.req, u.txn.kind, t.slot, t.off, a⟩), lastFault := some ⟨u.req, u.txn.kind, t.slot, t.off, a⟩ }) z)
      refine ⟨by rw [fr.1]; exact a4, fun m => by rw [fr.1, ← k2 m, ← a1]; rfl, fun h => absurd (h t a rfl) hc, fun t' a' h _ => ?_⟩
      cases h
      refine ⟨by rw [fr.1, ← a2]; rfl, by rw [fr.1]; rfl, reportChange_present _ _ _⟩

theorem countFaults_probe {n : SlotNo} {u : BusUse} {a : Option (Transfer × BusAnswer)} {s : Shelf} (hu : u.txn = .read n 0)
    (ha : ∀ x, a = some x → x.1.slot = n) (h : slotStateOf s n ≠ .present) : countFaults u a s = s := by
  unfold countFaults
  dsimp only
  have e : ∀ m ∈ ackedSlots u, m = n := by
    intro m hm
    unfold ackedSlots at hm
    rw [hu] at hm
    dsimp only at hm
    split at hm
    · simp at hm
    · simpa using hm
  have fold : ∀ (l : List SlotNo), (∀ m ∈ l, m = n) → l.foldl (fun s n => countFault n false s) s = s := by
    intro l hl
    induction l with
    | nil => rfl
    | cons m l ih =>
      rw [List.foldl_cons]
      have := hl m (by simp)
      subst this
      rw [countFault_absent h]
      exact ih (fun k hk => hl k (by simp [hk]))
  rw [fold]
  · cases a with
    | none => rfl
    | some x =>
      have := ha x rfl
      show countFault x.1.slot true s = s
      rw [this]; exact countFault_absent h
  · intro m hm
    have := (List.mem_filter.1 hm).2
    simp only [Bool.and_eq_true, decide_eq_true_eq] at this
    exact e m this.1

end

theorem scanIs (c : Scanner) : StaysOf (fun s => s.scan = c) where
  base := fun _ _ _ h2 _ _ h => h2.trans h

/-- Of the scanner an observation changes the port's observation alone. -/
theorem observe_scan (p : PortNo) (o : Obs) (s : Shelf) : (observe p o s).scan = (setObs p o s).scan :=
  stay_observe (scanIs _) rfl

theorem endVisit_obs (cyclic : Bool) (s : Shelf) : (endVisit cyclic s).scan.obs = s.scan.obs := by
  unfold endVisit
  split
  · split <;> rfl
  · rfl

theorem windowSum_eq (l : List Nat) : windowSum l = l.sum := by
  unfold windowSum
  have : ∀ (l : List Nat) n, l.foldl (· + ·) n = n + l.sum := by
    intro l
    induction l with
    | nil => intro n; simp
    | cons a l ih => intro n; rw [List.foldl_cons, ih]; simp; omega
  rw [this]; simp

end Sys2Proof.Machine
end

