-- ==== Sys2Proof/Laws/Changes.lean ====
section
/-! SUPPORT. The changes that requests make to records and definitions: besides the item a request names, no record,
definition or setting changes, and nothing of the cards. -/

namespace Sys2Proof.Machine

theorem flag_of {b : List Byte} {i : Nat} (h : byteAt b i ≤ 1) : flagAt b i = some (decide (byteAt b i = 1)) := by
  unfold flagAt
  rcases Nat.le_one_iff_eq_zero_or_eq_one.1 h with h | h <;> simp [h]
theorem flag_none {b : List Byte} {i : Nat} (h : ¬ byteAt b i ≤ 1) : flagAt b i = none := by
  unfold flagAt
  rw [if_neg (by omega), if_neg (by omega)]

theorem editRecord_kept (p : PortNo) (r : PortRec) (s : Shelf) : Wide (setRecord p r s) (editRecord p r s) ∧ SameCards s (editRecord p r s) := by
  unfold editRecord
  dsimp only
  have K := wide (setRecord p r s)
  have C := cards s
  have c0 : SameCards s (setRecord p r s) := ⟨rfl, rfl, rfl, rfl⟩
  refine ⟨keep_setExpired K (keep_reportNoSpare K (keep_reportTags K ?_)), stay_setExpired C (stay_reportNoSpare C (stay_reportTags C ?_))⟩
  · split
    · split
      · exact keep_setCondemn K (wide_rfl _)
      · exact wide_rfl _
    · refine keep_classChanged K ?_
      split
      · exact keep_setCondemn K (wide_rfl _)
      · exact wide_rfl _
  · split
    · split
      · exact stay_setCondemn C c0
      · exact c0
    · refine stay_classChanged C ?_
      split
      · exact stay_setCondemn C c0
      · exact c0

theorem changeReassign_kept (r : Reassign) (s : Shelf) :
    Wide { s with recs := { s.recs with reassign := r } } (changeReassign r s) ∧ SameCards s (changeReassign r s) := by
  unfold changeReassign dropAutomatic
  dsimp only
  constructor
  · have K := wide { s with recs := { s.recs with reassign := r } }
    have h1 : Wide { s with recs := { s.recs with reassign := r } } (poolUpdate { s with recs := { s.recs with
      reassign := r, timers := mapAll (retime r.minutes) s.recs.timers } }) := keep_poolUpdate K (wide_rfl _)
    repeat' first
      | with_reducible assumption
      | with_reducible apply keep_sweep K
      | with_reducible apply keep_retryCondemned K
      | with_reducible apply keep_clearCondemn K
      | with_reducible apply keep_trigger K
      | with_reducible apply keep_foldl (P := Wide { s with recs := { s.recs with reassign := r } })
      | (intro _ _ _; try dsimp only)
      | split
  · have K := cards s
    have h1 : SameCards s (poolUpdate { s with recs := { s.recs with
      reassign := r, timers := mapAll (retime r.minutes) s.recs.timers } }) := stay_poolUpdate K ⟨rfl, rfl, rfl, rfl⟩
    repeat' first
      | with_reducible assumption
      | with_reducible apply stay_sweep K
      | with_reducible apply stay_retryCondemned K
      | with_reducible apply stay_clearCondemn K
      | with_reducible apply stay_trigger K
      | with_reducible apply stay_foldl (P := SameCards s)
      | (intro _ _ _; try dsimp only)
      | split

theorem joinTail_mem {α : Type} [DecidableEq α] {a b : α} {l : List α} (h : a ∈ l) : a ∈ joinTail b l := by
  unfold joinTail
  split <;> simp [h]

theorem tagOwed_frame (p : PortNo) (s : Shelf) : tagOwedChanged p s = { s with recs := { s.recs with tagList := (tagOwedChanged p s).recs.tagList, tagWrite := (tagOwedChanged p s).recs.tagWrite } }
    ∧ (∀ q ∈ s.recs.tagList, q ∈ (tagOwedChanged p s).recs.tagList) ∧ (portPresent s p = true → p ∈ (tagOwedChanged p s).recs.tagList) := by
  unfold tagOwedChanged joinTags
  dsimp only
  split
  · exact ⟨rfl, fun q h => joinTail_mem h, fun _ => joinTail_self _ _⟩
  · rename_i hn
    exact ⟨rfl, fun q h => h, fun h => absurd h hn⟩

theorem tagsOwed_frame (l : List PortNo) (s : Shelf) :
    let x := l.foldl (fun s p => tagOwedChanged p s) s
    x = { s with recs := { s.recs with tagList := x.recs.tagList, tagWrite := x.recs.tagWrite } }
    ∧ (∀ q ∈ s.recs.tagList, q ∈ x.recs.tagList) ∧ ∀ p ∈ l, portPresent s p = true → p ∈ x.recs.tagList := by
  induction l generalizing s with
  | nil => exact ⟨rfl, fun _ h => h, by simp⟩
  | cons a l ih =>
    dsimp only at ih ⊢
    rw [List.foldl_cons]
    obtain ⟨h1, h2, h3⟩ := tagOwed_frame a s
    obtain ⟨k1, k2, k3⟩ := ih (tagOwedChanged a s)
    have hp : ∀ p, portPresent (tagOwedChanged a s) p = portPresent s p := by intro p; rw [h1]; rfl
    refine ⟨?_, fun q h => k2 q (h2 q h), fun p hm hq => ?_⟩
    · refine k1.trans ?_
      generalize (List.foldl (fun s p => tagOwedChanged p s) (tagOwedChanged a s) l).recs.tagList = u
      generalize (List.foldl (fun s p => tagOwedChanged p s) (tagOwedChanged a s) l).recs.tagWrite = v
      rw [h1]
    · rcases List.mem_cons.1 hm with rfl | hm
      · exact k2 _ (h3 hq)
      · exact k3 p hm (by rw [hp]; exact hq)

theorem stopMembers_kept (d : GroupDef) (s : Shelf) : Wide s (stopMembers d s) ∧ SameCards s (stopMembers d s) :=
  ⟨keep_stopMembers (wide s) (wide_rfl s), stay_stopMembers (cards s) ⟨rfl, rfl, rfl, rfl⟩⟩

theorem defineRun_kept (g : GroupNo) (d : GroupDef) (s : Shelf) : ∃ a, Wide s a ∧ SameCards s a
    ∧ Wide (setDef g (some d) a) (defineRun g d s) ∧ SameCards s (defineRun g d s) := by
  obtain ⟨a, ea⟩ : ∃ a, a = (match defOf s g with | some old => stopMembers old s | none => s) := ⟨_, rfl⟩
  have ha : Wide s a ∧ SameCards s a := by
    rw [ea]
    split
    · exact stopMembers_kept _ s
    · exact ⟨wide_rfl s, rfl, rfl, rfl, rfl⟩
  have e : defineRun g d s = reportGroup g (d.members.foldl (fun s p => joinMember g d p s) (setRun g (fun _ => { GroupRun.fresh with far := farNow s d }) (setDef g (some d) a))) := by
    rw [ea]; rfl
  rw [e]
  have K := wide (setDef g (some d) a)
  have C := cards s
  refine ⟨a, ha.1, ha.2, ?_, ?_⟩
  · exact keep_reportGroup K (keep_foldl _ (fun _ _ h => keep_joinMember K h) (keep_setRun K (wide_rfl _)))
  · exact stay_reportGroup C (stay_foldl _ (fun _ _ h => stay_joinMember C h) (stay_setRun C (stay_setDef C ha.2)))

theorem install_kept (g : GroupNo) (d : GroupDef) (s : Shelf) : ∃ a, Wide s a
    ∧ Wide (setDef g (some d) a) (installGroup g d s) ∧ SameCards s (installGroup g d s) := by
  obtain ⟨a, h1, -, h3, h4⟩ := defineRun_kept g d s
  refine ⟨a, h1, ?_, ?_⟩
  · have K := wide (setDef g (some d) a)
    unfold installGroup
    dsimp only
    exact keep_syncClear K (keep_foldl _ (fun _ _ h => keep_syncPort K h) (keep_timingRun K (keep_prepareGroup K
      (keep_foldl _ (fun _ _ h => keep_leaveClear K h) (keep_foldl _ (fun _ _ h => keep_joinClear K h) (keep_setExec K h3))))))
  · have K := cards s
    unfold installGroup
    dsimp only
    exact stay_syncClear K (stay_foldl _ (fun _ _ h => stay_syncPort K h) (stay_timingRun K (stay_prepareGroup K
      (stay_foldl _ (fun _ _ h => stay_leaveClear K h) (stay_foldl _ (fun _ _ h => stay_joinClear K h) (stay_setExec K h4))))))

theorem remove_kept (g : GroupNo) (d : GroupDef) (s : Shelf) : ∃ a, Wide s a
    ∧ Wide (setDef g none a) (removeGroup g d s) ∧ SameCards s (removeGroup g d s) := by
  obtain ⟨h1, h2⟩ := stopMembers_kept d s
  refine ⟨stopMembers d s, h1, ?_, ?_⟩
  · have K := wide (setDef g none (stopMembers d s))
    unfold removeGroup undefineRun
    dsimp only
    exact keep_syncClear K (keep_foldl _ (fun _ _ h => keep_syncPort K h) (keep_timingRun K 
      (keep_foldl _ (fun _ _ h => keep_joinClear K h) (keep_dropTasks K (keep_setExec K (keep_reportGroup K (keep_setRun K (wide_rfl _))))))))
  · have K := cards s
    unfold removeGroup undefineRun
    dsimp only
    exact stay_syncClear K (stay_foldl _ (fun _ _ h => stay_syncPort K h) (stay_timingRun K
      (stay_foldl _ (fun _ _ h => stay_joinClear K h) (stay_dropTasks K (stay_setExec K (stay_reportGroup K (stay_setRun K (stay_setDef K h2))))))))

theorem busy_iff (s : Shelf) (g : GroupNo) (d : GroupDef) : groupBusy s g d = true ↔ groupState s g ≠ .idle ∨ (∃ p ∈ d.members, inOrder s p = true) ∨ hasTask s g = true := by
  unfold groupBusy
  simp [or_assoc]

theorem conflicts_iff (s : Shelf) (g : GroupNo) (d : GroupDef) : groupConflicts s g d = true ↔
    (∃ p ∈ d.members, (∃ h c, memberOf s p = some (h, c) ∧ h ≠ g)
            ∨ classOf s p ≠ .inService ∨ inOrder s p = true ∨ inWindow s p = false)
          ∨ (∃ old, defOf s g = some old ∧ (groupState s g ≠ .idle
            ∨ (∃ p ∈ old.members, inOrder s p = true) ∨ hasTask s g = true)) := by
  unfold groupConflicts
  rw [Bool.or_eq_true, List.any_eq_true]
  refine or_congr (exists_congr fun p => and_congr_right fun hp => ?_) ?_
  · simp only [Bool.or_eq_true, decide_eq_true_eq, Bool.not_eq_true', or_assoc]
    refine or_congr ?_ Iff.rfl
    cases hm : memberOf s p with
    | none => simp
    | some hc => obtain ⟨h, c⟩ := hc; simp
  · cases hd : defOf s g with
    | none => simp
    | some old => simp only [busy_iff, Option.some.injEq, exists_eq_left']

theorem bool_false_of {b : Bool} {p : Prop} (h : b = true ↔ p) (hn : ¬ p) : b = false := by
  cases b
  · rfl
  · exact absurd (h.1 rfl) hn

theorem bound_iff (s : Shelf) (g : GroupNo) : groupBound s g = true ↔ ∃ r : RefNo, 2 ≤ r.val ∧ r.val ≤ 4 ∧ (refOf s r).defn.binding = .group g := by
  unfold groupBound isLine
  simp [allRefs, and_assoc]

end Sys2Proof.Machine
end

