-- ==== Sys2Proof/Laws/Engine.lean ====
section
/-! SUPPORT. What an evaluation of a group can do: it changes the group's list, plan and active request, the executor, the
alarm unit and the notices, and of the list only Settling, Remain and Operator entries. -/

namespace Sys2Proof.Machine

/-- Only the executor, the alarm unit, the notices and the group's plan have changed. -/
def SameButPlan (g : GroupNo) (s x : Shelf) : Prop :=
  SameButProtection s x ∧ (∀ h, h ≠ g → runOf x h = runOf s h) ∧ ∃ p, runOf x g = { runOf s g with plan := p }

theorem SameButProtection.trans' {s t u : Shelf} (h : SameButProtection s t) (k : SameButProtection t u) : SameButProtection s u := by
  unfold SameButProtection at *
  refine k.trans ?_
  generalize hr : u.eng.run = r
  generalize u.exe = e
  generalize u.alm = a
  generalize u.out = o
  rw [h]

theorem SameButPlan.rfl' (g : GroupNo) (s : Shelf) : SameButPlan g s s := ⟨rfl, fun _ _ => rfl, _, rfl⟩

theorem SameButPlan.trans' {g : GroupNo} {s t u : Shelf} (h : SameButPlan g s t) (k : SameButPlan g t u) : SameButPlan g s u := by
  obtain ⟨h1, h2, p, h3⟩ := h
  obtain ⟨k1, k2, q, k3⟩ := k
  exact ⟨SameButProtection.trans' h1 k1, fun x hx => (k2 x hx).trans (h2 x hx), q, by rw [k3, h3]⟩

theorem SameButPlan.exe {g : GroupNo} {s : Shelf} {e : Executor} : SameButPlan g s { s with exe := e } := ⟨rfl, fun _ _ => rfl, _, rfl⟩

theorem SameButPlan.alarms {g : GroupNo} {s x : Shelf} (h : SameButAlarms s x) : SameButPlan g s x := by
  obtain ⟨h1, h2, h3, h4, h5, h6, h7, h8, h9, h10, -⟩ := h
  refine ⟨?_, fun k _ => by unfold runOf; rw [h5], (runOf s g).plan, by unfold runOf; rw [h5]⟩
  unfold SameButProtection
  cases x; cases s; simp_all

theorem scheduleGroup_plan (g : GroupNo) (s : Shelf) : SameButPlan g s (scheduleGroup g s) := by
  unfold scheduleGroup
  dsimp only
  split
  · exact .rfl' _ _
  · split
    · exact SameButPlan.exe
    · split
      · exact SameButPlan.exe
      · exact .rfl' _ _

theorem setRun_plan (g : GroupNo) (s : Shelf) (p : Option Nat) : SameButPlan g s (setRun g (fun r => { r with plan := p }) s) :=
  ⟨rfl, fun _ h => runOf_setRun_ne _ _ h, p, runOf_setRun_same _ _ _⟩

theorem askPlan_plan (g : GroupNo) (d : GroupDef) (a : Option (ReqClass × Nat)) (s : Shelf) : SameButPlan g s (askPlan g d a s) := by
  unfold askPlan
  refine .trans' ?_ (scheduleGroup_plan _ _)
  refine .trans' ?_ SameButPlan.exe
  unfold endConfirm
  refine .trans' ?_ (.alarms (reportChange_frame _ _ _ _))
  refine .trans' ?_ SameButPlan.exe
  exact setRun_plan _ _ _

theorem actOn_plan (g : GroupNo) (d : GroupDef) (s : Shelf) : SameButPlan g s (actOn g d s) := by
  unfold actOn
  dsimp only
  split
  · exact .rfl' _ _
  · split <;> split
    · exact askPlan_plan _ _ _ _
    · exact .rfl' _ _
    · exact askPlan_plan _ _ _ _
    · exact .rfl' _ _

theorem reportGroup_plan (g : GroupNo) (s : Shelf) : SameButPlan g s (reportGroup g s) :=
  .trans' (.alarms (reportChange_frame _ _ _ _)) (.trans' (.alarms (reportChange_frame _ _ _ _)) (.alarms (reportChange_frame _ _ _ _)))

def IsHard (e : ReqEntry) : Prop := e.cls ≠ .settling ∧ e.cls ≠ .remain ∧ e.cls ≠ .operator

theorem mem_drop {p : ReqEntry → Bool} {l : List ReqEntry} {e : ReqEntry} (h : p e = false) : e ∈ dropEntries p l ↔ e ∈ l := by
  simp [dropEntries, h]

theorem mem_place {e x : ReqEntry} {l : List ReqEntry} (h : sameEntry x e = false) : e ∈ placeEntry x l ↔ e ∈ l := by
  have ne : e ≠ x := by rintro rfl; simp [sameEntry] at h
  induction l with
  | nil => simp [placeEntry, ne]
  | cons a l ih =>
    unfold placeEntry
    split
    · rfl
    · split
      · simp [ne]
      · simp [ih]

theorem place_mem (x : ReqEntry) (l : List ReqEntry) : ∃ e ∈ placeEntry x l, e.cls = x.cls ∧ e.chan = x.chan := by
  induction l with
  | nil => exact ⟨x, by simp [placeEntry], rfl, rfl⟩
  | cons a l ih =>
    unfold placeEntry
    split
    · rename_i h
      simp [sameEntry] at h
      exact ⟨a, by simp, h.1.symm, h.2.symm⟩
    · split
      · exact ⟨x, by simp, rfl, rfl⟩
      · obtain ⟨e, h1, h2⟩ := ih
        exact ⟨e, by simp [h1], h2⟩

theorem sub_place {e x : ReqEntry} {l : List ReqEntry} (h : e ∈ placeEntry x l) : e = x ∨ e ∈ l := by
  induction l with
  | nil => simpa [placeEntry] using h
  | cons a l ih =>
    unfold placeEntry at h
    split at h
    · exact .inr h
    · split at h
      · simpa using h
      · rcases List.mem_cons.1 h with h | h
        · simp [h]
        · rcases ih h with h | h <;> simp [h]

theorem drop_wait {p : ReqEntry → Bool} {l : List ReqEntry} {e : ReqEntry} (w : isWait e = false) :
    e ∈ dropEntries (fun e => isWait e && p e) l ↔ e ∈ l := mem_drop (by simp [w])

theorem mem_ite_list {c : Prop} [Decidable c] {a b l : List ReqEntry} {e : ReqEntry} (h1 : e ∈ a ↔ e ∈ l) (h2 : e ∈ b ↔ e ∈ l) :
    e ∈ (if c then a else b) ↔ e ∈ l := by split <;> assumption

theorem hard_dropWaits {r : GroupRun} {e : ReqEntry} (w : isWait e = false) : e ∈ dropWaits r ↔ e ∈ r.list := by
  unfold dropWaits
  dsimp only
  have h1 : e ∈ dropEntries (fun e => isWait e && decide (e.chan ≠ r.sel)) r.list ↔ e ∈ r.list := drop_wait w
  generalize dropEntries (fun e => isWait e && decide (e.chan ≠ r.sel)) r.list = l1 at *
  refine (mem_ite_list (drop_wait w) Iff.rfl).trans ((mem_ite_list (drop_wait w) Iff.rfl).trans h1)

theorem sub_dropWaits {r : GroupRun} {e : ReqEntry} (h : e ∈ dropWaits r) : e ∈ r.list := by
  have d : ∀ {p : ReqEntry → Bool} {l : List ReqEntry}, e ∈ dropEntries p l → e ∈ l := fun h => (List.mem_filter.1 h).1
  have i : ∀ {c : Prop} [Decidable c] {p : ReqEntry → Bool} {l : List ReqEntry}, e ∈ (if c then dropEntries p l else l) → e ∈ l := by
    intro c _ p l h
    split at h
    · exact d h
    · exact h
  unfold dropWaits at h
  dsimp only at h
  exact d (i (i h))

theorem sub_placeWaits {v a : Bool} {r : GroupRun} {e : ReqEntry} (h : e ∈ (placeWaits v a r).list) : e ∈ r.list ∨ isWait e = true := by
  have pl : ∀ {c : ReqClass} {k : Nat} {l : List ReqEntry}, isWait (plainEntry c k) = true → e ∈ placeEntry (plainEntry c k) l → e ∈ l ∨ isWait e = true := by
    intro c k l hw h
    rcases sub_place h with rfl | h
    · exact .inr hw
    · exact .inl h
  have d : ∀ {p : ReqEntry → Bool} {l : List ReqEntry}, e ∈ dropEntries p l → e ∈ l := fun h => (List.mem_filter.1 h).1
  have fst : ∀ {c : Prop} [Decidable c], e ∈ (if c then
      if (v && a) then { r with list := placeEntry (plainEntry .settling r.sel) r.list, wtr := some 0 }
      else { r with list := placeEntry (plainEntry .remain r.sel) r.list }
    else r).list → e ∈ r.list ∨ isWait e = true := by
    intro c _ h
    split at h
    · split at h
      · exact pl (c := .settling) rfl h
      · exact pl (c := .remain) rfl h
    · exact .inl h
  have out : ∀ {c : Prop} [Decidable c] {r1 : GroupRun}, (e ∈ r1.list → e ∈ r.list ∨ isWait e = true) →
      e ∈ (if c then { r1 with
        list := placeEntry (plainEntry .settling r.sel) (dropEntries (fun e => decide (e.cls = .remain)) r1.list)
        wtr := some 0 } else r1).list → e ∈ r.list ∨ isWait e = true := by
    intro c _ r1 hr h
    split at h
    · exact (pl (c := .settling) rfl h).elim (fun h => hr (d h)) .inr
    · exact hr h
  exact out fst h

/-- A property of a run-time record that both placings keep is kept. -/
theorem placeWaits_keeps {Q : GroupRun → Prop} {v a : Bool} {r : GroupRun}
    (h1 : ∀ (r1 : GroupRun) l w, l = r1.list ∨ l = dropEntries (fun e => decide (e.cls = .remain)) r1.list → Q r1 → Q { r1 with list := placeEntry (plainEntry .settling r.sel) l, wtr := w })
    (h2 : ∀ r1 : GroupRun, Q r1 → Q { r1 with list := placeEntry (plainEntry .remain r.sel) r1.list }) (h : Q r) : Q (placeWaits v a r) := by
  have fst : ∀ {c : Prop} [Decidable c], Q (if c then
      if (v && a) then { r with list := placeEntry (plainEntry .settling r.sel) r.list, wtr := some 0 }
      else { r with list := placeEntry (plainEntry .remain r.sel) r.list }
    else r) := by
    intro c _
    split
    · split
      · exact h1 r _ _ (.inl rfl) h
      · exact h2 r h
    · exact h
  have out : ∀ {c : Prop} [Decidable c] {r1 : GroupRun}, Q r1 → 
      Q (if c then { r1 with
        list := placeEntry (plainEntry .settling r.sel) (dropEntries (fun e => decide (e.cls = .remain)) r1.list)
        wtr := some 0 } else r1) := by
    intro c _ r1 hr
    split
    · exact h1 r1 _ _ (.inr rfl) hr
    · exact hr
  exact out fst

theorem hard_placeWaits {v a : Bool} {r : GroupRun} {e : ReqEntry} (h : IsHard e) : e ∈ (placeWaits v a r).list ↔ e ∈ r.list := by
  have w1 : ∀ k, sameEntry (plainEntry .settling k) e = false := by intro k; simp [sameEntry, plainEntry, h.1.symm]
  have w2 : ∀ k, sameEntry (plainEntry .remain k) e = false := by intro k; simp [sameEntry, plainEntry, h.2.1.symm]
  refine placeWaits_keeps (Q := fun x => e ∈ x.list ↔ e ∈ r.list) (fun r1 l w hl hr => ?_) (fun r1 hr => ?_) Iff.rfl
  · refine (mem_place (w1 _)).trans ?_
    rcases hl with rfl | rfl
    · exact hr
    · exact (mem_drop (by simp [h.2.1])).trans hr
  · exact (mem_place (w2 _)).trans hr

theorem placeWaits_rest (v a : Bool) (r : GroupRun) : (placeWaits v a r).sel = r.sel ∧ (placeWaits v a r).stuck = r.stuck
    ∧ (placeWaits v a r).restoreDue = r.restoreDue ∧ (placeWaits v a r).far = r.far ∧ (placeWaits v a r).plan = r.plan :=
  placeWaits_keeps (Q := fun x => x.sel = r.sel ∧ x.stuck = r.stuck ∧ x.restoreDue = r.restoreDue ∧ x.far = r.far ∧ x.plan = r.plan)
    (fun _ _ _ _ h => h) (fun _ h => h) ⟨rfl, rfl, rfl, rfl, rfl⟩

theorem evaluateOnce_spec (v a : Bool) (r : GroupRun) : (evaluateOnce v a r).sel = r.sel ∧ (evaluateOnce v a r).stuck = r.stuck
    ∧ (evaluateOnce v a r).restoreDue = r.restoreDue ∧ (evaluateOnce v a r).far = r.far ∧ (evaluateOnce v a r).plan = r.plan
    ∧ (∀ e, IsHard e → (e ∈ (evaluateOnce v a r).list ↔ e ∈ r.list))
    ∧ ∀ e, e ∈ (evaluateOnce v a r).list → e ∈ r.list ∨ isWait e = true := by
  unfold evaluateOnce settleWaits
  dsimp only
  obtain ⟨h1, h2, h3, h4, h5⟩ := placeWaits_rest v a { r with list := dropWaits r, wtr := if hasClass .settling (dropWaits r) then r.wtr else none }
  refine ⟨h1, h2, h3, h4, h5, fun e he => ?_, fun e he => ?_⟩
  · unfold dropOperator
    rw [mem_drop (by simp [he.2.2]), hard_placeWaits he]
    exact hard_dropWaits (by simp [isWait, he.1, he.2.1])
  · rcases sub_placeWaits (List.mem_filter.1 he).1 with h | h
    · exact .inl (sub_dropWaits h)
    · exact .inr h

/-- What an evaluation leaves. -/
theorem evaluate_spec (g : GroupNo) (s : Shelf) : SameButProtection s (evaluate g s) ∧ (∀ h, h ≠ g → runOf (evaluate g s) h = runOf s h)
    ∧ (runOf (evaluate g s) g).sel = (runOf s g).sel ∧ (runOf (evaluate g s) g).stuck = (runOf s g).stuck
    ∧ (runOf (evaluate g s) g).restoreDue = (runOf s g).restoreDue ∧ (runOf (evaluate g s) g).far = (runOf s g).far
    ∧ (∀ e, IsHard e → (e ∈ (runOf (evaluate g s) g).list ↔ e ∈ (runOf s g).list))
    ∧ ∀ e, e ∈ (runOf (evaluate g s) g).list → e ∈ (runOf s g).list ∨ isWait e = true := by
  unfold evaluate
  cases hd : defOf s g with
  | none => exact ⟨rfl, fun _ _ => rfl, rfl, rfl, rfl, rfl, fun _ _ => Iff.rfl, fun _ h => .inl h⟩
  | some d =>
    dsimp only
    obtain ⟨k1, k2, p, k3⟩ := (reportGroup_plan g (setRun g (evaluateRun d.revertive (isArmed s)) s)).trans' (actOn_plan g d _)
    have ne : ∀ h, h ≠ g → runOf (setRun g (evaluateRun d.revertive (isArmed s)) s) h = runOf s h := fun h hh => runOf_setRun_ne _ _ hh
    rw [runOf_setRun_same] at k3
    refine ⟨SameButProtection.trans' (t := setRun g (evaluateRun d.revertive (isArmed s)) s) rfl k1, fun h hh => (k2 h hh).trans (ne h hh), ?_⟩
    rw [k3]
    obtain ⟨a1, a2, a3, a4, a5, a6, a7⟩ := evaluateOnce_spec d.revertive (isArmed s) (runOf s g)
    obtain ⟨b1, b2, b3, b4, b5, b6, b7⟩ := evaluateOnce_spec d.revertive (isArmed s) (evaluateOnce d.revertive (isArmed s) (runOf s g))
    exact ⟨b1.trans a1, b2.trans a2, b3.trans a3, b4.trans a4, fun e he => (b6 e he).trans (a6 e he), fun e he => (b7 e he).elim (a7 e) .inr⟩

theorem change_spec (g : GroupNo) (f : List ReqEntry → List ReqEntry) (s : Shelf) :
    let x := evaluateIfChanged g s (setList g f s)
    SameButProtection s x ∧ (∀ h, h ≠ g → runOf x h = runOf s h)
    ∧ (runOf x g).sel = (runOf s g).sel ∧ (runOf x g).stuck = (runOf s g).stuck
    ∧ (∀ e, IsHard e → (e ∈ (runOf x g).list ↔ e ∈ f (runOf s g).list))
    ∧ ∀ e, e ∈ (runOf x g).list → e ∈ f (runOf s g).list ∨ isWait e = true := by
  have r : runOf (setList g f s) g = { runOf s g with list := f (runOf s g).list } := runOf_setRun_same _ _ _
  have o : ∀ h, h ≠ g → runOf (setList g f s) h = runOf s h := fun h hh => runOf_setRun_ne _ _ hh
  dsimp only
  unfold evaluateIfChanged
  split
  · exact ⟨rfl, o, by rw [r], by rw [r], fun e _ => by rw [r], fun e h => .inl (by rw [r] at h; exact h)⟩
  · obtain ⟨h1, h2, h3, h4, -, -, h5, h6⟩ := evaluate_spec g (setList g f s)
    refine ⟨SameButProtection.trans' (t := setList g f s) rfl h1, fun h hh => (h2 h hh).trans (o h hh), by rw [h3, r], by rw [h4, r], fun e he => ?_, fun e he => ?_⟩
    · rw [h5 e he, r]
    · have := h6 e he
      rw [r] at this
      exact this

theorem hard_of {e : ReqEntry} {c : ReqClass} (h : e.cls = c) (k : c ≠ .settling ∧ c ≠ .remain ∧ c ≠ .operator) : IsHard e := by
  subst h; exact k

end Sys2Proof.Machine
end

