-- ==== Sys2Proof/Laws/Choice.lean ====
section
/-! SUPPORT. What an evaluation makes of a group's list: the active request is the best candidate (R87), one round is stable
(R93), and which Operator, Settling and Remain entries stand after it (R91, R96). -/

namespace Sys2Proof.Machine

/-- The class and channel of an entry. -/
def ReqEntry.key (e : ReqEntry) : ReqClass × Nat := (e.cls, e.chan)

theorem rank_inj {a b : ReqClass} (h : a.rank = b.rank) : a = b := by
  revert h
  cases a <;> cases b <;> decide

theorem winsOver_iff {sel : Nat} {a b : ReqClass × Nat} : winsOver sel a b = true ↔ a.1.rank < b.1.rank
    ∨ (a.1.rank = b.1.rank ∧ (if a.2 = sel then 0 else a.2 + 1) < (if b.2 = sel then 0 else b.2 + 1)) := by
  simp only [winsOver, Bool.or_eq_true, Bool.and_eq_true, decide_eq_true_eq]
  split <;> split <;> omega

/-- Two requests neither of which wins over the other are the same. -/
theorem tied {sel : Nat} {a b : ReqClass × Nat} (h : winsOver sel a b = false) (k : winsOver sel b a = false) : a = b := by
  rw [← Bool.not_eq_true, winsOver_iff] at h k
  have r : a.1.rank = b.1.rank := by omega
  refine Prod.ext (rank_inj r) ?_
  by_cases ha : a.2 = sel <;> by_cases hb : b.2 = sel <;> simp only [ha, hb, if_true, if_false] at h k ⊢ <;> omega

theorem winsOver_self {sel : Nat} {a : ReqClass × Nat} : winsOver sel a a = false := by
  rw [← Bool.not_eq_true, winsOver_iff]
  omega

theorem winsOver_asymm {sel : Nat} {a b : ReqClass × Nat} (h : winsOver sel a b = true) : winsOver sel b a = false := by
  rw [← Bool.not_eq_true, winsOver_iff]
  rw [winsOver_iff] at h
  omega

theorem winsOver_trans {sel : Nat} {a b c : ReqClass × Nat} (h : winsOver sel a b = false) (k : winsOver sel b c = false) :
    winsOver sel a c = false := by
  rw [← Bool.not_eq_true, winsOver_iff] at h k ⊢
  omega

/-- R87: the local winner is an entry's, and nothing wins over it. -/
theorem localWinner_some {sel : Nat} {l : List ReqEntry} {w : ReqClass × Nat} (h : localWinner sel l = some w) :
    (∃ e ∈ l, e.key = w) ∧ ∀ e ∈ l, winsOver sel e.key w = false := by
  induction l generalizing w with
  | nil => cases h
  | cons e rest ih =>
    unfold localWinner at h
    cases hr : localWinner sel rest with
    | none =>
      rw [hr] at h
      cases h
      have : rest = [] := by
        cases rest with
        | nil => rfl
        | cons a t =>
          unfold localWinner at hr
          split at hr
          · cases hr
          · split at hr <;> cases hr
      subst this
      refine ⟨⟨e, by simp, rfl⟩, fun x hx => ?_⟩
      rw [List.mem_singleton.1 hx]
      exact winsOver_self
    | some v =>
      rw [hr] at h
      dsimp only at h
      obtain ⟨⟨x, hx, hk⟩, hb⟩ := ih hr
      by_cases hw : winsOver sel v (e.cls, e.chan) = true
      · rw [if_pos hw] at h
        cases h
        refine ⟨⟨x, by simp [hx], hk⟩, fun y hy => ?_⟩
        rcases List.mem_cons.1 hy with rfl | hy
        · exact winsOver_asymm hw
        · exact hb y hy
      · rw [if_neg hw] at h
        cases h
        refine ⟨⟨e, by simp, rfl⟩, fun y hy => ?_⟩
        rcases List.mem_cons.1 hy with rfl | hy
        · exact winsOver_self
        · exact winsOver_trans (hb y hy) (Bool.not_eq_true _ ▸ hw)

theorem localWinner_none {sel : Nat} {l : List ReqEntry} : localWinner sel l = none ↔ l = [] := by
  cases l with
  | nil => simp [localWinner]
  | cons e rest =>
    simp only [reduceCtorEq, iff_false]
    unfold localWinner
    split
    · simp
    · split <;> simp

/-- R87: an entry over which nothing wins gives the local winner. -/
theorem localWinner_best {sel : Nat} {l : List ReqEntry} {e : ReqEntry} (h : e ∈ l)
    (hb : ∀ x ∈ l, winsOver sel x.key e.key = false) : localWinner sel l = some e.key := by
  cases hw : localWinner sel l with
  | none => rw [localWinner_none.1 hw] at h; cases h
  | some w =>
    obtain ⟨⟨x, hx, rfl⟩, hn⟩ := localWinner_some hw
    exact congrArg some (tied (hb x hx) (hn e h))

/-- R87: the far request goes before a local one. -/
def farFirst (f w : ReqClass × Nat) : Prop := f.1.rank < w.1.rank ∨ (f.1.rank = w.1.rank ∧ f.2 < w.2)

/-- R87: a request is the choice: the best entry that the far request does not go before, or the far request, before which
no best entry goes. -/
theorem chooseActive_some {sel : Nat} {l : List ReqEntry} {far : Option (ReqClass × Nat)} {a : ReqClass × Nat} :
    chooseActive sel l far = some a ↔
      (localWinner sel l = some a ∧ ∀ f, far = some f → ¬ farFirst f a)
      ∨ (far = some a ∧ ∀ w, localWinner sel l = some w → farFirst a w) := by
  unfold chooseActive farFirst
  cases hw : localWinner sel l with
  | none => cases far <;> simp
  | some w =>
    cases far with
    | none => simp
    | some f =>
      dsimp only
      split
      · rename_i h
        simp only [Option.some.injEq]
        constructor
        · rintro rfl; exact .inr ⟨rfl, fun _ h2 => h2 ▸ h⟩
        · rintro (⟨rfl, h2⟩ | ⟨rfl, -⟩)
          · exact absurd h (h2 f rfl)
          · rfl
      · rename_i h
        simp only [Option.some.injEq]
        constructor
        · rintro rfl; exact .inl ⟨rfl, fun _ h2 => h2 ▸ h⟩
        · rintro (⟨rfl, -⟩ | ⟨rfl, h2⟩)
          · rfl
          · exact absurd (h2 w rfl) h

theorem chooseActive_none {sel : Nat} {l : List ReqEntry} {far : Option (ReqClass × Nat)} :
    chooseActive sel l far = none ↔ l = [] ∧ far = none := by
  unfold chooseActive
  cases hw : localWinner sel l with
  | none => simp [localWinner_none.1 hw]
  | some w =>
    have : l ≠ [] := fun h => by rw [localWinner_none.2 h] at hw; cases hw
    cases far with
    | none => simp [this]
    | some f => dsimp only; split <;> simp

/-- A choice ranks at least as high as every entry of the list. -/
theorem choice_rank {sel : Nat} {l : List ReqEntry} {far : Option (ReqClass × Nat)} {a : ReqClass × Nat}
    (h : chooseActive sel l far = some a) {e : ReqEntry} (he : e ∈ l) : a.1.rank ≤ e.cls.rank := by
  have key : ∀ w, localWinner sel l = some w → w.1.rank ≤ e.cls.rank := by
    intro w hw
    have := (localWinner_some hw).2 e he
    rw [← Bool.not_eq_true, winsOver_iff] at this
    simp only [ReqEntry.key] at this
    omega
  rcases chooseActive_some.1 h with ⟨hw, -⟩ | ⟨-, hf⟩
  · exact key _ hw
  · cases hw : localWinner sel l with
    | none => rw [localWinner_none.1 hw] at he; cases he
    | some w =>
      have h1 := key w hw
      have h2 := hf w hw
      unfold farFirst at h2
      omega

/-- A choice stays the choice of a list that keeps what ranks as high and has nothing new that does. -/
theorem choice_stays {sel : Nat} {l m : List ReqEntry} {far : Option (ReqClass × Nat)} {a : ReqClass × Nat}
    (h : chooseActive sel l far = some a) (new : ∀ e ∈ m, e ∈ l ∨ a.1.rank < e.cls.rank)
    (kept : ∀ e ∈ l, e.cls.rank ≤ a.1.rank → e ∈ m) : chooseActive sel m far = some a := by
  refine chooseActive_some.2 ?_
  rcases chooseActive_some.1 h with ⟨hw, hf⟩ | ⟨hf, hw⟩
  · obtain ⟨⟨x, hx, rfl⟩, hn⟩ := localWinner_some hw
    refine .inl ⟨localWinner_best (kept x hx (Nat.le_refl _)) (fun e he => ?_), hf⟩
    rcases new e he with h1 | h1
    · exact hn e h1
    · rw [← Bool.not_eq_true, winsOver_iff]
      simp only [ReqEntry.key] at h1 ⊢
      omega
  · refine .inr ⟨hf, fun w' hw' => ?_⟩
    obtain ⟨⟨x', hx', rfl⟩, hn'⟩ := localWinner_some hw'
    rcases new x' hx' with h1 | h1
    · cases hv : localWinner sel l with
      | none => rw [localWinner_none.1 hv] at h1; cases h1
      | some w =>
        obtain ⟨⟨x, hx, rfl⟩, hn⟩ := localWinner_some hv
        have h2 := hw _ hv
        have h3 := hn x' h1
        unfold farFirst at h2 ⊢
        by_cases hr : a.1.rank < x'.key.1.rank
        · exact .inl hr
        · have h4 : winsOver sel x.key x'.key = false := hn' x (kept x hx (by
            rw [← Bool.not_eq_true, winsOver_iff] at h3
            simp only [ReqEntry.key] at h2 h3 hr ⊢
            omega))
          rw [tied h3 h4]
          exact h2
    · exact .inl h1

/-- R91: the choice stays the choice when the Operator entries that it displaces have gone. -/
theorem choice_dropOperator {sel : Nat} {l : List ReqEntry} {far : Option (ReqClass × Nat)} :
    chooseActive sel (dropOperator (chooseActive sel l far) l) far = chooseActive sel l far := by
  cases h : chooseActive sel l far with
  | none =>
    obtain ⟨rfl, rfl⟩ := chooseActive_none.1 h
    rfl
  | some a =>
    have sub : ∀ e, e ∈ dropOperator (some a) l → e ∈ l := fun e he => (List.mem_filter.1 he).1
    have stay : ∀ e ∈ l, e.cls ≠ .operator ∨ e.key = a ∨ targetOf (some a) = e.chan → e ∈ dropOperator (some a) l := by
      intro e he hk
      refine List.mem_filter.2 ⟨he, ?_⟩
      simp only [Bool.not_eq_true', Bool.and_eq_false_iff, decide_eq_false_iff_not]
      rcases hk with hk | hk | hk
      · exact .inl (.inl hk)
      · exact .inl (.inr (fun h => h (by rw [← hk]; rfl)))
      · exact .inr (fun h => h hk)
    refine chooseActive_some.2 ?_
    rcases chooseActive_some.1 h with ⟨hw, hf⟩ | ⟨hf, hw⟩
    · obtain ⟨⟨x, hx, rfl⟩, hn⟩ := localWinner_some hw
      exact .inl ⟨localWinner_best (stay x hx (.inr (.inl rfl))) (fun e he => hn e (sub e he)), hf⟩
    · cases hv : localWinner sel (dropOperator (some a) l) with
      | none => exact .inr ⟨hf, fun w hw => by cases hw⟩
      | some w' =>
        obtain ⟨⟨x', hx', rfl⟩, hn'⟩ := localWinner_some hv
        cases hu : localWinner sel l with
        | none => rw [localWinner_none.1 hu] at hx'; cases hx'
        | some w =>
          obtain ⟨⟨x, hx, rfl⟩, hn⟩ := localWinner_some hu
          have h2 := hw _ hu
          have h3 := hn x' (sub x' hx')
          by_cases hm : x ∈ dropOperator (some a) l
          · have := tied h3 (hn' x hm)
            exact .inr ⟨hf, fun w hw => by cases hw; rw [this]; exact h2⟩
          · have hop : x.cls = .operator := by
              by_contra hc
              exact hm (stay x hx (.inl hc))
            rw [← Bool.not_eq_true, winsOver_iff] at h3
            unfold farFirst at h2
            simp only [ReqEntry.key, hop] at h2 h3
            by_cases hr : a.1.rank < x'.cls.rank
            · exact .inr ⟨hf, fun w hw => by cases hw; exact .inl hr⟩
            · have e1 : a.1 = .operator := rank_inj (by omega)
              have e2 : x'.cls = .operator := rank_inj (by rw [e1] at hr; omega)
              have e3 : targetOf (some a) = a.2 := by
                obtain ⟨c, k⟩ := a
                dsimp only at e1
                subst e1
                rfl
              have hd := (List.mem_filter.1 hx').2
              simp only [Bool.not_eq_true', Bool.and_eq_false_iff, decide_eq_false_iff_not, e2, not_true, false_or, ne_eq, not_not] at hd
              have hk : x'.key = a := by
                rcases hd with hd | hd
                · exact (Option.some.inj hd).symm ▸ (by simp [ReqEntry.key, e2])
                · exact Prod.ext (by rw [e1]; exact e2) (by rw [← e3, hd]; rfl)
              refine .inl ⟨congrArg some hk, fun f hf2 => ?_⟩
              rw [hf] at hf2
              cases hf2
              unfold farFirst
              omega

/-- R84, R87: the target as a table. -/
theorem targetOf_eq (a : Option (ReqClass × Nat)) : (match a with
      | none => 0
      | some (cls, chan) => if cls = .barred ∨ cls = .protectFailed ∨ cls = .idle then 0 else chan) = targetOf a := by
  cases a with
  | none => rfl
  | some p => obtain ⟨c, k⟩ := p; cases c <;> rfl

/-- R87: an entry that is the best by the rule's words gives the local winner. -/
theorem localWinner_of_best {sel : Nat} {l : List ReqEntry} {c : ReqEntry} : (c ∈ l ∧ ∀ o ∈ l, c.cls.rank < o.cls.rank
      ∨ c.cls = o.cls ∧ (c.chan = o.chan ∨ c.chan = sel ∨ o.chan ≠ sel ∧ c.chan < o.chan)) → localWinner sel l = some c.key := by
  rintro ⟨h, k⟩
  refine localWinner_best h fun o ho => ?_
  rw [← Bool.not_eq_true, winsOver_iff]
  unfold ReqEntry.key
  dsimp only
  rcases k o ho with k | ⟨k1, k2⟩
  · omega
  · rw [k1]; split <;> split <;> omega

theorem best_of_localWinner {sel : Nat} {l : List ReqEntry} {w : ReqClass × Nat} (h : localWinner sel l = some w) :
    ∃ c, c.key = w ∧ (c ∈ l ∧ ∀ o ∈ l, c.cls.rank < o.cls.rank
      ∨ c.cls = o.cls ∧ (c.chan = o.chan ∨ c.chan = sel ∨ o.chan ≠ sel ∧ c.chan < o.chan)) := by
  obtain ⟨⟨c, hc, rfl⟩, hb⟩ := localWinner_some h
  refine ⟨c, rfl, hc, fun o ho => ?_⟩
  have := hb o ho
  rw [← Bool.not_eq_true, winsOver_iff] at this
  unfold ReqEntry.key at this
  dsimp only at this
  by_cases hr : c.cls.rank < o.cls.rank
  · exact .inl hr
  · have e : c.cls = o.cls := rank_inj (by omega)
    refine .inr ⟨e, ?_⟩
    rw [e] at this
    split at this <;> split at this <;> omega

/-! ### Settling and Remain (R96) -/

theorem settling_rank : ReqClass.settling.rank = 8 := rfl

theorem mem_dropEntries {p : ReqEntry → Bool} {l : List ReqEntry} {e : ReqEntry} :
    e ∈ dropEntries p l ↔ e ∈ l ∧ p e = false := by simp [dropEntries]

/-- The choice between two lists with the same entries but for waits is the same where it ranks above Settling. -/
theorem high_choice {sel : Nat} {l m : List ReqEntry} {far : Option (ReqClass × Nat)} {a : ReqClass × Nat}
    (same : ∀ e, isWait e = false → (e ∈ m ↔ e ∈ l)) (ha : a.1.rank < 8) (h : chooseActive sel l far = some a) :
    chooseActive sel m far = some a := by
  have low : ∀ e : ReqEntry, isWait e = true → 8 ≤ e.cls.rank := by
    intro e he
    simp only [isWait, Bool.or_eq_true, decide_eq_true_eq] at he
    rcases he with h | h <;> rw [h] <;> decide
  refine choice_stays h (fun e he => ?_) (fun e he hr => ?_)
  · cases hw : isWait e
    · exact .inl ((same e hw).1 he)
    · exact .inr (by have := low e hw; omega)
  · cases hw : isWait e
    · exact (same e hw).2 he
    · have := low e hw; omega

/-- R96: the best candidate ranks above Settling. -/
def Wanted (r : GroupRun) : Prop := ∃ a, chooseActive r.sel r.list r.far = some a ∧ a.1.rank < 8

/-- R96, steps 2 and 3: nothing stands that removes a wait on the selected channel. -/
def Bears (r : GroupRun) : Prop :=
  (∀ x ∈ r.list, x.chan = r.sel → x.cls.rank < 8 → x.cls = .barred ∨ x.cls = .protectFailed)
  ∧ ∀ a, chooseActive r.sel r.list r.far = some a → a.1.rank < 8 → targetOf (some a) = r.sel

theorem Bears.of_not_wanted {r : GroupRun} (h : ¬ Wanted r) : Bears r := by
  refine ⟨fun x hx _ hr => ?_, fun a ha hr => absurd ⟨a, ha, hr⟩ h⟩
  cases hc : chooseActive r.sel r.list r.far with
  | none => rw [(chooseActive_none.1 hc).1] at hx; cases hx
  | some a => exact absurd ⟨a, hc, Nat.lt_of_le_of_lt (choice_rank hc hx) hr⟩ h

/-- The waits are judged alike for lists with the same entries but for waits. -/
theorem Wanted.same {r x : GroupRun} (hs : x.sel = r.sel) (hf : x.far = r.far)
    (same : ∀ e, isWait e = false → (e ∈ x.list ↔ e ∈ r.list)) : Wanted x ↔ Wanted r := by
  unfold Wanted
  rw [hs, hf]
  exact ⟨fun ⟨a, h, ha⟩ => ⟨a, high_choice (fun e w => (same e w).symm) ha h, ha⟩, fun ⟨a, h, ha⟩ => ⟨a, high_choice same ha h, ha⟩⟩

theorem above_iff {r : GroupRun} : (match chooseActive r.sel r.list r.far with
    | some (cls, _) => decide (cls.rank < ReqClass.settling.rank)
    | none => false) = true ↔ Wanted r := by
  unfold Wanted
  cases chooseActive r.sel r.list r.far with
  | none => simp
  | some a =>
    simp only [Option.some.injEq, exists_eq_left']
    exact decide_eq_true_iff

/-- R96, steps 1 to 3: what `dropWaits` leaves. -/
theorem mem_dropWaits {r : GroupRun} {e : ReqEntry} :
    e ∈ dropWaits r ↔ e ∈ r.list ∧ (isWait e = true → e.chan = r.sel ∧ Bears r) := by
  obtain ⟨l1, hl1⟩ : ∃ l, l = dropEntries (fun e => isWait e && decide (e.chan ≠ r.sel)) r.list := ⟨_, rfl⟩
  have m1 : ∀ e, e ∈ l1 ↔ e ∈ r.list ∧ (isWait e = true → e.chan = r.sel) := by
    intro e
    rw [hl1, mem_dropEntries]
    cases isWait e <;> simp
  obtain ⟨b, hb⟩ : ∃ b, b = l1.any (fun e => decide (e.chan = r.sel) && decide (e.cls.rank < ReqClass.settling.rank)
    && decide (e.cls ≠ .barred) && decide (e.cls ≠ .protectFailed)) := ⟨_, rfl⟩
  have hard : ∀ e : ReqEntry, e.cls.rank < 8 → isWait e = false := by
    intro e he
    simp only [isWait, Bool.or_eq_false_iff, decide_eq_false_iff_not]
    exact ⟨fun h => by rw [h] at he; exact absurd he (by decide), fun h => by rw [h] at he; exact absurd he (by decide)⟩
  have hb2 : b = false ↔ ∀ x ∈ r.list, x.chan = r.sel → x.cls.rank < 8 → x.cls = .barred ∨ x.cls = .protectFailed := by
    rw [hb, List.any_eq_false]
    constructor
    · intro h x hx hc hr
      have := h x ((m1 x).2 ⟨hx, fun w => hc⟩)
      simp only [hc, decide_true, Bool.true_and, settling_rank, hr, Bool.and_eq_true, decide_eq_true_eq, not_and, not_not, ne_eq] at this
      by_cases h1 : x.cls = .barred
      · exact .inl h1
      · exact .inr (this h1)
    · intro h x hx
      simp only [Bool.and_eq_true, decide_eq_true_eq, settling_rank, ne_eq]
      rintro ⟨⟨⟨h1, h2⟩, h3⟩, h4⟩
      exact (h x ((m1 x).1 hx).1 h1 (of_decide_eq_true h2)).elim h3 h4
  obtain ⟨l2, hl2⟩ : ∃ l, l = (if b then dropEntries (fun e => isWait e && decide (e.chan = r.sel)) l1 else l1) := ⟨_, rfl⟩
  have m2 : ∀ e, e ∈ l2 ↔ e ∈ r.list ∧ (isWait e = true → e.chan = r.sel ∧ b = false) := by
    intro e
    rw [hl2]
    cases b with
    | false => simp [m1]
    | true =>
      rw [if_pos rfl, mem_dropEntries, m1]
      cases isWait e <;> simp
  have same2 : ∀ e, isWait e = false → (e ∈ l2 ↔ e ∈ r.list) := fun e w => by simp [m2, w]
  have hd : (match chooseActive r.sel l2 r.far with
      | some (cls, _) => decide (cls.rank < ReqClass.settling.rank) && decide (targetOf (chooseActive r.sel l2 r.far) ≠ r.sel)
      | none => false) = false ↔ ∀ a, chooseActive r.sel r.list r.far = some a → a.1.rank < 8 → targetOf (some a) = r.sel := by
    constructor
    · intro h a ha hr
      have h2 := high_choice same2 hr ha
      rw [h2] at h
      simpa [settling_rank, hr] using h
    · intro h
      cases hc : chooseActive r.sel l2 r.far with
      | none => rfl
      | some a =>
        simp only [Bool.and_eq_false_iff, decide_eq_false_iff_not, not_not]
        by_cases hr : a.1.rank < 8
        · exact .inr (h a (high_choice (fun e w => (same2 e w).symm) hr hc) hr)
        · exact .inl hr
  unfold dropWaits
  dsimp only
  rw [← hl1, ← hb, ← hl2]
  unfold Bears
  rw [← hb2, ← hd]
  have fin : ∀ c : Bool, (e ∈ if c then dropEntries (fun e => isWait e && decide (e.chan = r.sel)) l2 else l2) ↔
      e ∈ r.list ∧ (isWait e = true → e.chan = r.sel ∧ b = false ∧ c = false) := by
    intro c
    cases c with
    | true =>
      rw [if_pos rfl, mem_dropEntries, m2]
      cases isWait e <;> simp
      intro _ h _
      exact h
    | false => simp [m2]
  exact fin _

theorem isWait_iff {e : ReqEntry} : isWait e = true ↔ e.cls = .settling ∨ e.cls = .remain := by simp [isWait]

/-- R96, step 4: a wait is placed on the selected channel. -/
def Placed (r : GroupRun) : Prop :=
  r.sel ≠ 0 ∧ r.plan = none ∧ r.restoreDue = false ∧ (∀ e ∈ r.list, isWait e = true → e.chan ≠ r.sel) ∧ ¬ Wanted r

/-- R96, steps 1 to 3: a wait that stands. -/
def Stands (r : GroupRun) (e : ReqEntry) : Prop := e ∈ r.list ∧ isWait e = true ∧ e.chan = r.sel ∧ Bears r

open Classical in
theorem placeWaits_eq (v a : Bool) (r : GroupRun) : placeWaits v a r =
    if Placed r then
      if v && a then { r with list := placeEntry (plainEntry .settling r.sel) r.list, wtr := some 0 }
      else { r with list := placeEntry (plainEntry .remain r.sel) r.list }
    else if (v && a) = true ∧ ∃ e ∈ r.list, e.cls = .remain ∧ e.chan = r.sel then { r with
      list := placeEntry (plainEntry .settling r.sel) (dropEntries (fun e => decide (e.cls = .remain)) r.list)
      wtr := some 0 }
    else r := by
  have gen : ∀ b : Bool, (b = true ↔ Placed r) →
      (let r1 := if b then
          if v && a then { r with list := placeEntry (plainEntry .settling r.sel) r.list, wtr := some 0 }
          else { r with list := placeEntry (plainEntry .remain r.sel) r.list }
        else r
      if v && a && r1.list.any (fun e => decide (e.cls = .remain) && decide (e.chan = r.sel)) then { r1 with
        list := placeEntry (plainEntry .settling r.sel) (dropEntries (fun e => decide (e.cls = .remain)) r1.list)
        wtr := some 0 }
      else r1)
      = if Placed r then
          if v && a then { r with list := placeEntry (plainEntry .settling r.sel) r.list, wtr := some 0 }
          else { r with list := placeEntry (plainEntry .remain r.sel) r.list }
        else if (v && a) = true ∧ ∃ e ∈ r.list, e.cls = .remain ∧ e.chan = r.sel then { r with
          list := placeEntry (plainEntry .settling r.sel) (dropEntries (fun e => decide (e.cls = .remain)) r.list)
          wtr := some 0 }
        else r := by
    intro b hb
    dsimp only
    generalize (v && a) = t
    cases b with
    | true =>
      have h := hb.1 rfl
      rw [if_pos h]
      cases t with
      | false => simp
      | true =>
        simp only [if_true, Bool.true_and]
        rw [if_neg]
        simp only [Bool.not_eq_true, List.any_eq_false, Bool.and_eq_true, decide_eq_true_eq, not_and]
        intro e he hc hk
        rcases sub_place he with rfl | he
        · cases hc
        · exact h.2.2.2.1 e he (isWait_iff.2 (.inr hc)) hk
    | false =>
      have h : ¬ Placed r := fun k => Bool.noConfusion (hb.2 k)
      rw [if_neg h]
      cases t <;> simp
  have hp : (decide (r.sel ≠ 0) && r.plan.isNone && !r.restoreDue && !(r.list.any (fun e => isWait e && decide (e.chan = r.sel)))
      && !(match chooseActive r.sel r.list r.far with
        | some (cls, _) => decide (cls.rank < ReqClass.settling.rank)
        | none => false)) = true ↔ Placed r := by
    rw [Bool.and_eq_true, Bool.not_eq_true', ← Bool.not_eq_true, above_iff]
    simp only [Bool.and_eq_true, decide_eq_true_eq, Option.isNone_iff_eq_none, Bool.not_eq_true', List.any_eq_false, not_and]
    exact ⟨fun ⟨⟨⟨⟨h1, h2⟩, h3⟩, h4⟩, h5⟩ => ⟨h1, h2, h3, h4, h5⟩, fun ⟨h1, h2, h3, h4, h5⟩ => ⟨⟨⟨⟨h1, h2⟩, h3⟩, h4⟩, h5⟩⟩
  exact gen _ hp

/-- What settling the waits leaves. -/
structure Settled (v a : Bool) (r x : GroupRun) : Prop where
  rest : x.sel = r.sel ∧ x.stuck = r.stuck ∧ x.restoreDue = r.restoreDue ∧ x.far = r.far ∧ x.plan = r.plan
  others : ∀ e, isWait e = false → (e ∈ x.list ↔ e ∈ r.list)
  fresh : Placed r ∨ (v && a) = true ∧ (∃ e, Stands r e ∧ e.cls = .remain) →
    (∃ e ∈ x.list, isWait e = true ∧ e.chan = r.sel)
    ∧ (∀ e ∈ x.list, isWait e = true → e.chan = r.sel ∧ e.cls = if v && a then .settling else .remain)
    ∧ ((v && a) = true → x.wtr = some 0)
  stood : ¬ (Placed r ∨ (v && a) = true ∧ (∃ e, Stands r e ∧ e.cls = .remain)) →
    ∀ e, isWait e = true → (e ∈ x.list ↔ Stands r e)
  timer : ¬ ((v && a) = true ∧ (Placed r ∨ ∃ e, Stands r e ∧ e.cls = .remain)) →
    ((∃ e, Stands r e ∧ e.cls = .settling) → x.wtr = r.wtr) ∧ ((∀ e, Stands r e → e.cls ≠ .settling) → x.wtr = none)

theorem settleWaits_spec (v a : Bool) (r : GroupRun) : Settled v a r (settleWaits v a r) := by
  classical
  obtain ⟨r0, h0⟩ : ∃ x, x = { r with list := dropWaits r, wtr := if hasClass .settling (dropWaits r) then r.wtr else none } := ⟨_, rfl⟩
  have hx : settleWaits v a r = placeWaits v a r0 := by rw [h0]; rfl
  rw [hx]
  have e1 : r0.sel = r.sel := by rw [h0]
  have e2 : r0.plan = r.plan := by rw [h0]
  have e3 : r0.restoreDue = r.restoreDue := by rw [h0]
  have e4 : r0.far = r.far := by rw [h0]
  have e5 : r0.stuck = r.stuck := by rw [h0]
  have hm : ∀ e, e ∈ r0.list ↔ e ∈ r.list ∧ (isWait e = true → e.chan = r.sel ∧ Bears r) := by rw [h0]; exact fun e => mem_dropWaits
  have hw : ∀ e, isWait e = true → (e ∈ r0.list ↔ Stands r e) := by
    intro e he
    rw [hm]
    exact ⟨fun ⟨h, k⟩ => ⟨h, he, k he⟩, fun ⟨h, _, k⟩ => ⟨h, fun _ => k⟩⟩
  have hn : ∀ e, isWait e = false → (e ∈ r0.list ↔ e ∈ r.list) := by
    intro e he
    rw [hm]
    simp [he]
  have hP : Placed r0 ↔ Placed r := by
    unfold Placed
    rw [e1, e2, e3, Wanted.same e1 e4 hn]
    refine and_congr_right fun _ => and_congr_right fun _ => and_congr_right fun _ => ⟨fun ⟨h, k⟩ => ⟨fun e he hwt hc => ?_, k⟩, fun ⟨h, k⟩ => ⟨fun e he => h e ((hm e).1 he).1, k⟩⟩
    exact h e ((hw e hwt).2 ⟨he, hwt, hc, .of_not_wanted k⟩) hwt hc
  have hR : (∃ e ∈ r0.list, e.cls = .remain ∧ e.chan = r0.sel) ↔ ∃ e, Stands r e ∧ e.cls = .remain := by
    rw [e1]
    constructor
    · rintro ⟨e, he, hc, -⟩
      exact ⟨e, (hw e (isWait_iff.2 (.inr hc))).1 he, hc⟩
    · rintro ⟨e, he, hc⟩
      exact ⟨e, (hw e he.2.1).2 he, hc, he.2.2.1⟩
  have ht : ((∃ e, Stands r e ∧ e.cls = .settling) → r0.wtr = r.wtr) ∧ ((∀ e, Stands r e → e.cls ≠ .settling) → r0.wtr = none) := by
    have hc : hasClass .settling (dropWaits r) = true ↔ ∃ e, Stands r e ∧ e.cls = .settling := by
      simp only [hasClass, List.any_eq_true, decide_eq_true_eq]
      constructor
      · rintro ⟨e, he, hc⟩
        exact ⟨e, (hw e (isWait_iff.2 (.inl hc))).1 (by rw [h0]; exact he), hc⟩
      · rintro ⟨e, he, hc⟩
        have := (hw e he.2.1).2 he
        rw [h0] at this
        exact ⟨e, this, hc⟩
    rw [h0]
    dsimp only
    constructor
    · intro h; rw [if_pos (hc.2 h)]
    · intro h
      rw [if_neg]
      intro k
      obtain ⟨e, he, hk⟩ := hc.1 k
      exact h e he hk
  have none0 : Placed r → ∀ e ∈ r0.list, isWait e = true → False := fun h e he hwt =>
    h.2.2.2.1 e ((hm e).1 he).1 hwt (((hm e).1 he).2 hwt).1
  have rest : (placeWaits v a r0).sel = r.sel ∧ (placeWaits v a r0).stuck = r.stuck ∧ (placeWaits v a r0).restoreDue = r.restoreDue
      ∧ (placeWaits v a r0).far = r.far ∧ (placeWaits v a r0).plan = r.plan := by
    obtain ⟨k1, k2, k3, k4, k5⟩ := placeWaits_rest v a r0
    exact ⟨k1.trans e1, k2.trans e5, k3.trans e3, k4.trans e4, k5.trans e2⟩
  have others : ∀ e, isWait e = false → (e ∈ (placeWaits v a r0).list ↔ e ∈ r.list) := by
    intro e he
    refine Iff.trans ?_ (hn e he)
    have w1 : ∀ k, sameEntry (plainEntry .settling k) e = false := fun k => by
      simp only [isWait, Bool.or_eq_false_iff, decide_eq_false_iff_not] at he
      simp [sameEntry, plainEntry, Ne.symm he.1]
    have w2 : ∀ k, sameEntry (plainEntry .remain k) e = false := fun k => by
      simp only [isWait, Bool.or_eq_false_iff, decide_eq_false_iff_not] at he
      simp [sameEntry, plainEntry, Ne.symm he.2]
    have w3 : decide (e.cls = .remain) = false := by
      simp only [isWait, Bool.or_eq_false_iff] at he
      exact he.2
    rw [placeWaits_eq]
    split
    · split
      · exact mem_place (w1 _)
      · exact mem_place (w2 _)
    · split
      · exact (mem_place (w1 _)).trans (mem_drop w3)
      · exact Iff.rfl
  refine ⟨rest, others, ?_, ?_, ?_⟩
  · intro h
    rw [placeWaits_eq, e1]
    by_cases hpl : Placed r
    · rw [if_pos (hP.2 hpl)]
      cases hs : v && a
      · simp only [Bool.false_eq_true, if_false, false_imp_iff, and_true]
        obtain ⟨w, hwm, hwc, hwk⟩ := place_mem (plainEntry .remain r.sel) r0.list
        refine ⟨⟨w, hwm, isWait_iff.2 (.inr hwc), hwk⟩, fun e he hwt => ?_⟩
        rcases sub_place he with rfl | he
        · exact ⟨rfl, rfl⟩
        · exact (none0 hpl e he hwt).elim
      · rw [if_pos rfl]
        simp only [if_pos]
        obtain ⟨w, hwm, hwc, hwk⟩ := place_mem (plainEntry .settling r.sel) r0.list
        refine ⟨⟨w, hwm, isWait_iff.2 (.inl hwc), hwk⟩, fun e he hwt => ?_, fun _ => trivial⟩
        rcases sub_place he with rfl | he
        · exact ⟨rfl, rfl⟩
        · exact (none0 hpl e he hwt).elim
    · rw [if_neg (fun k => hpl (hP.1 k))]
      rcases h with h | ⟨hs, hr⟩
      · exact absurd h hpl
      · have hr' := hR.2 hr
        rw [e1] at hr'
        rw [if_pos ⟨hs, hr'⟩, hs]
        simp only [if_pos]
        obtain ⟨w, hwm, hwc, hwk⟩ := place_mem (plainEntry .settling r.sel) (dropEntries (fun e => decide (e.cls = .remain)) r0.list)
        refine ⟨⟨w, hwm, isWait_iff.2 (.inl hwc), hwk⟩, fun e he hwt => ?_, fun _ => trivial⟩
        rcases sub_place he with rfl | he
        · exact ⟨rfl, rfl⟩
        · obtain ⟨he, hc⟩ := mem_dropEntries.1 he
          exact ⟨((hw e hwt).1 he).2.2.1, (isWait_iff.1 hwt).resolve_right (of_decide_eq_false hc)⟩
  · intro h e he
    rw [placeWaits_eq, if_neg (fun k => h (.inl (hP.1 k))), if_neg (fun k => h (.inr ⟨k.1, hR.1 k.2⟩))]
    exact hw e he
  · intro h
    rw [placeWaits_eq]
    by_cases hpl : Placed r
    · rw [if_pos (hP.2 hpl), if_neg (fun k => h ⟨k, .inl hpl⟩)]
      exact ht
    · rw [if_neg (fun k => hpl (hP.1 k)), if_neg (fun k => h ⟨k.1, .inr (hR.1 k.2)⟩)]
      exact ht

/-! ### One round is stable (R93) -/

theorem dropWaits_filter (r : GroupRun) : ∃ p, dropWaits r = r.list.filter p := by
  have i : ∀ {c : Prop} [Decidable c] {p : ReqEntry → Bool} {l : List ReqEntry}, (∃ q, l = r.list.filter q) →
      ∃ q, (if c then dropEntries p l else l) = r.list.filter q := by
    rintro c _ p l ⟨q, rfl⟩
    split
    · exact ⟨_, List.filter_filter⟩
    · exact ⟨q, rfl⟩
  unfold dropWaits
  exact i (i ⟨_, rfl⟩)

theorem dropWaits_self {r : GroupRun} (h : ∀ e ∈ r.list, isWait e = true → e.chan = r.sel ∧ Bears r) : dropWaits r = r.list := by
  obtain ⟨p, hp⟩ := dropWaits_filter r
  have : ∀ e ∈ r.list, p e = true := by
    intro e he
    have := mem_dropWaits.2 ⟨he, h e he⟩
    rw [hp] at this
    exact (List.mem_filter.1 this).2
  rw [hp, List.filter_eq_self.2 this]

theorem mem_dropOperator {a : Option (ReqClass × Nat)} {l : List ReqEntry} {e : ReqEntry} : e ∈ dropOperator a l ↔
    e ∈ l ∧ (e.cls = .operator → a = some (.operator, e.chan) ∨ targetOf a = e.chan) := by
  unfold dropOperator
  rw [mem_dropEntries]
  refine and_congr_right fun _ => ?_
  by_cases h : e.cls = .operator
  · simp only [h, decide_true, Bool.true_and, ne_eq, Bool.and_eq_false_iff, decide_eq_false_iff_not, not_not, true_imp_iff]
  · simp [h]

theorem dropOperator_idem (a : Option (ReqClass × Nat)) (l : List ReqEntry) : dropOperator a (dropOperator a l) = dropOperator a l := by
  unfold dropOperator dropEntries
  simp

/-- R94, steps 1 to 3: one round of an evaluation leaves what a second one would. -/
theorem evaluateOnce_idem (v a : Bool) (r : GroupRun) : evaluateOnce v a (evaluateOnce v a r) = evaluateOnce v a r := by
  classical
  obtain ⟨x1, hx1⟩ : ∃ x, x = settleWaits v a r := ⟨_, rfl⟩
  obtain ⟨x, hx⟩ : ∃ x, x = evaluateOnce v a r := ⟨_, rfl⟩
  have S : Settled v a r x1 := hx1 ▸ settleWaits_spec v a r
  have hx2 : x = { x1 with
      active := chooseActive x1.sel x1.list x1.far
      list := dropOperator (chooseActive x1.sel x1.list x1.far) x1.list } := by rw [hx, hx1]; rfl
  have fsel : x.sel = r.sel := by rw [hx2]; exact S.rest.1
  have ffar : x.far = r.far := by rw [hx2]; exact S.rest.2.2.2.1
  have fplan : x.plan = r.plan := by rw [hx2]; exact S.rest.2.2.2.2
  have fdue : x.restoreDue = r.restoreDue := by rw [hx2]; exact S.rest.2.2.1
  have fwtr : x.wtr = x1.wtr := by rw [hx2]
  have chosen : chooseActive x.sel x.list x.far = chooseActive x1.sel x1.list x1.far := by rw [hx2]; exact choice_dropOperator
  have act : chooseActive x.sel x.list x.far = x.active := by rw [chosen, hx2]
  have opd : dropOperator x.active x.list = x.list := by rw [hx2]; exact dropOperator_idem _ _
  have sub : ∀ e, e ∈ x.list → e ∈ x1.list := fun e he => by rw [hx2] at he; exact (mem_dropOperator.1 he).1
  have waits : ∀ e, isWait e = true → (e ∈ x.list ↔ e ∈ x1.list) := by
    intro e he
    rw [hx2]
    refine ⟨fun h => (mem_dropOperator.1 h).1, fun h => mem_dropOperator.2 ⟨h, fun hc => ?_⟩⟩
    rw [isWait, hc] at he
    exact absurd he (by decide)
  have highs : ∀ p, p.1.rank < 8 → (chooseActive x.sel x.list x.far = some p ↔ chooseActive r.sel r.list r.far = some p) := by
    intro p hp
    rw [chosen, S.rest.1, S.rest.2.2.2.1]
    exact ⟨high_choice (fun e w => (S.others e w).symm) hp, high_choice (fun e w => S.others e w) hp⟩
  have hW : Wanted x ↔ Wanted r :=
    ⟨fun ⟨p, h, hp⟩ => ⟨p, (highs p hp).1 h, hp⟩, fun ⟨p, h, hp⟩ => ⟨p, (highs p hp).2 h, hp⟩⟩
  have hB : Bears r → Bears x := by
    intro h
    refine ⟨fun e he hc hr => h.1 e ?_ (hc.trans fsel) hr, fun p hp hr => (h.2 p ((highs p hr).1 hp) hr).trans fsel.symm⟩
    have hw : isWait e = false := by
      rw [← Bool.not_eq_true, isWait_iff]
      rintro (k | k) <;> rw [k] at hr <;> exact absurd hr (by decide)
    exact (S.others e hw).1 (sub e he)
  have w1 : ∀ e ∈ x.list, isWait e = true → e.chan = x.sel ∧ Bears x := by
    intro e he hw
    have he1 := (waits e hw).1 he
    rw [fsel]
    by_cases hf : Placed r ∨ (v && a) = true ∧ ∃ e, Stands r e ∧ e.cls = .remain
    · refine ⟨((S.fresh hf).2.1 e he1 hw).1, hB ?_⟩
      rcases hf with hf | ⟨-, e', h', -⟩
      · exact .of_not_wanted hf.2.2.2.2
      · exact h'.2.2.2
    · obtain ⟨-, -, h3, h4⟩ := (S.stood hf e hw).1 he1
      exact ⟨h3, hB h4⟩
  have w2 : ¬ Placed x := by
    rintro ⟨k1, k2, k3, k4, k5⟩
    have nw : ¬ Wanted r := fun h => k5 (hW.2 h)
    by_cases hf : Placed r ∨ (v && a) = true ∧ ∃ e, Stands r e ∧ e.cls = .remain
    · obtain ⟨e, he, hw, hc⟩ := (S.fresh hf).1
      exact k4 e ((waits e hw).2 he) hw (hc.trans fsel.symm)
    · refine hf (.inl ⟨fsel ▸ k1, fplan ▸ k2, fdue ▸ k3, fun e he hw hc => ?_, nw⟩)
      exact k4 e ((waits e hw).2 ((S.stood hf e hw).2 ⟨he, hw, hc, .of_not_wanted nw⟩)) hw (hc.trans fsel.symm)
  have w3 : ¬ ((v && a) = true ∧ ∃ e ∈ x.list, e.cls = .remain ∧ e.chan = x.sel) := by
    rintro ⟨hs, e, he, hc, -⟩
    have hw : isWait e = true := isWait_iff.2 (.inr hc)
    have he1 := (waits e hw).1 he
    by_cases hf : Placed r ∨ (v && a) = true ∧ ∃ e, Stands r e ∧ e.cls = .remain
    · have := ((S.fresh hf).2.1 e he1 hw).2
      rw [hs, hc] at this
      cases this
    · exact hf (.inr ⟨hs, e, (S.stood hf e hw).1 he1, hc⟩)
  have w4 : hasClass .settling x.list = false → x.wtr = none := by
    intro h
    have none' : ∀ e ∈ x.list, e.cls ≠ .settling := by
      intro e he hc
      have : hasClass .settling x.list = true := by
        simp only [hasClass, List.any_eq_true, decide_eq_true_eq]
        exact ⟨e, he, hc⟩
      rw [h] at this
      cases this
    rw [fwtr]
    refine (S.timer ?_).2 ?_
    · rintro ⟨hs, hf⟩
      obtain ⟨⟨e, he, hw, -⟩, h2, -⟩ := S.fresh (hf.imp_right fun k => ⟨hs, k⟩)
      have := (h2 e he hw).2
      rw [hs] at this
      exact none' e ((waits e hw).2 he) this
    · intro e he hc
      have hw := he.2.1
      by_cases hf : Placed r ∨ (v && a) = true ∧ ∃ e, Stands r e ∧ e.cls = .remain
      · by_cases hs : (v && a) = true
        · obtain ⟨⟨e', he', hw', -⟩, h2, -⟩ := S.fresh hf
          have := (h2 e' he' hw').2
          rw [hs] at this
          exact none' e' ((waits e' hw').2 he') this
        · exact (hf.resolve_right fun k => hs k.1).2.2.2.1 e he.1 hw he.2.2.1
      · exact none' e ((waits e hw).2 ((S.stood hf e hw).2 he)) hc
  have wt : (if hasClass .settling x.list then x.wtr else none) = x.wtr := by
    cases h : hasClass .settling x.list
    · rw [w4 h]; rfl
    · rfl
  have settled : settleWaits v a x = x := by
    unfold settleWaits
    dsimp only
    rw [dropWaits_self w1, wt]
    show placeWaits v a x = x
    rw [placeWaits_eq, if_neg w2, if_neg w3]
  rw [← hx]
  show ({ settleWaits v a x with
    active := chooseActive (settleWaits v a x).sel (settleWaits v a x).list (settleWaits v a x).far
    list := dropOperator (chooseActive (settleWaits v a x).sel (settleWaits v a x).list (settleWaits v a x).far)
      (settleWaits v a x).list } : GroupRun) = x
  rw [settled, act, opd]

/-- R93: an evaluation's second round changes nothing. -/
theorem evaluateRun_eq (v a : Bool) (r : GroupRun) : evaluateRun v a r = evaluateOnce v a r := evaluateOnce_idem v a r

/-! ### The plan asked for (R94) -/

/-- R94, step 4: the evaluation asks for a plan. -/
def Asks (s : Shelf) (g : GroupNo) : Prop :=
  (runOf s g).stuck = false ∧ s.rdy.phase = .armed ∧ (execOf s g).prepareDue = false
  ∧ ((runOf s g).plan = none ∧ targetOf (runOf s g).active ≠ (runOf s g).sel
    ∨ ∃ u, (runOf s g).plan = some u ∧ (execOf s g).step = .confirmWait ∧ targetOf (runOf s g).active ≠ u)

open Classical in
theorem actOn_eq (g : GroupNo) (d : GroupDef) (s : Shelf) :
    actOn g d s = if Asks s g then askPlan g d (runOf s g).active s else s := by
  unfold actOn Asks
  dsimp only
  cases h1 : (runOf s g).stuck
  · by_cases h2 : s.rdy.phase = .armed
    · cases h3 : (execOf s g).prepareDue
      · cases hp : (runOf s g).plan with
        | none => simp [isArmed, h2]
        | some u => simp [isArmed, h2]
      · simp
    · simp [isArmed, h2]
  · simp

theorem scheduleGroup_own (g : GroupNo) (s : Shelf) : (execOf (scheduleGroup g s) g).plan = (execOf s g).plan
    ∧ (execOf (scheduleGroup g s) g).confirm = (execOf s g).confirm ∧ (∀ h, h ≠ g → execOf (scheduleGroup g s) h = execOf s h)
    ∧ (scheduleGroup g s).exe.active = s.exe.active := by
  unfold scheduleGroup
  dsimp only
  have j : ∀ k, (execOf (joinExchange g k s) g).plan = (execOf s g).plan
      ∧ (execOf (joinExchange g k s) g).confirm = (execOf s g).confirm ∧ (∀ h, h ≠ g → execOf (joinExchange g k s) h = execOf s h)
      ∧ (joinExchange g k s).exe.active = s.exe.active := by
    intro k
    have e : execOf (joinExchange g k s) g = { execOf s g with job := some ⟨k, [], 1, none⟩, step := .queued, saved := [] } :=
      execOf_setExec_same _ _ _
    rw [e]
    exact ⟨rfl, rfl, fun h hh => execOf_setExec_ne _ _ hh, rfl⟩
  have a : (execOf (joinAdoption g s) g).plan = (execOf s g).plan
      ∧ (execOf (joinAdoption g s) g).confirm = (execOf s g).confirm ∧ (∀ h, h ≠ g → execOf (joinAdoption g s) h = execOf s h)
      ∧ (joinAdoption g s).exe.active = s.exe.active := by
    have e : execOf (joinAdoption g s) g = { execOf s g with adoptDue := false } := execOf_setExec_same _ _ _
    rw [e]
    exact ⟨rfl, rfl, fun h hh => execOf_setExec_ne _ _ hh, rfl⟩
  split
  · exact ⟨rfl, rfl, fun _ _ => rfl, rfl⟩
  · split
    · exact j _
    · split
      · exact a
      · exact ⟨rfl, rfl, fun _ _ => rfl, rfl⟩

/-- R94, R110: the plan that is asked for, and the exchange that joins the task list where the group has no other work. -/
theorem askPlan_spec (g : GroupNo) (d : GroupDef) (a : Option (ReqClass × Nat)) (s : Shelf) :
    runOf (askPlan g d a s) g = { runOf s g with plan := some (targetOf a) }
    ∧ (execOf (askPlan g d a s) g).plan = some ⟨targetOf a, (a.getD (.idle, 0)).1, (a.getD (.idle, 0)).2,
        firstExchange d (targetOf a), (execOf s g).subst.isNone⟩
    ∧ (execOf (askPlan g d a s) g).confirm = none ∧ (∀ h, h ≠ g → execOf (askPlan g d a s) h = execOf s h)
    ∧ (askPlan g d a s).exe.active = s.exe.active
    ∧ (defOf s g ≠ none → s.rdy.phase = .armed → (runOf s g).stuck = false → (execOf s g).job = none → (execOf s g).owed = [] →
        (execOf s g).subst = none → adoptionListed s g = false →
        (askPlan g d a s).exe.tasks = s.exe.tasks ++ [.exchange g]
        ∧ (execOf (askPlan g d a s) g).job = some ⟨firstExchange d (targetOf a), [], 1, none⟩) := by
  obtain ⟨s0, h0⟩ : ∃ t, t = setExec g (fun x => { x with confirm := none, step := if x.step = .confirmWait then .queued else x.step })
      (setRun g (fun r => { r with plan := some (targetOf a) }) s) := ⟨_, rfl⟩
  obtain ⟨s1, h1⟩ : ∃ t, t = reportChange (.group g) .farEndSilent false s0 := ⟨_, rfl⟩
  obtain ⟨s2, h2⟩ : ∃ t, t = setExec g (fun x => { x with plan := some ⟨targetOf a, (a.getD (.idle, 0)).1, (a.getD (.idle, 0)).2,
      firstExchange d (targetOf a), x.subst.isNone⟩ }) s1 := ⟨_, rfl⟩
  have hz : askPlan g d a s = scheduleGroup g s2 := by rw [h2, h1, h0]; rfl
  have fr : SameButAlarms s0 s1 := h1 ▸ reportChange_frame _ _ _ _
  have e1 : s1.exe = s0.exe := fr.2.2.2.2.2.1
  have e2 : s1.eng = s0.eng := fr.2.2.2.2.1
  have x0 : execOf s0 g = { execOf s g with
      confirm := none, step := if (execOf s g).step = .confirmWait then .queued else (execOf s g).step } := by
    rw [h0]; exact execOf_setExec_same _ _ _
  have x1 : execOf s1 g = execOf s0 g := by unfold execOf; rw [e1]
  have x2 : execOf s2 g = { execOf s1 g with plan := some ⟨targetOf a, (a.getD (.idle, 0)).1, (a.getD (.idle, 0)).2,
      firstExchange d (targetOf a), (execOf s1 g).subst.isNone⟩ } := by rw [h2]; exact execOf_setExec_same _ _ _
  rw [x1, x0] at x2
  have o2 : ∀ h, h ≠ g → execOf s2 h = execOf s h := fun h hh => by
    rw [h2, execOf_setExec_ne _ _ hh]
    unfold execOf
    rw [e1, h0]
    exact execOf_setExec_ne _ _ hh
  have r2 : runOf s2 g = { runOf s g with plan := some (targetOf a) } := by
    rw [h2]
    show runOf s1 g = _
    unfold runOf
    rw [e2, h0]
    exact runOf_setRun_same _ _ _
  have a2 : s2.exe.active = s.exe.active := by
    rw [h2]; show s1.exe.active = _; rw [e1, h0]; rfl
  have t2 : s2.exe.tasks = s.exe.tasks := by
    rw [h2]; show s1.exe.tasks = _; rw [e1, h0]; rfl
  have d2 : defOf s2 g = defOf s g := by
    rw [h2]; show at' s1.eng.defs g = _; rw [e2, h0]; rfl
  have p2 : s2.rdy = s.rdy := by
    rw [h2]; show s1.rdy = _; rw [fr.2.2.2.2.2.2.2.2.1, h0]; rfl
  obtain ⟨k1, k2, k3, k4⟩ := scheduleGroup_own g s2
  have kr : runOf (scheduleGroup g s2) g = runOf s2 g := by
    unfold scheduleGroup
    dsimp only
    split
    · rfl
    · split
      · rfl
      · split <;> rfl
  rw [hz]
  refine ⟨kr.trans r2, ?_, ?_, fun h hh => (k3 h hh).trans (o2 h hh), k4.trans a2, fun g1 g2 g3 g4 g5 g6 g7 => ?_⟩
  · rw [k1, x2]
  · rw [k2, x2]
  · have al : adoptionListed s2 g = false := by
      rw [← g7]
      unfold adoptionListed
      rw [t2, a2]
    have nw : nextWork (execOf s2 g) = some (firstExchange d (targetOf a)) := by
      rw [x2]
      unfold nextWork
      simp [g5, g6]
    have hs : scheduleGroup g s2 = joinExchange g (firstExchange d (targetOf a)) s2 := by
      unfold scheduleGroup
      dsimp only
      rw [if_neg, nw]
      rw [d2, al, r2, x2, isArmed, p2]
      have gd : (defOf s g).isNone = false := by cases h : defOf s g <;> simp_all
      simp [gd, g2, g3, g4]
      split <;> simp_all
    rw [hs]
    refine ⟨?_, ?_⟩
    · show s2.exe.tasks ++ [.exchange g] = _
      rw [t2]
    · exact congrArg GroupExec.job (execOf_setExec_same g _ s2)

open Classical in
/-- R94: what an evaluation leaves of the group's record and of the executor. -/
theorem evaluate_eq {g : GroupNo} {d : GroupDef} {s : Shelf} (h : defOf s g = some d) :
    let x := evaluateOnce d.revertive (isArmed s) (runOf s g)
    let asked := (runOf s g).stuck = false ∧ s.rdy.phase = .armed ∧ (execOf s g).prepareDue = false
      ∧ ((runOf s g).plan = none ∧ targetOf x.active ≠ (runOf s g).sel
        ∨ ∃ u, (runOf s g).plan = some u ∧ (execOf s g).step = .confirmWait ∧ targetOf x.active ≠ u)
    (asked → runOf (evaluate g s) g = { x with plan := some (targetOf x.active) }
      ∧ ∃ w : Shelf, w.exe = s.exe ∧ w.rdy = s.rdy ∧ w.eng.defs = s.eng.defs ∧ (runOf w g).stuck = (runOf s g).stuck
        ∧ (evaluate g s).exe = (askPlan g d x.active w).exe)
    ∧ (¬ asked → runOf (evaluate g s) g = x ∧ (evaluate g s).exe = s.exe) := by
  obtain ⟨x, hx⟩ : ∃ x, x = evaluateOnce d.revertive (isArmed s) (runOf s g) := ⟨_, rfl⟩
  obtain ⟨w, hw⟩ : ∃ w, w = reportGroup g (setRun g (evaluateRun d.revertive (isArmed s)) s) := ⟨_, rfl⟩
  have fr : SameButAlarms (setRun g (evaluateRun d.revertive (isArmed s)) s) w := by
    rw [hw]
    unfold reportGroup
    exact (((reportChange_frame _ _ _ _).trans' (reportChange_frame _ _ _ _)).trans' (reportChange_frame _ _ _ _))
  have rw' : runOf w g = x := by
    unfold runOf
    rw [fr.2.2.2.2.1]
    exact (runOf_setRun_same g _ s).trans ((evaluateRun_eq _ _ _).trans hx.symm)
  have xe : w.exe = s.exe := fr.2.2.2.2.2.1
  have xr : w.rdy = s.rdy := fr.2.2.2.2.2.2.2.2.1
  have xd : w.eng.defs = s.eng.defs := by rw [fr.2.2.2.2.1]; rfl
  obtain ⟨s1, s2, s3, s4, s5, -⟩ := evaluateOnce_spec d.revertive (isArmed s) (runOf s g)
  rw [← hx] at s1 s2 s3 s4 s5
  have hz : evaluate g s = actOn g d w := by unfold evaluate; rw [h, hw]
  have asks : Asks w g ↔ (runOf s g).stuck = false ∧ s.rdy.phase = .armed ∧ (execOf s g).prepareDue = false
      ∧ ((runOf s g).plan = none ∧ targetOf x.active ≠ (runOf s g).sel
        ∨ ∃ u, (runOf s g).plan = some u ∧ (execOf s g).step = .confirmWait ∧ targetOf x.active ≠ u) := by
    unfold Asks
    rw [rw', s1, s2, s5, xr]
    unfold execOf
    rw [xe]
  dsimp only
  rw [← hx, hz, actOn_eq]
  refine ⟨fun k => ?_, fun k => ?_⟩
  · rw [if_pos (asks.2 k), rw']
    refine ⟨(askPlan_spec g d x.active w).1.trans (by rw [rw']), w, xe, xr, xd, by rw [rw', s2], rfl⟩
  · rw [if_neg (fun j => k (asks.1 j))]
    exact ⟨rw', xe⟩

end Sys2Proof.Machine
end

