-- ==== Sys2Proof/Laws/Resets.lean ====
section
/-! SUPPORT. What the references' judging and the reports after a reset leave as it was, and what a load takes. -/

namespace Sys2Proof.Machine

/-! ### The judging of references -/

/-- The two shelves differ in the references' states alone. -/
def SameButRefs (s x : Shelf) : Prop :=
  ∃ v, x = { s with tim := { s.tim with refs := v } }
    ∧ ∀ r, (at' v r).defn = (refOf s r).defn ∧ (at' v r).locked = (refOf s r).locked

theorem SameButRefs.rfl' (s : Shelf) : SameButRefs s s := ⟨s.tim.refs, rfl, fun _ => ⟨rfl, rfl⟩⟩

theorem SameButRefs.trans' {s t u : Shelf} (h : SameButRefs s t) (k : SameButRefs t u) : SameButRefs s u := by
  obtain ⟨v, rfl, hv⟩ := h
  obtain ⟨w, rfl, hw⟩ := k
  exact ⟨w, rfl, fun r => ⟨(hw r).1.trans (hv r).1, (hw r).2.trans (hv r).2⟩⟩

theorem setRef_refs {r : RefNo} {f : Ref → Ref} (s : Shelf) (hf : ∀ x, (f x).defn = x.defn ∧ (f x).locked = x.locked) :
    SameButRefs s (setRef r f s) := by
  refine ⟨upd s.tim.refs r f, rfl, fun q => ?_⟩
  by_cases h : q = r
  · subst h
    simp [refOf, hf]
  · simp [at'_upd_ne _ _ h, refOf]

theorem judgeRef_refs (moved : Bool) (r : RefNo) (s : Shelf) : SameButRefs s (judgeRef moved r s) := by
  unfold judgeRef
  split
  · exact setRef_refs s (fun _ => ⟨rfl, rfl⟩)
  · split
    · exact setRef_refs s (fun _ => ⟨rfl, rfl⟩)
    · split
      · exact setRef_refs s (fun _ => ⟨rfl, rfl⟩)
      · exact setRef_refs s (fun _ => ⟨rfl, rfl⟩)
      all_goals
        split
        · exact setRef_refs s (fun _ => ⟨rfl, rfl⟩)
        · exact .rfl' s

theorem rederiveRef_refs (r : RefNo) (s : Shelf) : SameButRefs s (rederiveRef r s) := by
  unfold rederiveRef
  dsimp only
  split
  · exact judgeRef_refs _ _ _
  · refine SameButRefs.trans' ?_ (judgeRef_refs _ _ _)
    exact setRef_refs s (fun _ => ⟨rfl, rfl⟩)

theorem SameButRefs.foldl {α : Type} {f : Shelf → α → Shelf} (hf : ∀ s a, SameButRefs s (f s a)) (l : List α)
    (s : Shelf) : SameButRefs s (l.foldl f s) := by
  induction l generalizing s with
  | nil => exact .rfl' s
  | cons a l ih => exact (hf s a).trans' (ih _)

theorem rederiveAll_refs (s : Shelf) : SameButRefs s (rederiveAll s) :=
  .foldl (fun s r => rederiveRef_refs r s) _ s

/-! ### The pool and the groups -/

/-- The pool's report changes the alarm unit, the notices and what the store holds of the pool. -/
theorem poolUpdate_frame (s : Shelf) : ∃ n m w, SameButAlarms { s with sto := { s.sto with
    poolCount := n, lowMark := m, writeThrough := w } } (poolUpdate s) := by
  unfold poolUpdate
  dsimp only
  split
  · exact ⟨_, _, _, reportChange_frame _ _ _ s⟩
  · exact ⟨_, _, _, reportChange_frame _ _ _ (reportPool _ _ s)⟩

theorem reportGroup_frame (g : GroupNo) (s : Shelf) : SameButAlarms s (reportGroup g s) :=
  (reportChange_frame _ _ _ _).trans' ((reportChange_frame _ _ _ _).trans' (reportChange_frame _ _ _ _))

theorem reportTiming_frame (s : Shelf) : SameButAlarms s (reportTiming s) :=
  (SameButAlarms.foldl (fun _ _ => reportChange_frame _ _ _ _) _ s).trans'
    ((reportChange_frame _ _ _ _).trans' (reportChange_frame _ _ _ _))

/-! ### The reports after a reset -/

/-- The reports that follow a reset leave all but the alarm unit, the notices, the pool as the store holds it and the
references' states. -/
theorem reportsAfterReset_frame (s : Shelf) :
    let x := reportsAfterReset s
    x.bp = s.bp ∧ x.scan = s.scan ∧ x.recs = s.recs ∧ x.ords = s.ords ∧ x.eng = s.eng ∧ x.exe = s.exe ∧ x.rdy = s.rdy
    ∧ x.pins = s.pins ∧ x.alm.settings = s.alm.settings
    ∧ (∃ v, x.tim = { s.tim with refs := v }
        ∧ ∀ r, (at' v r).defn = (refOf s r).defn ∧ (at' v r).locked = (refOf s r).locked)
    ∧ (∃ n m w, x.sto = { s.sto with poolCount := n, lowMark := m, writeThrough := w }) := by
  obtain ⟨n, m, w, hp⟩ := poolUpdate_frame s
  have hg := SameButAlarms.foldl (fun s g => reportGroup_frame g s) allGroups (poolUpdate s)
  obtain ⟨v, hr, hv⟩ := rederiveAll_refs (allGroups.foldl (fun s g => reportGroup g s) (poolUpdate s))
  have ht := reportTiming_frame (rederiveAll (allGroups.foldl (fun s g => reportGroup g s) (poolUpdate s)))
  have hl : SameButAlarms (reportTiming (rederiveAll (allGroups.foldl (fun s g => reportGroup g s) (poolUpdate s))))
      (reportsAfterReset s) := by
    unfold reportsAfterReset
    dsimp only
    split
    · exact report_frame _ _ _ _
    · exact .rfl' _
  obtain ⟨a1, a2, a3, a4, a5, a6, a7, a8, a9, a10, a11⟩ := hp.trans' hg
  obtain ⟨b1, b2, b3, b4, b5, b6, b7, b8, b9, b10, b11⟩ := ht.trans' hl
  rw [hr] at b1 b2 b3 b4 b5 b6 b7 b8 b9 b10 b11
  simp only at a1 a2 a3 a4 a5 a6 a7 a8 a9 a10 a11 b1 b2 b3 b4 b5 b6 b7 b8 b9 b10 b11
  refine ⟨b1.trans a1, b2.trans a2, b3.trans a3, b4.trans a4, b5.trans a5, b6.trans a6, b9.trans a9, b10.trans a10,
    b11.trans a11, ⟨v, by rw [b7, a7], fun r => ?_⟩, ⟨n, m, w, b8.trans a8⟩⟩
  have := hv r
  simp only [refOf, a7] at this ⊢
  exact this

/-- Block by block, the shelf after a power-on reset (R179). -/
theorem powerOn_blocks (s : Shelf) :
    let m := nvmAtPowerLoss s.sto
    let l := loadAll m
    let x := s.powerOn
    let defs := put (mapAll (loaded RefDef.default) l.refs) 5 RefDef.default
    x.bp = Backplane.reset s.bp.attLine
    ∧ x.scan = Scanner.reset ScanSetup.default (loaded ⟨800, 100⟩ l.thresholds)
    ∧ x.recs = Records.reset (mapAll (loaded PortRec.default) l.ports) (loaded blankIdentity l.identity)
        (loaded ⟨false, 2, 15⟩ l.reassign)
    ∧ x.ords = Orders.reset
    ∧ x.eng = Engine.reset (mapAll (loaded none) l.groups) (Vector.replicate 8 GroupRun.fresh)
    ∧ x.exe = Executor.reset
    ∧ x.rdy = ⟨.discovery, .powerOn, none, none, loaded ⟨30, false⟩ l.start, 0, 0⟩
    ∧ x.pins = s.pins
    ∧ x.alm.settings = loaded defaultSettings l.conditions
    ∧ (∃ v, x.tim = { Timing.reset defs (Vector.replicate 6 false) none (loaded ⟨false, 10, 24⟩ l.timing) with refs := v }
        ∧ ∀ r, (at' v r).defn = at' defs r ∧ (at' v r).locked = false)
    ∧ (∃ n k w, x.sto = { Store.reset m l.lost with poolCount := n, lowMark := k, writeThrough := w }) := by
  unfold Shelf.powerOn
  dsimp only
  refine ⟨?_, ?_, ?_, ?_, ?_, ?_, ?_, ?_, ?_, ?_, ?_⟩
  · rw [(reportsAfterReset_frame _).1]
  · rw [(reportsAfterReset_frame _).2.1]
  · rw [(reportsAfterReset_frame _).2.2.1]
  · rw [(reportsAfterReset_frame _).2.2.2.1]
  · rw [(reportsAfterReset_frame _).2.2.2.2.1]
  · rw [(reportsAfterReset_frame _).2.2.2.2.2.1]
  · rw [(reportsAfterReset_frame _).2.2.2.2.2.2.1]
  · rw [(reportsAfterReset_frame _).2.2.2.2.2.2.2.1]
  · rw [(reportsAfterReset_frame _).2.2.2.2.2.2.2.2.1]
    rfl
  · obtain ⟨v, h, hv⟩ := (reportsAfterReset_frame _).2.2.2.2.2.2.2.2.2.1
    refine ⟨v, h, fun r => ?_⟩
    have := hv r
    simpa [refOf, Timing.reset] using this
  · exact (reportsAfterReset_frame _).2.2.2.2.2.2.2.2.2.2

/-- Block by block, the shelf after a hard reset (R183). -/
theorem hardReset_blocks (cause : ResetCause) (s : Shelf) :
    let x := s.hardReset cause
    let retain := s.rdy.opts.retain
    x.bp = Backplane.reset s.bp.attLine
    ∧ x.scan = Scanner.reset (if retain then s.scan.setup else ScanSetup.default) s.scan.thresholds
    ∧ x.recs = Records.reset s.recs.recs s.recs.identity s.recs.reassign
    ∧ x.ords = Orders.reset
    ∧ x.eng = Engine.reset s.eng.defs (mapAll (GroupRun.kept retain) s.eng.run)
    ∧ x.exe = Executor.reset
    ∧ x.rdy = ⟨.discovery, cause, none, none, s.rdy.opts, s.rdy.base, 0⟩
    ∧ x.pins = s.pins
    ∧ x.alm.settings = s.alm.settings
    ∧ (∃ v, x.tim = { Timing.reset (mapAll Ref.defn s.tim.refs) (Vector.replicate 6 false)
          (if retain then s.tim.forced else none) s.tim.opts with refs := v }
        ∧ ∀ r, (at' v r).defn = (refOf s r).defn ∧ (at' v r).locked = (retain && (refOf s r).locked))
    ∧ (∃ n k w, x.sto = { s.sto with marks := [], poolCount := n, lowMark := k, writeThrough := w }) := by
  unfold Shelf.hardReset
  dsimp only
  refine ⟨?_, ?_, ?_, ?_, ?_, ?_, ?_, ?_, ?_, ?_, ?_⟩
  · rw [(reportsAfterReset_frame _).1]
  · rw [(reportsAfterReset_frame _).2.1]
  · rw [(reportsAfterReset_frame _).2.2.1]
  · rw [(reportsAfterReset_frame _).2.2.2.1]
  · rw [(reportsAfterReset_frame _).2.2.2.2.1]
  · rw [(reportsAfterReset_frame _).2.2.2.2.2.1]
  · rw [(reportsAfterReset_frame _).2.2.2.2.2.2.1]
  · rw [(reportsAfterReset_frame _).2.2.2.2.2.2.2.1]
  · rw [(reportsAfterReset_frame _).2.2.2.2.2.2.2.2.1]
    rfl
  · obtain ⟨v, h, hv⟩ := (reportsAfterReset_frame _).2.2.2.2.2.2.2.2.2.1
    refine ⟨v, h, fun r => ?_⟩
    have := hv r
    cases hr : s.rdy.opts.retain <;> simpa [refOf, Timing.reset, hr] using this
  · exact (reportsAfterReset_frame _).2.2.2.2.2.2.2.2.2.2

/-! ### The load -/

/-- R177: what a load takes for an item. -/
theorem loaded_loadItem {α : Type} (ok : α → Bool) (d : α) (x : Stored α) :
    loaded d (loadItem ok x) = itemTaken ok d x := by
  cases x with
  | blank => rfl
  | badCheck => rfl
  | value v => simp only [loadItem, itemTaken]; cases h : ok v <;> simp [loaded]

/-- What a load makes of one group (R177). -/
theorem loadGroup_some {ports : Vector (Except LostReason PortRec) 48} {lower : List PortNo}
    {x : Stored (Option GroupDef)} {d : GroupDef} :
    loadGroup ports lower x = .ok (some d)
      ↔ x = .value (some d) ∧ groupOk d = true ∧ groupLoads ports lower d = true := by
  unfold loadGroup
  cases x with
  | blank => simp [loadItem]
  | badCheck => simp [loadItem]
  | value v =>
    cases v with
    | none => simp [loadItem]
    | some e =>
      by_cases he : e = d
      · subst he
        by_cases hv : groupOk e <;> by_cases hg : groupLoads ports lower e <;> simp [loadItem, hv, hg]
      · by_cases hv : groupOk e <;> by_cases hg : groupLoads ports lower e <;> simp [loadItem, hv, hg, he]

/-- The groups loaded so far stay at the head. -/
theorem loadGroups_prefix (ports : Vector (Except LostReason PortRec) 48) (l : List (Stored (Option GroupDef)))
    (acc : List (Except LostReason (Option GroupDef))) : acc <+: loadGroups ports l acc := by
  induction l generalizing acc with
  | nil => exact List.prefix_refl _
  | cons x rest ih => exact (List.prefix_append _ _).trans (ih _)

/-- The groups are loaded one by one, in order, each after those before it. -/
theorem loadGroups_get (ports : Vector (Except LostReason PortRec) 48) (l : List (Stored (Option GroupDef)))
    (acc : List (Except LostReason (Option GroupDef))) (i : Nat) (h : acc.length ≤ i) :
    (loadGroups ports l acc)[i]? = (l[i - acc.length]?).map
      (fun x => loadGroup ports (loadedMembers ((loadGroups ports l acc).take i)) x) := by
  induction l generalizing acc with
  | nil => simp [loadGroups, h]
  | cons x rest ih =>
    rw [loadGroups]
    rcases Nat.eq_or_lt_of_le h with h | h
    · have hp := loadGroups_prefix ports rest (acc ++ [loadGroup ports (loadedMembers acc) x])
      have ht : (loadGroups ports rest (acc ++ [loadGroup ports (loadedMembers acc) x])).take i = acc := by
        obtain ⟨r, hr⟩ := hp
        rw [← hr, ← h, List.append_assoc]
        simp
      have hg : (loadGroups ports rest (acc ++ [loadGroup ports (loadedMembers acc) x]))[i]?
          = some (loadGroup ports (loadedMembers acc) x) := by
        obtain ⟨r, hr⟩ := hp
        rw [← hr, ← h, List.append_assoc]
        simp
      rw [ht, hg, ← h]
      simp
    · have := ih (acc ++ [loadGroup ports (loadedMembers acc) x]) (by simp; omega)
      rw [this]
      simp only [List.length_append, List.length_singleton]
      have e : i - acc.length = (i - (acc.length + 1)) + 1 := by omega
      rw [e, List.getElem?_cons_succ]

/-- The members of the lower groups loaded as defined. -/
theorem mem_loadedMembers {l : List (Except LostReason (Option GroupDef))} {i : Nat} {p : PortNo} :
    p ∈ loadedMembers (l.take i) ↔ ∃ j, j < i ∧ ∃ e, l[j]? = some (.ok (some e)) ∧ p ∈ e.members := by
  unfold loadedMembers
  rw [List.mem_flatMap]
  constructor
  · rintro ⟨x, hx, hp⟩
    obtain ⟨j, hj⟩ := List.mem_iff_getElem?.1 hx
    rw [List.getElem?_take] at hj
    split at hj
    · rename_i hji
      cases x with
      | error r => simp at hp
      | ok v =>
        cases v with
        | none => simp at hp
        | some e => exact ⟨j, hji, e, hj, hp⟩
    · simp at hj
  · rintro ⟨j, hji, e, hj, hp⟩
    refine ⟨.ok (some e), List.mem_iff_getElem?.2 ⟨j, ?_⟩, hp⟩
    rw [List.getElem?_take, if_pos hji]
    exact hj

/-- R177: the groups after a load, one by one. -/
theorem loadAll_groups (m : Nvm) (g : GroupNo) : ∃ lower, at' (loadAll m).groups g
      = loadGroup (mapAll (loadItem recordOk) m.ports) lower (at' m.groups g)
    ∧ ∀ p, p ∈ lower ↔ ∃ h : GroupNo, h.val < g.val ∧ ∃ e, at' (loadAll m).groups h = .ok (some e) ∧ p ∈ e.members := by
  have hl : ∀ i, i < 8 → (loadGroups (mapAll (loadItem recordOk) m.ports) m.groups.toList [])[i]?
      = some ((loadGroups (mapAll (loadItem recordOk) m.ports) m.groups.toList []).getD i (.error .blank)) := by
    intro i hi
    have := loadGroups_get (mapAll (loadItem recordOk) m.ports) m.groups.toList [] i (by simp)
    have h2 : m.groups.toList[i]? = some m.groups[i] := by simp [hi]
    rw [List.length_nil, Nat.sub_zero, h2, Option.map_some] at this
    simp [List.getD, this]
  have ha : ∀ h : GroupNo, at' (loadAll m).groups h
      = (loadGroups (mapAll (loadItem recordOk) m.ports) m.groups.toList []).getD h.val (.error .blank) := by
    intro h
    simp [loadAll]
  refine ⟨loadedMembers ((loadGroups (mapAll (loadItem recordOk) m.ports) m.groups.toList []).take g.val), ?_, fun p => ?_⟩
  · have := loadGroups_get (mapAll (loadItem recordOk) m.ports) m.groups.toList [] g.val (by simp)
    rw [hl _ g.isLt, List.length_nil, Nat.sub_zero] at this
    have h2 : m.groups.toList[g.val]? = some (at' m.groups g) := by simp [at']
    rw [h2, Option.map_some, Option.some.injEq] at this
    rw [ha, this]
  · rw [mem_loadedMembers]
    constructor
    · rintro ⟨j, hj, e, h1, h2⟩
      refine ⟨⟨j, by omega⟩, hj, e, ?_, h2⟩
      rw [ha]
      have := hl j (by omega)
      rw [h1] at this
      exact (Option.some.inj this).symm
    · rintro ⟨h, hj, e, h1, h2⟩
      refine ⟨h.val, hj, e, ?_, h2⟩
      rw [hl _ h.isLt, ← ha, h1]

theorem loaded_none {x : Except LostReason (Option GroupDef)} {d : GroupDef} : loaded none x = some d ↔ x = .ok (some d) := by
  cases x <;> simp [loaded]

/-- R177: the record of a port was not taken at its default exactly where it was stored in range. -/
theorem loadItem_ok {α : Type} {ok : α → Bool} {x : Stored α} {v : α} : loadItem ok x = .ok v ↔ x = .value v ∧ ok v = true := by
  cases x with
  | blank => simp [loadItem]
  | badCheck => simp [loadItem]
  | value w =>
    simp only [loadItem]
    by_cases h : ok w
    · simp only [h, if_true, Except.ok.injEq, Stored.value.injEq, iff_self_and]
      rintro rfl; exact h
    · simp only [h, Bool.false_eq_true, if_false, reduceCtorEq, Stored.value.injEq, false_iff, not_and]
      rintro rfl; exact h

/-- R177: a group is loaded as defined exactly where it was stored so, in range, its members are loaded as IN-SERVICE, and
no lower group loaded as defined names one of them. -/
theorem loadAll_group {m : Nvm} {g : GroupNo} {d : GroupDef} : loaded none (at' (loadAll m).groups g) = some d ↔
    at' m.groups g = .value (some d) ∧ groupOk d = true
    ∧ (∀ p ∈ d.members, (loaded PortRec.default (at' (loadAll m).ports p)).cls = .inService)
    ∧ ∀ h : GroupNo, h.val < g.val → ∀ e, loaded none (at' (loadAll m).groups h) = some e → ∀ p ∈ d.members, p ∉ e.members := by
  obtain ⟨lower, h1, h2⟩ := loadAll_groups m g
  rw [loaded_none, h1, loadGroup_some]
  refine and_congr_right fun _ => and_congr_right fun _ => ?_
  show groupLoads (loadAll m).ports lower d = true ↔ _
  unfold groupLoads
  simp only [List.all_eq_true, Bool.and_eq_true, decide_eq_true_eq]
  constructor
  · intro h
    refine ⟨fun p hp => (h p hp).1, fun k hk e he p hp hpe => (h p hp).2 ((h2 p).2 ⟨k, hk, e, loaded_none.1 he, hpe⟩)⟩
  · rintro ⟨h, h'⟩ p hp
    refine ⟨h p hp, fun hl => ?_⟩
    obtain ⟨k, hk, e, he, hpe⟩ := (h2 p).1 hl
    exact h' k hk e (loaded_none.2 he) p hp hpe

/-- R177: what a load takes for a reference definition. -/
theorem loadAll_ref (m : Nvm) (r : RefNo) : (∀ d, r.val ≤ 4 → at' m.refs r = .value d → refOk r d = true →
      (∀ p, d.binding = .port p → ∃ v, at' m.ports p = .value v ∧ recordOk v = true) →
      (∀ g, d.binding = .group g → loaded none (at' (loadAll m).groups g) ≠ none) →
      at' (loadAll m).refs r = .ok d)
    ∧ (∀ d, r.val ≤ 4 → at' (loadAll m).refs r = .ok d → at' m.refs r = .value d ∧ refOk r d = true
      ∧ (∀ p, d.binding = .port p → ∃ v, at' m.ports p = .value v ∧ recordOk v = true)
      ∧ (∀ g, d.binding = .group g → loaded none (at' (loadAll m).groups g) ≠ none)) := by
  have hp : ∀ p, isLoaded (at' (mapAll (loadItem recordOk) m.ports) p) = true ↔ ∃ v, at' m.ports p = .value v ∧ recordOk v = true := by
    intro p
    rw [at'_mapAll]
    cases h : loadItem recordOk (at' m.ports p) with
    | ok v => simpa [isLoaded] using ⟨v, loadItem_ok.1 h⟩
    | error e =>
      simp only [isLoaded, Bool.false_eq_true, false_iff]
      rintro ⟨v, hv⟩
      rw [loadItem_ok.2 hv] at h
      cases h
  have hl : ∀ d, refLoads (mapAll (loadItem recordOk) m.ports) (loadAll m).groups d = true ↔
      (∀ p, d.binding = .port p → ∃ v, at' m.ports p = .value v ∧ recordOk v = true)
      ∧ (∀ g, d.binding = .group g → loaded none (at' (loadAll m).groups g) ≠ none) := by
    intro d
    unfold refLoads
    cases hb : d.binding with
    | none => simp
    | port p => simpa using hp p
    | group g => simp [Option.isSome_iff_ne_none]
  have hr : at' (loadAll m).refs r = (match loadItem (refOk r) (at' m.refs r) with
      | .ok d => if r.val = 5 ∨ refLoads (mapAll (loadItem recordOk) m.ports) (loadAll m).groups d then .ok d else .error .dependent
      | .error e => .error e) := by
    conv_lhs => unfold loadAll
    dsimp only
    rw [at'_tabulate]
    rfl
  refine ⟨fun d _ h1 h2 h3 h4 => ?_, fun d h5 h => ?_⟩
  · rw [hr, loadItem_ok.2 ⟨h1, h2⟩]
    simp [(hl d).2 ⟨h3, h4⟩]
  · rw [hr] at h
    cases hi : loadItem (refOk r) (at' m.refs r) with
    | error e => rw [hi] at h; cases h
    | ok e =>
      rw [hi] at h
      dsimp only at h
      split at h
      · rename_i hc
        have : e = d := by simpa using h
        subst this
        obtain ⟨a, b⟩ := loadItem_ok.1 hi
        obtain ⟨c, c'⟩ := (hl e).1 (hc.resolve_left (by omega))
        exact ⟨a, b, c, c'⟩
      · cases h

end Sys2Proof.Machine
end

