-- ==== Sys2Proof/Laws/Timing.lean ====
section
/-! SUPPORT. What an event of the timing selector does: each reference is judged by itself, the selection and the force
rest on the judged references, and nothing outside the selector, the alarm unit and the notices changes. -/

namespace Sys2Proof.Machine

/-! ### The judging of each reference -/

/-- The judging of a reference leaves the others. -/
theorem rederiveRef_other {r q : RefNo} (s : Shelf) (h : q ≠ r) : refOf (rederiveRef r s) q = refOf s q := by
  have j : ∀ moved x, refOf (judgeRef moved r x) q = refOf x q := by
    intro moved x
    unfold judgeRef
    split
    · exact refOf_setRef_ne _ _ h
    · split
      · exact refOf_setRef_ne _ _ h
      · split
        · exact refOf_setRef_ne _ _ h
        · exact refOf_setRef_ne _ _ h
        all_goals
          split
          · exact refOf_setRef_ne _ _ h
          · rfl
  unfold rederiveRef
  dsimp only
  split
  · exact j _ _
  · rw [j]
    exact refOf_setRef_ne _ _ h

/-- The judging of a reference rests on the other references in nothing. -/
theorem rederiveRef_local {r : RefNo} {s : Shelf} {v : Vector Ref 6} (h : at' v r = refOf s r) :
    refOf (rederiveRef r { s with tim := { s.tim with refs := v } }) r = refOf (rederiveRef r s) r := by
  have h0 : refOf { s with tim := { s.tim with refs := v } } r = refOf s r := h
  have hd : derivationPort { s with tim := { s.tim with refs := v } } r = derivationPort s r := by
    unfold derivationPort
    rw [h0]
    rfl
  have hj : ∀ (moved : Bool) (w : Vector Ref 6) (x : Shelf), at' w r = refOf x r →
      refOf (judgeRef moved r { x with tim := { x.tim with refs := w } }) r = refOf (judgeRef moved r x) r := by
    intro moved w x e
    have e0 : refOf { x with tim := { x.tim with refs := w } } r = refOf x r := e
    have he : refEnabled { x with tim := { x.tim with refs := w } } r = refEnabled x r := by
      unfold refEnabled
      rw [e0]
    have hg : gradeInUse { x with tim := { x.tim with refs := w } } r = gradeInUse x r := by
      unfold gradeInUse
      rw [e0]
    have hi : inputLost { x with tim := { x.tim with refs := w } } r = inputLost x r := by
      unfold inputLost
      rw [e0]
      rfl
    have hc : hasCause { x with tim := { x.tim with refs := w } } r = hasCause x r := by
      unfold hasCause
      rw [e0, hg, hi]
      rfl
    unfold judgeRef
    rw [he, hc, e0]
    split
    · simp only [refOf_setRef_same, e0]
    · split
      · simp only [refOf_setRef_same, e0]
      · split
        · simp only [refOf_setRef_same, e0]
        · simp only [refOf_setRef_same, e0]
        all_goals
          split
          · simp only [refOf_setRef_same, e0]
          · exact e0
  unfold rederiveRef
  dsimp only
  rw [hd, h0]
  split
  · exact hj _ _ _ h
  · have := hj true (upd v r (fun x => { x with deriv := derivationPort s r }))
      (setRef r (fun x => { x with deriv := derivationPort s r }) s) (by simp [h])
    exact this

/-- Every reference is judged as it would be alone. -/
theorem refOf_rederiveAll (r : RefNo) (s : Shelf) : refOf (rederiveAll s) r = refOf (rederiveRef r s) r := by
  have key : ∀ (l : List RefNo) (x : Shelf), l.Nodup → SameButRefs s x →
      (r ∉ l → refOf (l.foldl (fun s r => rederiveRef r s) x) r = refOf x r)
      ∧ (r ∈ l → refOf x r = refOf s r →
          refOf (l.foldl (fun s r => rederiveRef r s) x) r = refOf (rederiveRef r s) r) := by
    intro l
    induction l with
    | nil => intro x _ _; exact ⟨fun _ => rfl, fun h => absurd h (List.not_mem_nil)⟩
    | cons q l ih =>
      intro x hn hx
      have hn' := List.nodup_cons.1 hn
      have hx' := hx.trans' (rederiveRef_refs q x)
      refine ⟨fun hr => ?_, fun hr e => ?_⟩
      · have hq : r ≠ q := fun e => hr (by rw [e]; exact List.mem_cons_self)
        rw [List.foldl_cons, (ih _ hn'.2 hx').1 (fun h => hr (List.mem_cons_of_mem _ h))]
        exact rederiveRef_other x hq
      · rw [List.foldl_cons]
        by_cases hq : r = q
        · subst hq
          rw [(ih _ hn'.2 hx').1 hn'.1]
          obtain ⟨v, rfl, -⟩ := hx
          exact rederiveRef_local e
        · have hl : r ∈ l := (List.mem_cons.1 hr).resolve_left hq
          exact (ih _ hn'.2 hx').2 hl ((rederiveRef_other x hq).trans e)
  exact (key allRefs s (List.nodup_finRange 6) (.rfl' s)).2 (List.mem_finRange r) rfl

/-- A locked out reference is not USABLE once it has been judged. -/
theorem rederiveAll_locked {r : RefNo} {s : Shelf} (h : (refOf s r).locked = true) :
    (refOf (rederiveAll s) r).state ≠ .usable := by
  rw [refOf_rederiveAll]
  have j : ∀ moved x, (refOf x r).locked = true → (refOf (judgeRef moved r x) r).state ≠ .usable := by
    intro moved x hx
    have hc : hasCause x r = true := by simp [hasCause, hx]
    unfold judgeRef
    rw [hc]
    split <;> simp
  unfold rederiveRef
  dsimp only
  split
  · exact j _ _ h
  · exact j _ _ (by simp [h])

/-- A USABLE reference with no cause against it and its derivation port as it was stays as it is. -/
theorem rederiveAll_usable {r : RefNo} {s : Shelf} (h : (refOf s r).state = .usable) (he : refEnabled s r = true)
    (hc : hasCause s r = false) (hd : derivationPort s r = (refOf s r).deriv) :
    refOf (rederiveAll s) r = refOf s r := by
  rw [refOf_rederiveAll]
  unfold rederiveRef
  simp [hd, judgeRef, he, hc, h]

/-! ### The evaluation -/

/-- The selector's fields but for the grade plan, the writes it brings and the last grade. -/
def SameSelector (s x : Shelf) : Prop :=
  x.tim.refs = s.tim.refs ∧ x.tim.st = s.tim.st ∧ x.tim.sel = s.tim.sel ∧ x.tim.forced = s.tim.forced
  ∧ x.tim.forceSeen = s.tim.forceSeen ∧ x.tim.acquire = s.tim.acquire ∧ x.tim.lockedFor = s.tim.lockedFor
  ∧ x.tim.holdFor = s.tim.holdFor ∧ x.tim.valid = s.tim.valid ∧ x.tim.opts = s.tim.opts ∧ x.tim.held = s.tim.held

theorem SameSelector.rfl' (s : Shelf) : SameSelector s s := ⟨rfl, rfl, rfl, rfl, rfl, rfl, rfl, rfl, rfl, rfl, rfl⟩
theorem SameSelector.trans' {s t u : Shelf} (h : SameSelector s t) (k : SameSelector t u) : SameSelector s u := by
  obtain ⟨h1, h2, h3, h4, h5, h6, h7, h8, h9, h10, h11⟩ := h
  obtain ⟨k1, k2, k3, k4, k5, k6, k7, k8, k9, k10, k11⟩ := k
  exact ⟨k1.trans h1, k2.trans h2, k3.trans h3, k4.trans h4, k5.trans h5, k6.trans h6, k7.trans h7, k8.trans h8,
    k9.trans h9, k10.trans h10, k11.trans h11⟩

theorem SameButTiming.rfl' (s : Shelf) : SameButTiming s s := rfl
theorem SameButTiming.trans' {s t u : Shelf} (h : SameButTiming s t) (k : SameButTiming t u) : SameButTiming s u := by
  unfold SameButTiming at *
  rw [k, h]
theorem SameButTiming.ofAlarms {s x : Shelf} (h : SameButAlarms s x) : SameButTiming s x := by
  obtain ⟨h1, h2, h3, h4, h5, h6, h7, h8, h9, h10, h11⟩ := h
  unfold SameButTiming
  rw [← h1, ← h2, ← h3, ← h4, ← h5, ← h6, ← h8, ← h9, ← h10]

theorem replan_frame (s : Shelf) : SameButTiming s (replan s) ∧ SameSelector s (replan s) ∧ (replan s).alm = s.alm := by
  unfold replan
  dsimp only
  split
  · exact ⟨.rfl' s, .rfl' s, rfl⟩
  · have key : ∀ (l : List PortNo) (x : Shelf),
        (SameButTiming s x ∧ SameSelector s x ∧ x.alm = s.alm) →
        (SameButTiming s (l.foldl (fun s p => joinGradeList p s) x)
          ∧ SameSelector s (l.foldl (fun s p => joinGradeList p s) x)
          ∧ (l.foldl (fun s p => joinGradeList p s) x).alm = s.alm) := by
      intro l
      induction l with
      | nil => intro x hx; exact hx
      | cons p l ih =>
        intro x hx
        refine ih _ ⟨hx.1.trans' rfl, hx.2.1.trans' ⟨rfl, rfl, rfl, rfl, rfl, rfl, rfl, rfl, rfl, rfl, rfl⟩, hx.2.2⟩
    exact key _ _ ⟨rfl, ⟨rfl, rfl, rfl, rfl, rfl, rfl, rfl, rfl, rfl, rfl, rfl⟩, rfl⟩

/-- The selection and the force after the references of `z` have been judged. -/
def evaluated (z : Shelf) : Shelf := selectReference (settleForce z)

theorem settleForce_frame (s : Shelf) : SameButTiming s (settleForce s) ∧ (settleForce s).tim.refs = s.tim.refs
    ∧ (settleForce s).tim.opts = s.tim.opts ∧ (settleForce s).tim.st = s.tim.st ∧ (settleForce s).tim.sel = s.tim.sel
    ∧ (settleForce s).tim.valid = s.tim.valid ∧ (settleForce s).tim.acquire = s.tim.acquire
    ∧ (settleForce s).tim.lockedFor = s.tim.lockedFor ∧ (settleForce s).tim.holdFor = s.tim.holdFor
    ∧ ((settleForce s).tim.forced = s.tim.forced ∨ (settleForce s).tim.forced = none)
    ∧ (settleForce s).alm = s.alm := by
  unfold settleForce
  split
  · exact ⟨rfl, rfl, rfl, rfl, rfl, rfl, rfl, rfl, rfl, .inl rfl, rfl⟩
  · split
    · exact ⟨rfl, rfl, rfl, rfl, rfl, rfl, rfl, rfl, rfl, .inl rfl, rfl⟩
    · split
      · exact ⟨rfl, rfl, rfl, rfl, rfl, rfl, rfl, rfl, rfl, .inr rfl, rfl⟩
      · exact ⟨rfl, rfl, rfl, rfl, rfl, rfl, rfl, rfl, rfl, .inl rfl, rfl⟩

theorem selectReference_frame (s : Shelf) : SameButTiming s (selectReference s)
    ∧ (selectReference s).tim.refs = s.tim.refs ∧ (selectReference s).tim.opts = s.tim.opts
    ∧ (selectReference s).tim.forced = s.tim.forced
    ∧ (selectReference s).alm = s.alm
    ∧ (s.tim.valid = false → (selectReference s).tim.valid = false) := by
  unfold selectReference
  split
  · split
    · exact ⟨rfl, rfl, rfl, rfl, rfl, id⟩
    · exact ⟨rfl, rfl, rfl, rfl, rfl, id⟩
  · split
    · cases hv : s.tim.valid
      · exact ⟨rfl, rfl, rfl, rfl, rfl, fun _ => rfl⟩
      · exact ⟨rfl, rfl, rfl, rfl, rfl, fun h => absurd h (by simp)⟩
    · exact ⟨rfl, rfl, rfl, rfl, rfl, id⟩

theorem keepLastGrade_frame (s : Shelf) :
    SameButTiming s (keepLastGrade s) ∧ SameSelector s (keepLastGrade s) ∧ (keepLastGrade s).alm = s.alm := by
  unfold keepLastGrade
  split
  · exact ⟨rfl, ⟨rfl, rfl, rfl, rfl, rfl, rfl, rfl, rfl, rfl, rfl, rfl⟩, rfl⟩
  · exact ⟨rfl, .rfl' s, rfl⟩

theorem rederiveAll_frame (s : Shelf) : SameButTiming s (rederiveAll s) := by
  obtain ⟨v, h, -⟩ := rederiveAll_refs s
  rw [h]
  rfl

/-- What follows an evaluation: the last grade, the reports and the grade plan. -/
def followed (y : Shelf) : Shelf := replan (reportTiming (keepLastGrade y))

theorem followed_frame (y : Shelf) : SameButTiming y (followed y) ∧ SameSelector y (followed y)
    ∧ (followed y).alm.settings = y.alm.settings := by
  unfold followed
  have a := keepLastGrade_frame y
  generalize keepLastGrade y = u at a ⊢
  have b := reportTiming_frame u
  generalize reportTiming u = v at b ⊢
  have c := replan_frame v
  generalize replan v = w at c ⊢
  have b' : SameSelector u v := by
    obtain ⟨-, -, -, -, -, -, b7, -⟩ := b
    unfold SameSelector
    rw [b7]
    exact ⟨rfl, rfl, rfl, rfl, rfl, rfl, rfl, rfl, rfl, rfl, rfl⟩
  refine ⟨a.1.trans' ((SameButTiming.ofAlarms b).trans' c.1), a.2.1.trans' (b'.trans' c.2.1), ?_⟩
  rw [c.2.2, b.2.2.2.2.2.2.2.2.2.2, a.2.2]

theorem evaluated_frame (s : Shelf) : SameButTiming s (evaluated (rederiveAll s))
    ∧ (evaluated (rederiveAll s)).alm = s.alm := by
  obtain ⟨v, hv, -⟩ := rederiveAll_refs s
  have h := rederiveAll_frame s
  have ha : (rederiveAll s).alm = s.alm := by rw [hv]
  generalize rederiveAll s = z at h ha ⊢
  exact ⟨h.trans' ((settleForce_frame _).1.trans' (selectReference_frame _).1),
    (selectReference_frame _).2.2.2.2.1.trans ((settleForce_frame _).2.2.2.2.2.2.2.2.2.2.trans ha)⟩

theorem timingEvent_eq (f : Shelf → Shelf) (s : Shelf) :
    timingEvent f s = followed (evaluated (rederiveAll (f s)))
    ∨ timingEvent f s = tell (timingNotice (followed (evaluated (rederiveAll (f s)))))
        (followed (evaluated (rederiveAll (f s)))) := by
  have e : timingEvent f s = if (followed (evaluated (rederiveAll (f s)))).tim.st = s.tim.st
      ∧ (followed (evaluated (rederiveAll (f s)))).tim.sel = s.tim.sel then followed (evaluated (rederiveAll (f s)))
      else tell (timingNotice (followed (evaluated (rederiveAll (f s))))) (followed (evaluated (rederiveAll (f s)))) := by
    unfold timingEvent followed evaluated
    dsimp only
  rw [e]
  split
  · exact .inl rfl
  · exact .inr rfl

/-- What an event of the selector does: nothing outside the selector, the alarm unit and the notices changes, the condition
settings stay, and the selector's fields are those of the evaluation. -/
theorem timingEvent_spec (f : Shelf → Shelf) (s : Shelf) : SameButTiming (f s) (timingEvent f s)
    ∧ SameSelector (evaluated (rederiveAll (f s))) (timingEvent f s)
    ∧ (timingEvent f s).alm.settings = (f s).alm.settings := by
  have h := timingEvent_eq f s
  have z := evaluated_frame (f s)
  have w := followed_frame (evaluated (rederiveAll (f s)))
  generalize evaluated (rederiveAll (f s)) = y at h z w ⊢
  generalize followed y = u at h w
  rw [z.2] at w
  rcases h with h | h
  · rw [h]
    exact ⟨z.1.trans' w.1, w.2.1, w.2.2⟩
  · rw [h]
    exact ⟨z.1.trans' (w.1.trans' rfl), w.2.1, w.2.2⟩

theorem timingEvent_frame {f : Shelf → Shelf} {s : Shelf} (h : SameButTiming s (f s)) :
    SameButTiming s (timingEvent f s) := h.trans' (timingEvent_spec f s).1

/-- With the force on a reference that is USABLE once judged, the reference is selected (R128). -/
theorem timingEvent_force {f : Shelf → Shelf} {s : Shelf} {r : RefNo} (hf : (f s).tim.forced = some r)
    (hu : (refOf (rederiveAll (f s)) r).state = .usable) :
    (timingEvent f s).tim.forced = some r ∧ (timingEvent f s).tim.sel = some r := by
  have sp := (timingEvent_spec f s).2.1
  obtain ⟨v, hv, -⟩ := rederiveAll_refs (f s)
  have hf' : (rederiveAll (f s)).tim.forced = some r := by rw [hv]; exact hf
  generalize rederiveAll (f s) = z at *
  have hu' : isUsable z r = true := by simp [isUsable, hu]
  have e1 : settleForce z = { z with tim := { z.tim with forceSeen := true } } := by
    simp [settleForce, hf', hu']
  have ch : timingChoice { z with tim := { z.tim with forceSeen := true } } = some r := by
    have h1 : isUsable { z with tim := { z.tim with forceSeen := true } } r = true := hu'
    have h2 : ({ z with tim := { z.tim with forceSeen := true } } : Shelf).tim.forced = some r := hf'
    generalize ({ z with tim := { z.tim with forceSeen := true } } : Shelf) = y at h1 h2 ⊢
    simp [timingChoice, h2, Option.filter, h1]
  obtain ⟨-, -, h3, h4, -⟩ := sp
  rw [h3, h4]
  unfold evaluated
  rw [e1]
  refine ⟨by rw [(selectReference_frame _).2.2.2.1]; exact hf', ?_⟩
  unfold selectReference
  rw [ch]
  dsimp only
  split
  · assumption
  · rfl

/-! ### The candidate (R127) -/

theorem ranksAbove_iff {s : Shelf} {a b : RefNo} : ranksAbove s a b = true ↔
    (gradeInUse s a).code < (gradeInUse s b).code ∨ (gradeInUse s a).code = (gradeInUse s b).code
      ∧ ((refOf s a).defn.priority < (refOf s b).defn.priority
        ∨ (refOf s a).defn.priority = (refOf s b).defn.priority ∧ a.val < b.val) := by
  simp [ranksAbove]

theorem ranksAbove_trans {s : Shelf} {a b c : RefNo} (h : ranksAbove s a b = true) (k : ranksAbove s b c = true) :
    ranksAbove s a c = true := by
  rw [ranksAbove_iff] at *
  omega

theorem ranksAbove_total {s : Shelf} {a b : RefNo} (h : ¬ ranksAbove s a b = true) (ne : a ≠ b) : ranksAbove s b a = true := by
  have : a.val ≠ b.val := fun e => ne (Fin.ext e)
  rw [ranksAbove_iff] at *
  omega

/-- R127: the candidate is the USABLE reference that ranks above every other, and there is one if any is USABLE. -/
theorem candidate_spec (s : Shelf) : (∀ c, candidate s = some c → (refOf s c).state = .usable
      ∧ ∀ r, (refOf s r).state = .usable → r ≠ c → ranksAbove s c r = true)
    ∧ (candidate s = none → ∀ r, (refOf s r).state ≠ .usable) := by
  obtain ⟨best, hb⟩ : ∃ f, f = fun (best : Option RefNo) (r : RefNo) => match best with
    | none => some r
    | some b => if ranksAbove s r b then some r else some b := ⟨_, rfl⟩
  have key : ∀ (l : List RefNo) (b : Option RefNo), (∀ c, l.foldl best b = some c → (c ∈ l ∨ b = some c)
        ∧ ∀ r, r ∈ l ∨ b = some r → r ≠ c → ranksAbove s c r = true)
      ∧ (l.foldl best b = none → l = [] ∧ b = none) := by
    intro l
    induction l with
    | nil => intro b; exact ⟨fun c h => ⟨.inr h, fun r hr hn => absurd (Option.some.inj ((hr.resolve_left List.not_mem_nil).symm.trans h)) hn⟩, fun h => ⟨rfl, h⟩⟩
    | cons a l ih =>
      intro b
      rw [List.foldl_cons]
      obtain ⟨k1, k2⟩ := ih (best b a)
      refine ⟨fun c h => ?_, fun h => ?_⟩
      · obtain ⟨m1, m2⟩ := k1 c h
        cases b with
        | none =>
          have e : best none a = some a := by rw [hb]
          rw [e] at m1 m2
          refine ⟨?_, fun r hr hn => m2 r ?_ hn⟩
          · rcases m1 with m1 | m1
            · exact .inl (List.mem_cons_of_mem _ m1)
            · cases m1; exact .inl (List.mem_cons_self ..)
          · rcases hr with hr | hr
            · rcases List.mem_cons.1 hr with rfl | hr
              · exact .inr rfl
              · exact .inl hr
            · cases hr
        | some b =>
          have e : best (some b) a = if ranksAbove s a b then some a else some b := by rw [hb]
          by_cases hr : ranksAbove s a b = true
          · rw [e, if_pos hr] at m1 m2
            refine ⟨?_, fun r hr' hn => ?_⟩
            · rcases m1 with m1 | m1
              · exact .inl (List.mem_cons_of_mem _ m1)
              · cases m1; exact .inl (List.mem_cons_self ..)
            · rcases hr' with hr' | hr'
              · rcases List.mem_cons.1 hr' with rfl | hr'
                · exact m2 r (.inr rfl) hn
                · exact m2 r (.inl hr') hn
              · cases hr'
                by_cases hac : a = c
                · rw [← hac]; exact hr
                · exact ranksAbove_trans (m2 a (.inr rfl) hac) hr
          · rw [e, if_neg hr] at m1 m2
            refine ⟨?_, fun r hr' hn => ?_⟩
            · rcases m1 with m1 | m1
              · exact .inl (List.mem_cons_of_mem _ m1)
              · exact .inr m1
            · rcases hr' with hr' | hr'
              · rcases List.mem_cons.1 hr' with rfl | hr'
                · by_cases hrb : r = b
                  · exact m2 r (.inr (by rw [hrb])) hn
                  · have := ranksAbove_total hr hrb
                    by_cases hbc : b = c
                    · rw [← hbc]; exact this
                    · exact ranksAbove_trans (m2 b (.inr rfl) hbc) this
                · exact m2 r (.inl hr') hn
              · exact m2 r (.inr hr') hn
      · have := (k2 h).2
        rw [hb] at this
        cases b with
        | none => cases this
        | some b => dsimp only at this; split at this <;> cases this
  have hc : candidate s = (allRefs.filter (isUsable s)).foldl best none := by rw [hb]; rfl
  obtain ⟨k1, k2⟩ := key (allRefs.filter (isUsable s)) none
  have mem : ∀ r, r ∈ allRefs.filter (isUsable s) ↔ (refOf s r).state = .usable := by
    intro r
    rw [List.mem_filter]
    have : r ∈ allRefs := List.mem_finRange r
    simp [this, isUsable]
  rw [hc]
  refine ⟨fun c h => ?_, fun h r hr => ?_⟩
  · obtain ⟨m1, m2⟩ := k1 c h
    exact ⟨(mem c).1 (m1.resolve_right (by simp)), fun r hr hn => m2 r (.inl ((mem r).2 hr)) hn⟩
  · have := (mem r).2 hr
    rw [(k2 h).1] at this
    cases this

/-- R127: the reference that ranks above every other USABLE one is the candidate. -/
theorem candidate_of {s : Shelf} {c : RefNo} (h : (refOf s c).state = .usable)
    (hb : ∀ r, (refOf s r).state = .usable → r ≠ c → ranksAbove s c r = true) : candidate s = some c := by
  obtain ⟨k1, k2⟩ := candidate_spec s
  cases hc : candidate s with
  | none => exact absurd h (k2 hc c)
  | some d =>
    obtain ⟨m1, m2⟩ := k1 d hc
    by_contra hn
    have ne : d ≠ c := fun e => hn (by rw [e])
    have a := hb d m1 ne
    have b := m2 c h (Ne.symm ne)
    rw [ranksAbove_iff] at a b
    omega

/-- The references after an event are the judged ones. -/
theorem timingEvent_ref (f : Shelf → Shelf) (s : Shelf) (r : RefNo) :
    refOf (timingEvent f s) r = refOf (rederiveAll (f s)) r := by
  have h := (timingEvent_spec f s).2.1.1
  unfold refOf
  rw [h]
  unfold evaluated
  rw [(selectReference_frame _).2.1, (settleForce_frame _).2.1]

/-- An event keeps the definitions and the locked-out flags as `f` leaves them. -/
theorem timingEvent_defn (f : Shelf → Shelf) (s : Shelf) (r : RefNo) :
    (refOf (timingEvent f s) r).defn = (refOf (f s) r).defn
    ∧ (refOf (timingEvent f s) r).locked = (refOf (f s) r).locked := by
  rw [timingEvent_ref]
  obtain ⟨v, h, hv⟩ := rederiveAll_refs (f s)
  rw [h]
  exact hv r

theorem timingEvent_opts (f : Shelf → Shelf) (s : Shelf) : (timingEvent f s).tim.opts = (f s).tim.opts := by
  have h := (timingEvent_spec f s).2.1.2.2.2.2.2.2.2.2.2.1
  obtain ⟨v, hv, -⟩ := rederiveAll_refs (f s)
  rw [h]
  unfold evaluated
  rw [(selectReference_frame _).2.2.1, (settleForce_frame _).2.2.1, hv]

/-- An event leaves the force as `f` leaves it, or clears it. -/
theorem timingEvent_forced (f : Shelf → Shelf) (s : Shelf) :
    (timingEvent f s).tim.forced = (f s).tim.forced ∨ (timingEvent f s).tim.forced = none := by
  have h := (timingEvent_spec f s).2.1.2.2.2.1
  obtain ⟨v, hv, -⟩ := rederiveAll_refs (f s)
  rw [h]
  unfold evaluated
  rw [(selectReference_frame _).2.2.2.1]
  have := (settleForce_frame (rederiveAll (f s))).2.2.2.2.2.2.2.2.2.1
  rw [hv] at this ⊢
  exact this

theorem holdoverOver_spec (y : Shelf) : (holdoverOver y).tim.opts = y.tim.opts
    ∧ (∀ r, (refOf (holdoverOver y) r).defn = (refOf y r).defn) ∧ SameButTiming y (holdoverOver y) := by
  unfold holdoverOver
  split
  · exact ⟨timingEvent_opts _ y, fun r => (timingEvent_defn _ y r).1, timingEvent_frame rfl⟩
  · exact ⟨rfl, fun _ => rfl, rfl⟩

/-- The change that new options make before the selector evaluates. -/
def optionsIn (o : TimingOptions) (s : Shelf) : Shelf :=
  { s with tim := { s.tim with
    opts := o
    refs := mapAll (fun x => if decide (x.state = .qualifying) && decide (1000 * o.qualify ≤ x.qual.getD 0) then
      { x with state := .usable, qual := none } else x) s.tim.refs } }

theorem changeTimingOptions_eq (o : TimingOptions) (s : Shelf) : changeTimingOptions o s
    = if (timingEvent (optionsIn o) s).tim.st = .holdover
        ∧ 3600000 * o.holdover ≤ (timingEvent (optionsIn o) s).tim.holdFor.getD 0 then
      holdoverOver (timingEvent (optionsIn o) s) else timingEvent (optionsIn o) s := by
  unfold changeTimingOptions optionsIn
  dsimp only

/-- R137: the options change, the definitions do not, and nothing outside the selector, the alarm unit and the notices
does. -/
theorem changeTimingOptions_spec (o : TimingOptions) (s : Shelf) : (changeTimingOptions o s).tim.opts = o
    ∧ (∀ r, (refOf (changeTimingOptions o s) r).defn = (refOf s r).defn)
    ∧ SameButTiming s (changeTimingOptions o s) := by
  rw [changeTimingOptions_eq]
  have h1 : (timingEvent (optionsIn o) s).tim.opts = o := timingEvent_opts _ s
  have h2 : ∀ r, (refOf (timingEvent (optionsIn o) s) r).defn = (refOf s r).defn := fun r =>
    (timingEvent_defn _ s r).1.trans (by
      simp only [refOf, optionsIn, at'_mapAll]
      split <;> rfl)
  have h3 : SameButTiming s (timingEvent (optionsIn o) s) := timingEvent_frame rfl
  generalize timingEvent (optionsIn o) s = x at h1 h2 h3 ⊢
  split
  · obtain ⟨k1, k2, k3⟩ := holdoverOver_spec x
    exact ⟨k1.trans h1, fun r => (k2 r).trans (h2 r), h3.trans' k3⟩
  · exact ⟨h1, h2, h3⟩

end Sys2Proof.Machine
end

