-- ==== Sys2Proof/Laws/Orders.lean ====
section
/-! SUPPORT. What opening an order does before the start check: the order joins the list, and besides its ports' expired
flags only timers, candidates, the pool that the store knows, alarms and notices change; and what an order's leaving makes
of the list: it goes out of it, and besides it only orders of waiting condemnations come in. -/

namespace Sys2Proof.Machine

/-- They differ in nothing but the condemn timers and candidates, the pool that the store knows, the alarm unit and the notices. -/
def SameButPool (s x : Shelf) : Prop :=
  x = { s with recs := { s.recs with timers := x.recs.timers, candidates := x.recs.candidates }, alm := x.alm, sto := x.sto, out := x.out }

theorem SameButPool.rfl' (s : Shelf) : SameButPool s s := rfl
theorem SameButPool.trans' {s t u : Shelf} (h : SameButPool s t) (k : SameButPool t u) : SameButPool s u := by
  unfold SameButPool at *
  refine k.trans ?_
  generalize u.recs.timers = a
  generalize u.recs.candidates = b
  generalize u.alm = c
  generalize u.sto = d
  generalize u.out = e
  rw [h]

theorem SameButPool.alarms {s x : Shelf} (h : SameButAlarms s x) : SameButPool s x := by
  obtain ⟨h1, h2, h3, h4, h5, h6, h7, h8, h9, h10, -⟩ := h
  unfold SameButPool
  cases x; cases s; simp_all

theorem poolUpdate_samePool (s : Shelf) : SameButPool s (poolUpdate s) := by
  unfold poolUpdate
  refine .trans' ?_ (.alarms (reportChange_frame _ _ _ _))
  split
  · exact .rfl' s
  · exact (rfl : SameButPool s (reportPool _ _ s))

theorem syncPort_samePool (p : PortNo) (s : Shelf) : SameButPool s (syncPort p s) := by
  unfold syncPort
  refine .trans' (t := syncCandidate p s) ?_ ?_
  · unfold syncCandidate
    split <;> rfl
  · unfold syncTimer
    dsimp only
    split <;> split <;> rfl

theorem syncTimer_samePool (p : PortNo) (s : Shelf) : SameButPool s (syncTimer p s) := by
  unfold syncTimer
  dsimp only
  split <;> split <;> rfl

/-- Judging a port again takes no entry into the candidate list. -/
theorem syncPort_candidates {p : PortNo} {s : Shelf} {c : Candidate} (h : c ∈ (syncPort p s).recs.candidates) :
    c ∈ s.recs.candidates := by
  unfold syncPort syncTimer at h
  have h : c ∈ (syncCandidate p s).recs.candidates := by
    dsimp only at h
    split at h <;> split at h <;> exact h
  unfold syncCandidate at h
  split at h
  · exact (List.mem_filter.1 h).1
  · exact h

/-- R62: the search of a number stops at a free one, or when its bound is used up. -/
theorem freeNumber_search (s : Shelf) (k n : Nat) : ∃ j, j ≤ k ∧ freeNumber s k n = nextOrderNum^[j] n
    ∧ (∀ i < j, orderOf s (nextOrderNum^[i] n) ≠ none) ∧ (orderOf s (freeNumber s k n) ≠ none → j = k) := by
  induction k generalizing n with
  | zero => exact ⟨0, Nat.le_refl _, rfl, fun i hi => absurd hi (Nat.not_lt_zero i), fun _ => rfl⟩
  | succ k ih =>
    unfold freeNumber
    cases h : orderOf s n with
    | none => exact ⟨0, Nat.zero_le _, rfl, fun i hi => absurd hi (Nat.not_lt_zero i), fun c => absurd h c⟩
    | some o =>
      obtain ⟨j, h1, h2, h3, h4⟩ := ih (nextOrderNum n)
      refine ⟨j + 1, by omega, h2, fun i hi => ?_, fun c => by rw [h4 c]⟩
      cases i with
      | zero => rw [show nextOrderNum^[0] n = n from rfl, h]; exact Option.some_ne_none _
      | succ i => exact h3 i (by omega)

theorem nextOrderNum_distinct (n : Nat) : ((List.range 9).map (fun i => nextOrderNum^[i] n)).Nodup := by
  by_cases h : n < 256
  · have : ∀ m : Fin 256, ((List.range 9).map (fun i => nextOrderNum^[i] m.val)).Nodup := by decide +kernel
    exact this ⟨n, h⟩
  · have : ∀ i, nextOrderNum^[i] n = n + i := by
      intro i
      induction i with
      | zero => rfl
      | succ i ih =>
        rw [Function.iterate_succ_apply', ih]
        unfold nextOrderNum
        rw [if_neg (by omega)]
        rfl
    simp only [this]
    exact List.Nodup.map (fun a b h => by simpa using h) List.nodup_range

/-- R62: with fewer than 9 orders the number found is free. -/
theorem freeNumber_free (s : Shelf) (n : Nat) (h : s.ords.list.length < 9) : orderOf s (freeNumber s 9 n) = none := by
  by_contra hc
  obtain ⟨j, -, -, h3, h4⟩ := freeNumber_search s 9 n
  have hj := h4 hc
  subst hj
  have sub : (List.range 9).map (fun i => nextOrderNum^[i] n) ⊆ s.ords.list.map Order.num := by
    intro a ha
    obtain ⟨i, hi, rfl⟩ := List.mem_map.1 ha
    obtain ⟨o, ho⟩ := Option.ne_none_iff_exists'.1 (h3 i (List.mem_range.1 hi))
    exact List.mem_map.2 ⟨o, List.mem_of_find?_eq_some ho, of_decide_eq_true (List.find?_some (p := fun o : Order => decide (o.num = nextOrderNum^[i] n)) ho)⟩
  have := (List.subperm_of_subset (nextOrderNum_distinct n) sub).length_le
  simp at this
  omega

/-- What opening an order comes to. -/
theorem openOrder_spec (origin : Origin) (src dst : PortNo) (unprotected : Bool) (dark light : Nat) (s : Shelf) :
    let n := freeNumber s 9 s.ords.next
    ∃ x, openOrder origin src dst unprotected dark light s = (startCheck x, n)
      ∧ x.ords.list = s.ords.list ++ [⟨n, origin, src, dst, memberOf s src, unprotected, dark, light, .queued, shelfTime s, none, false, 0, 0⟩]
      ∧ x.ords.expired = put (put s.ords.expired src false) dst false
      ∧ SameButPool { s with ords := x.ords } x ∧ (∀ c ∈ x.recs.candidates, c ∈ s.recs.candidates)
      ∧ x.ords.next = nextOrderNum n := by
  dsimp only
  refine ⟨_, rfl, ?_⟩
  obtain ⟨n, hn⟩ : ∃ n, freeNumber s 9 s.ords.next = n := ⟨_, rfl⟩
  rw [hn]
  obtain ⟨o, ho⟩ : ∃ o : Order, o = ⟨n, origin, src, dst, memberOf s src, unprotected, dark, light, .queued, shelfTime s, none, false, 0, 0⟩ := ⟨_, rfl⟩
  rw [← ho]
  have e1 : ∀ p b y, SameButPool { y with ords := { y.ords with expired := put y.ords.expired p b } } (setExpired p b y) := fun p b y => .alarms (reportChange_frame _ _ _ _)
  have step : ∀ (a b : Shelf), SameButPool a b → SameButPool a (poolUpdate (syncPort src (reportNoSpare src b))) := fun a b h =>
    h.trans' (.trans' (.alarms (reportChange_frame _ _ _ _)) (.trans' (syncPort_samePool _ _) (poolUpdate_samePool _)))
  have f1 := e1 src false { s with ords := { s.ords with list := s.ords.list ++ [o], next := nextOrderNum n } }
  have f2 := e1 dst false (setExpired src false { s with ords := { s.ords with list := s.ords.list ++ [o], next := nextOrderNum n } })
  have o1 : (setExpired src false { s with ords := { s.ords with list := s.ords.list ++ [o], next := nextOrderNum n } }).ords = { s.ords with list := s.ords.list ++ [o], next := nextOrderNum n, expired := put s.ords.expired src false } := by rw [f1]
  have f3 := step _ _ (SameButPool.trans' f2 (rfl : SameButPool _ (orderNotice .opened o _)))
  have f4 : ∀ c ∈ (poolUpdate (syncPort src (reportNoSpare src (orderNotice .opened o (setExpired dst false (setExpired src false
      { s with ords := { s.ords with list := s.ords.list ++ [o], next := nextOrderNum n } })))))).recs.candidates, c ∈ s.recs.candidates := by
    have r1 : ∀ p b y, (setExpired p b y).recs = y.recs := fun p b y => (reportChange_frame _ _ _ _).2.2.1
    have r2 : ∀ y, (reportNoSpare src y).recs = y.recs := fun y => (reportChange_frame _ _ _ _).2.2.1
    have r3 : ∀ y, (poolUpdate y).recs = y.recs := by
      intro y
      unfold poolUpdate
      rw [(reportChange_frame _ _ _ _).2.2.1]
      split <;> rfl
    intro c hc
    rw [r3] at hc
    have hc := syncPort_candidates hc
    rw [r2] at hc
    have : c ∈ (setExpired dst false (setExpired src false { s with ords := { s.ords with list := s.ords.list ++ [o], next := nextOrderNum n } })).recs.candidates := hc
    rw [r1, r1] at this
    exact this
  generalize hx : poolUpdate (syncPort src (reportNoSpare src (orderNotice .opened o (setExpired dst false (setExpired src false { s with ords := { s.ords with list := s.ords.list ++ [o], next := nextOrderNum n } }))))) = x at *
  have o2 : x.ords = { s.ords with list := s.ords.list ++ [o], next := nextOrderNum n, expired := put (put s.ords.expired src false) dst false } := by
    rw [f3]
    dsimp only
    rw [o1]
  refine ⟨by rw [o2], by rw [o2], ?_⟩
  have f1' : SameButPool { s with ords := x.ords } { setExpired src false { s with ords := { s.ords with list := s.ords.list ++ [o], next := nextOrderNum n } } with ords := x.ords } := by
    rw [f1]; rfl
  refine ⟨f1'.trans' ?_, f4, by rw [o2]⟩
  rw [o1] at f3
  rw [o2]
  exact f3

/-! ### The names in the list -/

/-- What the stages of orders may change: the orders' stages and the like, the timing selector, the alarm unit and the
notices; no order comes or goes, and no expired flag changes. -/
structure Moved (s x : Shelf) : Prop where
  frame : x = { s with ords := x.ords, tim := x.tim, alm := x.alm, out := x.out }
  names : x.ords.list.map Order.names = s.ords.list.map Order.names
  expired : x.ords.expired = s.ords.expired

theorem Moved.rfl' (s : Shelf) : Moved s s := ⟨rfl, rfl, rfl⟩
theorem Moved.trans' {s t u : Shelf} (h : Moved s t) (k : Moved t u) : Moved s u := by
  refine ⟨?_, k.names.trans h.names, k.expired.trans h.expired⟩
  have := h.frame
  refine k.frame.trans ?_
  generalize u.ords = a
  generalize u.tim = b
  generalize u.alm = c
  generalize u.out = d
  rw [this]

theorem Moved.ofTiming {s x : Shelf} (h : SameButTiming s x) : Moved s x := by
  have hx : x.ords = s.ords := by rw [h]
  refine ⟨?_, by rw [hx], by rw [hx]⟩
  unfold SameButTiming at h
  rw [hx]
  exact h

theorem Moved.ofAlarms {s x : Shelf} (h : SameButAlarms s x) : Moved s x := .ofTiming (.ofAlarms h)

theorem setOrder_moved {n : Nat} {f : Order → Order} {s : Shelf} (hf : ∀ o, (f o).names = o.names) : Moved s (setOrder n f s) := by
  refine ⟨rfl, ?_, rfl⟩
  simp only [setOrder, List.map_map]
  congr 1
  funext o
  simp only [Function.comp_apply]
  split
  · exact hf o
  · rfl

theorem noticeOf_moved (e : OrderEvent) (n : Nat) (s : Shelf) : Moved s (noticeOf e n s) := by
  unfold noticeOf
  split
  · exact ⟨rfl, rfl, rfl⟩
  · exact .rfl' s
theorem reportPatch_moved (n : Nat) (s : Shelf) : Moved s (reportPatch n s) := by
  unfold reportPatch
  split
  · exact .ofAlarms (reportChange_frame _ _ _ _)
  · exact .rfl' s
theorem reportMisPatch_moved (n : Nat) (s : Shelf) : Moved s (reportMisPatch n s) := by
  unfold reportMisPatch
  split
  · exact .ofAlarms (reportChange_frame _ _ _ _)
  · exact .rfl' s
theorem refreshOrder_moved (n : Nat) (s : Shelf) : Moved s (refreshOrder n s) := by
  unfold refreshOrder
  split
  · exact .ofAlarms ((refreshPort_frame _ _).trans' (refreshPort_frame _ _))
  · exact .rfl' s
theorem enterStage_moved (n : Nat) (st : Stage) (s : Shelf) : Moved s (enterStage n st s) := by
  unfold enterStage
  refine .trans' ?_ (reportMisPatch_moved _ _)
  refine .trans' ?_ (reportPatch_moved _ _)
  refine .trans' ?_ (refreshOrder_moved _ _)
  refine .trans' ?_ (noticeOf_moved _ _ _)
  unfold setStage
  exact setOrder_moved (fun _ => rfl)
theorem timingRun_moved (s : Shelf) : Moved s (timingRun s) := by
  unfold timingRun
  have h := (timingEvent_spec id s).1
  generalize timingEvent id s = x at h ⊢
  exact Moved.ofTiming (s := s) (x := x) h
theorem judgeDest_moved (n : Nat) (s : Shelf) : Moved s (judgeDest n s) := by
  unfold judgeDest
  split
  · split
    · exact enterStage_moved _ _ _
    · exact reportMisPatch_moved _ _
  · exact .rfl' s
theorem enterAwaitLight_moved (n : Nat) (s : Shelf) : Moved s (enterAwaitLight n s) := by
  unfold enterAwaitLight
  refine (setOrder_moved (fun o => ?_)).trans' ((enterStage_moved _ _ _).trans' (judgeDest_moved _ _))
  split <;> rfl
theorem judgeSource_moved (n : Nat) (s : Shelf) : Moved s (judgeSource n s) := by
  unfold judgeSource
  split
  · split
    · exact enterAwaitLight_moved _ _
    · exact .rfl' s
  · exact .rfl' s
theorem enterAwaitDark_moved (n : Nat) (s : Shelf) : Moved s (enterAwaitDark n s) :=
  (enterStage_moved _ _ _).trans' ((timingRun_moved _).trans' (judgeSource_moved _ _))
/-- A hold report moves its order on, and touches neither the engine nor the executor. -/
theorem holdReport_moved (n : Nat) (b : Bool) (s : Shelf) : Moved s (holdReport n b s) := by
  unfold holdReport
  split
  · exact .rfl' s
  · dsimp only
    have h : Moved s (setOrder n (fun o => { o with granted := b }) s) := setOrder_moved (fun _ => rfl)
    split
    · split
      · exact h.trans' (enterAwaitDark_moved _ _)
      · exact .rfl' s
    · exact h.trans' ((reportPatch_moved _ _).trans' (noticeOf_moved _ _ _))
    · exact h.trans' ((reportPatch_moved _ _).trans' (noticeOf_moved _ _ _))
    · exact h.trans' ((reportPatch_moved _ _).trans' (noticeOf_moved _ _ _))
    · exact h
    · exact .rfl' s

/-- The orders' names, the expired flags and the condemnations are as they were. -/
structure SameNames (s x : Shelf) : Prop where
  names : x.ords.list.map Order.names = s.ords.list.map Order.names
  expired : x.ords.expired = s.ords.expired
  condemn : x.recs.condemn = s.recs.condemn

theorem SameNames.rfl' (s : Shelf) : SameNames s s := ⟨rfl, rfl, rfl⟩
theorem SameNames.trans' {s t u : Shelf} (h : SameNames s t) (k : SameNames t u) : SameNames s u :=
  ⟨k.names.trans h.names, k.expired.trans h.expired, k.condemn.trans h.condemn⟩
theorem SameNames.foldl {α : Type} {f : Shelf → α → Shelf} (hf : ∀ s a, SameNames s (f s a)) (l : List α) (s : Shelf) :
    SameNames s (l.foldl f s) := by
  induction l generalizing s with
  | nil => exact .rfl' s
  | cons a l ih => exact (hf s a).trans' (ih _)
theorem Moved.sameNames {s x : Shelf} (h : Moved s x) : SameNames s x := ⟨h.names, h.expired, by rw [h.frame]⟩
theorem SameButProtection.sameNames {s x : Shelf} (h : SameButProtection s x) : SameNames s x :=
  ⟨by rw [h], by rw [h], by rw [h]⟩
theorem SameButPool.sameNames {s x : Shelf} (h : SameButPool s x) : SameNames s x := ⟨by rw [h], by rw [h], by rw [h]⟩
theorem SameButAlarms.sameNames {s x : Shelf} (h : SameButAlarms s x) : SameNames s x := (Moved.ofAlarms h).sameNames

theorem evaluate_names (g : GroupNo) (s : Shelf) : SameNames s (evaluate g s) := (evaluate_spec g s).1.sameNames

theorem judgeHold_names (g : GroupNo) (s : Shelf) : SameNames s (judgeHold g s) := by
  have h : ∀ b, SameNames s (setGranted g b s) := fun _ => ⟨rfl, rfl, rfl⟩
  unfold judgeHold
  split
  · exact .rfl' s
  · dsimp only
    split
    · exact .rfl' s
    · split
      · exact (h _).trans' (holdReport_moved _ _ _).sameNames
      · split
        · exact (h _).trans' (holdReport_moved _ _ _).sameNames
        · exact .rfl' s

theorem startOrder_names (s : Shelf) (n : Nat) : SameNames s (startOrder s n) := by
  unfold startOrder
  split
  · exact .rfl' s
  · split
    · split
      · exact (enterAwaitDark_moved _ _).sameNames
      · split
        · exact .rfl' s
        · split
          · exact (enterAwaitDark_moved _ _).sameNames
          · unfold placeHold
            have h1 : ∀ (g : GroupNo) (f : List ReqEntry → List ReqEntry) (z : Shelf), SameNames z (setList g f z) := fun _ _ _ => ⟨rfl, rfl, rfl⟩
            exact (enterStage_moved n .holding s).sameNames.trans' ((h1 _ _ _).trans' ((evaluate_names _ _).trans' (judgeHold_names _ _)))
    · exact .rfl' s

/-- The start check opens and ends no order. -/
theorem startCheck_names (s : Shelf) : SameNames s (startCheck s) := .foldl startOrder_names _ s

/-! ### What a freed place in the pool opens -/

/-- Some orders of condemnations that waited have been opened, and have cleared their ports' expired flags. -/
def Opens (s x : Shelf) : Prop :=
  ∃ opened : List Order, x.ords.list.map Order.names = (s.ords.list ++ opened).map Order.names
    ∧ (∀ q ∈ opened, q.origin = .reassign ∧ condemnOf s q.src ≠ none)
    ∧ (∀ p, (∀ q ∈ opened, q.src ≠ p ∧ q.dst ≠ p) → at' x.ords.expired p = at' s.ords.expired p)
    ∧ x.recs.condemn = s.recs.condemn

theorem SameNames.opens {s x : Shelf} (h : SameNames s x) : Opens s x :=
  ⟨[], by simpa using h.names, by simp, fun p _ => by rw [h.expired], h.condemn⟩

theorem Opens.trans' {s t u : Shelf} (h : Opens s t) (k : Opens t u) : Opens s u := by
  obtain ⟨a, h1, h2, h3, h4⟩ := h
  obtain ⟨b, k1, k2, k3, k4⟩ := k
  refine ⟨a ++ b, ?_, ?_, fun p hp => ?_, k4.trans h4⟩
  · rw [k1, List.map_append, h1]; simp
  · intro q hq
    rcases List.mem_append.1 hq with hq | hq
    · exact h2 q hq
    · obtain ⟨c, d⟩ := k2 q hq
      exact ⟨c, by unfold condemnOf at d ⊢; rw [← h4]; exact d⟩
  · rw [k3 p (fun q hq => hp q (by simp [hq])), h3 p (fun q hq => hp q (by simp [hq]))]

theorem Opens.foldl {α : Type} {f : Shelf → α → Shelf} (hf : ∀ s a, Opens s (f s a)) (l : List α) (s : Shelf) :
    Opens s (l.foldl f s) := by
  induction l generalizing s with
  | nil => exact (SameNames.rfl' s).opens
  | cons a l ih => exact (hf s a).trans' (ih _)

theorem tryCondemn_opens (p : PortNo) (s : Shelf) : Opens s (tryCondemn p s).1 := by
  unfold tryCondemn
  split
  · exact (SameNames.rfl' s).opens
  · rename_i c hc
    split
    · split
      · rename_i dst _
        obtain ⟨x, h1, h2, h3, h4, -⟩ := openOrder_spec .reassign p dst c.unprotected c.dark c.light s
        dsimp only
        rw [h1]
        refine Opens.trans' (t := x) ?_ (startCheck_names x).opens
        refine ⟨[⟨freeNumber s 9 s.ords.next, .reassign, p, dst, memberOf s p, c.unprotected, c.dark, c.light, .queued, shelfTime s, none, false, 0, 0⟩],
          by rw [h2], ?_, fun q hq => ?_, by rw [h4]⟩
        · intro q hq
          rw [List.mem_singleton] at hq
          subst hq
          exact ⟨rfl, by rw [hc]; simp⟩
        · obtain ⟨a, b⟩ := hq _ (List.mem_singleton.2 rfl)
          rw [h3, at'_put_ne _ _ (Ne.symm b), at'_put_ne _ _ (Ne.symm a)]
      · exact (SameNames.rfl' s).opens
    · exact (SameNames.rfl' s).opens

theorem retryCondemned_opens (s : Shelf) : Opens s (retryCondemned s) := by
  unfold retryCondemned
  refine .foldl (fun s p => ?_) _ s
  split
  · exact tryCondemn_opens _ _
  · exact (SameNames.rfl' s).opens

/-- What follows an order's leaving opens orders of waiting condemnations and no others. -/
theorem orderGone_opens (o : Order) (s : Shelf) : Opens s (orderGone o s) := by
  unfold orderGone
  dsimp only
  have h : Opens s (syncPort o.dst (syncPort o.src (reportNoSpare o.src (retryCondemned (poolUpdate s))))) :=
    (poolUpdate_samePool s).sameNames.opens.trans' ((retryCondemned_opens _).trans'
      (SameNames.opens ((SameButAlarms.sameNames (reportChange_frame _ _ _ _)).trans'
        ((syncPort_samePool _ _).sameNames.trans' (syncPort_samePool _ _).sameNames))))
  split
  · exact h.trans' (startCheck_names _).opens
  · exact h

/-- The order goes out of the list, and an expiry sets its source's expired flag; no condemn-pending flag is set. -/
theorem orderOut_list (o : Order) (e : OrderEvent) (s : Shelf) :
    (orderOut o e s).ords.list.map Order.names = (s.ords.list.filter (fun q => decide (q.num ≠ o.num))).map Order.names
    ∧ (∀ p, at' (orderOut o e s).ords.expired p = if e = .expired ∧ p = o.src then true else at' s.ords.expired p)
    ∧ ∀ p, condemnOf (orderOut o e s) p ≠ none → condemnOf s p ≠ none := by
  obtain ⟨y, hy⟩ : ∃ y, y = timingRun (endOrderAlarms o (settleCondemn o e (dropHold o { s with ords := { s.ords with
    list := s.ords.list.filter (fun x => decide (x.num ≠ o.num)) } }))) := ⟨_, rfl⟩
  have hd : ∀ z, SameNames z (dropHold o z) := by
    intro z
    unfold dropHold
    split
    · split
      · unfold removeHold
        refine SameNames.trans' ?_ (evaluate_names _ _)
        exact ⟨rfl, rfl, rfl⟩
      · exact .rfl' z
    · exact .rfl' z
  have he : ∀ z, SameNames z (endOrderAlarms o z) := fun z => SameButAlarms.sameNames
    ((reportChange_frame _ _ _ _).trans' ((reportChange_frame _ _ _ _).trans' ((refreshPort_frame _ _).trans' (refreshPort_frame _ _))))
  have hs : ∀ z, (settleCondemn o e z).ords = z.ords ∧ ∀ p, condemnOf (settleCondemn o e z) p ≠ none → condemnOf z p ≠ none := by
    intro z
    unfold settleCondemn
    split
    · refine ⟨rfl, fun p hp => ?_⟩
      by_cases h : p = o.src
      · subst h
        simp [condemnOf, setCondemn] at hp
      · have : condemnOf (setCondemn o.src none z) p = condemnOf z p := at'_put_ne _ _ h
        rw [this] at hp
        exact hp
    · exact ⟨rfl, fun _ h => h⟩
  have h1 := hd { s with ords := { s.ords with list := s.ords.list.filter (fun x => decide (x.num ≠ o.num)) } }
  generalize hz : dropHold o { s with ords := { s.ords with list := s.ords.list.filter (fun x => decide (x.num ≠ o.num)) } } = z at *
  have h2 := hs z
  have h3 := (he (settleCondemn o e z)).trans' (timingRun_moved _).sameNames
  rw [← hy] at h3
  have c1 : ∀ p, condemnOf y p ≠ none → condemnOf s p ≠ none := by
    intro p hp
    have : condemnOf y p = condemnOf (settleCondemn o e z) p := by unfold condemnOf; rw [h3.condemn]
    have := h2.2 p (this ▸ hp)
    unfold condemnOf at this ⊢
    rw [h1.condemn] at this
    exact this
  have n1 : y.ords.list.map Order.names = (s.ords.list.filter (fun q => decide (q.num ≠ o.num))).map Order.names := by
    rw [h3.names, h2.1, h1.names]
  have e1 : y.ords.expired = s.ords.expired := by rw [h3.expired, h2.1, h1.expired]
  have fin : orderOut o e s = orderNotice e o (if e = .expired then setExpired o.src true y else y) := by
    unfold orderOut
    dsimp only
    rw [hz, ← hy]
  rw [fin]
  by_cases hx : e = .expired
  · rw [if_pos hx]
    have fr := reportChange_frame (.port o.src) .moveExpired true { y with ords := { y.ords with expired := put y.ords.expired o.src true } }
    have ho : (setExpired o.src true y).ords = { y.ords with expired := put y.ords.expired o.src true } := fr.2.2.2.1
    have hr : (setExpired o.src true y).recs = y.recs := fr.2.2.1
    refine ⟨?_, fun p => ?_, fun p hp => c1 p ?_⟩
    · show (setExpired o.src true y).ords.list.map _ = _
      rw [ho]; exact n1
    · show at' (setExpired o.src true y).ords.expired p = _
      rw [ho]
      by_cases hp : p = o.src
      · subst hp; simp [hx]
      · simp only [hp, and_false, if_false]
        rw [at'_put_ne _ _ hp, e1]
    · have : condemnOf (setExpired o.src true y) p ≠ none := hp
      unfold condemnOf at this ⊢
      rw [hr] at this
      exact this
  · rw [if_neg hx]
    refine ⟨n1, fun p => ?_, c1⟩
    rw [if_neg (by simp [hx])]
    show at' y.ords.expired p = _
    rw [e1]

/-- R74: what an order's leaving makes of the list. -/
theorem leaveOrder_list {num : Nat} {e : OrderEvent} {o : Order} {s : Shelf} (h : orderOf s num = some o) :
    ∃ opened : List Order, (leaveOrder num e s).ords.list.map Order.names
        = (s.ords.list.filter (fun q => decide (q.num ≠ o.num)) ++ opened).map Order.names
      ∧ (∀ q ∈ opened, q.origin = .reassign ∧ condemnOf s q.src ≠ none)
      ∧ (∀ p, (∀ q ∈ opened, q.src ≠ p ∧ q.dst ≠ p) → at' (leaveOrder num e s).ords.expired p
          = if e = .expired ∧ p = o.src then true else at' s.ords.expired p) := by
  have he : leaveOrder num e s = orderGone o (orderOut o e s) := by unfold leaveOrder; rw [h]
  rw [he]
  obtain ⟨h1, h2, h3⟩ := orderOut_list o e s
  obtain ⟨opened, k1, k2, k3, -⟩ := orderGone_opens o (orderOut o e s)
  refine ⟨opened, ?_, fun q hq => ⟨(k2 q hq).1, h3 _ (k2 q hq).2⟩, fun p hp => (k3 p hp).trans (h2 p)⟩
  rw [k1, List.map_append, h1, List.map_append]

end Sys2Proof.Machine
end

