-- ==== Sys2Proof/Laws/Standing.lean ====
section
/-! SUPPORT. What of a group the evaluations, the stages of orders and an order's leaving never touch: what the cards carry
and are owed, the pending substitution, the selected channel and the STUCK flag. -/

namespace Sys2Proof.Machine

/-- What of a group's executor record no evaluation changes. -/
def GroupExec.lines (x : GroupExec) : Option Nat × Nat × List (PortNo × Due) × Bool × Option Subst :=
  (x.bridged, x.carried, x.owed, x.prepareDue, x.subst)

/-- Every group stands as it did: its lines, its selected channel and its STUCK flag; so do the definitions and the phase. -/
structure Standing (s x : Shelf) : Prop where
  lines : ∀ g, (execOf x g).lines = (execOf s g).lines
  sel : ∀ g, (runOf x g).sel = (runOf s g).sel
  stuck : ∀ g, (runOf x g).stuck = (runOf s g).stuck
  defs : x.eng.defs = s.eng.defs
  rdy : x.rdy = s.rdy

theorem Standing.rfl' (s : Shelf) : Standing s s := ⟨fun _ => rfl, fun _ => rfl, fun _ => rfl, rfl, rfl⟩
theorem Standing.trans' {s t u : Shelf} (h : Standing s t) (k : Standing t u) : Standing s u :=
  ⟨fun g => (k.lines g).trans (h.lines g), fun g => (k.sel g).trans (h.sel g), fun g => (k.stuck g).trans (h.stuck g),
    k.defs.trans h.defs, k.rdy.trans h.rdy⟩
theorem Standing.foldl {α : Type} {f : Shelf → α → Shelf} (hf : ∀ s a, Standing s (f s a)) (l : List α) (s : Shelf) :
    Standing s (l.foldl f s) := by
  induction l generalizing s with
  | nil => exact .rfl' s
  | cons a l ih => exact (hf s a).trans' (ih _)

/-- Whatever leaves the engine, the executor and the phase alone leaves the groups standing. -/
theorem Standing.of {s x : Shelf} (h1 : x.eng = s.eng) (h2 : x.exe = s.exe) (h3 : x.rdy = s.rdy) : Standing s x :=
  ⟨fun g => by unfold execOf; rw [h2], fun g => by unfold runOf; rw [h1], fun g => by unfold runOf; rw [h1], by rw [h1], h3⟩

theorem Moved.standing {s x : Shelf} (h : Moved s x) : Standing s x := .of (by rw [h.frame]) (by rw [h.frame]) (by rw [h.frame])
theorem SameButAlarms.standing {s x : Shelf} (h : SameButAlarms s x) : Standing s x := (Moved.ofAlarms h).standing
theorem SameButPool.standing {s x : Shelf} (h : SameButPool s x) : Standing s x := .of (by rw [h]) (by rw [h]) (by rw [h])

theorem setExec_standing {g : GroupNo} {f : GroupExec → GroupExec} {s : Shelf} (h : (f (execOf s g)).lines = (execOf s g).lines) :
    Standing s (setExec g f s) := by
  refine ⟨fun k => ?_, fun _ => rfl, fun _ => rfl, rfl, rfl⟩
  by_cases hk : k = g
  · subst hk; rw [execOf_setExec_same]; exact h
  · rw [execOf_setExec_ne _ _ hk]
theorem setTasks_standing (f : List Task → List Task) (s : Shelf) : Standing s (setTasks f s) :=
  ⟨fun _ => rfl, fun _ => rfl, fun _ => rfl, rfl, rfl⟩
theorem setRun_standing {g : GroupNo} {f : GroupRun → GroupRun} {s : Shelf}
    (h : (f (runOf s g)).sel = (runOf s g).sel ∧ (f (runOf s g)).stuck = (runOf s g).stuck) : Standing s (setRun g f s) := by
  refine ⟨fun _ => rfl, fun k => ?_, fun k => ?_, rfl, rfl⟩
  all_goals
    by_cases hk : k = g
    · subst hk; rw [runOf_setRun_same]
      first
        | exact h.1
        | exact h.2
    · rw [runOf_setRun_ne _ _ hk]

theorem scheduleGroup_standing (g : GroupNo) (s : Shelf) : Standing s (scheduleGroup g s) := by
  unfold scheduleGroup
  dsimp only
  split
  · exact .rfl' s
  · split
    · exact (setExec_standing rfl).trans' (setTasks_standing _ _)
    · split
      · exact (setExec_standing rfl).trans' (setTasks_standing _ _)
      · exact .rfl' s
theorem endConfirm_standing (g : GroupNo) (s : Shelf) : Standing s (endConfirm g s) := by
  have h : Standing s (setExec g (fun x => { x with confirm := none, step := if x.step = .confirmWait then .queued else x.step }) s) := setExec_standing rfl
  unfold endConfirm
  exact h.trans' (SameButAlarms.standing (reportChange_frame _ _ _ _))
theorem askPlan_standing (g : GroupNo) (d : GroupDef) (a : Option (ReqClass × Nat)) (s : Shelf) : Standing s (askPlan g d a s) := by
  unfold askPlan
  have h1 : Standing s (setRun g (fun r => { r with plan := some (targetOf a) }) s) := setRun_standing ⟨rfl, rfl⟩
  refine .trans' ?_ (scheduleGroup_standing _ _)
  refine .trans' ?_ (setExec_standing rfl)
  exact h1.trans' (endConfirm_standing _ _)
theorem actOn_standing (g : GroupNo) (d : GroupDef) (s : Shelf) : Standing s (actOn g d s) := by
  unfold actOn
  dsimp only
  split
  · exact .rfl' s
  · split <;> split
    · exact askPlan_standing _ _ _ _
    · exact .rfl' s
    · exact askPlan_standing _ _ _ _
    · exact .rfl' s

/-- An evaluation leaves every group standing. -/
theorem evaluate_standing (g : GroupNo) (s : Shelf) : Standing s (evaluate g s) := by
  unfold evaluate
  split
  · exact .rfl' s
  · rename_i d _
    have h : Standing s (setRun g (evaluateRun d.revertive (isArmed s)) s) := by
      refine setRun_standing ?_
      obtain ⟨a1, a2, -⟩ := evaluateOnce_spec d.revertive (isArmed s) (runOf s g)
      obtain ⟨b1, b2, -⟩ := evaluateOnce_spec d.revertive (isArmed s) (evaluateOnce d.revertive (isArmed s) (runOf s g))
      exact ⟨b1.trans a1, b2.trans a2⟩
    exact h.trans' ((SameButAlarms.standing (reportGroup_frame _ _)).trans' (actOn_standing _ _ _))

theorem judgeHold_standing (g : GroupNo) (s : Shelf) : Standing s (judgeHold g s) := by
  have h : ∀ b, Standing s (setGranted g b s) := fun b => setRun_standing ⟨rfl, rfl⟩
  unfold judgeHold
  split
  · exact .rfl' s
  · dsimp only
    split
    · exact .rfl' s
    · split
      · exact (h _).trans' (holdReport_moved _ _ _).standing
      · split
        · exact (h _).trans' (holdReport_moved _ _ _).standing
        · exact .rfl' s

theorem setList_standing (g : GroupNo) (f : List ReqEntry → List ReqEntry) (s : Shelf) : Standing s (setList g f s) :=
  setRun_standing ⟨rfl, rfl⟩

theorem startOrder_standing (s : Shelf) (n : Nat) : Standing s (startOrder s n) := by
  unfold startOrder
  split
  · exact .rfl' s
  · split
    · split
      · exact (enterAwaitDark_moved _ _).standing
      · split
        · exact .rfl' s
        · split
          · exact (enterAwaitDark_moved _ _).standing
          · unfold placeHold
            exact (enterStage_moved n .holding s).standing.trans' ((setList_standing _ _ _).trans'
              ((evaluate_standing _ _).trans' (judgeHold_standing _ _)))
    · exact .rfl' s
theorem startCheck_standing (s : Shelf) : Standing s (startCheck s) := .foldl startOrder_standing _ s

theorem tryCondemn_standing (p : PortNo) (s : Shelf) : Standing s (tryCondemn p s).1 := by
  unfold tryCondemn
  split
  · exact .rfl' s
  · rename_i c hc
    split
    · split
      · rename_i dst _
        obtain ⟨x, h1, -, -, h4, -⟩ := openOrder_spec .reassign p dst c.unprotected c.dark c.light s
        dsimp only
        rw [h1]
        refine Standing.trans' (t := x) ?_ (startCheck_standing x)
        exact .of (by rw [h4]) (by rw [h4]) (by rw [h4])
      · exact .rfl' s
    · exact .rfl' s
theorem retryCondemned_standing (s : Shelf) : Standing s (retryCondemned s) := by
  unfold retryCondemned
  refine .foldl (fun s p => ?_) _ s
  split
  · exact tryCondemn_standing _ _
  · exact .rfl' s
theorem orderGone_standing (o : Order) (s : Shelf) : Standing s (orderGone o s) := by
  unfold orderGone
  dsimp only
  have h : Standing s (syncPort o.dst (syncPort o.src (reportNoSpare o.src (retryCondemned (poolUpdate s))))) :=
    (poolUpdate_samePool s).standing.trans' ((retryCondemned_standing _).trans'
      ((SameButAlarms.standing (reportChange_frame _ _ _ _)).trans'
        ((syncPort_samePool _ _).standing.trans' (syncPort_samePool _ _).standing)))
  split
  · exact h.trans' (startCheck_standing _)
  · exact h
theorem orderOut_standing (o : Order) (e : OrderEvent) (s : Shelf) : Standing s (orderOut o e s) := by
  have h1 : ∀ z, Standing z (dropHold o z) := by
    intro z
    unfold dropHold
    split
    · split
      · unfold removeHold
        exact (setList_standing _ _ _).trans' (evaluate_standing _ _)
      · exact .rfl' z
    · exact .rfl' z
  have h2 : ∀ z, Standing z (settleCondemn o e z) := by
    intro z
    unfold settleCondemn
    split
    · exact .of rfl rfl rfl
    · exact .rfl' z
  have h3 : ∀ z, Standing z (endOrderAlarms o z) := fun z => SameButAlarms.standing
    ((reportChange_frame _ _ _ _).trans' ((reportChange_frame _ _ _ _).trans' ((refreshPort_frame _ _).trans' (refreshPort_frame _ _))))
  have h4 : ∀ z, Standing z (orderNotice e o z) := fun z => .of rfl rfl rfl
  have h5 : ∀ b z, Standing z (setExpired o.src b z) := fun b z => .trans'
    (t := { z with ords := { z.ords with expired := put z.ords.expired o.src b } }) (.of rfl rfl rfl) (SameButAlarms.standing (reportChange_frame _ _ _ _))
  have h0 : Standing s { s with ords := { s.ords with list := s.ords.list.filter (fun x => decide (x.num ≠ o.num)) } } := .of rfl rfl rfl
  unfold orderOut
  dsimp only
  refine .trans' ?_ (h4 _)
  have h := (h0.trans' ((h1 _).trans' ((h2 _).trans' (h3 _)))).trans' (timingRun_moved _).standing
  split
  · exact h.trans' (h5 _ _)
  · exact h

/-- An order's leaving leaves every group standing. -/
theorem leaveOrder_standing (n : Nat) (e : OrderEvent) (s : Shelf) : Standing s (leaveOrder n e s) := by
  unfold leaveOrder
  split
  · exact .rfl' s
  · exact (orderOut_standing _ _ _).trans' (orderGone_standing _ _)

end Sys2Proof.Machine
end

