-- ==== Sys2Proof/Laws/Ends.lean ====
section
/-! SUPPORT. What the ends of a group's work come to: the due words as fields, the notices of a group, how an order leaves
when its substitution ends, and what a group's becoming STUCK leaves. -/

namespace Sys2Proof.Machine

/-- A due word written over a word replaces its fields. -/
theorem applyDue_fields (due : Due) (w : Word) : applyDue due w = withFields w (dueFields due w) := by
  cases due with
  | working b s => simp [applyDue, withFields, dueFields, setRole, setBridgeOut, setSelectOut, roleWorking]
  | protect sh b c cls chan =>
    by_cases h : c = 0 <;> cases sh <;> simp [applyDue, protectWord, withFields, dueFields, setRole, setBridgeChan,
      setCarryChan, setSelectFlag, setOutRequest, h, roleShared, rolePair]
  | prepared =>
    by_cases h : field w 0 2 = 3 <;> simp [applyDue, protectWord, withFields, dueFields, setRole, setBridgeChan,
      setCarryChan, setSelectFlag, setOutRequest, roleOf, outClassOf, outChanOf, h, roleShared, ReqClass.rank]

/-- Scheduling a group's work leaves its owed words. -/
theorem scheduleGroup_owed (g : GroupNo) (s : Shelf) : (execOf (scheduleGroup g s) g).owed = (execOf s g).owed := by
  unfold scheduleGroup
  extract_lets x
  split
  · rfl
  · split
    · rw [joinExchange, show ∀ f x, execOf (setTasks f x) g = execOf x g from fun _ _ => rfl, execOf_setExec_same]
    · split
      · rw [joinAdoption, show ∀ f x, execOf (setTasks f x) g = execOf x g from fun _ _ => rfl, execOf_setExec_same]
      · rfl

theorem groupTold_mono {e : GroupEvent} {g : GroupNo} {f : Option (Option BusAnswer × Nat × Bool)} {x y : Shelf}
    (h : GroupTold e g f x) (k : ∀ n, n ∈ x.out → n ∈ y.out) : GroupTold e g f y := by
  obtain ⟨a, b, c, d, h⟩ := h
  exact ⟨a, b, c, d, k _ h⟩

theorem groupNotice_told (e : GroupEvent) (g : GroupNo) (f : Option (Option BusAnswer × Nat × Bool)) (s : Shelf) :
    GroupTold e g f (groupNotice e g f s) :=
  ⟨groupState s g, (runOf s g).sel, (runOf s g).active, (runOf s g).far, by simp [groupNotice, tell]⟩

/-- A report leaves what is told of every other object and condition. -/
theorem reportChange_other {o o' : Obj} {c c' : Cond} (b : Bool) (s : Shelf) (h : (o, c) ≠ (o', c')) :
    (o', c') ∈ (reportChange o c b s).alm.told ↔ (o', c') ∈ s.alm.told := by
  unfold reportChange
  split
  · rfl
  · rw [report_told]
    have h' : (o', c') ≠ (o, c) := fun e => h e.symm
    cases b <;> simp [joinTail, leave, h']
    split <;> simp [h']

/-- The three conditions that an evaluation reports. -/
def engineReports (c : Cond) : Prop := c = .pinned ∨ c = .barred ∨ c = .protectUnavailable

theorem reportGroup_other {g : GroupNo} {o : Obj} {c : Cond} (s : Shelf) (h : ¬ engineReports c) :
    (o, c) ∈ (reportGroup g s).alm.told ↔ (o, c) ∈ s.alm.told := by
  simp only [engineReports, not_or] at h
  unfold reportGroup
  rw [reportChange_other, reportChange_other, reportChange_other] <;> simp [Ne.symm h.1, Ne.symm h.2.1, Ne.symm h.2.2]

/-- The evaluation of a STUCK group starts nothing. -/
theorem evaluate_stuck {g : GroupNo} {s : Shelf} (h : (runOf s g).stuck = true) :
    (evaluate g s).exe = s.exe ∧ (runOf (evaluate g s) g).plan = (runOf s g).plan
    ∧ ∀ o c, ¬ engineReports c → ((o, c) ∈ (evaluate g s).alm.told ↔ (o, c) ∈ s.alm.told) := by
  unfold evaluate
  split
  · exact ⟨rfl, rfl, fun _ _ _ => Iff.rfl⟩
  · rename_i d _
    obtain ⟨a1, a2, a3, a4, a5, -⟩ := evaluateOnce_spec d.revertive (isArmed s) (runOf s g)
    obtain ⟨b1, b2, b3, b4, b5, -⟩ := evaluateOnce_spec d.revertive (isArmed s) (evaluateOnce d.revertive (isArmed s) (runOf s g))
    have fr := reportGroup_frame g (setRun g (evaluateRun d.revertive (isArmed s)) s)
    have rr : runOf (reportGroup g (setRun g (evaluateRun d.revertive (isArmed s)) s)) g
        = evaluateRun d.revertive (isArmed s) (runOf s g) := by
      unfold runOf
      rw [fr.2.2.2.2.1]
      exact runOf_setRun_same _ _ _
    have st : (runOf (reportGroup g (setRun g (evaluateRun d.revertive (isArmed s)) s)) g).stuck = true := by
      rw [rr]; exact (b2.trans a2).trans h
    have e : actOn g d (reportGroup g (setRun g (evaluateRun d.revertive (isArmed s)) s))
        = reportGroup g (setRun g (evaluateRun d.revertive (isArmed s)) s) := by
      unfold actOn
      simp [st]
    rw [e]
    exact ⟨fr.2.2.2.2.2.1, by rw [rr]; exact b5.trans a5, fun o c hc => reportGroup_other _ hc⟩

/-- R74, R119: an order leaves from a shelf that still has its list and its records. -/
theorem leaveOrder_leaves {n : Nat} {e : OrderEvent} {o : Order} {s z : Shelf} (ho : orderOf s n = some o)
    (h1 : z.ords = s.ords) (h2 : z.recs = s.recs) (hw : Wide s z) (hc : SameCards s z) :
    OrderLeaves e o s (leaveOrder n e z) := by
  have ho' : orderOf z n = some o := by unfold orderOf; rw [h1]; exact ho
  obtain ⟨opened, k1, k2, k3⟩ := leaveOrder_list (e := e) ho'
  refine ⟨⟨opened, by rw [k1, h1], fun q hq => ?_, fun p hp => by rw [k3 p hp, h1]⟩, leave_out ho',
    (wide_settings (keep_leaveOrder (wide s) hw)).1, stay_leaveOrder (cards s) hc⟩
  obtain ⟨a, b⟩ := k2 q hq
  exact ⟨a, by unfold condemnOf at b ⊢; rw [h2] at b; exact b⟩

/-- R73, R119: the order whose substitution has ended leaves, and every group stands as it did. -/
theorem substitutionEnded_spec (g : GroupNo) (e : OrderEvent) (z : Shelf) :
    Standing z (substitutionEnded g e z) ∧ (∀ n, n ∈ z.out → n ∈ (substitutionEnded g e z).out)
    ∧ ∀ s o, z.ords = s.ords → z.recs = s.recs → Wide s z → SameCards s z →
        s.ords.list.find? (fun o => decide (o.stage = .completing) && decide (o.circuit.map Prod.fst = some g)) = some o →
        orderOf s o.num = some o → OrderLeaves e o s (substitutionEnded g e z) := by
  refine ⟨?_, fun n hn => free_substitutionEnded (made_free n) hn, fun s o h1 h2 hw hc hf ho => ?_⟩
  · unfold substitutionEnded
    split
    · exact leaveOrder_standing _ _ _
    · exact .rfl' _
  · unfold substitutionEnded
    rw [h1, hf]
    exact leaveOrder_leaves ho h1 h2 hw hc

/-- R113: what a group's becoming STUCK leaves. -/
theorem groupStuck_gone (g : GroupNo) (f : Option BusAnswer × Nat × Bool) (s : Shelf) : GoneStuck g f s (groupStuck g f s) := by
  obtain ⟨s1, hs1⟩ : ∃ s1, s1 = dropTasks g (setExec g (fun x => { GroupExec.fresh with prepareDue := x.prepareDue }) s) :=
    ⟨_, rfl⟩
  obtain ⟨s2, hs2⟩ : ∃ s2, s2 = reportChange (.group g) .farEndSilent false
    (reportChange (.group g) .selectorFault true s1) := ⟨_, rfl⟩
  have f2 : SameButAlarms s1 s2 := by rw [hs2]; exact (reportChange_frame _ _ _ _).trans' (reportChange_frame _ _ _ _)
  obtain ⟨s3, hs3⟩ : ∃ s3, s3 = groupNotice .stuck g (some f) (setRun g (fun r => { r with stuck := true, plan := none }) s2) :=
    ⟨_, rfl⟩
  have r3 : runOf s3 g = { runOf s g with stuck := true, plan := none } := by
    rw [hs3]
    show runOf (setRun g _ s2) g = _
    rw [runOf_setRun_same]
    have : runOf s2 g = runOf s g := by unfold runOf; rw [f2.2.2.2.2.1, hs1]; rfl
    rw [this]
  have e3 : s3.exe = s1.exe := by rw [hs3]; exact f2.2.2.2.2.2.1
  obtain ⟨ev1, ev2, ev3⟩ := evaluate_stuck (g := g) (s := s3) (by rw [r3])
  have evs := evaluate_standing g s3
  have x1 : execOf s1 g = { GroupExec.fresh with prepareDue := (execOf s g).prepareDue } := by
    rw [hs1]
    show execOf (setExec g _ s) g = _
    rw [execOf_setExec_same]
  have x4 : execOf (evaluate g s3) g = { GroupExec.fresh with prepareDue := (execOf s g).prepareDue } := by
    rw [← x1]; unfold execOf; rw [ev1, e3]
  have t4 : GroupTold .stuck g (some f) (evaluate g s3) := by
    have h : GroupTold .stuck g (some f) s3 := by rw [hs3]; exact groupNotice_told _ _ _ _
    exact groupTold_mono h (fun n hn => free_evaluate (made_free n) hn)
  have st4 : (runOf (evaluate g s3) g).stuck = true := by rw [evs.stuck, r3]
  have sl4 : (runOf (evaluate g s3) g).sel = (runOf s g).sel := by rw [evs.sel, r3]
  have w4 : Wide s (evaluate g s3) := by
    have K := wide s
    rw [hs3, hs2, hs1]
    exact keep_evaluate K (keep_groupNotice K (keep_setRun K (keep_reportChange K (by decide) (keep_reportChange K (by decide)
      (keep_dropTasks K (keep_setExec K (wide_rfl s)))))))
  have c4 : SameCards s (evaluate g s3) := by
    have K := cards s
    rw [hs3, hs2, hs1]
    exact stay_evaluate K (stay_groupNotice K (stay_setRun K (stay_reportChange K (stay_reportChange K (stay_dropTasks K
      (stay_setExec K ⟨rfl, rfl, rfl, rfl⟩))))))
  have o4 : (evaluate g s3).ords = s.ords ∧ (evaluate g s3).recs = s.recs := by
    have fe : SameButProtection s3 (evaluate g s3) := (evaluate_spec g s3).1
    have h1 : (evaluate g s3).ords = s3.ords := by rw [fe]
    have h2 : (evaluate g s3).recs = s3.recs := by rw [fe]
    rw [h1, h2, hs3]
    exact ⟨f2.2.2.2.1.trans (by rw [hs1]; rfl), f2.2.2.1.trans (by rw [hs1]; rfl)⟩
  have eq : groupStuck g f s = if (execOf s g).subst.isSome then substitutionEnded g .completedSelectorFault (evaluate g s3)
      else evaluate g s3 := by
    unfold groupStuck engineStuck
    rw [hs3, hs2, hs1]
  obtain ⟨u1, u2, u3⟩ := substitutionEnded_spec g .completedSelectorFault (evaluate g s3)
  have out5 : Standing (evaluate g s3) (groupStuck g f s) ∧ ∀ n, n ∈ (evaluate g s3).out → n ∈ (groupStuck g f s).out := by
    rw [eq]
    split
    · exact ⟨u1, u2⟩
    · exact ⟨.rfl' _, fun _ h => h⟩
  have ln := out5.1.lines g
  rw [x4] at ln
  simp only [GroupExec.lines, GroupExec.fresh, Prod.mk.injEq] at ln
  refine ⟨by rw [out5.1.stuck, st4], by rw [out5.1.sel, sl4], ln.1, ln.2.2.1, ln.2.2.2.2, groupTold_mono t4 out5.2,
    fun hn => ?_, fun hn o ho hq => ?_⟩
  · rw [eq, hn]
    refine ⟨x4, by show (runOf (evaluate g s3) g).plan = none; rw [ev2, r3], ?_, ?_, ?_, ?_⟩
    · show _ ∉ (evaluate g s3).exe.tasks
      rw [ev1, e3, hs1]; simp [dropTasks, setTasks]
    · show _ ∉ (evaluate g s3).exe.tasks
      rw [ev1, e3, hs1]; simp [dropTasks, setTasks]
    · show _ ∈ (evaluate g s3).alm.told
      rw [ev3 _ _ (by simp [engineReports]), hs3]
      show _ ∈ s2.alm.told
      rw [hs2, reportChange_other _ _ (by simp)]
      exact reportChange_present _ _ _
    · show _ ∉ (evaluate g s3).alm.told
      rw [ev3 _ _ (by simp [engineReports]), hs3]
      show _ ∉ s2.alm.told
      rw [hs2]
      exact reportChange_absent _ _ _
  · have hb : (execOf s g).subst.isSome = true := by cases h : (execOf s g).subst <;> simp_all
    rw [eq, if_pos hb]
    exact u3 s o o4.1 o4.2 w4 c4 ho hq

/-! ### What is told of the groups -/

/-- What is told of the groups is as it was. -/
def GroupsTold (s x : Shelf) : Prop := ∀ g c, (Obj.group g, c) ∈ x.alm.told ↔ (Obj.group g, c) ∈ s.alm.told

theorem GroupsTold.rfl' (s : Shelf) : GroupsTold s s := fun _ _ => Iff.rfl
theorem GroupsTold.trans' {s t u : Shelf} (h : GroupsTold s t) (k : GroupsTold t u) : GroupsTold s u :=
  fun g c => (k g c).trans (h g c)
theorem GroupsTold.same {s x : Shelf} (h : x.alm.told = s.alm.told) : GroupsTold s x := fun g c => by rw [h]
theorem GroupsTold.foldl {α : Type} {f : Shelf → α → Shelf} (hf : ∀ s a, GroupsTold s (f s a)) (l : List α) (s : Shelf) :
    GroupsTold s (l.foldl f s) := by
  induction l generalizing s with
  | nil => exact .rfl' s
  | cons a l ih => exact (hf s a).trans' (ih _)
theorem reportChange_groups {o : Obj} {c : Cond} {b : Bool} {s : Shelf} (h : ∀ g, o ≠ .group g) :
    GroupsTold s (reportChange o c b s) := fun g _ => reportChange_other b s (fun e => h g (Prod.mk.inj e).1)

theorem refreshPort_groups (p : PortNo) (s : Shelf) : GroupsTold s (refreshPort p s) := by
  have h1 : ∀ c b z, GroupsTold z (setTold (.port p) c b z) := by
    intro c b z g _
    unfold setTold
    cases b <;> simp [joinTail, leave]
    split <;> simp
  unfold refreshPort
  dsimp only
  refine .trans' (t := setPortTold p s) ?_ (.foldl (fun s c => .same (follow_told _ _ _)) _ _)
  unfold setPortTold
  dsimp only
  exact (h1 _ _ _).trans' ((h1 _ _ _).trans' (h1 _ _ _))

theorem noticeOf_groups (e : OrderEvent) (n : Nat) (s : Shelf) : GroupsTold s (noticeOf e n s) := by
  unfold noticeOf
  split <;> exact .same rfl
theorem reportPatch_groups (n : Nat) (s : Shelf) : GroupsTold s (reportPatch n s) := by
  unfold reportPatch
  split
  · exact reportChange_groups (by simp)
  · exact .rfl' s
theorem reportMisPatch_groups (n : Nat) (s : Shelf) : GroupsTold s (reportMisPatch n s) := by
  unfold reportMisPatch
  split
  · exact reportChange_groups (by simp)
  · exact .rfl' s
theorem refreshOrder_groups (n : Nat) (s : Shelf) : GroupsTold s (refreshOrder n s) := by
  unfold refreshOrder
  split
  · exact (refreshPort_groups _ _).trans' (refreshPort_groups _ _)
  · exact .rfl' s
theorem setOrder_groups (n : Nat) (f : Order → Order) (s : Shelf) : GroupsTold s (setOrder n f s) := .same rfl
theorem enterStage_groups (n : Nat) (st : Stage) (s : Shelf) : GroupsTold s (enterStage n st s) := by
  unfold enterStage
  refine .trans' ?_ (reportMisPatch_groups _ _)
  refine .trans' ?_ (reportPatch_groups _ _)
  refine .trans' ?_ (refreshOrder_groups _ _)
  refine .trans' ?_ (noticeOf_groups _ _ _)
  exact setOrder_groups _ _ _
theorem timingRun_groups (s : Shelf) : GroupsTold s (timingRun s) := by
  have h1 := (evaluated_frame s).2
  have h2 : ∀ y, GroupsTold y (followed y) := by
    intro y
    unfold followed
    refine .trans' (.same (by rw [(keepLastGrade_frame y).2.2])) (.trans' (t := reportTiming (keepLastGrade y)) ?_ (.same ?_))
    · unfold reportTiming
      dsimp only
      exact (GroupsTold.foldl (fun s r => reportChange_groups (by simp)) _ _).trans'
        ((reportChange_groups (by simp)).trans' (reportChange_groups (by simp)))
    · rw [(replan_frame _).2.2]
  have h3 := h2 (evaluated (rederiveAll s))
  have e := timingEvent_eq id s
  simp only [id_eq] at e
  unfold timingRun
  generalize evaluated (rederiveAll s) = y at h1 h3 e
  generalize followed y = w at h3 e
  generalize timingEvent id s = x at e ⊢
  have h4 : GroupsTold s w := .trans' (t := y) (.same (by rw [h1])) h3
  rcases e with e | e
  · rw [e]; exact h4
  · rw [e]; exact h4
theorem judgeDest_groups (n : Nat) (s : Shelf) : GroupsTold s (judgeDest n s) := by
  unfold judgeDest
  split
  · split
    · exact enterStage_groups _ _ _
    · exact reportMisPatch_groups _ _
  · exact .rfl' s
theorem enterAwaitLight_groups (n : Nat) (s : Shelf) : GroupsTold s (enterAwaitLight n s) := by
  unfold enterAwaitLight
  exact (setOrder_groups _ _ _).trans' ((enterStage_groups _ _ _).trans' (judgeDest_groups _ _))
theorem judgeSource_groups (n : Nat) (s : Shelf) : GroupsTold s (judgeSource n s) := by
  unfold judgeSource
  split
  · split
    · exact enterAwaitLight_groups _ _
    · exact .rfl' s
  · exact .rfl' s
theorem enterAwaitDark_groups (n : Nat) (s : Shelf) : GroupsTold s (enterAwaitDark n s) :=
  (enterStage_groups _ _ _).trans' ((timingRun_groups _).trans' (judgeSource_groups _ _))
theorem holdReport_groups (n : Nat) (b : Bool) (s : Shelf) : GroupsTold s (holdReport n b s) := by
  unfold holdReport
  split
  · exact .rfl' s
  · dsimp only
    have h := setOrder_groups n (fun o => { o with granted := b }) s
    split
    · split
      · exact h.trans' (enterAwaitDark_groups _ _)
      · exact .rfl' s
    · exact h.trans' ((reportPatch_groups _ _).trans' (noticeOf_groups _ _ _))
    · exact h.trans' ((reportPatch_groups _ _).trans' (noticeOf_groups _ _ _))
    · exact h.trans' ((reportPatch_groups _ _).trans' (noticeOf_groups _ _ _))
    · exact h
    · exact .rfl' s
/-- The hold reports say nothing of a group's conditions. -/
theorem judgeHold_groups (g : GroupNo) (s : Shelf) : GroupsTold s (judgeHold g s) := by
  have h : ∀ b, GroupsTold s (setGranted g b s) := fun b => .same rfl
  unfold judgeHold
  split
  · exact .rfl' s
  · dsimp only
    split
    · exact .rfl' s
    · split
      · exact (h _).trans' (holdReport_groups _ _ _)
      · split
        · exact (h _).trans' (holdReport_groups _ _ _)
        · exact .rfl' s

theorem scheduleGroup_alm (g : GroupNo) (s : Shelf) : (scheduleGroup g s).alm = s.alm := by
  unfold scheduleGroup
  dsimp only
  split
  · rfl
  · split
    · rfl
    · split <;> rfl

/-- An evaluation tells nothing but its own three conditions and FAR-END-SILENT. -/
theorem evaluate_told {g : GroupNo} {c : Cond} (o : Obj) (s : Shelf) (h : ¬ engineReports c) (hf : c ≠ .farEndSilent) :
    (o, c) ∈ (evaluate g s).alm.told ↔ (o, c) ∈ s.alm.told := by
  have ask : ∀ d a z, (o, c) ∈ (askPlan g d a z).alm.told ↔ (o, c) ∈ z.alm.told := by
    intro d a z
    unfold askPlan
    dsimp only
    rw [scheduleGroup_alm]
    unfold endConfirm
    show (o, c) ∈ (reportChange _ _ _ _).alm.told ↔ _
    rw [reportChange_other _ _ (fun e => hf (Prod.mk.inj e).2.symm)]
    rfl
  unfold evaluate
  split
  · rfl
  · rename_i d _
    have e : ∀ z, (o, c) ∈ (actOn g d z).alm.told ↔ (o, c) ∈ z.alm.told := by
      intro z
      unfold actOn
      dsimp only
      split
      · rfl
      · split <;> split
        · exact ask _ _ _
        · rfl
        · exact ask _ _ _
        · rfl
    rw [e, reportGroup_other _ h]
    rfl


/-! ### The ends of plans and preparations -/

theorem exec_lines {x y : GroupExec} (h : x.lines = y.lines) : x.bridged = y.bridged ∧ x.carried = y.carried ∧ x.owed = y.owed ∧ x.prepareDue = y.prepareDue ∧ x.subst = y.subst := by
  simpa [GroupExec.lines] using h

theorem setSelected_spec (g : GroupNo) (c : Nat) (s : Shelf) : (runOf (setSelected g c s) g).sel = c ∧ (runOf (setSelected g c s) g).stuck = (runOf s g).stuck ∧ (setSelected g c s).exe = s.exe ∧ (setSelected g c s).out = s.out := by
  unfold setSelected
  split
  · rename_i h; exact ⟨h, rfl, rfl, rfl⟩
  · exact ⟨by rw [runOf_setRun_same], by rw [runOf_setRun_same], rfl, rfl⟩

theorem timingFollows_standing (g : GroupNo) (b s : Shelf) : Standing s (timingFollows g b s) := by
  unfold timingFollows
  split
  · exact .rfl' _
  · exact (timingRun_moved _).standing

theorem planCompleted_spec (g : GroupNo) (c : Nat) (s : Shelf) :
    (runOf (planCompleted g c s) g).sel = c ∧ (runOf (planCompleted g c s) g).stuck = (runOf s g).stuck
    ∧ (execOf (planCompleted g c s) g).lines = { execOf s g with carried := c }.lines
    ∧ ((runOf s g).sel ≠ c → GroupTold .switched g none (planCompleted g c s)) := by
  unfold planCompleted
  dsimp only
  obtain ⟨s1, hs1⟩ : ∃ s1, s1 = setExec g (fun x => { x with carried := c, plan := none, step := .queued, job := none, saved := [] })
    (setRun g (fun r => { r with plan := none }) s) := ⟨_, rfl⟩
  rw [← hs1]
  obtain ⟨k1, k2, k3, k4⟩ := setSelected_spec g c s1
  obtain ⟨s3, hs3⟩ : ∃ s3, s3 = if (runOf s g).sel = c then setSelected g c s1 else groupNotice .switched g none (setSelected g c s1) := ⟨_, rfl⟩
  rw [← hs3]
  have b3 : runOf s3 g = runOf (setSelected g c s1) g ∧ s3.exe = s1.exe := by
    rw [hs3]; split
    · exact ⟨rfl, k3⟩
    · exact ⟨rfl, k3⟩
  have x1 : execOf s1 g = { execOf s g with carried := c, plan := none, step := .queued, job := none, saved := [] } := by
    rw [hs1, execOf_setExec_same]; rfl
  have st := (timingFollows_standing g s s3).trans' ((judgeHold_standing g _).trans' ((evaluate_standing g _).trans' (scheduleGroup_standing g _)))
  refine ⟨by rw [st.sel, b3.1, k1], ?_, ?_, fun hne => ?_⟩
  · rw [st.stuck, b3.1, k2, hs1]
    show (runOf (setRun g _ s) g).stuck = _
    rw [runOf_setRun_same]
  · rw [st.lines]
    unfold execOf
    rw [b3.2]
    show (execOf s1 g).lines = _
    rw [x1]; rfl
  · have t3 : GroupTold .switched g none s3 := by rw [hs3, if_neg hne]; exact groupNotice_told _ _ _ _
    refine groupTold_mono t3 (fun n hn => ?_)
    have K := made_free n
    refine free_scheduleGroup K (free_evaluate K (free_judgeHold K ?_))
    unfold timingFollows
    split
    · exact hn
    · exact free_timingRun K hn

theorem finish_spec (g : GroupNo) (d : GroupDef) (s : Shelf) (hd : defOf s g = some d) (hj : (execOf s g).job = none) :
    (runOf (finishPreparation g s) g).sel = (runOf s g).sel ∧ (runOf (finishPreparation g s) g).stuck = (runOf s g).stuck
    ∧ (execOf (finishPreparation g s) g).lines = (if (execOf s g).prepareDue = true ∧ (execOf s g).owed = [] ∧ s.rdy.phase = .armed ∧ (runOf s g).stuck = false then
        { execOf s g with prepareDue := false, bridged := some (if d.shared then 0 else 1), carried := 0 } else execOf s g).lines := by
  unfold finishPreparation
  rw [hd]
  dsimp only
  have hc : ((execOf s g).prepareDue && (execOf s g).owed.isEmpty && (execOf s g).job.isNone && isArmed s && !(runOf s g).stuck) = true ↔ ((execOf s g).prepareDue = true ∧ (execOf s g).owed = [] ∧ s.rdy.phase = .armed ∧ (runOf s g).stuck = false) := by
    simp [hj, isArmed, and_assoc]
  by_cases h : ((execOf s g).prepareDue && (execOf s g).owed.isEmpty && (execOf s g).job.isNone && isArmed s && !(runOf s g).stuck) = true
  · rw [if_pos h, if_pos (hc.1 h)]
    have st := evaluate_standing g (setExec g (fun x => { x with prepareDue := false, bridged := some (prepareBridge d), carried := 0 }) s)
    refine ⟨st.sel g, st.stuck g, ?_⟩
    rw [st.lines, execOf_setExec_same]
    rfl
  · rw [if_neg h, if_neg (fun k => h (hc.2 k))]
    exact ⟨rfl, rfl, rfl⟩

theorem settings_trans {s t u : Shelf} (h : SameSettings s t) (k : SameSettings t u) : SameSettings s u := by
  obtain ⟨h1, h2, h3, h4, h5, h6, h7, h8, h9, h10, h11, h12, h13, h14⟩ := h
  obtain ⟨k1, k2, k3, k4, k5, k6, k7, k8, k9, k10, k11, k12, k13, k14⟩ := k
  exact ⟨k1.trans h1, k2.trans h2, k3.trans h3, k4.trans h4, fun r => ⟨(k5 r).1.trans (h5 r).1, (k5 r).2.trans (h5 r).2⟩, k6.trans h6, k7.trans h7, k8.trans h8,
    k9.trans h9, k10.trans h10, k11.trans h11, k12.trans h12, k13.trans h13, k14.trans h14⟩

/-- An order that leaves from a shelf with the same list and records leaves from the earlier one. -/
theorem orderLeaves_from {e : OrderEvent} {o : Order} {y z x : Shelf} (h : OrderLeaves e o z x) (h1 : z.ords = y.ords) (h2 : z.recs = y.recs)
    (hw : SameSettings y z) (hc : SameCards y z) : OrderLeaves e o y x := by
  obtain ⟨⟨opened, a, b, c⟩, t, s, k⟩ := h
  refine ⟨⟨opened, by rw [a, h1], fun q hq => ?_, fun p hp => by rw [c p hp, h1]⟩, t, settings_trans hw s,
    k.1.trans hc.1, k.2.1.trans hc.2.1, k.2.2.1.trans hc.2.2.1, k.2.2.2.trans hc.2.2.2⟩
  obtain ⟨b1, b2⟩ := b q hq
  exact ⟨b1, by unfold condemnOf at b2 ⊢; rw [h2] at b2; exact b2⟩

theorem goneStuck_from {g : GroupNo} {f : Option BusAnswer × Nat × Bool} {y z x : Shelf} (h : GoneStuck g f z x) (hx : execOf z g = execOf y g)
    (hr : runOf z g = runOf y g) (h1 : z.ords = y.ords) (h2 : z.recs = y.recs) (hw : SameSettings y z) (hc : SameCards y z) : GoneStuck g f y x := by
  obtain ⟨a1, a2, a3, a4, a5, a6, a7, a8⟩ := h
  refine ⟨a1, by rw [a2, hr], a3, a4, a5, a6, fun hn => ?_, fun hn o hf ho => ?_⟩
  · rw [← hx] at hn ⊢; exact a7 hn
  · rw [← hx] at hn
    exact orderLeaves_from (a8 hn o (by rw [h1]; exact hf) (by unfold orderOf at ho ⊢; rw [h1]; exact ho)) h1 h2 hw hc

/-! ### The end of an adoption -/

theorem selectionFollows_standing (g : GroupNo) (b s : Shelf) : Standing s (selectionFollows g b s) := by
  unfold selectionFollows
  split
  · exact .rfl' _
  · exact (timingRun_moved _).standing.trans' (judgeHold_standing _ _)
theorem selectionFollows_groups (g : GroupNo) (b s : Shelf) : GroupsTold s (selectionFollows g b s) := by
  unfold selectionFollows
  split
  · exact .rfl' _
  · exact (timingRun_groups _).trans' (judgeHold_groups _ _)
theorem askAdoption_standing (g : GroupNo) (s : Shelf) : Standing s (askAdoption g s) ∧ (askAdoption g s).alm = s.alm ∧ (askAdoption g s).out = s.out := by
  unfold askAdoption joinAdoption
  dsimp only
  split
  · exact ⟨.rfl' _, rfl, rfl⟩
  · split
    · exact ⟨setExec_standing rfl, rfl, rfl⟩
    · have h : Standing s (setExec g (fun x => { x with adoptDue := false }) s) := setExec_standing rfl
      exact ⟨h.trans' (setTasks_standing _ _), rfl, rfl⟩

theorem adopted_spec (g : GroupNo) (c : Nat) (s : Shelf) :
    (runOf (adopted g c s) g).sel = c ∧ (runOf (adopted g c s) g).stuck = false ∧ (execOf (adopted g c s) g).lines = (execOf s g).lines
    ∧ (adopted g c s).rdy = s.rdy
    ∧ GroupTold .adopted g none (adopted g c s) ∧ ((runOf s g).stuck = true → GroupTold .unstuck g none (adopted g c s))
    ∧ ((Obj.group g, Cond.selectorFault) ∈ (adopted g c s).alm.told ↔ (Obj.group g, Cond.selectorFault) ∈ s.alm.told) := by
  obtain ⟨s1, hs1⟩ : ∃ s1, s1 = setSelected g c (setRun g (fun r => { r with
    stuck := false
    list := if c = 0 then r.list
      else placeEntry (plainEntry .remain c) (dropEntries (fun e => decide (e.cls = .remain)) r.list) }) s) := ⟨_, rfl⟩
  obtain ⟨k1, k2, k3, k4⟩ := setSelected_spec g c (setRun g (fun r => { r with
    stuck := false
    list := if c = 0 then r.list
      else placeEntry (plainEntry .remain c) (dropEntries (fun e => decide (e.cls = .remain)) r.list) }) s)
  rw [← hs1] at k1 k2 k3 k4
  have k5 : s1.alm = s.alm ∧ s1.rdy = s.rdy := by
    have h : ∀ z, (setSelected g c z).alm = z.alm ∧ (setSelected g c z).rdy = z.rdy := by
      intro z; unfold setSelected
      split <;> exact ⟨rfl, rfl⟩
    rw [hs1]; exact h _
  rw [runOf_setRun_same] at k2
  obtain ⟨s2, hs2⟩ : ∃ s2, s2 = if (runOf s g).stuck then groupNotice .unstuck g none s1 else s1 := ⟨_, rfl⟩
  have b2 : runOf s2 g = runOf s1 g ∧ s2.exe = s1.exe ∧ s2.alm = s1.alm ∧ s2.rdy = s1.rdy := by
    rw [hs2]; split <;> exact ⟨rfl, rfl, rfl, rfl⟩
  have eq : adopted g c s = scheduleGroup g (evaluate g (selectionFollows g s (groupNotice .adopted g none s2))) := by
    unfold adopted
    dsimp only
    rw [hs2, hs1]
  have st := (selectionFollows_standing g s (groupNotice .adopted g none s2)).trans' ((evaluate_standing g _).trans' (scheduleGroup_standing g _))
  rw [← eq] at st
  have out : ∀ n, n ∈ (groupNotice .adopted g none s2).out → n ∈ (adopted g c s).out := by
    intro n hn
    have K := made_free n
    rw [eq]
    refine free_scheduleGroup K (free_evaluate K ?_)
    unfold selectionFollows
    split
    · exact hn
    · exact free_judgeHold K (free_timingRun K hn)
  refine ⟨?_, ?_, ?_, ?_, groupTold_mono (groupNotice_told _ _ _ _) out, fun hst => ?_, ?_⟩
  · rw [st.sel]; show (runOf s2 g).sel = c; rw [b2.1, k1]
  · rw [st.stuck]; show (runOf s2 g).stuck = false; rw [b2.1, k2]
  · rw [st.lines]; show (execOf s2 g).lines = _; unfold execOf; rw [b2.2.1, k3]; rfl
  · rw [st.rdy]; show s2.rdy = _; rw [b2.2.2.2, k5.2]
  · have : GroupTold .unstuck g none s2 := by rw [hs2, if_pos hst]; exact groupNotice_told _ _ _ _
    refine groupTold_mono this (fun n hn => out n ?_)
    simp [groupNotice, tell, hn]
  · rw [eq, scheduleGroup_alm, evaluate_told _ _ (by simp [engineReports]) (by decide), selectionFollows_groups g s _ g .selectorFault]
    show _ ∈ s2.alm.told ↔ _
    rw [b2.2.2.1, k5.1]

theorem adoptedWord_eq (d : GroupDef) (got : List (PortNo × Option Word)) (p : PortNo) : adoptedWord d got p = ((got.find? (fun x => decide (x.1 = p))).bind Prod.snd).filter
        (fun w => decide (field w 0 2 = if p = d.protect then (if d.shared then 3 else 2) else 1)) := by
  unfold adoptedWord memberRole roleOf roleShared rolePair roleWorking
  cases got.find? (fun x => decide (x.1 = p)) with
  | none => rfl
  | some y =>
    obtain ⟨a, w⟩ := y
    cases w with
    | none => rfl
    | some w => simp [Option.filter]

theorem groupStuck_rdy (g : GroupNo) (f : Option BusAnswer × Nat × Bool) (s : Shelf) : (groupStuck g f s).rdy = s.rdy := by
  unfold groupStuck engineStuck
  dsimp only
  have h : (evaluate g (groupNotice .stuck g (some f) (setRun g (fun r => { r with stuck := true, plan := none })
      (reportChange (.group g) .farEndSilent false (reportChange (.group g) .selectorFault true
        (dropTasks g (setExec g (fun x => { GroupExec.fresh with prepareDue := x.prepareDue }) s))))))).rdy = s.rdy :=
    stay_evaluate (rdyIs s.rdy) (stay_groupNotice (rdyIs s.rdy) (stay_setRun (rdyIs s.rdy) (stay_reportChange (rdyIs s.rdy) (stay_reportChange (rdyIs s.rdy)
      (stay_dropTasks (rdyIs s.rdy) (stay_setExec (rdyIs s.rdy) rfl))))))
  split
  · exact (substitutionEnded_spec _ _ _).1.rdy.trans h
  · exact h

end Sys2Proof.Machine
end

