-- ==== Sys2Proof/Laws/Grants.lean ====
section
/-! SUPPORT. The blocks that ask for the bus leave the transaction in progress and the scanner's wait count alone: only the
arbiter's grant and the answers of the cards change them (R14, R15). -/

namespace Sys2Proof.Machine

section

theorem stay_substitutionEnded {P : Shelf → Prop} (K : StaysOf P) {g : GroupNo} {e : OrderEvent} {s : Shelf} (h : P s) :
    P (substitutionEnded g e s) := by
  unfold substitutionEnded
  split
  · exact stay_leaveOrder K h
  · exact h

theorem stay_groupStuck {P : Shelf → Prop} (K : StaysOf P) {g : GroupNo} {fault : Option BusAnswer × Nat × Bool} {s : Shelf}
    (h : P s) : P (groupStuck g fault s) := by
  unfold groupStuck
  dsimp only
  have h1 := stay_engineStuck K (g := g) (fault := fault) (stay_reportChange K (o := .group g) (c := .farEndSilent) (b := false)
    (stay_reportChange K (o := .group g) (c := .selectorFault) (b := true)
      (stay_dropTasks K (g := g) (stay_setExec K (g := g) (f := fun x => { GroupExec.fresh with prepareDue := x.prepareDue }) h))))
  split
  · exact stay_substitutionEnded K h1
  · exact h1

theorem stay_exchangeDone {P : Shelf → Prop} (K : StaysOf P) {g : GroupNo} {j : XJob} {s : Shelf} (h : P s) :
    P (exchangeDone g j s) := by
  have subst : P (scheduleGroup g (substitutionEnded g .completed
      (setExec g (fun x => { x with subst := none }) (endJob g s)))) :=
    stay_scheduleGroup K (stay_substitutionEnded K (stay_setExec K (stay_setExec K h)))
  unfold exchangeDone
  dsimp only
  split
  · exact stay_judgeConfirm K (stay_setExec K h)
  · exact stay_planCompleted K h
  · refine stay_planCompleted K ?_
    split
    · exact stay_setExec K h
    · exact h
  · exact stay_scheduleGroup K (stay_finishPreparation K (stay_setExec K (stay_setExec K h)))
  · exact subst
  · exact subst

/-- The transaction on the bus and the scanner's wait count. -/
def BusIs (u : Option BusUse) (n : Nat) (s : Shelf) : Prop := s.bp.bus = u ∧ s.bp.waitCount = n

variable {u : Option BusUse} {n : Nat}

theorem busIs (u : Option BusUse) (n : Nat) : StaysOf (BusIs u n) where
  base := fun _ _ h1 _ _ _ h => by unfold BusIs; rw [h1]; exact h

theorem enterArmed_bus {s : Shelf} (h : BusIs u n s) : BusIs u n (enterArmed s) := stay_enterArmed (busIs u n) h

theorem armingEnded_bus {g : GroupNo} {s : Shelf} (h : BusIs u n s) : BusIs u n (armingEnded g s) := by
  unfold armingEnded
  dsimp only
  repeat' split
  · exact enterArmed_bus h
  · exact h
  · exact h

theorem adoptionEnd_bus {g : GroupNo} {got : List (PortNo × Option Word)} {s : Shelf} (h : BusIs u n s) :
    BusIs u n (adoptionEnd g got s) := by
  have K := busIs u n
  unfold adoptionEnd
  dsimp only
  repeat' split
  · exact armingEnded_bus h
  · exact armingEnded_bus (stay_groupStuck K h)
  · exact armingEnded_bus (stay_adoptAgain K (stay_adopted K (stay_reportChange K (stay_setExec K h))))

theorem adoptNext_bus {g : GroupNo} {l : List PortNo} {got : List (PortNo × Option Word)} {s : Shelf} (h : BusIs u n s) :
    BusIs u n (adoptNext g l got s) := by
  induction l generalizing s got with
  | nil => exact adoptionEnd_bus h
  | cons p l ih =>
    unfold adoptNext
    split
    · exact h
    · exact ih h

theorem takeExchange_bus {g : GroupNo} {s : Shelf} (h : BusIs u n s) : BusIs u n (takeExchange g s) := by
  have K := busIs u n
  unfold takeExchange
  dsimp only
  split
  · split
    · exact h
    · split
      · exact stay_exchangeDone K h
      · show BusIs u n (setActive _ _)
        refine stay_setActive K ?_
        unfold clearSource
        split
        · split
          · exact stay_joinClear K (stay_setExec K h)
          · exact stay_setExec K h
        · exact stay_setExec K h
  · exact h
  · exact h

theorem takeTask_bus {t : Task} {s : Shelf} (h : BusIs u n s) : BusIs u n (takeTask t s) := by
  unfold takeTask
  dsimp only
  repeat' split
  · exact takeExchange_bus h
  · exact adoptNext_bus h
  · exact armingEnded_bus h
  · exact h
  · exact h

theorem serveExecutor_bus {k : Nat} {s : Shelf} (h : BusIs u n s) : BusIs u n (serveExecutor k s) := by
  induction k generalizing s with
  | zero => exact h
  | succ k ih =>
    unfold serveExecutor
    repeat' split
    · exact h
    · exact h
    · exact ih (takeTask_bus h)

theorem windowChanged_bus {s : Shelf} (h : BusIs u n s) : BusIs u n (windowChanged s) :=
  stay_observeBases (busIs u n) (fun _ _ _ h => h) h

theorem takePending_bus {s : Shelf} (h : BusIs u n s) : BusIs u n (takePending s) := by
  unfold takePending modeChanged
  repeat' split
  all_goals exact h

theorem cycleStart_bus {s : Shelf} (h : BusIs u n s) : BusIs u n (cycleStart s) := windowChanged_bus (takePending_bus h)

theorem scanStep_bus {s : Shelf} (h : BusIs u n s) : BusIs u n (scanStep s) := by
  have taken : BusIs u n ((takeAttention s).getD s) := by
    unfold takeAttention
    split <;> exact h
  unfold scanStep
  dsimp only
  repeat' split
  · exact h
  · exact h
  · exact h
  · exact taken
  · unfold cycleEnd reportOverrun
    split
    · exact cycleStart_bus h
    · exact stay_reportChange (busIs u n) h
  · unfold visit
    dsimp only
    split <;> exact h
  · exact taken

theorem serveScanner_bus {k : Nat} {s : Shelf} (h : BusIs u n s) : BusIs u n (serveScanner k s) := by
  induction k generalizing s with
  | zero => exact h
  | succ k ih =>
    unfold serveScanner
    split
    · exact h
    · exact ih (scanStep_bus h)

theorem askProbe_bus {s : Shelf} (h : BusIs u n s) : BusIs u n (askProbe s) := by
  unfold askProbe
  repeat' split
  all_goals exact h

theorem serveGrades_bus {l : List PortNo} {s : Shelf} (h : BusIs u n s) : BusIs u n (serveGrades l s) := by
  induction l generalizing s with
  | nil => exact h
  | cons p l ih =>
    unfold serveGrades
    split
    · exact h
    · exact ih h

theorem serveTiming_bus {s : Shelf} (h : BusIs u n s) : BusIs u n (serveTiming s) := by
  unfold serveTiming
  split
  · exact h
  · exact serveGrades_bus h

theorem serveRecords_bus {s : Shelf} (h : BusIs u n s) : BusIs u n (serveRecords s) := by
  unfold serveRecords
  split <;> exact h

end

end Sys2Proof.Machine
end

