-- ==== Sys2Proof/Laws/Links.lean ====
section
/-! SUPPORT. What a request frame does: the check that turns it away, the answer of its owning block, the change of a
stored item; and what the link units keep. -/

namespace Sys2Proof.Machine

/-! ### The command of a request -/

/-- The command that is a request frame of a kind takes the request with its owning block's rule. -/
theorem exec_instr (k : ReqKind) (l : Link) (tag : Byte) (body : List Byte) (s : State) :
    exec (k.instr l tag body) s = .next (takeRequest l k tag body (handlerOf k l body) s) := by cases k <;> rfl

theorem exec_unknownKind (l : Link) (kind tag : Byte) (body : List Byte) (s : State) :
    exec (.unknownKind l kind tag body) s = .next (takeUnknown l kind tag s) := rfl

/-! ### The state that holds the request -/

@[simp] theorem holding_shelf (l : Link) (k : ReqKind) (tag : Byte) (s : State) :
    (holding l k tag s).shelf = s.shelf := setLink_shelf _ _ _
@[simp] theorem holding_lock (l : Link) (k : ReqKind) (tag : Byte) (s : State) :
    (holding l k tag s).lock = s.lock := setLink_lock _ _ _

/-- The reply of a request whose owning block has changed the shelf and the work lock alone. -/
theorem reply_holding {l : Link} {k : ReqKind} {tag : Byte} {a : Answer} {x : Shelf} {y : WorkLock} {s : State}
    (hr : a.restart = false) :
    reply l k.row.code tag a { holding l k tag s with shelf := x, lock := y }
      = taken l k tag a.status x { s with lock := y } := by
  cases l <;> simp only [reply, taken, holding, answered, setLink, hr]

/-! ### Lists that a frame cuts short (log entry 47) -/

/-- The items that go whole into a room are the first ones, and the next one does not go into it. -/
theorem fitting_spec (room : Nat) (l : List (List Byte)) :
    ∃ n ≤ l.length, fitting room l = l.take n ∧ (l.take n).flatten.length ≤ room
      ∧ (n < l.length → room < (l.take (n + 1)).flatten.length) := by
  induction l generalizing room with
  | nil => exact ⟨0, by simp [fitting]⟩
  | cons x rest ih =>
    by_cases hx : x.length ≤ room
    · obtain ⟨n, hn, hf, hle, hnext⟩ := ih (room - x.length)
      refine ⟨n + 1, by simpa using hn, by simp [fitting, hx, hf], ?_, fun h => ?_⟩
      · simp only [List.take_succ_cons, List.flatten_cons, List.length_append]; omega
      · have := hnext (by simpa using h)
        rw [List.take_succ_cons, List.flatten_cons, List.length_append]; omega
    · exact ⟨0, by simp, by simp [fitting, hx], by simp, fun _ => by simpa using hx⟩

/-- A list that goes whole into a room loses nothing. -/
theorem fitting_all {room : Nat} {l : List (List Byte)} (h : l.flatten.length ≤ room) : fitting room l = l := by
  obtain ⟨n, hn, hf, -, hnext⟩ := fitting_spec room l
  rw [hf, List.take_eq_self_iff]
  by_contra hlt
  have hcut := hnext (by omega)
  have hsum := congrArg List.length (congrArg List.flatten (List.take_append_drop (n + 1) l))
  rw [List.flatten_append, List.length_append] at hsum
  omega

/-- R157: a Read Alarms reply goes whole into its frame beside the outcome. -/
theorem readAlarmsData_fits (start : Nat) (s : Shelf) : (readAlarmsData start s).length < Config.bodyMax := by
  obtain ⟨n, -, hf, hle, -⟩ := fitting_spec alarmsRoom (((s.alm.table.drop start).take 16).map (entryBytes s))
  rw [readAlarmsData, hf]
  rw [List.flatten_eq_flatMap] at hle
  simp only [alarmsRoom, Config.bodyMax] at hle ⊢
  simp only [alarmsHead, listBytes, List.length_append, List.length_cons, List.length_nil]
  omega

/-! ### Requests that are taken -/

theorem checkRequest_accepts {l : Link} {k : ReqKind} {body : List Byte} {s : State} (h : Accepts l k body s) :
    checkRequest l k body s = none := by
  obtain ⟨-, h2, h3, h4, h5⟩ := h
  unfold checkRequest
  rw [if_neg (by simp [h2])]
  rw [if_neg (by rintro ⟨a, b, c⟩; rcases h3 a with e | e <;> simp_all)]
  cases hk : k.row.type with
  | watch => rfl
  | act => simp [h4 (by rw [hk]; decide)]
  | gated =>
    have g := h5 hk
    simp only [h4 (by rw [hk]; decide), if_true, gate]
    cases hm : s.lock.mode <;> simp_all

/-- A request that passes every check is answered by its owning block. -/
theorem takeRequest_accepts {l : Link} {k : ReqKind} {tag : Byte} {body : List Byte} {s : State}
    (h : Accepts l k body s) (f : State → State × Answer) :
    takeRequest l k tag body f s
      = reply l k.row.code tag (f (holding l k tag s)).2 (f (holding l k tag s)).1 := by
  have hc := checkRequest_accepts h
  obtain ⟨⟨h1, h2⟩, -⟩ := h
  simp [takeRequest, h1, h2, hc, holding]

/-- A request that passes every check and whose owning block changes the shelf and the work lock alone. -/
theorem exec_accepts {l : Link} {k : ReqKind} {tag : Byte} {body : List Byte} {s : State} {a : Answer} {x : Shelf}
    {y : WorkLock} (h : Accepts l k body s) (hr : a.restart = false)
    (hh : handlerOf k l body (holding l k tag s) = ({ holding l k tag s with shelf := x, lock := y }, a)) :
    exec (k.instr l tag body) s = .next (taken l k tag a.status x { s with lock := y }) := by
  rw [exec_instr, takeRequest_accepts h, hh, reply_holding hr]

/-- A request that passes every check and changes nothing. -/
theorem exec_accepts_same {l : Link} {k : ReqKind} {tag : Byte} {body : List Byte} {s : State} {a : Answer}
    (h : Accepts l k body s) (hr : a.restart = false)
    (hh : handlerOf k l body (holding l k tag s) = (holding l k tag s, a)) :
    exec (k.instr l tag body) s = .next (taken l k tag a.status s.shelf s) := by
  refine exec_accepts (y := s.lock) h hr (hh.trans ?_)
  cases l <;> rfl

/-- A request that passes every check and changes the shelf alone. -/
theorem exec_accepts_shelf {l : Link} {k : ReqKind} {tag : Byte} {body : List Byte} {s : State} {a : Answer} {x : Shelf}
    (h : Accepts l k body s) (hr : a.restart = false)
    (hh : handlerOf k l body (holding l k tag s) = ({ holding l k tag s with shelf := x }, a)) :
    exec (k.instr l tag body) s = .next (taken l k tag a.status x s) := by
  refine exec_accepts (y := s.lock) h hr (hh.trans ?_)
  cases l <;> rfl

/-- A request that passes every check and changes the work lock alone. -/
theorem exec_accepts_lock {l : Link} {k : ReqKind} {tag : Byte} {body : List Byte} {s : State} {a : Answer}
    {y : WorkLock} (h : Accepts l k body s) (hr : a.restart = false)
    (hh : handlerOf k l body (holding l k tag s) = ({ holding l k tag s with lock := y }, a)) :
    exec (k.instr l tag body) s = .next (taken l k tag a.status s.shelf { s with lock := y }) := by
  refine exec_accepts (x := s.shelf) h hr (hh.trans ?_)
  cases l <;> rfl

/-! ### Requests that are turned away -/

theorem takeRequest_refused {l : Link} {k : ReqKind} {tag : Byte} {body : List Byte} {s : State} {o : Outcome}
    (h : Free l s) (hc : checkRequest l k body s = some o) (f : State → State × Answer) :
    takeRequest l k tag body f s = taken l k tag (formed o []) s.shelf s := by
  obtain ⟨h1, h2⟩ := h
  simp only [takeRequest, h1, h2, hc]
  cases l <;> rfl

theorem takeRequest_held {l : Link} {k : ReqKind} {tag : Byte} {body : List Byte} {s : State}
    (h1 : (linkOf s l).atSpace = false) (h2 : (linkOf s l).held ≠ none) (f : State → State × Answer) :
    takeRequest l k tag body f s
      = setLink l (fun u => { u with rx := .hunting, overrun := bump 65535 u.overrun }) s := by
  have : (linkOf s l).held.isSome = true := by cases hh : (linkOf s l).held <;> simp_all
  simp [takeRequest, h1, this]

/-! ### Changes of stored items -/

theorem storeRefuses_stopped {t : Store} (h : t.writer = .stopped) : storeRefuses t = some .storeFault := by
  simp [storeRefuses, h]
theorem storeRefuses_full {t : Store} (h : t.writer ≠ .stopped) (hl : 32 ≤ t.list.length) :
    storeRefuses t = some .full := by simp [storeRefuses, h, Config.editListMax, hl]
theorem storeRefuses_takes {t : Store} (h : StoreTakes t) : storeRefuses t = none := by
  obtain ⟨h1, h2⟩ := h
  simp [storeRefuses, h1]
  omega

/-- R171, R172: an appended edit. -/
theorem appendEdit_takes {t : Store} (v : ItemValue) (h : t.list.length < Config.editListMax) :
    appendEdit v t = withEdit v t := by
  simp only [appendEdit, h, if_true, beginWrite, withEdit, nextEdit]
  cases hw : t.writer <;> simp

/-- What a request that changes one stored item comes to, with the edits its block holds. -/
theorem heldChange_stored {l : Link} {k : ReqKind} {tag : Byte} {body : List Byte} {s : State} {e : EditHolder}
    {v : ItemValue} {f : State → State} {x : Shelf} {y : WorkLock} (h : Accepts l k body s)
    (hh : handlerOf k l body (holding l k tag s) = heldChange e v [] f (holding l k tag s))
    (hf : StoreTakes s.shelf.sto → f { holding l k tag s with shelf := editing v s.shelf }
      = { holding l k tag s with shelf := x, lock := y }) :
    StoredChange (k.instr l tag body) l k tag (heldBy e s.shelf) { s with shelf := x, lock := y } s := by
  have hold : (heldBy e s.shelf).isEmpty = true ↔ heldBy e s.shelf = [] := List.isEmpty_iff
  refine ⟨fun hw => ?_, fun hw hl => ?_, fun ht hn => ?_⟩
  · refine exec_accepts_same (a := refuse .storeFault) h rfl (hh.trans ?_)
    simp [heldChange, hw, storeChange, storeRefuses_stopped]
  · refine exec_accepts_same (a := refuse .full) h rfl (hh.trans ?_)
    by_cases hb : heldBy e s.shelf = []
    · have hl' : 32 ≤ s.shelf.sto.list.length := by rcases hl with hl | hl; exacts [hl, absurd hb hl]
      simp [heldChange, hw, hb, storeChange, storeRefuses_full hw hl']
    · simp [heldChange, hw, hb]
  · have key : handlerOf k l body (holding l k tag s)
        = ({ holding l k tag s with shelf := x, lock := y }, ⟨.done, [], replyAwaits s.shelf.sto, false⟩) := by
      rw [hh, ← hf ht]
      simp only [heldChange, hn, holding_shelf, List.isEmpty_nil, Bool.not_true, storeChange, storeRefuses_takes ht,
        appendEdit_takes v ht.2]
      simp [editing]
    have := exec_accepts h rfl key
    simp only [Answer.status, replyAwaits] at this
    simp only [storedReply]
    cases hw : s.shelf.sto.writeThrough
    · simp only [hw] at this
      exact this
    · simp only [hw] at this
      exact this

/-- What a request that changes one stored item comes to. -/
theorem storeChange_stored {l : Link} {k : ReqKind} {tag : Byte} {body : List Byte} {s : State}
    {v : ItemValue} {f : State → State} {x : Shelf} {y : WorkLock} (h : Accepts l k body s)
    (hh : handlerOf k l body (holding l k tag s) = storeChange v [] f (holding l k tag s))
    (hf : StoreTakes s.shelf.sto → f { holding l k tag s with shelf := editing v s.shelf }
      = { holding l k tag s with shelf := x, lock := y }) :
    StoredChange (k.instr l tag body) l k tag [] { s with shelf := x, lock := y } s := by
  refine ⟨fun hw => ?_, fun hw hl => ?_, fun ht _ => ?_⟩
  · refine exec_accepts_same (a := refuse .storeFault) h rfl (hh.trans ?_)
    simp [hw, storeChange, storeRefuses_stopped]
  · refine exec_accepts_same (a := refuse .full) h rfl (hh.trans ?_)
    have hl' : 32 ≤ s.shelf.sto.list.length := by rcases hl with hl | hl; exacts [hl, absurd rfl hl]
    simp [storeChange, storeRefuses_full hw hl']
  · have key : handlerOf k l body (holding l k tag s)
        = ({ holding l k tag s with shelf := x, lock := y }, ⟨.done, [], replyAwaits s.shelf.sto, false⟩) := by
      rw [hh, ← hf ht]
      simp only [holding_shelf, storeChange, storeRefuses_takes ht, appendEdit_takes v ht.2]
      simp [editing]
    have := exec_accepts h rfl key
    simp only [Answer.status, replyAwaits] at this
    simp only [storedReply]
    cases hw : s.shelf.sto.writeThrough
    · simp only [hw] at this
      exact this
    · simp only [hw] at this
      exact this

/-! ### Link units in their ranges -/

theorem bump_le {most n : Nat} (h : n ≤ most) : bump most n ≤ most := by
  unfold bump
  split <;> omega

/-- Starting a frame leaves the queue no longer and the counts as they were. -/
theorem startTx_unit (u : LinkUnit) : (startTx u).queue.length ≤ u.queue.length ∧ (startTx u).lost = u.lost
    ∧ (startTx u).discarded = u.discarded ∧ (startTx u).overrun = u.overrun ∧ (startTx u).resets = u.resets := by
  unfold startTx
  split
  · simp
  · split
    · simp
    · simp
    all_goals
      split
      · simp
      · rename_i hq
        simp [hq]

theorem startTx_ok {u : LinkUnit} (h : UnitOk u) : UnitOk (startTx u) := by
  obtain ⟨a, b, c, d, e⟩ := startTx_unit u
  obtain ⟨h1, h2, h3, h4, h5⟩ := h
  exact ⟨a.trans h1, b ▸ h2, c ▸ h3, d ▸ h4, e ▸ h5⟩

theorem offer_ok (n : Notice) {u : LinkUnit} (h : UnitOk u) : UnitOk (offer n u) := by
  obtain ⟨h1, h2, h3, h4, h5⟩ := h
  unfold offer
  split
  · rename_i hq
    refine startTx_ok ⟨?_, by simp, h3, h4, h5⟩
    simp only [Config.queueMax] at hq
    simp
    omega
  · exact ⟨h1, bump_le h2, h3, h4, h5⟩

theorem offers_ok (l : List Notice) {u : LinkUnit} (h : UnitOk u) : UnitOk (l.foldl (fun u n => offer n u) u) := by
  induction l generalizing u with
  | nil => exact h
  | cons n l ih => exact ih (offer_ok n h)

theorem deliverOut_ok {s : State} (h : LinksOk s) : LinksOk (deliverOut s) := ⟨offers_ok _ h.1, offers_ok _ h.2⟩

theorem setLink_ok {l : Link} {f : LinkUnit → LinkUnit} {s : State} (hf : ∀ u, UnitOk u → UnitOk (f u))
    (h : LinksOk s) : LinksOk (setLink l f s) := by
  cases l
  · exact ⟨hf _ h.1, h.2⟩
  · exact ⟨h.1, hf _ h.2⟩

theorem releaseReply_ok {p : Nat → Bool} {o : Option Outcome} {u : LinkUnit} (h : UnitOk u) :
    UnitOk (releaseReply p o u) := by
  unfold releaseReply
  split
  · split
    · exact startTx_ok h
    · exact h
  all_goals exact h

theorem releaseReplies_ok {p : Nat → Bool} {o : Option Outcome} {s : State} (h : LinksOk s) :
    LinksOk (releaseReplies p o s) := ⟨releaseReply_ok h.1, releaseReply_ok h.2⟩

theorem withShelf_ok {x : Shelf} {s : State} (h : LinksOk s) : LinksOk { s with shelf := x } := h

/-! ### What the owning blocks leave -/

/-- The link units and the queue are as they were. -/
def SameLinks (s t : State) : Prop := t.linkA = s.linkA ∧ t.linkB = s.linkB ∧ t.pending = s.pending

theorem busShelf_links (f : Shelf → Shelf) (s : State) : SameLinks s (busShelf f s) := ⟨rfl, rfl, rfl⟩

theorem storeChange_links {v : ItemValue} {data : List Byte} {f : State → State} {s : State}
    (hf : ∀ z, SameLinks z (f z)) : SameLinks s (storeChange v data f s).1 := by
  unfold storeChange
  split
  · exact ⟨rfl, rfl, rfl⟩
  · exact hf { s with shelf := _ }

theorem heldChange_links {e : EditHolder} {v : ItemValue} {data : List Byte} {f : State → State} {s : State}
    (hf : ∀ z, SameLinks z (f z)) : SameLinks s (heldChange e v data f s).1 := by
  unfold heldChange
  split
  · exact ⟨rfl, rfl, rfl⟩
  · exact storeChange_links hf

/-- The owning block's rule of every request leaves the link units and the queue. -/
theorem handler_links (k : ReqKind) (l : Link) (b : List Byte) (s : State) : SameLinks s (handlerOf k l b s).1 := by
  cases k <;> simp only [handlerOf]
  case identify | linkStatus | lockStatus | scanStatus | readSlots | readBusFault | readSpares | readMoveOrders
    | readTiming | storeStatus | readHistory | restart => exact ⟨rfl, rfl, rfl⟩
  case claim =>
    unfold handleClaim
    split
    · exact ⟨rfl, rfl, rfl⟩
    · split <;> exact ⟨rfl, rfl, rfl⟩
  case release =>
    unfold handleRelease
    split
    · exact ⟨rfl, rfl, rfl⟩
    · exact ⟨rfl, rfl, rfl⟩
  case setTime => exact ⟨rfl, rfl, rfl⟩
  case arm =>
    unfold handleArm
    split
    · exact ⟨rfl, rfl, rfl⟩
    · exact ⟨rfl, rfl, rfl⟩
  case setCraftCode =>
    unfold handleSetCraftCode
    dsimp only
    split
    · exact ⟨rfl, rfl, rfl⟩
    · split
      · exact storeChange_links (fun _ => ⟨rfl, rfl, rfl⟩)
      · split
        · exact ⟨rfl, rfl, rfl⟩
        · exact storeChange_links (fun _ => ⟨rfl, rfl, rfl⟩)
      · exact ⟨rfl, rfl, rfl⟩
  case clearCraftCode =>
    unfold handleClearCraftCode
    dsimp only
    split
    · exact ⟨rfl, rfl, rfl⟩
    · split
      · exact ⟨rfl, rfl, rfl⟩
      · split
        · exact ⟨rfl, rfl, rfl⟩
        · exact ⟨rfl, rfl, rfl⟩
        · split
          · exact storeChange_links (fun _ => ⟨rfl, rfl, rfl⟩)
          · exact ⟨rfl, rfl, rfl⟩
  case unlock =>
    unfold handleUnlock
    dsimp only
    split
    · exact ⟨rfl, rfl, rfl⟩
    · split
      · exact ⟨rfl, rfl, rfl⟩
      · split
        · exact ⟨rfl, rfl, rfl⟩
        · exact ⟨rfl, rfl, rfl⟩
        · split <;> exact ⟨rfl, rfl, rfl⟩
  case lock =>
    unfold handleLock
    dsimp only
    split
    · exact ⟨rfl, rfl, rfl⟩
    · split <;> exact ⟨rfl, rfl, rfl⟩
  case freeze => exact ⟨rfl, rfl, rfl⟩
  case readPort => unfold handleReadPort; split <;> exact ⟨rfl, rfl, rfl⟩
  case setScan =>
    unfold handleSetScan
    split
    · exact ⟨rfl, rfl, rfl⟩
    · split
      · dsimp only [mapShelf]
        exact ⟨rfl, rfl, rfl⟩
      · exact ⟨rfl, rfl, rfl⟩
  case setDegradeThresholds =>
    unfold handleSetDegradeThresholds
    dsimp only
    split
    · exact ⟨rfl, rfl, rfl⟩
    · split
      · exact ⟨rfl, rfl, rfl⟩
      · exact storeChange_links (fun _ => ⟨rfl, rfl, rfl⟩)
  case clearBusFault => exact ⟨rfl, rfl, rfl⟩
  case readPortRecord => unfold handleReadPortRecord; split <;> exact ⟨rfl, rfl, rfl⟩
  case editPortRecord =>
    unfold handleEditPortRecord
    split
    · exact ⟨rfl, rfl, rfl⟩
    · split
      · exact ⟨rfl, rfl, rfl⟩
      · split
        · exact ⟨rfl, rfl, rfl⟩
        · exact heldChange_links (fun _ => busShelf_links _ _)
  case condemnPort =>
    unfold handleCondemnPort
    split
    · exact ⟨rfl, rfl, rfl⟩
    · split
      · exact ⟨rfl, rfl, rfl⟩
      · split
        · exact ⟨rfl, rfl, rfl⟩
        · exact ⟨rfl, rfl, rfl⟩
  case setReassign =>
    unfold handleSetReassign
    split
    · exact ⟨rfl, rfl, rfl⟩
    · split
      · exact ⟨rfl, rfl, rfl⟩
      · exact heldChange_links (fun _ => busShelf_links _ _)
  case setShelfIdentity =>
    unfold handleSetShelfIdentity
    split
    · exact ⟨rfl, rfl, rfl⟩
    · split
      · exact ⟨rfl, rfl, rfl⟩
      · exact heldChange_links (fun _ => busShelf_links _ _)
  case openMoveOrder =>
    unfold handleOpenMoveOrder
    split
    · exact ⟨rfl, rfl, rfl⟩
    · split
      · exact ⟨rfl, rfl, rfl⟩
      · dsimp only
        exact ⟨rfl, rfl, rfl⟩
  case cancelMoveOrder =>
    unfold handleCancelMoveOrder
    split
    · exact ⟨rfl, rfl, rfl⟩
    · split
      · exact ⟨rfl, rfl, rfl⟩
      · exact busShelf_links _ _
  case defineGroup =>
    unfold handleDefineGroup
    split
    · exact ⟨rfl, rfl, rfl⟩
    · split
      · exact ⟨rfl, rfl, rfl⟩
      · split
        · exact ⟨rfl, rfl, rfl⟩
        · exact heldChange_links (fun _ => busShelf_links _ _)
  case deleteGroup =>
    unfold handleDeleteGroup
    split
    · exact ⟨rfl, rfl, rfl⟩
    · split
      · exact ⟨rfl, rfl, rfl⟩
      · split
        · exact ⟨rfl, rfl, rfl⟩
        · exact heldChange_links (fun _ => busShelf_links _ _)
  case readGroup =>
    unfold handleReadGroup
    split
    · exact ⟨rfl, rfl, rfl⟩
    · split <;> exact ⟨rfl, rfl, rfl⟩
  case bar =>
    unfold handleBar withGroup
    split
    · exact ⟨rfl, rfl, rfl⟩
    · split
      · exact ⟨rfl, rfl, rfl⟩
      · dsimp only [recordRequest]
        exact busShelf_links _ _
  case pin =>
    unfold handlePin withGroup
    split
    · exact ⟨rfl, rfl, rfl⟩
    · split
      · exact ⟨rfl, rfl, rfl⟩
      · dsimp only
        split
        · dsimp only [recordRequest]
          exact busShelf_links _ _
        · exact ⟨rfl, rfl, rfl⟩
  case operatorSwitch =>
    unfold handleOperatorSwitch withGroup
    split
    · exact ⟨rfl, rfl, rfl⟩
    · split
      · exact ⟨rfl, rfl, rfl⟩
      · dsimp only
        split
        · exact ⟨rfl, rfl, rfl⟩
        · split
          · exact ⟨rfl, rfl, rfl⟩
          · dsimp only [recordRequest]
            exact busShelf_links _ _
  case clearRequests =>
    unfold handleClearRequests withGroup
    split
    · exact ⟨rfl, rfl, rfl⟩
    · split
      · exact ⟨rfl, rfl, rfl⟩
      · dsimp only [recordRequest]
        exact busShelf_links _ _
  case clearGroupFault =>
    unfold handleClearGroupFault withGroup
    split
    · exact ⟨rfl, rfl, rfl⟩
    · split
      · exact ⟨rfl, rfl, rfl⟩
      · dsimp only
        split
        · exact busShelf_links _ _
        · split
          · exact busShelf_links _ _
          · exact ⟨rfl, rfl, rfl⟩
  case defineReference =>
    unfold handleDefineReference
    split
    · exact ⟨rfl, rfl, rfl⟩
    · split
      · exact ⟨rfl, rfl, rfl⟩
      · split
        · split
          · exact busShelf_links _ _
          · exact ⟨rfl, rfl, rfl⟩
        · exact heldChange_links (fun _ => busShelf_links _ _)
  case lockOutReference =>
    unfold handleLockOutReference
    split
    · dsimp only
      split
      · exact ⟨rfl, rfl, rfl⟩
      · exact busShelf_links _ _
    · exact ⟨rfl, rfl, rfl⟩
  case forceReference =>
    unfold handleForceReference
    split
    · exact busShelf_links _ _
    · split
      · exact ⟨rfl, rfl, rfl⟩
      · dsimp only
        split
        · exact busShelf_links _ _
        · exact ⟨rfl, rfl, rfl⟩
  case setTimingOptions =>
    unfold handleSetTimingOptions
    split
    · exact ⟨rfl, rfl, rfl⟩
    · split
      · exact ⟨rfl, rfl, rfl⟩
      · exact heldChange_links (fun _ => busShelf_links _ _)
  case readAlarms => unfold handleReadAlarms; split <;> exact ⟨rfl, rfl, rfl⟩
  case acknowledge =>
    unfold handleAcknowledge
    split
    · exact ⟨rfl, rfl, rfl⟩
    · split
      · exact ⟨rfl, rfl, rfl⟩
      · split
        · exact ⟨rfl, rfl, rfl⟩
        · split
          · exact ⟨rfl, rfl, rfl⟩
          · exact ⟨rfl, rfl, rfl⟩
  case cutOff => exact ⟨rfl, rfl, rfl⟩
  case setCondition =>
    unfold handleSetCondition
    split
    · exact ⟨rfl, rfl, rfl⟩
    · split
      · exact ⟨rfl, rfl, rfl⟩
      · exact storeChange_links (fun _ => ⟨rfl, rfl, rfl⟩)
  case commit =>
    unfold handleCommit
    dsimp only
    split
    · exact ⟨rfl, rfl, rfl⟩
    · split
      · exact ⟨rfl, rfl, rfl⟩
      · split
        · exact ⟨rfl, rfl, rfl⟩
        · split
          · exact ⟨rfl, rfl, rfl⟩
          · exact ⟨rfl, rfl, rfl⟩
  case setStartOptions =>
    unfold handleSetStartOptions
    split
    · exact ⟨rfl, rfl, rfl⟩
    · split
      · exact ⟨rfl, rfl, rfl⟩
      · exact storeChange_links (fun _ => busShelf_links _ _)

/-- The requests that may change the claim or the work lock (chapter 9). -/
def lockKinds : List ReqKind := [.claim, .release, .setCraftCode, .clearCraftCode, .unlock, .lock, .freeze]

theorem busShelf_lock (f : Shelf → Shelf) (s : State) : (busShelf f s).lock = s.lock := rfl

theorem storeChange_lock {v : ItemValue} {data : List Byte} {f : State → State} {s : State}
    (hf : ∀ z, (f z).lock = z.lock) : (storeChange v data f s).1.lock = s.lock := by
  unfold storeChange
  split
  · rfl
  · exact hf { s with shelf := _ }

theorem heldChange_lock {e : EditHolder} {v : ItemValue} {data : List Byte} {f : State → State} {s : State}
    (hf : ∀ z, (f z).lock = z.lock) : (heldChange e v data f s).1.lock = s.lock := by
  unfold heldChange
  split
  · rfl
  · exact storeChange_lock hf

/-- The owning block's rule of every other request leaves the claim and the work lock. -/
theorem handler_lock {k : ReqKind} (hk : k ∉ lockKinds) (l : Link) (b : List Byte) (s : State) :
    (handlerOf k l b s).1.lock = s.lock := by
  cases k <;> simp only [handlerOf]
  case claim | release | setCraftCode | clearCraftCode | unlock | lock | freeze => exact absurd (by simp [lockKinds]) hk
  case identify | linkStatus | lockStatus | scanStatus | readSlots | readBusFault | readSpares | readMoveOrders
    | readTiming | storeStatus | readHistory | restart => exact rfl
  case setTime => exact rfl
  case arm =>
    unfold handleArm
    split
    · exact rfl
    · exact rfl
  case readPort => unfold handleReadPort; split <;> exact rfl
  case setScan =>
    unfold handleSetScan
    split
    · exact rfl
    · split
      · dsimp only [mapShelf]
      · exact rfl
  case setDegradeThresholds =>
    unfold handleSetDegradeThresholds
    dsimp only
    split
    · exact rfl
    · split
      · exact rfl
      · exact storeChange_lock (fun _ => rfl)
  case clearBusFault => exact rfl
  case readPortRecord => unfold handleReadPortRecord; split <;> exact rfl
  case editPortRecord =>
    unfold handleEditPortRecord
    split
    · exact rfl
    · split
      · exact rfl
      · split
        · exact rfl
        · exact heldChange_lock (fun _ => busShelf_lock _ _)
  case condemnPort =>
    unfold handleCondemnPort
    split
    · exact rfl
    · split
      · exact rfl
      · split
        · exact rfl
        · exact rfl
  case setReassign =>
    unfold handleSetReassign
    split
    · exact rfl
    · split
      · exact rfl
      · exact heldChange_lock (fun _ => busShelf_lock _ _)
  case setShelfIdentity =>
    unfold handleSetShelfIdentity
    split
    · exact rfl
    · split
      · exact rfl
      · exact heldChange_lock (fun _ => busShelf_lock _ _)
  case openMoveOrder =>
    unfold handleOpenMoveOrder
    split
    · exact rfl
    · split
      · exact rfl
      · dsimp only
  case cancelMoveOrder =>
    unfold handleCancelMoveOrder
    split
    · exact rfl
    · split
      · exact rfl
      · exact busShelf_lock _ _
  case defineGroup =>
    unfold handleDefineGroup
    split
    · exact rfl
    · split
      · exact rfl
      · split
        · exact rfl
        · exact heldChange_lock (fun _ => busShelf_lock _ _)
  case deleteGroup =>
    unfold handleDeleteGroup
    split
    · exact rfl
    · split
      · exact rfl
      · split
        · exact rfl
        · exact heldChange_lock (fun _ => busShelf_lock _ _)
  case readGroup =>
    unfold handleReadGroup
    split
    · exact rfl
    · split <;> exact rfl
  case bar =>
    unfold handleBar withGroup
    split
    · exact rfl
    · split
      · exact rfl
      · dsimp only [recordRequest]
        exact busShelf_lock _ _
  case pin =>
    unfold handlePin withGroup
    split
    · exact rfl
    · split
      · exact rfl
      · dsimp only
        split
        · dsimp only [recordRequest]
          exact busShelf_lock _ _
        · exact rfl
  case operatorSwitch =>
    unfold handleOperatorSwitch withGroup
    split
    · exact rfl
    · split
      · exact rfl
      · dsimp only
        split
        · exact rfl
        · split
          · exact rfl
          · dsimp only [recordRequest]
            exact busShelf_lock _ _
  case clearRequests =>
    unfold handleClearRequests withGroup
    split
    · exact rfl
    · split
      · exact rfl
      · dsimp only [recordRequest]
        exact busShelf_lock _ _
  case clearGroupFault =>
    unfold handleClearGroupFault withGroup
    split
    · exact rfl
    · split
      · exact rfl
      · dsimp only
        split
        · exact busShelf_lock _ _
        · split
          · exact busShelf_lock _ _
          · exact rfl
  case defineReference =>
    unfold handleDefineReference
    split
    · exact rfl
    · split
      · exact rfl
      · split
        · split
          · exact busShelf_lock _ _
          · exact rfl
        · exact heldChange_lock (fun _ => busShelf_lock _ _)
  case lockOutReference =>
    unfold handleLockOutReference
    split
    · dsimp only
      split
      · exact rfl
      · exact busShelf_lock _ _
    · exact rfl
  case forceReference =>
    unfold handleForceReference
    split
    · exact busShelf_lock _ _
    · split
      · exact rfl
      · dsimp only
        split
        · exact busShelf_lock _ _
        · exact rfl
  case setTimingOptions =>
    unfold handleSetTimingOptions
    split
    · exact rfl
    · split
      · exact rfl
      · exact heldChange_lock (fun _ => busShelf_lock _ _)
  case readAlarms => unfold handleReadAlarms; split <;> exact rfl
  case acknowledge =>
    unfold handleAcknowledge
    split
    · exact rfl
    · split
      · exact rfl
      · split
        · exact rfl
        · split
          · exact rfl
          · exact rfl
  case cutOff => exact rfl
  case setCondition =>
    unfold handleSetCondition
    split
    · exact rfl
    · split
      · exact rfl
      · exact storeChange_lock (fun _ => rfl)
  case commit =>
    unfold handleCommit
    dsimp only
    split
    · exact rfl
    · split
      · exact rfl
      · split
        · exact rfl
        · split
          · exact rfl
          · exact rfl
  case setStartOptions =>
    unfold handleSetStartOptions
    split
    · exact rfl
    · split
      · exact rfl
      · exact storeChange_lock (fun _ => busShelf_lock _ _)

end Sys2Proof.Machine
end

