-- ==== Sys2Proof/Laws/Kept.lean ====
section
/-! SUPPORT. A property of the shelf that every change of the alarm unit and of the store keeps is kept by every step;
and the invariants of the alarm unit and of the store are such properties' parts. -/

namespace Sys2Proof.Machine

/-- What a property of the alarm unit and the store must meet to be kept by every step. -/
structure StepFree (P : Shelf → Prop) : Prop extends FreeOf P where
  cleared : ∀ s o, P s → P { s with out := o }
  append : ∀ v s, P s → P { s with sto := appendEdit v s.sto }
  mark : ∀ m s, s.sto.marks.length < Config.commitMax → P s → P { s with sto := { s.sto with marks := s.sto.marks ++ [m] } }
  setting : ∀ c v s, P s → P (changeSetting c v s)
  ackOne : ∀ e s, P s → P (acknowledgeOne e s)
  ackAll : ∀ s, P s → P (acknowledgeAll s).1
  cut : ∀ s b, P s → P { s with alm := { s.alm with cutOff := b } }
  raiseSoak : ∀ o c s, P s → P (endRaiseSoak o c s)
  clearSoak : ∀ o c s, P s → P (endClearSoak o c s)
  complete : ∀ s, P s → P (completeWrite s)
  fail : ∀ s, P s → P (failWrite s)
  power : ∀ s, P s → P s.powerOn
  hard : ∀ cause s, P s → P (s.hardReset cause)
  time : ∀ s, P s → P (tick s)

section
variable {P : Shelf → Prop}

theorem StepFree.deliver (K : StepFree P) {s : State} (h : P s.shelf) : P (deliverOut s).shelf := K.cleared _ _ h

theorem StepFree.busShelf (K : StepFree P) {f : Shelf → Shelf} {s : State} (hf : ∀ x, P x → P (f x)) (h : P s.shelf) :
    P (busShelf f s).shelf := free_pump K.toFreeOf (hf _ h)

theorem StepFree.setHolder (K : StepFree P) {a : Holder} {c : ClaimCause} {s : State} (h : P s.shelf) :
    P (setHolder a c s).shelf := K.note _ _ h

theorem StepFree.storeChange (K : StepFree P) {v : ItemValue} {data : List Byte} {f : State → State} {s : State}
    (hf : ∀ z : State, P z.shelf → P (f z).shelf) (h : P s.shelf) : P (storeChange v data f s).1.shelf := by
  unfold Machine.storeChange
  split
  · exact h
  · exact hf _ (K.append _ _ h)

theorem StepFree.heldChange (K : StepFree P) {e : EditHolder} {v : ItemValue} {data : List Byte} {f : State → State}
    {s : State} (hf : ∀ z : State, P z.shelf → P (f z).shelf) (h : P s.shelf) : P (heldChange e v data f s).1.shelf := by
  unfold Machine.heldChange
  split
  · exact h
  · exact K.storeChange hf h

/-- The owning block's rule of every request keeps the property. -/
theorem StepFree.handler (K : StepFree P) (k : ReqKind) (l : Link) (b : List Byte) {s : State} (h : P s.shelf) :
    P (handlerOf k l b s).1.shelf := by
  have F := K.toFreeOf
  cases k <;> simp only [handlerOf]
  case identify | linkStatus | lockStatus | scanStatus | readSlots | readBusFault | readSpares | readMoveOrders
    | readTiming | storeStatus | readHistory | restart => exact h
  case claim =>
    unfold handleClaim
    split
    · exact K.setHolder h
    · split <;> exact h
  case release =>
    unfold handleRelease
    split
    · exact K.setHolder h
    · exact h
  case setTime => exact free_setShelfTime F h
  case arm =>
    unfold handleArm
    split
    · exact free_pump F (free_startArming F h)
    · exact h
  case setCraftCode =>
    unfold handleSetCraftCode
    dsimp only
    split
    · exact h
    · split
      · exact K.storeChange (fun _ hz => hz) h
      · split
        · exact h
        · exact K.storeChange (fun _ hz => hz) h
      · exact h
  case clearCraftCode =>
    unfold handleClearCraftCode
    dsimp only
    split
    · exact h
    · split
      · exact h
      · split
        · exact h
        · exact h
        · split
          · exact K.storeChange (fun _ hz => hz) h
          · exact h
  case unlock =>
    unfold handleUnlock
    dsimp only
    split
    · exact h
    · split
      · exact h
      · split
        · exact h
        · exact h
        · split <;> exact h
  case lock =>
    unfold handleLock
    dsimp only
    split
    · exact h
    · split <;> exact h
  case freeze => exact h
  case readPort => unfold handleReadPort; split <;> exact h
  case setScan =>
    unfold handleSetScan
    split
    · exact h
    · split
      · dsimp only [mapShelf]
        exact free_setScan F h
      · exact h
  case setDegradeThresholds =>
    unfold handleSetDegradeThresholds
    dsimp only
    split
    · exact h
    · split
      · exact h
      · refine K.storeChange (fun z hz => ?_) h
        dsimp only [mapShelf]
        exact free_setScan F hz
  case clearBusFault => exact free_clearBusFaults F h
  case readPortRecord => unfold handleReadPortRecord; split <;> exact h
  case editPortRecord =>
    unfold handleEditPortRecord
    split
    · exact h
    · split
      · exact h
      · split
        · exact h
        · exact K.heldChange (fun _ hz => K.busShelf (fun _ hx => free_editRecord F hx) hz) h
  case condemnPort =>
    unfold handleCondemnPort
    split
    · exact h
    · split
      · exact h
      · split
        · exact h
        · exact free_pump F (free_manualCondemn F h)
  case setReassign =>
    unfold handleSetReassign
    split
    · exact h
    · split
      · exact h
      · exact K.heldChange (fun _ hz => K.busShelf (fun _ hx => free_changeReassign F hx) hz) h
  case setShelfIdentity =>
    unfold handleSetShelfIdentity
    split
    · exact h
    · split
      · exact h
      · exact K.heldChange (fun _ hz => K.busShelf (fun _ hx => free_changeIdentity F hx) hz) h
  case openMoveOrder =>
    unfold handleOpenMoveOrder
    split
    · exact h
    · split
      · exact h
      · dsimp only
        exact free_pump F (free_openOrder F h)
  case cancelMoveOrder =>
    unfold handleCancelMoveOrder
    split
    · exact h
    · split
      · exact h
      · exact K.busShelf (fun _ hx => free_leaveOrder F hx) h
  case defineGroup =>
    unfold handleDefineGroup
    split
    · exact h
    · split
      · exact h
      · split
        · exact h
        · exact K.heldChange (fun _ hz => K.busShelf (fun _ hx => free_installGroup F hx) hz) h
  case deleteGroup =>
    unfold handleDeleteGroup
    split
    · exact h
    · split
      · exact h
      · split
        · exact h
        · exact K.heldChange (fun _ hz => K.busShelf (fun _ hx => free_removeGroup F hx) hz) h
  case readGroup =>
    unfold handleReadGroup
    split
    · exact h
    · split <;> exact h
  case bar =>
    unfold handleBar withGroup
    split
    · exact h
    · split
      · exact h
      · dsimp only [recordRequest]
        exact K.busShelf (fun _ hx => free_startArming F (free_barGroup F hx)) h
  case pin =>
    unfold handlePin withGroup
    split
    · exact h
    · split
      · exact h
      · dsimp only
        split
        · dsimp only [recordRequest]
          exact K.busShelf (fun _ hx => free_startArming F (free_pinGroup F hx)) h
        · exact h
  case operatorSwitch =>
    unfold handleOperatorSwitch withGroup
    split
    · exact h
    · split
      · exact h
      · dsimp only
        split
        · exact h
        · split
          · exact h
          · dsimp only [recordRequest]
            exact K.busShelf (fun _ hx => free_startArming F (free_operatorSwitchGroup F hx)) h
  case clearRequests =>
    unfold handleClearRequests withGroup
    split
    · exact h
    · split
      · exact h
      · dsimp only [recordRequest]
        exact K.busShelf (fun _ hx => free_startArming F (free_clearGroupRequests F hx)) h
  case clearGroupFault =>
    unfold handleClearGroupFault withGroup
    split
    · exact h
    · split
      · exact h
      · dsimp only
        split
        · exact K.busShelf (fun _ hx => free_startArming F hx) h
        · split
          · exact K.busShelf (fun _ hx => free_askAdoption F hx) h
          · exact h
  case defineReference =>
    unfold handleDefineReference
    split
    · exact h
    · split
      · exact h
      · split
        · split
          · exact K.busShelf (fun _ hx => free_timingEvent F (fun _ hy => free_clearForceOn F hy) hx) h
          · exact h
        · exact K.heldChange (fun _ hz => K.busShelf (fun _ hx => free_changeReference F hx) hz) h
  case lockOutReference =>
    unfold handleLockOutReference
    split
    · dsimp only
      split
      · exact h
      · exact K.busShelf (fun _ hx => free_lockOut F hx) h
    · exact h
  case forceReference =>
    unfold handleForceReference
    split
    · exact K.busShelf (fun _ hx => free_timingEvent F (fun _ hy => free_setForce F hy) hx) h
    · split
      · exact h
      · dsimp only
        split
        · exact K.busShelf (fun _ hx => free_timingEvent F (fun _ hy => free_setForce F hy) hx) h
        · exact h
  case setTimingOptions =>
    unfold handleSetTimingOptions
    split
    · exact h
    · split
      · exact h
      · exact K.heldChange (fun _ hz => K.busShelf (fun _ hx => free_changeTimingOptions F hx) hz) h
  case readAlarms => unfold handleReadAlarms; split <;> exact h
  case acknowledge =>
    unfold handleAcknowledge
    split
    · exact K.ackAll _ h
    · split
      · exact h
      · split
        · exact h
        · split
          · exact h
          · exact K.ackOne _ _ h
  case cutOff => exact K.cut _ _ h
  case setCondition =>
    unfold handleSetCondition
    split
    · exact h
    · split
      · exact h
      · exact K.storeChange (fun _ hz => K.setting _ _ _ hz) h
  case commit =>
    unfold handleCommit
    dsimp only
    split
    · exact h
    · split
      · exact h
      · split
        · exact h
        · split
          · exact h
          · rename_i hm
            exact K.mark _ _ (Nat.lt_of_not_le hm) h
  case setStartOptions =>
    unfold handleSetStartOptions
    split
    · exact h
    · split
      · exact h
      · exact K.storeChange (fun _ hz => K.busShelf (fun _ hx => free_changeStartOptions F hx) hz) h

theorem StepFree.reply (K : StepFree P) {l : Link} {kind tag : Byte} {a : Answer} {s : State} (h : P s.shelf) :
    P (reply l kind tag a s).shelf := by
  refine K.deliver ?_
  rw [setLink_shelf]
  exact h

theorem StepFree.request (K : StepFree P) (l : Link) (k : ReqKind) (tag : Byte) (b : List Byte) {s : State}
    (h : P s.shelf) : P (takeRequest l k tag b (handlerOf k l b) s).shelf := by
  unfold takeRequest
  dsimp only
  split
  · exact h
  · split
    · rw [setLink_shelf]
      exact h
    · have h0 : P (setLink l (fun u =>
          { u with rx := .hunting, held := some ⟨k.row.code, tag, false, .forming⟩ }) s).shelf := by
        rw [setLink_shelf]
        exact h
      split
      · exact K.reply h0
      · exact K.reply (K.handler k l b h0)

theorem StepFree.unknown (K : StepFree P) (l : Link) (kind tag : Byte) {s : State} (h : P s.shelf) :
    P (takeUnknown l kind tag s).shelf := by
  unfold takeUnknown
  dsimp only
  split
  · exact h
  · split
    · rw [setLink_shelf]
      exact h
    · refine K.reply ?_
      rw [setLink_shelf]
      exact h

theorem StepFree.byte (K : StepFree P) (l : Link) (b : Byte) {s : State} (h : P s.shelf) : P (takeByte l s b).shelf := by
  unfold takeByte
  dsimp only
  split
  · exact h
  · split
    · rw [setLink_shelf]
      exact h
    · rw [setLink_shelf]
      exact h
    · split
      · exact K.request _ _ _ _ h
      · exact K.unknown _ _ _ h

theorem StepFree.bytes (K : StepFree P) (l : Link) (bs : List Byte) {s : State} (h : P s.shelf) :
    P (bs.foldl (takeByte l) s).shelf := by
  induction bs generalizing s with
  | nil => exact h
  | cons b bs ih => exact ih (K.byte l b h)

theorem StepFree.hardReset (K : StepFree P) {cause : ResetCause} {s : State} (h : P s.shelf) :
    P (takeHardReset cause s).shelf := by
  unfold takeHardReset
  refine K.deliver ?_
  dsimp only [hardResetBy]
  exact K.hard _ _ h

theorem StepFree.onShelf (K : StepFree P) {f : Shelf → Shelf} {s : State} (hf : ∀ x, P x → P (f x)) (h : P s.shelf) :
    P (onShelf f s).shelf := K.deliver (hf _ h)

theorem StepFree.onShelfBus (K : StepFree P) {f : Shelf → Shelf} {s : State} (hf : ∀ x, P x → P (f x))
    (h : P s.shelf) : P (onShelfBus f s).shelf := K.deliver (free_pump K.toFreeOf (hf _ h))

theorem StepFree.linkReset (K : StepFree P) (l : Link) {s : State} (h : P s.shelf) : P (linkReset l s).shelf := by
  have h1 : P (freeClaim l (setLink l resetUnit s)).shelf := by
    unfold freeClaim
    split
    · refine K.deliver (K.setHolder ?_)
      rw [setLink_shelf]
      exact h
    · rw [setLink_shelf]
      exact h
  unfold Machine.linkReset
  dsimp only
  split
  · exact K.hardReset h1
  · exact h1

/-- Every command keeps the property. -/
theorem StepFree.exec (K : StepFree P) (c : Instr) {s t : State} (h : P s.shelf) (e : exec c s = .next t) :
    P t.shelf := by
  have F := K.toFreeOf
  cases c <;> (injection e with e; subst e)
  case powerOnReset =>
    refine K.deliver ?_
    dsimp only [powerOn]
    exact K.power _ h
  case hardReset => exact K.hardReset h
  case linkReset l => exact K.linkReset l h
  case lineReturnsToMark | interByteTimeout | overrun => rw [setLink_shelf]; exact h
  case frameDiscarded l bs => exact K.bytes l bs h
  case unknownKind => exact K.unknown _ _ _ h
  case transmitEnd l =>
    unfold transmitEnd
    split
    · exact K.hardReset h
    · rw [setLink_shelf]
      exact h
  case identify l tag b => exact K.request l .identify tag b h
  case linkStatus l tag b => exact K.request l .linkStatus tag b h
  case claim l tag b => exact K.request l .claim tag b h
  case release l tag b => exact K.request l .release tag b h
  case setTime l tag b => exact K.request l .setTime tag b h
  case arm l tag b => exact K.request l .arm tag b h
  case restart l tag b => exact K.request l .restart tag b h
  case lockStatus l tag b => exact K.request l .lockStatus tag b h
  case setCraftCode l tag b => exact K.request l .setCraftCode tag b h
  case clearCraftCode l tag b => exact K.request l .clearCraftCode tag b h
  case unlock l tag b => exact K.request l .unlock tag b h
  case lock l tag b => exact K.request l .lock tag b h
  case freeze l tag b => exact K.request l .freeze tag b h
  case readPort l tag b => exact K.request l .readPort tag b h
  case setScan l tag b => exact K.request l .setScan tag b h
  case scanStatus l tag b => exact K.request l .scanStatus tag b h
  case setDegradeThresholds l tag b => exact K.request l .setDegradeThresholds tag b h
  case readSlots l tag b => exact K.request l .readSlots tag b h
  case readBusFault l tag b => exact K.request l .readBusFault tag b h
  case clearBusFault l tag b => exact K.request l .clearBusFault tag b h
  case readPortRecord l tag b => exact K.request l .readPortRecord tag b h
  case editPortRecord l tag b => exact K.request l .editPortRecord tag b h
  case readSpares l tag b => exact K.request l .readSpares tag b h
  case condemnPort l tag b => exact K.request l .condemnPort tag b h
  case setReassign l tag b => exact K.request l .setReassign tag b h
  case setShelfIdentity l tag b => exact K.request l .setShelfIdentity tag b h
  case openMoveOrder l tag b => exact K.request l .openMoveOrder tag b h
  case cancelMoveOrder l tag b => exact K.request l .cancelMoveOrder tag b h
  case readMoveOrders l tag b => exact K.request l .readMoveOrders tag b h
  case defineGroup l tag b => exact K.request l .defineGroup tag b h
  case deleteGroup l tag b => exact K.request l .deleteGroup tag b h
  case readGroup l tag b => exact K.request l .readGroup tag b h
  case bar l tag b => exact K.request l .bar tag b h
  case pin l tag b => exact K.request l .pin tag b h
  case operatorSwitch l tag b => exact K.request l .operatorSwitch tag b h
  case clearRequests l tag b => exact K.request l .clearRequests tag b h
  case clearGroupFault l tag b => exact K.request l .clearGroupFault tag b h
  case defineReference l tag b => exact K.request l .defineReference tag b h
  case readTiming l tag b => exact K.request l .readTiming tag b h
  case lockOutReference l tag b => exact K.request l .lockOutReference tag b h
  case forceReference l tag b => exact K.request l .forceReference tag b h
  case setTimingOptions l tag b => exact K.request l .setTimingOptions tag b h
  case readAlarms l tag b => exact K.request l .readAlarms tag b h
  case acknowledge l tag b => exact K.request l .acknowledge tag b h
  case cutOff l tag b => exact K.request l .cutOff tag b h
  case readHistory l tag b => exact K.request l .readHistory tag b h
  case setCondition l tag b => exact K.request l .setCondition tag b h
  case commit l tag b => exact K.request l .commit tag b h
  case storeStatus l tag b => exact K.request l .storeStatus tag b h
  case setStartOptions l tag b => exact K.request l .setStartOptions tag b h
  case cardAnswer a => exact K.onShelf (fun _ hx => free_answerCard F hx) h
  case transferTimeout => exact K.onShelf (fun _ hx => free_transferTimedOut F hx) h
  case exchangeValuesReturned => exact K.onShelf (fun _ hx => free_valuesReturned F hx) h
  case reprobeTimerExpiry n => exact K.onShelf (fun _ hx => free_reprobeOver F hx) h
  case cardAttention n => exact K.onShelf (fun _ hx => free_attentionAsserted F hx) h
  case periodTimerExpiry => exact K.onShelfBus (fun _ hx => free_periodOver F hx) h
  case batteryRunningChange b => exact K.onShelf (fun _ hx => free_batteryChanged F hx) h
  case candidateMemoryExpiry p => exact K.onShelf (fun _ hx => free_leaveCandidates F hx) h
  case condemnTimerExpiry p => exact K.onShelfBus (fun _ hx => free_condemnTimerOver F hx) h
  case darkLimitExpiry n => exact K.onShelfBus (fun _ hx => free_darkOver F hx) h
  case lightLimitExpiry n => exact K.onShelfBus (fun _ hx => free_lightOver F hx) h
  case verifyTimerExpiry n => exact K.onShelfBus (fun _ hx => free_verifyOver F hx) h
  case holdOffTimerExpiry p => exact K.onShelfBus (fun _ hx => free_holdOffOver F hx) h
  case wtrTimerExpiry g => exact K.onShelfBus (fun _ hx => free_wtrOver F hx) h
  case confirmTimerExpiry g => exact K.onShelf (fun _ hx => free_confirmOver F hx) h
  case retryWaitExpiry g => exact K.onShelfBus (fun _ hx => free_retryOver F hx) h
  case clearRetryExpiry => exact K.onShelfBus (fun _ hx => free_clearRetryOver F hx) h
  case buildingClockInputChange i b => exact K.onShelfBus (fun _ hx => free_buildingChanged F hx) h
  case qualificationTimerExpiry r => exact K.onShelfBus (fun _ hx => free_qualified F hx) h
  case acquireTimerExpiry => exact K.onShelfBus (fun _ hx => free_acquired F hx) h
  case lockedTimerExpiry => exact K.onShelf (fun _ hx => free_lockedLong F hx) h
  case holdoverTimerExpiry => exact K.onShelfBus (fun _ hx => free_holdoverOver F hx) h
  case raiseSoakExpiry o c => exact K.onShelf (fun _ hx => K.raiseSoak o c _ hx) h
  case clearSoakExpiry o c => exact K.onShelf (fun _ hx => K.clearSoak o c _ hx) h
  case storeWriteComplete =>
    unfold storeCompleted
    split
    · exact h
    · exact K.deliver (K.complete _ h)
  case storeWriteFailed =>
    unfold storeFailed
    split
    · exact h
    · refine K.deliver ?_
      split <;> exact K.fail _ h
  case armingDelayExpiry => exact K.onShelfBus (fun _ hx => free_armingDelayOver F hx) h

/-- Every step keeps the property. -/
theorem StepFree.step (K : StepFree P) : StepKeeps (fun s => P s.shelf) := by
  intro s t h e
  unfold Machine.step at e
  split at e
  · injection e with e
    subst e
    exact K.time _ h
  · rename_i c rest _
    exact K.exec c (s := { s with pending := rest }) h e

end

end Sys2Proof.Machine
end

