-- ==== Sys2Proof/Laws/Moves.lean ====
section
/-! SUPPORT. The records and the group definitions through the completion of a move: nothing in it changes them but the
two records and the one definition of the move. -/

namespace Sys2Proof.Machine

section

/-- The records, the group definitions, the identity and the reassign settings are the given ones. -/
def RecordsAre (v : Vector PortRec 48) (d : Vector (Option GroupDef) 8) (i : List Byte) (r : Reassign) (s : Shelf) : Prop :=
  s.recs.recs = v ∧ s.eng.defs = d ∧ s.recs.identity = i ∧ s.recs.reassign = r

variable {v : Vector PortRec 48} {d : Vector (Option GroupDef) 8} {i : List Byte} {r : Reassign}

theorem recordsAre (v : Vector PortRec 48) (d : Vector (Option GroupDef) 8) (i : List Byte) (r : Reassign) : Keeps (RecordsAre v d i r) where
  base := by
    intro s t _ _ h3 h
    simp only [cfg, Cfg.mk.injEq] at h3
    obtain ⟨e1, e2, e3, e4, -⟩ := h3
    exact ⟨e1.trans h.1, e4.trans h.2.1, e2.trans h.2.2.1, e3.trans h.2.2.2⟩
  report := by
    intro o c b s _ h
    obtain ⟨-, -, h3, -, h5, -⟩ := report_frame o c b s
    unfold RecordsAre; rw [h3, h5]; exact h
  refresh := by
    intro p s h
    obtain ⟨-, -, h3, -, h5, -⟩ := refreshPort_frame p s
    unfold RecordsAre; rw [h3, h5]; exact h
  told := fun _ _ _ _ h => h
  pool := fun _ _ _ h => h

theorem offerOwn_records (e : EditHolder) (w : ItemValue) {s : Shelf} (h : RecordsAre v d i r s) : RecordsAre v d i r (offerOwn e w s) := by
  unfold offerOwn
  split
  · exact h
  · split
    · exact h
    · split
      · cases e <;> exact h
      · exact h

theorem rebind_records (src dst : PortNo) {s : Shelf} (h : RecordsAre v d i r s) : RecordsAre v d i r (rebind src dst s) := by
  unfold rebind
  refine keep_timingEvent (recordsAre v d i r) (fun s h => ?_) h
  refine keep_foldl _ (fun s a h => ?_) h
  exact offerOwn_records _ _ h

theorem sub_records (g : GroupNo) (src dst : PortNo) {s : Shelf} (h : RecordsAre v d i r s) :
    RecordsAre v (match at' d g with | some x => put d g (some (x.replace src dst)) | none => d) i r (substituteMember g src dst s) := by
  unfold substituteMember
  have hd : defOf s g = at' d g := by unfold defOf; rw [h.2.1]
  rw [hd]
  cases he : at' d g with
  | none => exact h
  | some x =>
    dsimp only
    have K := recordsAre v (put d g (some (x.replace src dst))) i r
    have h0 : RecordsAre v (put d g (some (x.replace src dst))) i r (setDef g (some (x.replace src dst)) s) := by
      obtain ⟨a, b, c, e⟩ := h
      exact ⟨a, by show put s.eng.defs g _ = _; rw [b], c, e⟩
    refine keep_evaluate K (keep_setRun K (keep_joinMember K (offerOwn_records _ _ ?_)))
    split
    · exact keep_stopHoldOff K h0
    · exact keep_setHoldOff K h0

theorem setRecord_records (p : PortNo) (w : PortRec) {s : Shelf} (h : RecordsAre v d i r s) : RecordsAre (put v p w) d i r (setRecord p w s) :=
  ⟨by show put s.recs.recs p w = _; rw [h.1], h.2⟩

/-- The group definitions after a move. -/
def movedDefs (o : Order) (d : Vector (Option GroupDef) 8) : Vector (Option GroupDef) 8 :=
  match o.circuit with
  | some (g, _) => (match at' d g with | some x => put d g (some (x.replace o.src o.dst)) | none => d)
  | none => d

theorem changeRecords_records (o : Order) {s : Shelf} (h : RecordsAre v d i r s) :
    RecordsAre (put (put v o.dst (movedRecord s o)) o.src (vacatedRecord s o)) (movedDefs o d) i r (changeRecords o s) := by
  have K := recordsAre (put (put v o.dst (movedRecord s o)) o.src (vacatedRecord s o)) (movedDefs o d) i r
  have h1 := offerOwn_records .records (.portRecord o.dst (movedRecord s o)) (setRecord_records o.dst (movedRecord s o) h)
  have h2 := keep_setCondemn (recordsAre _ _ _ _) (p := o.src) (c := none) (offerOwn_records .records (.portRecord o.src (vacatedRecord s o)) (setRecord_records o.src (vacatedRecord s o) h1))
  unfold changeRecords
  dsimp only
  refine keep_reportNoSpare K (keep_classChanged K (keep_classChanged K ?_))
  unfold movedDefs
  cases hc : o.circuit with
  | none => exact h2
  | some gc =>
    obtain ⟨g, c⟩ := gc
    exact sub_records _ _ _ h2

theorem completeOrder_records {num : Nat} {o : Order} {s : Shelf} (ho : orderOf s num = some o) (h : RecordsAre v d i r s) :
    RecordsAre (put (put v o.dst (movedRecord s o)) o.src (vacatedRecord s o)) (movedDefs o d) i r (completeOrder num s) := by
  have K := recordsAre (put (put v o.dst (movedRecord s o)) o.src (vacatedRecord s o)) (movedDefs o d) i r
  have h1 : RecordsAre v d i r (noticeOf .stage num (setStage num .completing s)) := keep_noticeOf (recordsAre v d i r) (keep_setStage (recordsAre v d i r) h)
  have e1 : (noticeOf .stage num (setStage num .completing s)).recs = s.recs := by
    unfold noticeOf; split <;> rfl
  have h2 := changeRecords_records o h1
  have m1 : movedRecord (noticeOf .stage num (setStage num .completing s)) o = movedRecord s o := by unfold movedRecord recOf; rw [e1]
  have m2 : vacatedRecord (noticeOf .stage num (setStage num .completing s)) o = vacatedRecord s o := by unfold vacatedRecord condemnOf; rw [e1]
  rw [m1, m2] at h2
  unfold completeOrder
  rw [ho]
  dsimp only
  have h3 := keep_refreshOrder K (num := num) (keep_reportMisPatch K (num := num) (keep_reportPatch K (num := num) h2))
  split
  · exact keep_leaveOrder K (rebind_records _ _ h3)
  · split
    · exact keep_leaveOrder K (rebind_records _ _ (keep_leaveClear K h3))
    · exact rebind_records _ _ (keep_askSubstitution K h3)

end

end Sys2Proof.Machine
end

