-- ==== Sys2Proof/Laws/Places.lean ====
section
/-! SUPPORT. The places of the alarm table: which objects and conditions have an entry, and what the removal of an entry
brings back (R149 to R151). -/

namespace Sys2Proof.Machine

section

/-- The objects and conditions that have an entry, in table order. -/
def keysOf (s : Shelf) : List (Obj × Cond) := s.alm.table.map AlarmEntry.key

theorem entryOf_none_iff (s : Shelf) (q : Obj × Cond) : entryOf s q.1 q.2 = none ↔ q ∉ keysOf s := by
  simp only [entryOf, List.find?_eq_none, keysOf, List.mem_map, AlarmEntry.key, not_exists, not_and, Bool.and_eq_true,
    decide_eq_true_eq]
  constructor
  · intro h e he heq; exact h e he (by rw [← heq]) (by rw [← heq])
  · intro h e he h1 h2; exact h e he (by rw [h1, h2])

/-- The used count is a count of the keys. -/
theorem usedCount_keys (s : Shelf) :
    usedCount s.alm.table = ((keysOf s).filter (fun q => decide (q.2 ≠ .tableFull))).length := by
  simp only [usedCount, keysOf, List.filter_map, List.length_map]
  rfl

theorem putEntry_keys (e : AlarmEntry) (s : Shelf) : keysOf (putEntry e s) = keysOf s := by
  simp only [keysOf, putEntry, setTable, List.map_map]
  refine List.map_congr_left (fun x _ => ?_)
  by_cases h : x.obj = e.obj ∧ x.cond = e.cond
  · simp [AlarmEntry.key, h]
  · simp only [Function.comp, if_neg h]

theorem raiseEntry_keys (e : AlarmEntry) (s : Shelf) : keysOf (raiseEntry e s) = keysOf s := by
  refine Eq.trans ?_ (putEntry_keys (raisedEntry e s) s)
  simp only [keysOf, raiseEntry_table]

theorem enterRising_keys (o : Obj) (c : Cond) (s : Shelf) : keysOf (enterRising o c s) = keysOf s ++ [(o, c)] := by
  have push : keysOf (setTable (fun t => t ++ [⟨o, c, (settingOf s c).sev, .rising, false, none, 0, some 0⟩]) s)
      = keysOf s ++ [(o, c)] := by
    simp [keysOf, setTable, AlarmEntry.key]
  unfold enterRising
  dsimp only
  split
  · rw [raiseEntry_keys, push]
  · exact push

theorem dropEntry_table (o : Obj) (c : Cond) (s : Shelf) :
    (dropEntry o c s).alm.table = s.alm.table.filter (fun f => decide (f.key ≠ (o, c))) := by
  simp only [dropEntry, setTable]
  refine List.filter_congr (fun x _ => ?_)
  simp only [AlarmEntry.key, Ne, Prod.mk.injEq]
  by_cases h1 : x.obj = o <;> by_cases h2 : x.cond = c <;> simp [h1, h2]

/-- A mask rests on told states, records, orders and conditions. -/
theorem masked_same {s x : Shelf} (h : SameButAlarms s x) (ht : x.alm.told = s.alm.told) (o : Obj) (c : Cond) :
    masked x o c = masked s o c := by
  obtain ⟨-, h2, h3, h4, -⟩ := h
  unfold masked condOf classOf isTold recOf
  rw [h2, h3, h4, ht]

/-- What offering places changes: entries join at the tail, of conditions that are effectively present. -/
def Offered (s x : Shelf) : Prop :=
  SameButAlarms s x ∧ x.alm.told = s.alm.told ∧ x.alm.eff = s.alm.eff
  ∧ ∃ more, keysOf x = keysOf s ++ more ∧ ∀ q ∈ more, q ∈ s.alm.eff

theorem Offered.rfl' (s : Shelf) : Offered s s := ⟨.rfl' s, rfl, rfl, [], (List.append_nil _).symm, fun _ h => by cases h⟩

theorem Offered.trans' {s x y : Shelf} (h : Offered s x) (k : Offered x y) : Offered s y := by
  obtain ⟨h1, h2, h3, m, h4, h5⟩ := h
  obtain ⟨k1, k2, k3, n, k4, k5⟩ := k
  refine ⟨h1.trans' k1, k2.trans h2, k3.trans h3, m ++ n, by rw [k4, h4, List.append_assoc], fun q hq => ?_⟩
  rcases List.mem_append.1 hq with hq | hq
  · exact h5 q hq
  · exact h3 ▸ k5 q hq

theorem Offered.used {s x : Shelf} (h : Offered s x) : usedCount s.alm.table ≤ usedCount x.alm.table := by
  obtain ⟨-, -, -, m, h4, -⟩ := h
  rw [usedCount_keys, usedCount_keys, h4, List.filter_append, List.length_append]
  exact Nat.le_add_right _ _

theorem Offered.stands {s x : Shelf} (h : Offered s x) {q : Obj × Cond} (hq : q ∈ keysOf s) : q ∈ keysOf x := by
  obtain ⟨-, -, -, m, h4, -⟩ := h
  rw [h4]
  exact List.mem_append_left _ hq

/-- R151: one condition is offered a place. -/
def offerPlace (s : Shelf) (oc : Obj × Cond) : Shelf :=
  if stillLeftOut s oc && decide (usedCount s.alm.table < Config.ordinaryMax) then enterRising oc.1 oc.2 s else s

/-- A condition that may have an entry: effectively present as told states and masks stand. -/
def Present (s : Shelf) (q : Obj × Cond) : Prop := q ∈ s.alm.eff ∧ isTold s q.1 q.2 = true ∧ masked s q.1 q.2 = false

theorem Offered.present {s x : Shelf} (h : Offered s x) (q : Obj × Cond) : Present x q ↔ Present s q := by
  unfold Present isTold
  rw [masked_same h.1 h.2.1, h.2.1, h.2.2.1]

theorem stillLeftOut_iff (s : Shelf) (q : Obj × Cond) : stillLeftOut s q = true ↔ Present s q ∧ q ∉ keysOf s := by
  unfold stillLeftOut isLeftOut Present
  rw [← entryOf_none_iff]
  simp only [Bool.and_eq_true, decide_eq_true_eq, Bool.not_eq_true', Option.isNone_iff_eq_none]
  tauto

theorem offerPlace_offered (s : Shelf) (q : Obj × Cond) : Offered s (offerPlace s q) := by
  unfold offerPlace
  split
  · rename_i h
    have hq := ((stillLeftOut_iff s q).1 (Bool.and_eq_true_iff.1 h).1).1.1
    exact ⟨enterRising_frame _ _ _, (enterRising_told _ _ _).1, (enterRising_told _ _ _).2, [q],
      enterRising_keys _ _ _, fun r hr => List.mem_singleton.1 hr ▸ hq⟩
  · exact .rfl' s

/-- A condition that has been offered a place has one, or all are in use, or it may have none. -/
theorem offerPlace_takes {s : Shelf} {q : Obj × Cond} (h : Present s q) :
    q ∈ keysOf (offerPlace s q) ∨ 95 ≤ usedCount (offerPlace s q).alm.table := by
  unfold offerPlace
  by_cases hk : q ∈ keysOf s
  · exact .inl ((offerPlace_offered s q).stands hk)
  · by_cases hu : usedCount s.alm.table < Config.ordinaryMax
    · refine .inl ?_
      rw [if_pos (by rw [(stillLeftOut_iff s q).2 ⟨h, hk⟩, decide_eq_true hu]; rfl), enterRising_keys]
      exact List.mem_append_right _ (List.mem_singleton.2 rfl)
    · refine .inr ?_
      rw [if_neg (by simp [hu])]
      exact Nat.le_of_not_lt hu

theorem offerPlaces_offered (l : List (Obj × Cond)) (s : Shelf) : Offered s (l.foldl offerPlace s) := by
  induction l generalizing s with
  | nil => exact .rfl' s
  | cons q l ih => exact (offerPlace_offered s q).trans' (ih _)

theorem offerPlaces_take {l : List (Obj × Cond)} {s : Shelf} {q : Obj × Cond} (hq : q ∈ l) (h : Present s q) :
    q ∈ keysOf (l.foldl offerPlace s) ∨ 95 ≤ usedCount (l.foldl offerPlace s).alm.table := by
  induction l generalizing s with
  | nil => cases hq
  | cons r l ih =>
    rw [List.foldl_cons]
    have rest := offerPlaces_offered l (offerPlace s r)
    rcases List.mem_cons.1 hq with rfl | hq
    · rcases offerPlace_takes h with k | k
      · exact .inl (rest.stands k)
      · exact .inr (k.trans rest.used)
    · exact ih hq (((offerPlace_offered s r).present q).2 h)

/-- A condition that may have no entry, or that has one, takes no place. -/
theorem offerPlace_none {s : Shelf} {q : Obj × Cond} (h : Present s q → q ∈ keysOf s) : offerPlace s q = s := by
  unfold offerPlace
  rw [if_neg]
  intro k
  have := (stillLeftOut_iff s q).1 (Bool.and_eq_true_iff.1 k).1
  exact this.2 (h this.1)

theorem offerPlaces_none {l : List (Obj × Cond)} {s : Shelf} (h : ∀ q ∈ l, Present s q → q ∈ keysOf s) :
    l.foldl offerPlace s = s := by
  induction l with
  | nil => rfl
  | cons q l ih =>
    rw [List.foldl_cons, offerPlace_none (h q List.mem_cons_self)]
    exact ih (fun r hr => h r (List.mem_cons_of_mem _ hr))

/-- The first condition left out has a place, if one is free. -/
theorem offerPlaces_first {before after : List (Obj × Cond)} {s : Shelf} {q : Obj × Cond} (h : Present s q)
    (hb : ∀ r ∈ before, Present s r → r ∈ keysOf s) (hu : usedCount s.alm.table < 95) :
    q ∈ keysOf ((before ++ q :: after).foldl offerPlace s) := by
  rw [List.foldl_append, offerPlaces_none hb, List.foldl_cons]
  refine (offerPlaces_offered after _).stands ?_
  by_cases hk : q ∈ keysOf s
  · exact (offerPlace_offered s q).stands hk
  · unfold offerPlace
    rw [if_pos (by rw [(stillLeftOut_iff s q).2 ⟨h, hk⟩, decide_eq_true (show usedCount _ < Config.ordinaryMax from hu)]; rfl),
      enterRising_keys]
    exact List.mem_append_right _ (List.mem_singleton.2 rfl)

theorem reoffer_eq (s : Shelf) : reoffer s = objectOrder.foldl offerPlace s := by
  unfold reoffer
  split
  · rename_i h
    refine (offerPlaces_none (fun q _ hp => ?_)).symm
    rw [List.isEmpty_iff, List.filter_eq_nil_iff] at h
    by_contra k
    refine h q hp.1 ?_
    unfold isLeftOut
    rw [(entryOf_none_iff s q).2 k]
    rfl
  · rfl

/-- R150: TABLE-FULL leaves when 88 or fewer ordinary entries remain. -/
theorem clearTableFull_table (s : Shelf) : (clearTableFull s).alm.table =
    if usedCount s.alm.table ≤ 88 then s.alm.table.filter (fun f => decide (f.key ≠ (.shelf, .tableFull)))
    else s.alm.table := by
  unfold clearTableFull
  by_cases h : usedCount s.alm.table ≤ 88
  · rw [if_pos h, if_pos (show usedCount s.alm.table ≤ Config.tableFullClearsAt from h)]
    split
    · rw [recordEntry_table, dropEntry_table]
    · rename_i hn
      symm
      rw [List.filter_eq_self]
      intro f hf
      have := (entryOf_none_iff s (.shelf, .tableFull)).1 hn
      exact decide_eq_true (fun k => this (k ▸ List.mem_map_of_mem hf))
  · rw [if_neg h, if_neg (show ¬ usedCount s.alm.table ≤ Config.tableFullClearsAt from h)]

theorem clearTableFull_keeps (s : Shelf) :
    (clearTableFull s).alm.told = s.alm.told ∧ (clearTableFull s).alm.eff = s.alm.eff := clearTableFull_told s

/-- R148, R150, R151: what the removal of an ordinary entry does. -/
theorem removeEntry_leaves {s : Shelf} {e f : AlarmEntry} {t : Option Transition} (hk : AlarmsOk s.alm)
    (he : entryOf s e.obj e.cond = some f) (hc : e.cond ≠ .tableFull) (hn : (e.obj, e.cond) ∉ s.alm.eff) :
    EntryLeaves e.obj e.cond s (removeEntry e t s) := by
  obtain ⟨d, hd⟩ : ∃ d : Shelf, d = t.elim (dropEntry e.obj e.cond s) (fun t => recordEntry e t (dropEntry e.obj e.cond s)) :=
    ⟨_, rfl⟩
  have dt : d.alm.table = s.alm.table.filter (fun f => decide (f.key ≠ (e.obj, e.cond))) := by
    rw [hd]
    cases t with
    | none => exact dropEntry_table _ _ _
    | some t => exact (recordEntry_table e t _).trans (dropEntry_table _ _ _)
  have de : d.alm.told = s.alm.told ∧ d.alm.eff = s.alm.eff := by rw [hd]; cases t <;> exact ⟨rfl, rfl⟩
  have df : SameButAlarms s d := by
    rw [hd]
    cases t with
    | none => exact setTable_frame _ _
    | some t => exact (setTable_frame _ s).trans' (recordEntry_frame e t _)
  have r : removeEntry e t s = objectOrder.foldl offerPlace (clearTableFull d) := by
    rw [hd, ← reoffer_eq]
    cases t <;> rfl
  obtain ⟨k, hkd⟩ : ∃ k, k = clearTableFull d := ⟨_, rfl⟩
  rw [← hkd] at r
  have kt := clearTableFull_table d
  rw [← hkd, dt] at kt
  have ke : k.alm.told = s.alm.told ∧ k.alm.eff = s.alm.eff := by
    rw [hkd, (clearTableFull_keeps d).1, (clearTableFull_keeps d).2]; exact de
  have kf : SameButAlarms s k := hkd ▸ df.trans' (clearTableFull_frame d)
  have off := offerPlaces_offered objectOrder k
  rw [← r] at off
  have kp : ∀ q, Present (removeEntry e t s) q ↔ Present k q := off.present
  have keff : ∀ q, Present k q → q ≠ (e.obj, e.cond) ∧ q ≠ (.shelf, .tableFull) := by
    intro q hq
    have hq1 : q ∈ s.alm.eff := ke.2 ▸ hq.1
    exact ⟨fun h => hn (h ▸ hq1), fun h => hk.2.2.2.2 _ hq1 (by rw [h])⟩
  have kkeys : ∀ q, q ≠ (e.obj, e.cond) → q ≠ (.shelf, .tableFull) → (q ∈ keysOf k ↔ q ∈ keysOf s) := by
    intro q h1 h2
    unfold keysOf
    rw [kt]
    simp only [List.mem_map]
    constructor
    · rintro ⟨x, hx, rfl⟩
      split at hx
      · exact ⟨x, List.mem_of_mem_filter (List.mem_of_mem_filter hx), rfl⟩
      · exact ⟨x, List.mem_of_mem_filter hx, rfl⟩
    · rintro ⟨x, hx, rfl⟩
      refine ⟨x, ?_, rfl⟩
      have : x ∈ s.alm.table.filter (fun f => decide (f.key ≠ (e.obj, e.cond))) :=
        List.mem_filter.2 ⟨hx, decide_eq_true h1⟩
      split
      · exact List.mem_filter.2 ⟨this, decide_eq_true h2⟩
      · exact this
  have used : usedCount k.alm.table < 95 := by
    have h1 : usedCount k.alm.table ≤ usedCount (s.alm.table.filter (fun f => decide (f.key ≠ (e.obj, e.cond)))) := by
      rw [kt]
      split
      · exact (List.Sublist.filter _ List.filter_sublist).length_le
      · exact Nat.le_refl _
    have h2 : usedCount (s.alm.table.filter (fun f => decide (f.key ≠ (e.obj, e.cond)))) < usedCount s.alm.table := by
      obtain ⟨m, h3, h4⟩ := entryOf_key he
      unfold usedCount
      rw [List.filter_comm]
      refine List.length_filter_lt_length_iff_exists.2 ⟨f, List.mem_filter.2 ⟨m, ?_⟩, ?_⟩
      · exact decide_eq_true (h4 ▸ hc)
      · simp [AlarmEntry.key, h3, h4]
    exact Nat.lt_of_le_of_lt h1 (Nat.lt_of_lt_of_le h2 hk.1)
  refine ⟨entryOf_remove hn, ?_, ?_, ?_⟩
  · intro q hq hp hnone
    rw [entryOf_none_iff] at hnone
    rw [r] at hnone ⊢
    rcases offerPlaces_take hq ((kp q).1 hp) with h | h
    · exact absurd h hnone
    · exact h
  · intro before q after ho hp hq hb
    rw [Ne, entryOf_none_iff, not_not, r, ho]
    refine offerPlaces_first ((kp q).1 hp) (fun x hx hpx => ?_) used
    have hx' := hb x hx ((kp x).2 hpx)
    rw [Ne, entryOf_none_iff, not_not] at hx'
    exact (kkeys x (keff x hpx).1 (keff x hpx).2).2 hx'
  · intro hall
    have : removeEntry e t s = k := by
      rw [r]
      refine offerPlaces_none (fun q _ hp => ?_)
      have hq := hall q (off.2.2.1 ▸ hp.1)
      rw [Ne, entryOf_none_iff, not_not] at hq
      exact (kkeys q (keff q hp).1 (keff q hp).2).2 hq
    rw [this]
    exact kt

end

end Sys2Proof.Machine
end

