-- ==== Sys2Proof/Laws/Store.lean ====
section
/-! SUPPORT. What the record store's operations can do: they keep the sizes of its lists and, but for the notices, leave
the alarm unit; and the two invariants that the walk of Laws/Free.lean takes. -/

namespace Sys2Proof.Machine

/-! ### Sizes -/

theorem beginWrite_list (t : Store) : (beginWrite t).list = t.list ∧ (beginWrite t).marks = t.marks
    ∧ (beginWrite t).nvm = t.nvm ∧ (beginWrite t).writtenThrough = t.writtenThrough ∧ (beginWrite t).failed = t.failed
    ∧ (beginWrite t).counter = t.counter ∧ (beginWrite t).writeThrough = t.writeThrough := by
  unfold beginWrite
  split
  · split <;> simp
  all_goals simp

theorem beginWrite_ok {t : Store} (h : StoreOk t) : StoreOk (beginWrite t) := by
  obtain ⟨a, b, -⟩ := beginWrite_list t
  exact ⟨a ▸ h.1, b ▸ h.2⟩

theorem appendEdit_ok {v : ItemValue} {t : Store} (h : StoreOk t) : StoreOk (appendEdit v t) := by
  unfold appendEdit
  split
  · rename_i hl
    refine beginWrite_ok ⟨?_, h.2⟩
    simp only [Config.editListMax] at hl
    simp
    omega
  · exact h

@[simp] theorem setHeld_sto (e : EditHolder) (l : List HeldEdit) (s : Shelf) : (setHeld e l s).sto = s.sto := by
  cases e <;> rfl
@[simp] theorem setHeld_alm (e : EditHolder) (l : List HeldEdit) (s : Shelf) : (setHeld e l s).alm = s.alm := by
  cases e <;> rfl
@[simp] theorem setHeld_out (e : EditHolder) (l : List HeldEdit) (s : Shelf) : (setHeld e l s).out = s.out := by
  cases e <;> rfl

theorem offerOwn_ok {e : EditHolder} {v : ItemValue} {s : Shelf} (h : StoreOk s.sto) : StoreOk (offerOwn e v s).sto := by
  unfold offerOwn
  split
  · exact h
  · split
    · exact appendEdit_ok h
    · split
      · rw [setHeld_sto]
        exact h
      · exact h

theorem offerOwn_alm (e : EditHolder) (v : ItemValue) (s : Shelf) : (offerOwn e v s).alm = s.alm := by
  unfold offerOwn
  split
  · rfl
  · split
    · rfl
    · split
      · rw [setHeld_alm]
      · rfl

theorem grantPlace_ok {s : Shelf} (h : StoreOk s.sto) : StoreOk (grantPlace s).sto := by
  unfold grantPlace
  split
  · exact h
  · rw [setHeld_sto]
    exact appendEdit_ok h

theorem grantPlace_alm (s : Shelf) : (grantPlace s).alm = s.alm := by
  unfold grantPlace
  split
  · rfl
  · rw [setHeld_alm]

theorem settleMarks_ok {n : Nat} {s : Shelf} (h : StoreOk s.sto) : StoreOk (settleMarks n s).sto := by
  unfold settleMarks
  split
  · rename_i m rest hm
    split
    · refine ⟨h.1, ?_⟩
      have := h.2
      rw [hm] at this
      simp at this
      simp
      omega
    · exact h
  · exact h

theorem settleMarks_alm (n : Nat) (s : Shelf) : (settleMarks n s).alm = s.alm := by
  unfold settleMarks
  split
  · split <;> rfl
  · rfl

theorem completeWrite_ok {s : Shelf} (h : StoreOk s.sto) : StoreOk (completeWrite s).sto := by
  unfold completeWrite
  split
  · exact h
  · rename_i e rest hl
    refine beginWrite_ok (grantPlace_ok (settleMarks_ok ⟨?_, h.2⟩))
    have := h.1
    rw [hl] at this
    simp at this
    simp
    omega

theorem completeWrite_alm (s : Shelf) : (completeWrite s).alm = s.alm := by
  unfold completeWrite
  split
  · rfl
  · simp only [grantPlace_alm, settleMarks_alm]

theorem failMarks_frame (s : Shelf) : ∃ o, failMarks s = { s with sto := { s.sto with marks := [] }, out := o } := by
  have : ∀ (l : List Nat) (x : Shelf), ∃ o,
      l.foldl (fun s m => tell (.commit m false s.sto.list.length) s) x = { x with out := o } := by
    intro l
    induction l with
    | nil => exact fun x => ⟨x.out, rfl⟩
    | cons m l ih =>
      intro x
      obtain ⟨o, h⟩ := ih (tell (.commit m false x.sto.list.length) x)
      exact ⟨o, h⟩
  obtain ⟨o, h⟩ := this s.sto.marks { s with sto := { s.sto with marks := [] } }
  exact ⟨o, h⟩

/-- R175: a store that stops leaves all but its own writer and marks, the held edits, the alarm unit and the notices. -/
theorem stopStore_frame (s : Shelf) : SameButAlarms { s with
    sto := { s.sto with writer := .stopped, marks := [] }
    recs := { s.recs with held := [] }
    eng := { s.eng with held := [] }
    tim := { s.tim with held := [] } } (stopStore s) := by
  unfold stopStore
  obtain ⟨o, h⟩ := failMarks_frame { s with sto := { s.sto with writer := .stopped } }
  dsimp only at h ⊢
  rw [h]
  exact report_frame _ _ _ _

theorem failWrite_ok {s : Shelf} (h : StoreOk s.sto) : StoreOk (failWrite s).sto := by
  unfold failWrite
  split
  · exact h
  · obtain ⟨-, -, -, -, -, -, -, hs, -⟩ := stopStore_frame s
    rw [hs]
    exact ⟨h.1, by simp⟩
  · exact h
  · exact h

theorem stopStore_alarms {s : Shelf} (h : AlarmsOk s.alm) : AlarmsOk (stopStore s).alm := by
  unfold stopStore
  obtain ⟨o, e⟩ := failMarks_frame { s with sto := { s.sto with writer := .stopped } }
  dsimp only at e ⊢
  rw [e]
  exact report_ok h (by decide)

/-! ### The walk's invariants -/

/-- The reports after a reset keep what the walk keeps. -/
theorem reportsAfterReset_free {P : Shelf → Prop} (K : FreeOf P) {s : Shelf} (h : P s) : P (reportsAfterReset s) := by
  have h2 : P (allGroups.foldl (fun s g => reportGroup g s) (poolUpdate s)) :=
    free_foldl _ (fun _ _ hs => free_reportGroup K hs) (free_poolUpdate K h)
  have h3 := free_reportTiming K (free_rederiveAll K h2)
  unfold reportsAfterReset
  dsimp only
  split
  · exact K.report _ _ _ _ (by decide) h3
  · exact h3

/-- StoreOk is a property that the walk takes. -/
theorem storeOk_free : FreeOf (fun s => StoreOk s.sto) where
  base _ _ _ h _ k := h ▸ k
  note _ _ k := k
  report o c b s _ k := by
    obtain ⟨-, -, -, -, -, -, -, h, -⟩ := report_frame o c b s
    rw [h]
    exact k
  refresh p s k := by
    obtain ⟨-, -, -, -, -, -, -, h, -⟩ := refreshPort_frame p s
    rw [h]
    exact k
  told _ _ _ _ k := k
  pool _ _ _ k := k
  offer _ _ _ k := offerOwn_ok k

/-- AlarmsOk is a property that the walk takes. -/
theorem alarmsOk_free : FreeOf (fun s => AlarmsOk s.alm) where
  base _ _ h _ _ k := h ▸ k
  note _ _ k := k
  report _ _ _ _ hc k := report_ok k hc
  refresh _ _ k := refreshPort_ok k
  told _ _ _ _ k := k
  pool _ _ _ k := k
  offer h v s k := by
    rw [offerOwn_alm]
    exact k

end Sys2Proof.Machine
end

