-- ==== Sys2Proof/Tests/Slice0.lean ====
section
/-! SUPPORT. The model's own tests: the well-formedness checks on ill-formed terms, a state and operands that meet the
hypotheses of every statement and clause, and small runs of one command each. -/

namespace Sys2Proof.Machine.Tests

set_option Elab.async false

/-! ### States -/

/-- What a command answers, examined. -/
def run (c : Instr) (s : State) (p : State → Bool) : Bool :=
  match exec c s with
  | .next t => p t
  | .fault _ => false
  | .refused _ => false

/-- The code of the outcome that link A is sending. -/
def outcomeOnA (s : State) : Option Byte := s.linkA.tx.bind (fun f => f.bytes[4]?)

/-- A port observed CLEAN. -/
def cleanObs : Obs := { Obs.reset with cond := .clean, light := some true, frame := some true }

/-- A group of protect port 0 and working port 4. -/
def pairDef : GroupDef := ⟨false, 0, [4], true, 0, 5⟩

/-- A circuit's name. -/
def name0 : List Byte := List.replicate 12 0x7E

/-- Ports 0 to 7 in service, 8 to 15 spare, the others parked. -/
def record0 (p : PortNo) : PortRec :=
  if p.val < 8 then ⟨.inService, some name0, none⟩ else ⟨if p.val < 16 then .spare else .parked, none, none⟩

/-- An armed shelf with every slot PRESENT, every port CLEAN, and group 0. -/
def shelf0 : Shelf :=
  { Shelf.reset with
    bp := { Shelf.reset.bp with bus := none, slots := Vector.replicate 12 ⟨.present, some 1#8, some 1#8, 0⟩ }
    scan := { Shelf.reset.scan with obs := Vector.replicate 48 cleanObs }
    recs := { Shelf.reset.recs with recs := tabulate 48 record0 }
    eng := { Shelf.reset.eng with defs := put (Vector.replicate 8 none) 0 (some pairDef) }
    rdy := { Shelf.reset.rdy with phase := .armed } }

/-- Link A holds the claim. -/
def armed : State := { State.reset with shelf := shelf0, lock := ⟨.linkA, none, .unguarded, false, 0⟩ }

def onShelfOf (f : Shelf → Shelf) (s : State) : State := { s with shelf := f s.shelf }

/-- The armed shelf with a part of it changed. -/
def withShelf0 (f : Shelf → Shelf) : State := onShelfOf f armed

def watching : State := withShelf0 (fun x => { x with rdy := { x.rdy with phase := .watch, armingFor := some 29999 } })

def withLock (k : WorkLock) : State := { armed with lock := k }

/-- A craft code. -/
def code0 : List Byte := [1#8, 2#8, 3#8, 4#8, 5#8, 6#8, 7#8, 8#8]

def opened : State := withLock ⟨.linkA, some code0, .opened, false, 0⟩
def locked (count : Nat) : State := withLock ⟨.linkA, some code0, .locked, false, count⟩
def frozen : State := withLock ⟨.linkA, some code0, .locked, true, 5⟩
def unclaimed : State := withLock ⟨.none, none, .unguarded, false, 0⟩

def withLinkA (f : LinkUnit → LinkUnit) : State := { armed with linkA := f armed.linkA }

/-- Link A holds a request in a stage. -/
def holdingA (st : HeldStatus) : State := withLinkA (fun u => { u with held := some ⟨0x01#8, 9#8, false, st⟩ })

/-- Link A is sending a frame. -/
def sendingA (isReply : Bool) (held : Option HeldRequest) (queue : List QNotice) : State :=
  withLinkA (fun u => { u with tx := some ⟨isReply, []⟩, held := held, queue := queue })

def aNotice : QNotice := ⟨0, .claim .none .release⟩

def withStore (f : Store → Store) : State := withShelf0 (fun x => { x with sto := f x.sto })

def anEdit : Edit := ⟨1, .thresholds ⟨900, 100⟩⟩
def fullList : List Edit := List.replicate 32 anEdit

def withBus (u : BusUse) : State := withShelf0 (fun x => { x with bp := { x.bp with bus := some u } })

/-- An order of group 0's working port, in a stage. -/
def anOrder (st : Stage) : Order := ⟨1, .host, 4, 8, some (0, 1), false, 60, 3600, st, 0, none, true, 0, 0⟩

def withOrders (l : List Order) : State := withShelf0 (fun x => { x with ords := { x.ords with list := l, next := 2 } })

/-- A received tag that matches port 0's own. -/
def moved : State := withShelf0 (fun x =>
  { x with
    ords := { x.ords with list := [anOrder .verifying], next := 2 }
    recs := { x.recs with recs := put x.recs.recs 4 ⟨.inService, some name0, some (List.replicate 16 0x41#8)⟩ }
    scan := { x.scan with obs := put x.scan.obs 8 { cleanObs with rxTag := some (List.replicate 16 0x41#8) } } })

def withRun (f : GroupRun → GroupRun) : State := withShelf0 (fun x => { x with eng := { x.eng with run := upd x.eng.run 0 f } })

def withExec (f : GroupExec → GroupExec) : State :=
  withShelf0 (fun x => { x with exe := { x.exe with groups := upd x.exe.groups 0 f } })

def withTim (f : Timing → Timing) : State := withShelf0 (fun x => { x with tim := f x.tim })

/-- BC1 usable, present at the input, and defined with priority 1. -/
def withBc1 (st : RefState) : State :=
  withShelf0 (fun x => { x with
    pins := { x.pins with bc1 := true }
    tim := { x.tim with refs := put x.tim.refs 0 ⟨⟨.none, 1, some .g2⟩, false, st, some 0, none⟩ } })

def anEntry (st : EntryState) (acked : Bool) : AlarmEntry :=
  ⟨.port 47, .lossOfLight, .critical, st, acked, some 0, 1, some 0⟩

def withTable (l : List AlarmEntry) : State := withShelf0 (fun x => { x with alm := { x.alm with table := l, eff := [] } })

/-! ### When a request is accepted -/

/-- `Accepts`, computed. -/
def acceptsB (l : Link) (k : ReqKind) (body : List Byte) (s : State) : Bool :=
  decide ((linkOf s l).atSpace = false) && decide ((linkOf s l).held = none) && bodyFits k body
  && (decide (s.shelf.rdy.phase ≠ .discovery) || decide (k = .identify) || decide (k = .linkStatus))
  && (decide (k.row.type = .watch) || decide (s.lock.holder = holderOf l))
  && (decide (k.row.type ≠ .gated) || decide (s.lock.mode ≠ .locked))

theorem accepts_of {l : Link} {k : ReqKind} {body : List Byte} {s : State} (h : acceptsB l k body s = true) :
    Accepts l k body s := by
  simp only [acceptsB, Bool.and_eq_true, Bool.or_eq_true, decide_eq_true_eq] at h
  obtain ⟨⟨⟨⟨⟨h1, h2⟩, h3⟩, h4⟩, h5⟩, h6⟩ := h
  exact ⟨⟨h1, h2⟩, h3, fun h => by tauto, fun h => by tauto, fun h => by tauto⟩

/-- Each of these requests is accepted on link A in its state. -/
def AllAccepted (l : List (ReqKind × List Byte × State)) : Prop := ∀ x ∈ l, Accepts .a x.1 x.2.1 x.2.2

theorem allAccepted (l : List (ReqKind × List Byte × State))
    (h : l.all (fun x => acceptsB .a x.1 x.2.1 x.2.2) = true) : AllAccepted l :=
  fun x hx => accepts_of (List.all_eq_true.mp h x hx)

/-! ### The checks of WellFormed -/

theorem test_wf_body : Instr.wf (.identify .a 0 (List.replicate 248 0)) = true
    ∧ Instr.wf (.identify .a 0 (List.replicate 249 0)) = false
    ∧ Instr.wf (.setStartOptions .b 0 (List.replicate 249 0)) = false := by decide +kernel

theorem test_wf_unknownKind : Instr.wf (.unknownKind .a 0x7F 0 []) = true ∧ Instr.wf (.unknownKind .a 0x80 0 []) = false
    ∧ Instr.wf (.unknownKind .a 0x72 0 []) = false ∧ Instr.wf (.unknownKind .a 0x00 0 (List.replicate 249 0)) = false := by
  decide +kernel

theorem test_wf_frameDiscarded : Instr.wf (.frameDiscarded .a [0#8]) = true ∧ Instr.wf (.frameDiscarded .a []) = false := by
  decide +kernel

theorem test_wf_orderNumber : Instr.wf (.darkLimitExpiry 255) = true ∧ Instr.wf (.darkLimitExpiry 0) = false
    ∧ Instr.wf (.lightLimitExpiry 256) = false ∧ Instr.wf (.verifyTimerExpiry 0) = false := by decide +kernel

theorem test_wf_condition : Instr.wf (.raiseSoakExpiry (.port 47) .lossOfLight) = true
    ∧ Instr.wf (.raiseSoakExpiry (.port 47) .cardFailed) = false ∧ Instr.wf (.clearSoakExpiry .shelf .tableFull) = false
    ∧ Instr.wf (.raiseSoakExpiry .shelf .tableFull) = false ∧ Instr.wf (.clearSoakExpiry (.slot 11) .busFault) = false := by
  decide +kernel

theorem test_wf_reference : Instr.wf (.qualificationTimerExpiry 4) = true
    ∧ Instr.wf (.qualificationTimerExpiry 5) = false := by decide +kernel

/-- The request kinds of the check are those of the kind table. -/
theorem test_wf_kinds : requestCodes = allKinds.map (fun k => k.row.code.toNat) := by decide +kernel

theorem test_decode_none : decodeTableWord 8 0 = none ∧ State.withFetchWord State.reset 8 0 = State.reset := ⟨rfl, rfl⟩

/-! ### The block, its resets and its links -/

/-- The check of R186's own example: "123456789" gives 0x29B1. -/
theorem test_crc : crc16 [0x31, 0x32, 0x33, 0x34, 0x35, 0x36, 0x37, 0x38, 0x39] = 0x29B1#16 := by decide +kernel

theorem test_witness_StepTakesFrontCommand :
    { armed with pending := [.periodTimerExpiry] }.pending = .periodTimerExpiry :: [] := rfl

theorem test_witness_IdleStepIsOneMillisecond : State.reset.pending = [] := rfl

theorem test_witness_RetainFlagDecides : State.reset.shelf.rdy.opts.retain = false
    ∧ (withShelf0 (fun x => { x with rdy := { x.rdy with opts := ⟨30, true⟩ } })).shelf.rdy.opts.retain = true := ⟨rfl, rfl⟩

theorem test_witness_Invariants : LockOk State.reset.lock ∧ LinksOk State.reset ∧ NoticesOffered State.reset
    ∧ StoreOk State.reset.shelf.sto ∧ AlarmsOk State.reset.shelf.alm := by
  unfold LockOk LinksOk UnitOk NoticesOffered StoreOk AlarmsOk
  decide +kernel

/-- The nonvolatile memory holds a definition of LINE3 bound to a port whose record it holds too. -/
def stored : State := withStore (fun t => { t with nvm := { t.nvm with
  refs := put t.nvm.refs 4 (.value ⟨.port 7, 8, some .gx⟩), ports := put t.nvm.ports 7 (.value (record0 7)) } })

theorem test_witness_PowerOnLoads : RefLoads stored.shelf 4 ⟨.port 7, 8, some .gx⟩
    ∧ (∀ d, ¬ RefLoads stored.shelf 5 d) ∧ stored.shelf.sto.writer = .idle := by
  refine ⟨⟨by decide, by decide +kernel, by decide +kernel, fun p h => ?_, fun g h => ?_⟩,
    fun d h => absurd h.1 (by decide), by decide +kernel⟩
  · cases h
    exact ⟨record0 7, by decide +kernel, by decide +kernel⟩
  · cases h

theorem test_power_on : run .powerOnReset stored (fun t =>
    decide ((refOf t.shelf 4).defn = ⟨.port 7, 8, some .gx⟩) && decide (recOf t.shelf 7 = record0 7)) = true := by decide +kernel

theorem test_witness_steps : (∃ t, step { armed with pending := [.cutOff .a 0 []] } = .next t)
    ∧ ∃ t, step armed = .next t := ⟨⟨_, rfl⟩, ⟨_, rfl⟩⟩

theorem test_witness_FirstFailedCheckAnswers : Free .a State.reset ∧ bodyFits .setTime [0] = false
    ∧ State.reset.shelf.rdy.phase = .discovery ∧ bodyFits .setTime [0, 0, 0, 0] = true
    ∧ armed.shelf.rdy.phase ≠ .discovery ∧ unclaimed.lock.holder ≠ holderOf .a ∧ ReqKind.setTime.row.type ≠ .watch
    ∧ bodyFits .restart [] = true ∧ ReqKind.restart.row.type = .gated ∧ (locked 5).lock.mode = .locked
    ∧ (locked 5).lock.holder = holderOf .a ∧ frozen.lock.mode = .locked := by
  unfold Free; decide +kernel

theorem test_checks : run (.unknownKind .a 0 7 []) armed (fun t => outcomeOnA t = some 0x10) = true
    ∧ run (.setTime .a 7 [0]) State.reset (fun t => outcomeOnA t = some 0x11) = true
    ∧ run (.setTime .a 7 [0, 0, 0, 0]) State.reset (fun t => outcomeOnA t = some 0x20) = true
    ∧ run (.setTime .a 7 [0, 0, 0, 0]) unclaimed (fun t => outcomeOnA t = some 0x21) = true
    ∧ run (.restart .a 7 []) (locked 4) (fun t => outcomeOnA t = some 0x22) = true
    ∧ run (.restart .a 7 []) (locked 5) (fun t => outcomeOnA t = some 0x24) = true
    ∧ run (.restart .a 7 []) frozen (fun t => outcomeOnA t = some 0x23) = true := by decide +kernel

theorem test_witness_HeldRequestOverruns : (linkOf (holdingA .sending) .a).atSpace = false
    ∧ (linkOf (holdingA .sending) .a).held ≠ none := by decide +kernel

theorem test_witness_WholeFrameIsTheRequest : (List.replicate 248 (0 : Byte)).length ≤ 248
    ∧ (linkOf armed .b).atSpace = false ∧ (linkOf armed .b).rx = .hunting ∧ (0x7F#8).toNat < 0x80
    ∧ ReqKind.ofCode 0x7F = none := by decide +kernel

/-- A Cut Off, sync byte first, through the receiver. -/
theorem test_frame : run (.frameDiscarded .a (frameBytes 0x62 5 [])) armed (fun t => decide (t.shelf.alm.cutOff = true)
    && decide (outcomeOnA t = some 0) && decide (t.linkA.discarded = 0)) = true := by decide +kernel

theorem test_witness_BadFramesAreDiscarded : (linkOf armed .a).rx = .hunting ∧ (1#8).toNat < 2 ∧ 250 < (251#8).toNat
    ∧ [0#8, 0#8] ≠ checkBytes [2#8, 0x62#8, 5#8] ∧ 0x80 ≤ (0x80#8).toNat
    ∧ (linkOf (withLinkA (fun u => { u with rx := .inFrame [] })) .a).rx = .inFrame [] := by decide +kernel

theorem test_witness_LinkResetClearsItsUnit : restartHeld (linkOf armed .a) = false
    ∧ armed.lock.holder = holderOf .a ∧ unclaimed.lock.holder ≠ holderOf .a := by decide +kernel

theorem test_witness_TransmitEndStartsTheNext : (linkOf (sendingA false (some ⟨1, 9, false, .ready ⟨.done, []⟩⟩) []) .a).tx
      = some ⟨false, []⟩
    ∧ restartHeld (linkOf (sendingA true none [aNotice]) .a) = false
    ∧ (linkOf (sendingA true none [aNotice]) .a).queue = aNotice :: []
    ∧ (linkOf (sendingA false (some ⟨1, 9, false, .awaiting 1 ⟨.done, []⟩⟩) []) .a).queue = [] := by decide +kernel

/-- A queue with room and a full one; a unit that is idle, one that sends, and the requests it may hold. -/
theorem test_witness_Offer : (armed.linkA.queue).length < 16 ∧ armed.linkA.tx = none ∧ armed.linkA.held = none
    ∧ (sendingA false none (List.replicate 15 aNotice)).linkA.queue.length < 16
    ∧ (sendingA false none []).linkA.tx ≠ none ∧ 16 ≤ (List.replicate 16 aNotice).length
    ∧ (holdingA (.ready ⟨.done, []⟩)).linkA.held = some ⟨1, 9, false, .ready ⟨.done, []⟩⟩
    ∧ (holdingA .forming).linkA.held = some ⟨1, 9, false, .forming⟩ ∧ armed.shelf.out = []
    ∧ (tell aNotice.notice shelf0).out = aNotice.notice :: [] := by decide +kernel

theorem test_offer : (offer aNotice.notice { armed.linkA with queue := List.replicate 16 aNotice, lost := 255 }).lost = 255
    ∧ (offer aNotice.notice { (sendingA false none []).linkA with lost := 3 }).queue = [⟨3, aNotice.notice⟩]
    ∧ (offer aNotice.notice { armed.linkA with atSpace := true }).tx.isSome = true := by decide +kernel

/-- R182's Restart held and its reply being sent. -/
def restarting : State := sendingA true (some ⟨0x07, 9, true, .sending⟩) []

theorem test_witness_RestartResetsAfterItsReply :
    AllAccepted [(.restart, [], opened)]
    ∧ (linkOf restarting .a).held = some ⟨0x07, 9, true, .sending⟩ ∧ (linkOf restarting .a).tx = some ⟨true, []⟩ :=
  ⟨allAccepted _ (by decide +kernel), by decide +kernel⟩

/-! ### The claim and the work lock -/

theorem test_witness_Claim :
    AllAccepted [(.claim, [], unclaimed), (.claim, [], armed), (.release, [], armed)]
    ∧ unclaimed.lock.holder = .none ∧ armed.lock.holder = holderOf .a ∧ Accepts .b .release [] armed
    ∧ armed.lock.holder ≠ holderOf .b :=
  ⟨allAccepted _ (by decide +kernel), by unfold Accepts Free; decide +kernel⟩

theorem test_claim : run (.claim .b 1 []) unclaimed (fun t => decide (t.lock.holder = .linkB)
      && decide (t.linkA.tx = some (noticeFrame ⟨0, .claim .linkB .claim⟩))) = true
    ∧ run (.release .a 1 []) armed (fun t => t.lock.holder = .none) = true := by decide +kernel

theorem test_witness_Unlock :
    AllAccepted [(.unlock, code0, frozen), (.unlock, code0, (locked 5)), (.unlock, code0, (locked 4)),
      (.unlock, code0, opened)]
    ∧ frozen.lock.frozen = true ∧ (locked 5).lock.frozen = false ∧ (locked 5).lock.count = 5
    ∧ (locked 4).lock.count < 5 ∧ (locked 4).lock.mode = .locked ∧ (locked 4).lock.code = some code0
    ∧ (locked 4).lock.code ≠ some (List.replicate 8 0) ∧ opened.lock.mode ≠ .locked :=
  ⟨allAccepted _ (by decide +kernel), by decide +kernel⟩

theorem test_witness_CraftCode :
    AllAccepted [(.setCraftCode, code0, frozen), (.setCraftCode, code0, (locked 0)), (.setCraftCode, code0, armed),
      (.setCraftCode, code0, opened), (.clearCraftCode, code0, frozen), (.clearCraftCode, code0, (locked 5)),
      (.clearCraftCode, code0, (locked 4)), (.clearCraftCode, code0, armed), (.clearCraftCode, code0, opened)]
    ∧ armed.lock.mode = .unguarded ∧ opened.lock.code = some code0 ∧ opened.lock.code ≠ some (List.replicate 8 0)
    ∧ StoreTakes opened.shelf.sto :=
  ⟨allAccepted _ (by decide +kernel), by unfold StoreTakes; decide +kernel⟩

theorem test_stored_change : run (.setCraftCode .a 1 code0) armed (fun t => decide (t.lock.mode = .opened)
      && decide (t.shelf.sto.list = [⟨1, .craftCode (some code0)⟩]) && decide (outcomeOnA t = none)) = true
    ∧ run (.setCraftCode .a 1 code0) (withStore (fun t => { t with list := fullList }))
        (fun t => outcomeOnA t = some 0x31) = true
    ∧ run (.setCraftCode .a 1 code0) (withStore (fun t => { t with writer := .stopped }))
        (fun t => outcomeOnA t = some 0x34) = true := by decide +kernel

theorem test_witness_LockAndFreeze :
    AllAccepted [(.lock, [], frozen), (.lock, [], armed), (.lock, [], opened), (.lock, [], (locked 0)),
      (.freeze, [], (locked 0)), (.setCraftCode, code0, frozen)]
    ∧ frozen.lock.mode = .locked ∧ Free .a frozen ∧ bodyFits .restart [] = true ∧ ReqKind.restart.row.type = .gated
    ∧ frozen.lock.holder = holderOf .a :=
  ⟨allAccepted _ (by decide +kernel), by unfold Free; decide +kernel⟩

/-! ### Shelf time, arming, start options -/

theorem test_witness_SetTime :
    AllAccepted [(.setTime, [0xFF, 0xFF, 0xFF, 0xFF], armed)]
    ∧ restartHeld (linkOf armed .a) = false :=
  ⟨allAccepted _ (by decide +kernel), by decide +kernel⟩

theorem test_witness_Arming :
    AllAccepted [(.arm, [], watching), (.arm, [], armed)]
    ∧ watching.shelf.rdy.phase = .watch ∧ armed.shelf.rdy.phase ≠ .watch ∧ watching.shelf.rdy.armingFor ≠ none
    ∧ (defOf watching.shelf 0).isSome = true ∧ (execOf watching.shelf 0).prepareDue = false :=
  ⟨allAccepted _ (by decide +kernel), by decide +kernel⟩

theorem test_arm : run (.arm .a 1 []) watching (fun t => decide (t.shelf.rdy.phase = .arming)
    && decide (t.shelf.exe.active = some (.adoption 0 [0, 4] [])) && decide (outcomeOnA t = some 0)) = true := by decide +kernel

theorem test_witness_StartOptions :
    AllAccepted [(.setStartOptions, [0, 4, 0], watching)]
    ∧ nat2At [0, 4, 0] 0 < 5 ∧ 300 < nat2At [1, 45, 0] 0 ∧ nat2At [1, 44, 1] 0 ≤ 300 ∧ 5 ≤ nat2At [0, 5, 1] 0
    ∧ byteAt [0, 5, 1] 2 = true.toNat ∧ watching.shelf.rdy.opts = ⟨30, false⟩ ∧ StoreTakes watching.shelf.sto
    ∧ watching.shelf.rdy.armingFor = some 29999 ∧ 1000 * 5 ≤ 29999 ∧ 29999 < 1000 * 30 :=
  ⟨allAccepted _ (by decide +kernel), by unfold StoreTakes; decide +kernel⟩

theorem test_start_options : run (.setStartOptions .a 1 [0, 5, 1]) watching (fun t =>
    decide (t.shelf.rdy.opts = ⟨5, true⟩) && decide (t.shelf.rdy.phase = .arming)) = true := by decide +kernel

/-! ### Reads -/

theorem test_witness_StatusReads :
    AllAccepted [(.identify, [], State.reset), (.linkStatus, [], State.reset), (.lockStatus, [], unclaimed),
      (.scanStatus, [], unclaimed), (.readSpares, [], unclaimed), (.readMoveOrders, [], unclaimed),
      (.readTiming, [], unclaimed), (.storeStatus, [], unclaimed)] :=
  allAccepted _ (by decide +kernel)

theorem test_witness_SlotAndFaultReads :
    AllAccepted [(.readSlots, [], unclaimed), (.readBusFault, [], unclaimed)]
    ∧ State.reset.shelf.rdy.phase = .discovery ∧ Free .a State.reset ∧ bodyFits .readSlots [] = true :=
  ⟨allAccepted _ (by decide +kernel), by unfold Free; decide +kernel⟩

theorem test_witness_ReadsWithAParameter :
    AllAccepted [(.readPort, [48], unclaimed), (.readPort, [47], unclaimed), (.readPortRecord, [48], unclaimed),
      (.readPortRecord, [47], unclaimed), (.readGroup, [8], unclaimed), (.readGroup, [7], unclaimed),
      (.readGroup, [0], unclaimed), (.readAlarms, [96], unclaimed), (.readAlarms, [95], unclaimed),
      (.readHistory, [0xFF, 0xFF, 0xFF, 0xFF], unclaimed)]
    ∧ 48 ≤ byteAt [48] 0 ∧ byteAt [47] 0 < 48 ∧ 8 ≤ byteAt [8] 0 ∧ defOf unclaimed.shelf 7 = none
    ∧ defOf unclaimed.shelf 0 = some pairDef ∧ 95 < byteAt [96] 0 ∧ byteAt [95] 0 ≤ 95 :=
  ⟨allAccepted _ (by decide +kernel), by decide +kernel⟩

/-- R142, R146, R157: a RISING entry with 1000 ms of its raise soak of 2.5 s gone shows the time elapsed and the time
remaining. -/
theorem test_entry_soak :
    (entryBytes shelf0 ⟨.shelf, .busFault, .minor, .rising, false, none, 0, some 1000⟩).drop 11
      = [0, 0, 0x03, 0xE8, 0, 0, 0x05, 0xDC] := by decide +kernel

/-- 12.7, log entry 47: the 240 bytes that a frame leaves hold 16 entries of 15 bytes and 12 of 19. -/
theorem test_entries_fit : alarmsRoom = 240 ∧ (fitting 240 (List.replicate 16 (List.replicate 15 0))).length = 16
    ∧ (fitting 240 (List.replicate 16 (List.replicate 19 0))).length = 12 := by decide +kernel

/-- Two records of the history, of which the counter has made eight. -/
def aRecord (n : Nat) : HistRec := ⟨n, 0, none, none, none, .acknowledged⟩
def recorded : Shelf := { shelf0 with alm := { shelf0.alm with history := [aRecord 7, aRecord 8], nextSeq := 9 } }

theorem test_witness_History : recorded.alm.history = [aRecord 7] ++ aRecord 8 :: [] ∧ (aRecord 8).seq = 8
    ∧ (∀ q ∈ [aRecord 7], q.seq ≠ 8) ∧ (∀ r ∈ recorded.alm.history, r.seq ≠ 6) ∧ recorded.alm.lapped = false
    ∧ historyGap 6 recorded = true ∧ recordsFrom 9 recorded = [] := by decide +kernel

theorem test_reads : run (.readGroup .b 1 [7]) unclaimed (fun t =>
      decide (t.linkB.tx.bind (fun f => f.bytes[4]?) = some 0x13)) = true
    ∧ run (.readGroup .a 1 [0]) unclaimed (fun t => outcomeOnA t = some 0) = true := by decide +kernel

/-- Each record, definition and setup that the encodings admit, at the ends of its ranges. -/
theorem test_witness_BodiesAreReadBack : recordOk ⟨.inService, some name0, none⟩ = true
    ∧ groupOk ⟨true, 47, [0, 1, 2, 3, 4, 5], false, 100, 720⟩ = true ∧ refOk 4 ⟨.group 7, 8, some .gx⟩ = true
    ∧ settingOk .tableFull ⟨.warning, 0, 0⟩ = true ∧ settingOk .moveExpired ⟨.critical, 600, 300⟩ = true := by
  decide +kernel

/-! ### The scanner and the backplane bus -/

theorem test_witness_SetScan :
    AllAccepted [(.setScan, [0, 0, 0, 0, 20, 0], armed), (.setScan, [5, 48, 1, 3, 232, 1], armed),
      (.setScan, [5, 47, 0, 0, 20, 0], armed), (.setScan, [5, 47, 1, 0, 20, 0], armed)]
    ∧ nat2At [5, 48, 1, 3, 232, 1] 3 = 1000 ∧ isMember armed.shelf 4 = true
    ∧ (∃ p : PortNo, isMember armed.shelf p = true ∧ ∀ i < 47, p.val ≠ (5 + i) % 48)
    ∧ (∀ p : PortNo, isMember armed.shelf p = true → ∃ i < 48, p.val = (5 + 48 - i) % 48) :=
  ⟨allAccepted _ (by decide +kernel), by decide +kernel⟩

theorem test_set_scan : run (.setScan .a 1 [5, 47, 0, 0, 20, 0]) armed (fun t => outcomeOnA t = some 0x30) = true
    ∧ run (.setScan .a 1 [5, 48, 1, 3, 232, 1]) armed (fun t => decide (outcomeOnA t = some 0)
      && decide (t.shelf.scan.pending = some ⟨5, 48, false, 1000, true⟩)) = true := by decide +kernel

theorem test_witness_DegradeThresholds :
    AllAccepted [(.setDegradeThresholds, [0, 0, 0, 0], armed), (.setDegradeThresholds, [0, 5, 0, 5], armed),
      (.setDegradeThresholds, [3, 32, 0, 100], armed), (.setDegradeThresholds, [0, 1, 0, 0], armed)]
    ∧ armed.shelf.scan.thresholds = ⟨nat2At [3, 32, 0, 100] 0, nat2At [3, 32, 0, 100] 2⟩
    ∧ StoreTakes armed.shelf.sto :=
  ⟨allAccepted _ (by decide +kernel), by unfold StoreTakes; decide +kernel⟩

theorem test_witness_ClearBusFaultAndCutOff : AllAccepted [(.clearBusFault, [], armed), (.cutOff, [], armed)] :=
  allAccepted _ (by decide +kernel)

/-- The probe of the last slot in discovery, and of slot 5 of an armed shelf after three retries. -/
def lastProbe : State := withShelf0 (fun x => { x with
  bp := { x.bp with slots := put x.bp.slots 11 ⟨.unknown, none, none, 0⟩
                    bus := some ⟨.backplane, .read 11 0, [], 0, 0, none⟩ }
  rdy := { x.rdy with phase := .discovery } })

def retriedProbe : State := withShelf0 (fun x => { x with bp := { x.bp with
  slots := put x.bp.slots 5 ⟨.empty, none, none, 0⟩, bus := some ⟨.backplane, .read 5 0, [], 0, 3, none⟩ } })

theorem test_witness_ProbeSetsTheSlot : lastProbe.shelf.bp.bus = some ⟨.backplane, .read 11 0, [], 0, 0, none⟩
    ∧ slotStateOf lastProbe.shelf 11 ≠ .present ∧ lastProbe.shelf.rdy.phase = .discovery
    ∧ retriedProbe.shelf.bp.bus = some ⟨.backplane, .read 5 0, [], 0, 3, none⟩
    ∧ slotStateOf retriedProbe.shelf 5 ≠ .present := by decide +kernel

theorem test_probe : run (.cardAnswer (.ack 0x0000A512)) lastProbe (fun t => decide (t.shelf.rdy.phase = .watch)
      && decide (at' t.shelf.bp.slots 11 = ⟨.present, some 0xA5, some 0x12, 0⟩)) = true
    ∧ run (.cardAnswer .retry) retriedProbe (fun t => decide (slotStateOf t.shelf 5 = .failed)
      && decide (t.shelf.bp.lastFault = some ⟨.backplane, .singleRead, 5, 0, .retryLimit⟩)) = true := by decide +kernel

/-- A probe's, an exchange's and a block's last transfer, and a slot that two faults have counted. -/
theorem test_witness_TransactionEnds : transferOf ⟨.executor, .exchange [(0, 0x40)], [0], 0, 3, some [0]⟩ = some ⟨0, 0x40, true⟩
    ∧ mayRetry ⟨.executor, .exchange [(0, 0x40)], [0], 0, 3, some [0]⟩ = true
    ∧ isComplete true ⟨.executor, .exchange [(0, 0x40)], [0], 1, 0, some [0]⟩ = true
    ∧ transferOf ⟨.scanner, .block 11 0x1C, [0, 0, 0], 0, 0, none⟩ = some ⟨11, 0x1F, false⟩
    ∧ isComplete false ⟨.scanner, .block 11 0x1C, [0, 0, 0, 0], 0, 0, none⟩ = true
    ∧ mayRetry ⟨.records, .write 11 0x1C 0, [], 0, 2, none⟩ = true := by decide +kernel

/-- The third RETRY of a write has it issued again; the fourth is a fault. -/
theorem test_retry : run (.cardAnswer .retry) (withBus ⟨.records, .write 11 0x1C 0, [], 0, 2, none⟩) (fun t =>
      decide (t.shelf.bp.bus.map BusUse.retries = some 3)) = true
    ∧ run (.cardAnswer .retry) (withBus ⟨.records, .write 11 0x1C 0, [], 0, 3, none⟩) (fun t =>
      decide (t.shelf.bp.lastFault = some ⟨.records, .singleWrite, 11, 0x1C, .retryLimit⟩)) = true := by decide +kernel

theorem test_third_fault : run .transferTimeout (withShelf0 (fun x => { x with bp := { x.bp with
      slots := put x.bp.slots 11 ⟨.present, some 1#8, some 1#8, 2⟩
      bus := some ⟨.records, .write 11 0x1C 0, [], 0, 0, none⟩ } })) (fun t =>
    decide (at' t.shelf.bp.slots 11 = ⟨.failed, none, none, 3⟩)
      && decide (t.shelf.bp.firstCause = some ⟨.records, .singleWrite, 11, 0x1C, .timeout⟩)) = true := by decide +kernel

/-- The last read of a block, and an exchange of two words at each of its stages. -/
def blockAt (reads : List Word) : BusUse := ⟨.scanner, .block 11 0x1C, reads, 0, 0, none⟩
def exchangeAt (reads : List Word) (writes : Nat) (values : Option (List Word)) : BusUse :=
  ⟨.executor, .exchange [(0, 0x40), (1, 0x40)], reads, writes, 0, values⟩

theorem test_witness_TransfersGoOn : (withBus (blockAt [0, 0])).shelf.bp.bus = some (blockAt [0, 0])
    ∧ (blockAt [0, 0]).reads.length < 3 ∧ (blockAt [0, 0, 0]).reads ≠ [] ∧ (blockAt [0, 0, 0]).reads.length < 4
    ∧ [((0 : SlotNo), 0x40), (1, 0x40)][(exchangeAt [0] 0 none).reads.length]? = some (1, 0x40)
    ∧ (exchangeAt [0, 0] 0 none).reads.length = 2 ∧ (exchangeAt [0, 0] 0 none).values = none
    ∧ (exchangeAt [0, 0] 0 (some [0, 0])).values ≠ none ∧ (exchangeAt [0, 0] 0 (some [0, 0])).writes + 1 < 2
    ∧ [((11 : SlotNo), 0x1F)][0]? = some (11, 0x1F) ∧ 0x10 ≤ 0x1F ∧ 0x1F < 0x20 := by decide +kernel

/-- A read of an exchange keeps its word and goes on. -/
theorem test_exchange_read : run (.cardAnswer (.ack 7)) (withBus { exchangeAt [5] 0 none with retries := 2 }) (fun t =>
    decide (t.shelf.bp.bus = some (exchangeAt [5, 7] 0 none))) = true := by decide +kernel

theorem test_transfers : transferOf (exchangeAt [] 0 none) = some ⟨0, 0x40, false⟩
    ∧ transferOf (exchangeAt [0, 0] 0 (some [0, 0])) = some ⟨1, 0x40, true⟩
    ∧ transferOf (exchangeAt [0, 0] 1 (some [0, 0])) = some ⟨0, 0x40, true⟩ := by decide +kernel

/-- Group 0's exchange of its two ports is at the bus with both words read. -/
def exchanging (f : GroupExec → GroupExec) (k : XKind) : State := withShelf0 (fun x => { x with
  bp := { x.bp with bus := some (exchangeAt [0, 0] 0 none) }
  exe := { x.exe with
    active := some (.exchange 0)
    groups := upd x.exe.groups 0 (fun y => f { y with job := some ⟨k, [(0, 0), (4, 1)], 1, none⟩, step := .atBus }) } })

def aPlan : XPlan := ⟨1, .lineFailed, 1, .select, false⟩

theorem test_witness_ExchangeValues :
    (exchanging (fun y => { y with plan := some aPlan }) .bridge).shelf.exe.active = some (.exchange 0)
    ∧ (execOf (exchanging (fun y => { y with plan := some aPlan }) .bridge).shelf 0).plan = some aPlan
    ∧ (execOf (exchanging (fun y => { y with step := .recovery }) .bridge).shelf 0).step = .recovery
    ∧ [((4 : PortNo), Due.working true false)].find? (fun y => decide (y.1 = 4)) = some (4, .working true false)
    ∧ ([(4 : PortNo), 8].zip [(3 : Word), 0]).find? (fun y => decide (y.1 = 4)) = some (4, 3)
    ∧ pairDef.channelOf 0 = some 0 ∧ pairDef.channelOf 4 = some 1 := by decide +kernel

theorem test_exchange_values : run .exchangeValuesReturned (exchanging (fun y => { y with plan := some aPlan }) .select) (fun t =>
    decide ((t.shelf.bp.bus.bind BusUse.values) = some [0x000A9002#32, 0x00000021#32])) = true := by decide +kernel

/-- Group 0 is SHARED, its protect port 0, and its preparation due. -/
def preparing : Shelf := { (withExec (fun x => { x with prepareDue := true })).shelf with
  eng := { shelf0.eng with defs := put shelf0.eng.defs 0 (some { pairDef with shared := true }) } }

theorem test_witness_Preparation : defOf preparing 0 = some { pairDef with shared := true }
    ∧ (execOf preparing 0).prepareDue = true ∧ preparing.rdy.phase = .armed := by decide +kernel

/-- R116: a protect word of the role PROTECT-SHARED keeps its outgoing request in a preparation, another takes Idle. -/
theorem test_preparation :
    (execOf (prepareGroup 0 preparing) 0).owed = [(0, .prepared), (4, .working false false)]
    ∧ applyDue .prepared 0x0015_9203#32 = 0x0015_0003#32 ∧ applyDue .prepared 0x0015_9202#32 = 0x000A_0003#32 := by
  decide +kernel

/-- The re-probe timer of slot 11 runs; in discovery too. -/
theorem test_witness_Reprobe : at' (withShelf0 (fun x =>
      { x with bp := { x.bp with reprobe := put x.bp.reprobe 11 (some 0) } })).shelf.bp.reprobe 11 ≠ none
    ∧ armed.shelf.rdy.phase ≠ .discovery ∧ probing armed.shelf = false
    ∧ (∀ m : SlotNo, m < 11 → at' armed.shelf.bp.reprobeDue m = false) ∧ slotStateOf armed.shelf 11 = .present := by
  decide +kernel

/-- The last word of port 47's status block. -/
def lastWord (job : ScanJob) (resume : Bool) : State := withShelf0 (fun x =>
  { x with
    bp := { x.bp with bus := some ⟨.scanner, .block 11 0x1C, [3, 1000, 0], 0, 0, none⟩ }
    scan := { x.scan with job := some job, obs := put x.scan.obs 47 { cleanObs with resume := resume } } })

theorem test_witness_StatusRead : slotOf 47 = 11 ∧ statusOffset 47 = 0x1C
    ∧ (lastWord (.cyclic 47) false).shelf.bp.bus = some ⟨.scanner, .block (slotOf 47) (statusOffset 47), [3, 1000, 0], 0, 0, none⟩
    ∧ (lastWord (.attention 47) true).shelf.scan.job = some (.attention 47)
    ∧ portPresent (lastWord (.cyclic 47) false).shelf 47 = true ∧ inWindow (lastWord (.cyclic 47) false).shelf 47 = true
    ∧ isQuiet (lastWord (.cyclic 47) false).shelf = false ∧ (3 : Word).getLsbD 0 = true ∧ (3 : Word).getLsbD 1 = true := by
  decide +kernel

/-- The same last word in QUIET, and the single read of port 47's first word. -/
def quietWord : State := onShelfOf (fun x => { x with pins := { x.pins with battery := true } }) (lastWord (.cyclic 47) true)
def firstWord (quiet : Bool) : State := withShelf0 (fun x =>
  { x with
    bp := { x.bp with bus := some ⟨.scanner, .read 11 0x1C, [], 0, 0, none⟩ }
    scan := { x.scan with job := some (.cyclic 47), cycle := .running 47 true }
    pins := { x.pins with battery := quiet } })

theorem test_witness_QuietRead : isQuiet quietWord.shelf = true ∧ isQuiet (firstWord true).shelf = true
    ∧ isQuiet (firstWord false).shelf = false ∧ (firstWord true).shelf.scan.job = some (.cyclic 47)
    ∧ portPresent (firstWord true).shelf 47 = true ∧ inWindow (firstWord true).shelf 47 = true := by decide +kernel

theorem test_quiet_read : run (.cardAnswer (.ack 2)) quietWord (fun t => decide ((obsOf t.shelf 47).window = [])
      && (obsOf t.shelf 47).resume && decide ((obsOf t.shelf 47).rxGrade = some .g2)) = true
    ∧ run (.cardAnswer (.ack 1)) (firstWord true) (fun t => decide (condOf t.shelf 47 = .failed)) = true := by decide +kernel

/-- The last word of port 47's received tag. -/
def lastTagWord (cond : PortCond) : State := withShelf0 (fun x =>
  { x with
    bp := { x.bp with bus := some ⟨.scanner, .block 11 (rxTagOffset 47), [0x41414141, 0x41414141, 0x41414141], 0, 0, none⟩ }
    scan := { x.scan with job := some (.tag 47 true), obs := put x.scan.obs 47 { cleanObs with cond := cond, tagOwed := true } } })

theorem test_witness_TagRead : (lastTagWord .clean).shelf.scan.job = some (.tag 47 true)
    ∧ (condOf (lastTagWord .clean).shelf 47).lit = true ∧ (condOf (lastTagWord .dark).shelf 47).lit = false
    ∧ portPresent (lastTagWord .clean).shelf 47 = true := by decide +kernel

theorem test_tag_read : run (.cardAnswer (.ack 0x41414141)) (lastTagWord .clean) (fun t =>
      decide ((obsOf t.shelf 47).rxTag = some (List.replicate 16 0x41)) && !(obsOf t.shelf 47).tagOwed) = true
    ∧ run (.cardAnswer (.ack 0x4141417F)) (lastTagWord .clean) (fun t =>
        decide ((obsOf t.shelf 47).rxTag = some (List.replicate 16 0x20))) = true := by decide +kernel

theorem test_status_read : run (.cardAnswer (.ack 2)) (lastWord (.cyclic 47) false) (fun t =>
      decide (condOf t.shelf 47 = .degraded) && decide ((obsOf t.shelf 47).window = [1000])
      && decide ((obsOf t.shelf 47).rxGrade = some .g2)) = true
    ∧ run (.cardAnswer (.ack 9)) (lastWord (.attention 47) false) (fun t => decide (condOf t.shelf 47 = .clean)
      && decide ((obsOf t.shelf 47).carry = 1000) && decide ((obsOf t.shelf 47).rxGrade = some .gx)) = true := by
  decide +kernel

def withScan (f : Scanner → Scanner) : State := withShelf0 (fun x => { x with scan := f x.scan })

def aSetup : ScanSetup := ⟨4, 47, true, 20, false⟩

theorem test_witness_PeriodAndBattery :
    (withScan (fun c => { c with period := some 100, cycle := .waiting, pending := some aSetup })).shelf.scan.cycle = .waiting
    ∧ setupFits armed.shelf ScanSetup.default = true ∧ setupFits armed.shelf ⟨5, 40, true, 20, false⟩ = false
    ∧ (withScan (fun c => { c with period := some 100, cycle := .running 47 true })).shelf.scan.cycle = .running 47 true
    ∧ armed.shelf.scan.setup.quiet = false := by decide +kernel

/-- The scanner between its reads, with slots waiting for attention. -/
def scanAt (c : Cycle) (serving : List PortNo) (attention : List SlotNo) : Shelf := { shelf0 with
  bp := { shelf0.bp with attention := attention }, scan := { shelf0.scan with cycle := c, serving := serving, late := true } }

theorem test_witness_ScanSteps : (scanAt (.running 47 true) [47] [11]).scan.serving = 47 :: []
    ∧ portPresent (scanAt .waiting [47] []) 47 = true ∧ inWindow (scanAt .waiting [47] []) 47 = true
    ∧ (scanAt .waiting [] [11]).bp.attention = 11 :: [] ∧ (scanAt (.running 0 false) [] []).bp.attention = []
    ∧ 47 < (scanAt (.running 47 true) [] []).scan.setup.count ∧ ¬ 48 < (scanAt (.running 48 false) [] []).scan.setup.count
    ∧ (scanAt (.running 48 false) [] []).scan.late = true ∧ shelf0.scan.late = false ∧ isQuiet shelf0 = false
    ∧ portPresent Shelf.reset 47 = false := by decide +kernel

theorem test_scan_steps : (scanStep (scanAt (.running 47 false) [] [11])).scan.serving = [44, 45, 46, 47]
    ∧ (scanStep (scanAt (.running 47 true) [] [11])).bp.waitScanner = some (.block 11 0x1C)
    ∧ (scanStep (scanAt (.running 48 false) [] [])).scan.cycle = .running 0 false
    ∧ scanIdle (scanAt .waiting [] []) = true := by decide +kernel

/-! ### Fibre records and move orders -/

/-- An Edit Port Record body: port, class, the designation that the class needs, no tag. -/
def recordBody (p cls : Byte) : List Byte :=
  p :: cls :: optChars 12 (if cls = 0 then some name0 else none) ++ optChars 16 none

theorem test_witness_PortRecordIsEdited :
    AllAccepted [(.editPortRecord, recordBody 48 0, armed), (.editPortRecord, recordBody 4 1, armed),
      (.editPortRecord, recordBody 8 0, withOrders [anOrder .queued]), (.editPortRecord, recordBody 47 3, armed),
      (.editPortRecord, recordBody 47 0, armed)]
    ∧ recordOfBody (recordBody 48 0) = none ∧ recordOfBody (recordBody 47 4) = none
    ∧ recordOfBody (recordBody 4 1) = some (4, ⟨.spare, none, none⟩) ∧ isMember armed.shelf 4 = true
    ∧ inOrder (withOrders [anOrder .queued]).shelf 8 = true ∧ recOf armed.shelf 47 = ⟨.parked, none, none⟩
    ∧ isMember armed.shelf 47 = false ∧ inOrder armed.shelf 47 = false ∧ StoreTakes armed.shelf.sto :=
  ⟨allAccepted _ (by decide +kernel), by unfold StoreTakes; decide +kernel⟩

theorem test_port_record : run (.editPortRecord .a 1 (recordBody 47 0)) armed (fun t =>
      decide (recOf t.shelf 47 = ⟨.inService, some name0, none⟩) && decide (t.shelf.sto.writer = .writing)) = true
    ∧ run (.editPortRecord .a 1 (recordBody 4 1)) armed (fun t => outcomeOnA t = some 0x30) = true := by decide +kernel

/-- A Condemn Port body: port, unprotected flag and the two limits. -/
def condemnBody (p flag : Byte) : List Byte := [p, flag, 0, 60, 14, 16]

theorem test_witness_PortIsCondemned :
    AllAccepted [(.condemnPort, condemnBody 48 0, armed), (.condemnPort, condemnBody 47 0, armed),
      (.condemnPort, condemnBody 7 0, armed), (.condemnPort, condemnBody 4 0, withOrders [anOrder .queued]),
      (.condemnPort, condemnBody 4 0, armed), (.condemnPort, condemnBody 7 1, withOrders (List.replicate 8 (anOrder .queued)))]
    ∧ nat2At (condemnBody 4 0) 2 = 60 ∧ nat2At (condemnBody 4 0) 4 = 3600 ∧ classOf armed.shelf 47 ≠ .inService
    ∧ isMember armed.shelf 7 = false ∧ inOrder (withOrders [anOrder .queued]).shelf 4 = true
    ∧ classOf armed.shelf 4 = .inService ∧ isMember armed.shelf 4 = true
    ∧ (poolPorts armed.shelf).find? (fun q => decide (slotOf q ≠ slotOf 4)) = some 8 :=
  ⟨allAccepted _ (by decide +kernel), by decide +kernel⟩

/-- Port 4 waits already, and has re-entered the candidate list; the order list is full. -/
def condemnedWaiting : State := withShelf0 (fun x => { x with
  ords := { x.ords with list := List.replicate 8 (anOrder .queued |> fun o => { o with src := 5, dst := 9 }) }
  recs := { x.recs with
    condemn := put x.recs.condemn 4 (some ⟨.automatic, false, 600, 600⟩), candidates := [⟨4, 0⟩] } })

theorem test_upgrade : Accepts .a .condemnPort (condemnBody 4 0) condemnedWaiting ∧ condemnOf condemnedWaiting.shelf 4 ≠ none
    ∧ run (.condemnPort .a 1 (condemnBody 4 0)) condemnedWaiting (fun t =>
      decide ((condemnOf t.shelf 4) = some ⟨.manual, false, 60, 3600⟩)
        && decide (t.shelf.recs.candidates = [⟨4, 0⟩])) = true :=
  ⟨accepts_of (by decide +kernel), by decide +kernel⟩

theorem test_condemn : run (.condemnPort .a 1 (condemnBody 4 0)) armed (fun t => decide (outcomeOnA t = some 0)
      && decide ((condemnOf t.shelf 4) = some ⟨.manual, false, 60, 3600⟩)
      && decide (t.shelf.ords.list.map (fun o => (o.num, o.dst, o.stage)) = [(1, 8, .holding)])) = true
    ∧ run (.condemnPort .a 1 (condemnBody 7 1)) (withOrders (List.replicate 8 (anOrder .queued))) (fun t =>
        decide (t.linkA.tx.bind (fun f => f.bytes[5]?) = some 0xFF)) = true := by decide +kernel

theorem test_witness_ReassignAndIdentity :
    AllAccepted [(.setReassign, [2, 2, 15], armed), (.setReassign, [0, 9, 15], armed), (.setReassign, [0, 2, 121], armed),
      (.setReassign, [0, 2, 15], armed), (.setReassign, [1, 8, 120], armed),
      (.setShelfIdentity, List.replicate 8 0x7F, armed), (.setShelfIdentity, List.replicate 8 0x20, armed),
      (.setShelfIdentity, List.replicate 8 0x7E, armed)]
    ∧ armed.shelf.recs.reassign = ⟨false, 2, 15⟩ ∧ armed.shelf.recs.identity = List.replicate 8 0x20
    ∧ classOf armed.shelf 0 = .inService ∧ portPresent armed.shelf 0 = true ∧ StoreTakes armed.shelf.sto :=
  ⟨allAccepted _ (by decide +kernel), by unfold StoreTakes; decide +kernel⟩

/-- An Open Move Order body: source, destination, unprotected flag and the two limits. -/
def openBody (src dst flag : Byte) : List Byte := [src, dst, flag, 0, 60, 14, 16]

theorem test_witness_MoveOrderIsOpened :
    AllAccepted [(.openMoveOrder, openBody 4 48 0, armed), (.openMoveOrder, openBody 47 8 0, armed),
      (.openMoveOrder, openBody 4 47 0, armed), (.openMoveOrder, openBody 7 8 0, armed),
      (.openMoveOrder, openBody 7 9 1, withOrders (List.replicate 8 (anOrder .queued))),
      (.openMoveOrder, openBody 7 9 1, armed)]
    ∧ classOf armed.shelf 47 ≠ .inService ∧ classOf armed.shelf 8 = .spare ∧ isMember armed.shelf 7 = false
    ∧ (withOrders (List.replicate 8 (anOrder .queued))).shelf.ords.list.length = 8
    ∧ orderOf armed.shelf armed.shelf.ords.next = none :=
  ⟨allAccepted _ (by decide +kernel), by decide +kernel⟩

theorem test_open : run (.openMoveOrder .a 1 (openBody 7 9 1)) armed (fun t => decide (outcomeOnA t = some 0)
    && decide (t.shelf.ords.list.map (fun o => (o.num, o.src, o.dst, o.stage)) = [(1, 7, 9, .awaitDark)])) = true := by
  decide +kernel

/-- The counter stands at 255, and orders hold 255 and 1. -/
def numbered : State := withShelf0 (fun x => { x with ords := { x.ords with
  next := 255, list := [{ anOrder .queued with num := 1 }, { anOrder .queued with num := 255 }] } })

theorem test_witness_OrderNumber : orderOf numbered.shelf 255 ≠ none ∧ orderOf numbered.shelf 1 ≠ none
    ∧ orderOf numbered.shelf 2 = none ∧ numbered.shelf.ords.list.length < 8 := by decide +kernel

theorem test_order_number : run (.openMoveOrder .a 1 (openBody 7 9 1)) numbered (fun t =>
    decide (t.shelf.ords.list.map Order.num = [1, 255, 2]) && decide (t.shelf.ords.next = 3)) = true := by decide +kernel

theorem test_witness_OrderLeaves :
    AllAccepted [(.cancelMoveOrder, [1], armed), (.cancelMoveOrder, [1], withOrders [anOrder .completing]),
      (.cancelMoveOrder, [1], withOrders [anOrder .verifying])]
    ∧ orderOf armed.shelf 1 = none ∧ orderOf (withOrders [anOrder .completing]).shelf 1 = some (anOrder .completing)
    ∧ orderOf (withOrders [anOrder .verifying]).shelf 1 = some (anOrder .verifying)
    ∧ orderOf (withOrders [anOrder .awaitDark]).shelf 1 = some (anOrder .awaitDark)
    ∧ orderOf (withOrders [anOrder .awaitLight]).shelf 1 = some (anOrder .awaitLight) :=
  ⟨allAccepted _ (by decide +kernel), by decide +kernel⟩

theorem test_limits : run (.darkLimitExpiry 1) (withOrders [anOrder .awaitDark]) (fun t => decide (t.shelf.ords.list = [])
      && at' t.shelf.ords.expired 4) = true
    ∧ run (.lightLimitExpiry 1) (withOrders [anOrder .awaitDark]) (fun t => decide (t = withOrders [anOrder .awaitDark]))
      = true := by decide +kernel

theorem test_witness_VerifiedMove : orderOf moved.shelf 1 = some (anOrder .verifying)
    ∧ destMatched moved.shelf (anOrder .verifying) = true ∧ (anOrder .verifying).src ≠ (anOrder .verifying).dst := by
  decide +kernel

theorem test_verified : run (.verifyTimerExpiry 1) moved (fun t => decide (classOf t.shelf 8 = .inService)
    && decide (recOf t.shelf 4 = ⟨.spare, none, none⟩) && decide (defOf t.shelf 0 = some { pairDef with working := [8] }))
    = true := by decide +kernel

/-- R75: the destination's LIGHT-ON-SPARE, told while the order masked it, enters neither the table nor the history. -/
theorem test_completing : run (.verifyTimerExpiry 1) (onShelfOf (fun x => { x with alm := { x.alm with
      told := (.port 8, .lightOnSpare) :: x.alm.told } }) moved) (fun t =>
    decide (∀ r ∈ t.shelf.alm.history, r.obj ≠ some (.port 8)) && decide (∀ e ∈ t.shelf.alm.table, e.obj ≠ .port 8)) = true := by decide +kernel

/-- Port 47's condemn timer runs; auto-reassign is on. -/
def condemnDue (on : Bool) : State := withShelf0 (fun x => { x with recs := { x.recs with
  timers := put x.recs.timers 47 ⟨true, 900000, false⟩, reassign := ⟨on, 2, 15⟩ } })

theorem test_witness_CandidateAndCondemn : (at' (condemnDue true).shelf.recs.timers 47).running = true
    ∧ (at' (condemnDue false).shelf.recs.timers 47).due = false ∧ (condemnDue false).shelf.recs.reassign.on = false
    ∧ (condemnDue true).shelf.recs.reassign.on = true ∧ condemnOf (condemnDue true).shelf 47 = none
    ∧ (condemnDue true).shelf.rdy.phase = .armed := by decide +kernel

/-! ### Protection groups and the executor -/

/-- A Define Group body for a PAIR of protect and working port, hold-off 0 and WTR `wtr`. -/
def pairBody (g protect working wtr : Byte) : List Byte := [g, 0, protect, 1, 1, 0, 0, 0, wtr, working]

def selected1 : State := withRun (fun r => { r with sel := 1 })

theorem test_witness_GroupIsDefined :
    AllAccepted [(.defineGroup, pairBody 8 1 5 30, armed), (.defineGroup, pairBody 7 1 4 30, armed),
      (.defineGroup, pairBody 7 1 47 30, armed), (.defineGroup, pairBody 0 0 4 30, selected1),
      (.defineGroup, pairBody 0 0 4 30, withExec (fun x => { x with job := some ⟨.bridge, [], 1, none⟩ })),
      (.defineGroup, [7, 1, 1, 6, 0, 39, 16, 2, 208, 2, 3, 4, 5, 6, 7], armed), (.defineGroup, pairBody 7 1 5 30, armed)]
    ∧ groupOfBody (pairBody 8 1 5 30) = none ∧ groupOfBody (pairBody 7 1 5 29) = none
    ∧ groupOfBody (pairBody 7 1 4 30) = some (7, ⟨false, 1, [4], true, 0, 30⟩) ∧ memberOf armed.shelf 4 = some (0, 1)
    ∧ classOf armed.shelf 47 ≠ .inService ∧ groupState selected1.shelf 0 ≠ .idle
    ∧ hasTask (withExec (fun x => { x with job := some ⟨.bridge, [], 1, none⟩ })).shelf 0 = true
    ∧ defOf armed.shelf 7 = none ∧ StoreTakes armed.shelf.sto :=
  ⟨allAccepted _ (by decide +kernel), by unfold StoreTakes; decide +kernel⟩

theorem test_define : run (.defineGroup .a 1 (pairBody 7 1 5 30)) armed (fun t =>
      decide (defOf t.shelf 7 = some ⟨false, 1, [5], true, 0, 30⟩) && decide (groupState t.shelf 7 = .idle)) = true
    ∧ run (.defineGroup .a 1 (pairBody 7 1 4 30)) armed (fun t => outcomeOnA t = some 0x30) = true := by decide +kernel

/-- LINE1 bound to group 0. -/
def boundToGroup : State := withTim (fun t => { t with refs := put t.refs 2 ⟨⟨.group 0, 1, none⟩, false, .unusable, none, none⟩ })

theorem test_witness_GroupIsDeleted :
    AllAccepted [(.deleteGroup, [8], armed), (.deleteGroup, [7], armed), (.deleteGroup, [0], boundToGroup),
      (.deleteGroup, [0], selected1), (.deleteGroup, [0], armed)]
    ∧ 8 ≤ byteAt [8] 0 ∧ ((7 : GroupNo)).val = byteAt [7] 0 ∧ defOf armed.shelf 7 = none
    ∧ (refOf boundToGroup.shelf 2).defn.binding = .group 0 ∧ defOf armed.shelf 0 = some pairDef
    ∧ groupState armed.shelf 0 = .idle ∧ hasTask armed.shelf 0 = false ∧ StoreTakes armed.shelf.sto :=
  ⟨allAccepted _ (by decide +kernel), by unfold StoreTakes; decide +kernel⟩

theorem test_delete : run (.deleteGroup .a 1 [0]) armed (fun t => decide (defOf t.shelf 0 = none)) = true
    ∧ run (.deleteGroup .a 1 [0]) boundToGroup (fun t => outcomeOnA t = some 0x30) = true := by decide +kernel

def lineFailed1 : State := withRun (fun r => { r with list := [⟨.lineFailed, 1, none, false⟩] })
def stuck0 : State := withRun (fun r => { r with stuck := true })

theorem test_witness_OperatorRequests :
    AllAccepted [(.bar, [8], armed), (.pin, [7, 0], armed), (.pin, [0, 2], armed), (.pin, [0, 0], armed),
      (.operatorSwitch, [0, 1], lineFailed1), (.operatorSwitch, [0, 1], armed), (.clearRequests, [0], stuck0),
      (.bar, [0], armed), (.pin, [0, 1], armed)]
    ∧ defOf armed.shelf 7 = none ∧ defOf armed.shelf 0 = some pairDef ∧ byteAt [0, 2] 1 = 2
    ∧ (runOf lineFailed1.shelf 0).list = [⟨.lineFailed, 1, none, false⟩] ∧ ReqClass.lineDegraded.rank = 6
    ∧ (runOf stuck0.shelf 0).stuck = true ∧ (runOf armed.shelf 0).far = none :=
  ⟨allAccepted _ (by decide +kernel), by decide +kernel⟩

theorem test_operator : run (.operatorSwitch .a 1 [0, 1]) lineFailed1 (fun t => outcomeOnA t = some 0x32) = true
    ∧ run (.operatorSwitch .a 1 [0, 1]) armed (fun t => decide (outcomeOnA t = some 0)
      && decide (groupState t.shelf 0 = .switching)) = true := by decide +kernel

theorem test_witness_GroupFault :
    AllAccepted [(.clearGroupFault, [8], armed), (.clearGroupFault, [7], armed), (.clearGroupFault, [0], watching),
      (.clearGroupFault, [0], armed), (.clearGroupFault, [0], stuck0)]
    ∧ defOf armed.shelf 7 = none ∧ watching.shelf.rdy.phase ≠ .armed ∧ (runOf armed.shelf 0).stuck = false
    ∧ (runOf stuck0.shelf 0).stuck = true ∧ adoptionListed stuck0.shelf 0 = false :=
  ⟨allAccepted _ (by decide +kernel), by decide +kernel⟩

/-- The protect port carries channel 1; the working port's select-out bit agrees, or not. -/
def carrying (selectOut : Bool) : List (PortNo × Option Word) :=
  [(0, some 0x000A9102), (4, some (if selectOut then 0x31 else 0x11))]

theorem test_witness_Adoption : portPresent armed.shelf 4 = true ∧ portPresent State.reset.shelf 4 = false
    ∧ field (0x000A9102 : Word) 0 2 = 2 ∧ field (0x000A9102 : Word) 12 3 = 1 ∧ (0x000A9102 : Word).getLsbD 15 = true
    ∧ (execOf (exchanging id .bridge).shelf 0).job ≠ none ∧ adoptionListed (exchanging id .bridge).shelf 0 = false
    ∧ armed.shelf.rdy.phase ≠ .arming := by decide +kernel

theorem test_adoption : (let z := adoptionEnd 0 (carrying true) armed.shelf
      decide ((runOf z 0).sel = 1) && decide ((execOf z 0).owed = []) && !(runOf z 0).stuck) = true
    ∧ (runOf (adoptionEnd 0 (carrying false) armed.shelf) 0).stuck = true := by decide +kernel

theorem test_clear_fault : run (.clearGroupFault .a 1 [0]) stuck0 (fun t => decide (outcomeOnA t = some 1)
    && decide (t.shelf.exe.active = some (.adoption 0 [0, 4] []))) = true := by decide +kernel

/-- The hold-off of working port 4, whose line has failed, and the WTR timer of group 0. -/
def holdingOff : State := withShelf0 (fun x => { x with
  eng := { x.eng with holdOff := put x.eng.holdOff 4 (some 0), run := upd x.eng.run 0 (fun r => { r with wtr := some 0 }) }
  scan := { x.scan with obs := put x.scan.obs 4 { cleanObs with cond := .dark } } })

theorem test_witness_HoldOffAndWtr : at' holdingOff.shelf.eng.holdOff 4 ≠ none ∧ memberOf holdingOff.shelf 4 = some (0, 1)
    ∧ derivedClass 1 (condOf holdingOff.shelf 4) = some (.lineFailed, 1) ∧ (runOf holdingOff.shelf 0).wtr ≠ none
    ∧ defOf holdingOff.shelf 0 ≠ none := by decide +kernel

/-- A port that no group names, and one with nothing against it. -/
theorem test_witness_HoldOffWithoutClass : memberOf armed.shelf 47 = none ∧ memberOf armed.shelf 4 = some (0, 1)
    ∧ derivedClass 1 (condOf armed.shelf 4) = none
    ∧ at' (withShelf0 (fun x => { x with eng := { x.eng with holdOff := put x.eng.holdOff 47 (some 0) } })).shelf.eng.holdOff 47
      ≠ none := by decide +kernel

theorem test_wtr : run (.wtrTimerExpiry 0) (withShelf0 (fun x => { x with eng := { x.eng with
      run := upd x.eng.run 0 (fun r => { r with wtr := some 0, sel := 1, list := [⟨.settling, 1, none, false⟩] }) } })) (fun t =>
    decide ((runOf t.shelf 0).list = []) && (runOf t.shelf 0).restoreDue) = true := by decide +kernel

theorem test_hold_off : run (.holdOffTimerExpiry 4) holdingOff (fun t => decide (groupState t.shelf 0 = .switching)
    && decide ((runOf t.shelf 0).plan.isSome = true)) = true := by decide +kernel

/-- Group 0 on channel 1 with a request list, as it stands and after its evaluation. -/
def onChannel1 (l : List ReqEntry) : Shelf := (withRun (fun r => { r with sel := 1, list := l })).shelf
def judged (l : List ReqEntry) : GroupRun := runOf (evaluate 0 (onChannel1 l)) 0

/-- Group 0 is SHARED and not revertive, with a far request. -/
def sharedRun (far : Option (ReqClass × Nat)) (l : List ReqEntry) : Shelf := { shelf0 with eng := { shelf0.eng with
  defs := put shelf0.eng.defs 0 (some { pairDef with shared := true, revertive := false })
  run := upd shelf0.eng.run 0 (fun r => { r with sel := 1, far := far, list := l }) } }

/-- Group 0 awaits the far end with a plan to channel 1. -/
def awaiting : Shelf := { (withExec (fun x => { x with step := .confirmWait, confirm := some 0 })).shelf with
  eng := { shelf0.eng with run := upd shelf0.eng.run 0 (fun r => { r with plan := some 1, list := [plainEntry .barred 0] }) } }

theorem test_witness_Evaluation : defOf (onChannel1 []) 0 = some pairDef ∧ pairDef.revertive = true
    ∧ (runOf (onChannel1 []) 0).plan = none ∧ (runOf (onChannel1 []) 0).restoreDue = false ∧ (judged []).active = some (.settling, 1)
    ∧ (judged [plainEntry .remain 1]).active = some (.settling, 1) ∧ (judged [plainEntry .lineFailed 1]).active = some (.lineFailed, 1)
    ∧ (execOf awaiting 0).step = .confirmWait ∧ (execOf awaiting 0).prepareDue = false ∧ (runOf awaiting 0).plan = some 1
    ∧ (execOf shelf0 0).job = none ∧ (execOf shelf0 0).owed = [] ∧ (execOf shelf0 0).subst = none
    ∧ adoptionListed shelf0 0 = false ∧ (runOf (sharedRun (some (.pinned, 1)) []) 0).far = some (.pinned, 1) := by decide +kernel

theorem test_choice : (judged [plainEntry .barred 0, plainEntry .operator 1]).list = [plainEntry .barred 0]
    ∧ (runOf (evaluate 0 (sharedRun (some (.pinned, 1)) [plainEntry .lineFailed 1])) 0).active = some (.pinned, 1)
    ∧ (runOf (evaluate 0 (sharedRun (some (.lineFailed, 2)) [plainEntry .lineFailed 1])) 0).active = some (.lineFailed, 1)
    ∧ (runOf (evaluate 0 (sharedRun none [])) 0).list = [plainEntry .remain 1] := by decide +kernel

theorem test_waits_and_plans : (judged []).wtr = some 0
    ∧ judged [plainEntry .lineFailed 1, plainEntry .settling 1]
      = { runOf (onChannel1 [plainEntry .lineFailed 1]) 0 with active := some (.lineFailed, 1) }
    ∧ (judged [plainEntry .barred 0]).plan = some 0 ∧ (runOf (evaluate 0 awaiting) 0).plan = some 0
    ∧ (evaluate 0 (onChannel1 [plainEntry .barred 0])).exe.tasks = [.exchange 0] := by decide +kernel

def confirming : State := withExec (fun x => { x with confirm := some 0 })
def retrying : State := withExec (fun x => { x with retry := some 0, step := .retryWait, job := some ⟨.bridge, [(0, 0), (4, 1)], 1, none⟩ })
def clearing : State := withShelf0 (fun x => { x with exe := { x.exe with clearWait := some 0, clearList := [47] } })

theorem test_witness_ExecutorTimers : (execOf confirming.shelf 0).confirm ≠ none ∧ (execOf retrying.shelf 0).retry ≠ none
    ∧ (execOf retrying.shelf 0).step = .retryWait ∧ clearing.shelf.exe.clearWait ≠ none
    ∧ (47 : PortNo) ∈ clearing.shelf.exe.clearList ∧ portPresent clearing.shelf 47 = true := by decide +kernel

/-- A bridge of a plan that is taken for the first time, and a substitution formed without its source, tried again. -/
def firstTaken : Shelf := (withExec (fun x => { x with plan := some aPlan, step := .queued, job := some ⟨.bridge, [], 1, none⟩ })).shelf
def takenAgain : Shelf := (withExec (fun x => { x with
  subst := some ⟨1, 4, 8⟩, step := .queued, job := some ⟨.substDest, [(8, 1)], 2, none⟩ })).shelf

theorem test_witness_ExchangeTaken : (execOf firstTaken 0).job = some ⟨.bridge, [], 1, none⟩ ∧ (execOf firstTaken 0).plan = some aPlan
    ∧ (execOf firstTaken 0).step ≠ .recovery ∧ (execOf takenAgain 0).job = some ⟨.substDest, [(8, 1)], 2, none⟩ := by decide +kernel

/-- R111: the source's slot is PRESENT again, and the exchange still names the destination alone. -/
theorem test_exchange_taken :
    (takeTask (.exchange 0) firstTaken).bp.waitExecutor = some (.exchange [(0, controlOffset 0), (1, controlOffset 4)])
    ∧ (takeTask (.exchange 0) takenAgain).bp.waitExecutor = some (.exchange [(2, controlOffset 8)])
    ∧ (takeTask (.exchange 0) takenAgain).exe.clearList = [] := by decide +kernel

/-- The ends of a plan's exchange, of a restore and of a recovery. -/
theorem test_witness_ExchangeEnds :
    defOf (exchanging (fun y => { y with plan := some aPlan }) .bridge).shelf 0 = some pairDef
    ∧ (execOf (exchanging (fun y => { y with plan := some aPlan }) .bridge).shelf 0).step ≠ .recovery
    ∧ (execOf (exchanging (fun y => { y with subst := some ⟨1, 4, 8⟩ }) .subst).shelf 0).subst ≠ none
    ∧ (execOf (exchanging (fun y => { y with prepareDue := true }) .restore).shelf 0).prepareDue = true
    ∧ (obsOf armed.shelf 0).rxProt.map ProtWord.bridged ≠ some 1 ∧ (runOf armed.shelf 0).stuck = false := by decide +kernel

theorem test_exchange_ends :
    (let z := executorEnd (.done []) (exchanging (fun y => { y with plan := some aPlan }) .bridge).shelf;
      decide ((execOf z 0).bridged = some 1) && decide ((execOf z 0).step = .confirmWait)) = true
    ∧ (let z := executorEnd (.done []) (exchanging (fun y => { y with plan := some aPlan }) .select).shelf;
      decide ((runOf z 0).sel = 1) && decide ((execOf z 0).carried = 1)) = true
    ∧ (runOf (executorEnd (.fault .fault 0 0x40 0 0) (exchanging (fun y => { y with step := .recovery }) .bridge).shelf) 0).stuck
      = true := by decide +kernel

/-! ### Shelf timing -/

/-- A Define Reference body: reference, binding kind and number, priority, override. -/
def refBody (r kind n priority override : Byte) : List Byte := [r, kind, n, priority, override]

def forced0 : State := withTim (fun t => { t with forced := some 0 })

theorem test_witness_TimingDefinitions :
    AllAccepted [(.defineReference, refBody 5 0 0 1 0, armed), (.defineReference, refBody 2 1 47 1 0, armed),
      (.defineReference, refBody 2 2 7 1 0, armed), (.defineReference, refBody 0 0 0 0 0, armed),
      (.defineReference, refBody 0 0 0 0 0, forced0), (.defineReference, refBody 4 1 7 8 15, armed),
      (.setTimingOptions, [0, 1, 24], armed), (.setTimingOptions, [0, 10, 24], armed), (.setTimingOptions, [1, 60, 72], armed),
      (.setTimingOptions, [1, 2, 1], armed)]
    ∧ refOfBody (refBody 5 0 0 1 0) = none ∧ refOfBody (refBody 2 1 47 1 0) = some (2, ⟨.port 47, 1, none⟩)
    ∧ classOf armed.shelf 47 ≠ .inService ∧ refOfBody (refBody 2 2 7 1 0) = some (2, ⟨.group 7, 1, none⟩)
    ∧ defOf armed.shelf 7 = none ∧ refOfBody (refBody 0 0 0 0 0) = some (0, (refOf armed.shelf 0).defn)
    ∧ forced0.shelf.tim.forced = some 0 ∧ refOfBody (refBody 4 1 7 8 15) = some (4, ⟨.port 7, 8, some .gx⟩)
    ∧ armed.shelf.tim.opts = ⟨false, 10, 24⟩ ∧ StoreTakes armed.shelf.sto :=
  ⟨allAccepted _ (by decide +kernel), by unfold StoreTakes; decide +kernel⟩

theorem test_define_reference : run (.defineReference .a 1 (refBody 0 0 0 8 2)) armed (fun t =>
    decide ((refOf t.shelf 0).defn = ⟨.none, 8, some .g2⟩) && decide ((refOf t.shelf 0).state = .unusable)) = true := by
  decide +kernel

theorem test_witness_LockOutAndForce :
    AllAccepted [(.lockOutReference, [5, 0], armed), (.lockOutReference, [4, 2], armed), (.lockOutReference, [4, 0], armed),
      (.lockOutReference, [4, 1], armed), (.forceReference, [0xFF], armed), (.forceReference, [5], armed),
      (.forceReference, [4], armed), (.forceReference, [0], withBc1 .usable)]
    ∧ byteAt [4, 1] 1 = true.toNat ∧ (refOf armed.shelf 4).locked = false ∧ (refOf armed.shelf 4).state ≠ .usable
    ∧ (refOf (withBc1 .usable).shelf 0).state = .usable :=
  ⟨allAccepted _ (by decide +kernel), by decide +kernel⟩

theorem test_force : run (.forceReference .a 1 [0]) (withBc1 .usable) (fun t => decide (t.shelf.tim.sel = some 0)
      && decide (t.shelf.tim.st = .acquiring)) = true
    ∧ run (.lockOutReference .a 1 [0, 1]) (withBc1 .usable) (fun t => decide ((refOf t.shelf 0).state = .unusable)) = true := by
  decide +kernel

theorem test_witness_TimingTimers : (refOf (withBc1 .qualifying).shelf 0).state = .qualifying
    ∧ refEnabled (withBc1 .qualifying).shelf 0 = true ∧ hasCause (withBc1 .qualifying).shelf 0 = false
    ∧ derivationPort (withBc1 .qualifying).shelf 0 = (refOf (withBc1 .qualifying).shelf 0).deriv
    ∧ (withTim (fun t => { t with st := .acquiring, sel := some 0 })).shelf.tim.st = .acquiring
    ∧ (withTim (fun t => { t with lockedFor := some 0 })).shelf.tim.lockedFor ≠ none
    ∧ (withTim (fun t => { t with st := .holdover })).shelf.tim.st = .holdover := by decide +kernel

theorem test_witness_BuildingInputs : (refOf (withBc1 .unusable).shelf 0).deriv = none
    ∧ (refOf (withBc1 .unusable).shelf 0).defn.priority ≠ 0 ∧ (refOf armed.shelf 0).defn.priority = 0
    ∧ (refOf (withBc1 .unusable).shelf 0).defn.override ≠ some .gx ∧ (refOf (withBc1 .unusable).shelf 0).locked = false := by
  decide +kernel

theorem test_building_input : run (.buildingClockInputChange .bc1 true) (withBc1 .unusable) (fun t =>
    decide ((refOf t.shelf 0).state = .qualifying) && decide ((refOf t.shelf 0).qual = some 0)) = true := by decide +kernel

theorem test_timing : run (.qualificationTimerExpiry 0) (withBc1 .qualifying) (fun t =>
      decide ((refOf t.shelf 0).state = .usable) && decide (t.shelf.tim.sel = some 0)) = true
    ∧ run (.buildingClockInputChange .bc1 false) (withBc1 .usable) (fun t =>
        decide ((refOf t.shelf 0).state = .unusable) && !t.shelf.pins.bc1) = true := by decide +kernel

/-- BC1 and BC2 USABLE with their overrides and priorities, and one of them selected or none. -/
def twoFeeds (a b : Grade) (pa pb : Nat) (sel : Option RefNo) (revertive valid : Bool) : Shelf := { shelf0 with
  pins := { shelf0.pins with bc1 := true, bc2 := true }
  tim := { shelf0.tim with
    refs := put (put shelf0.tim.refs 0 ⟨⟨.none, pa, some a⟩, false, .usable, none, none⟩) 1 ⟨⟨.none, pb, some b⟩, false, .usable, none, none⟩
    sel := sel, valid := valid, opts := { shelf0.tim.opts with revertive := revertive } } }

theorem test_witness_TimingChoice : (timingRun (twoFeeds .g2 .g2 1 2 (some 1) false true)).tim.forced = none
    ∧ (refOf (timingRun (twoFeeds .g2 .g2 1 2 (some 1) false true)) 0).state = .usable
    ∧ (refOf (timingRun shelf0) 0).state ≠ .usable ∧ (twoFeeds .g2 .g1 1 2 (some 0) false true).tim.valid = true := by decide +kernel

theorem test_timing_choice : (timingRun (twoFeeds .g2 .g2 1 2 (some 1) false true)).tim.sel = some 1
    ∧ (timingRun (twoFeeds .g2 .g2 1 2 (some 1) true true)).tim.sel = some 0
    ∧ (timingRun (twoFeeds .g2 .g1 1 2 (some 0) false true)).tim.sel = some 1
    ∧ (timingRun (twoFeeds .g2 .g2 8 8 none false true)).tim.sel = some 0
    ∧ (timingRun { twoFeeds .gx .gx 1 1 (some 0) false true with pins := shelf0.pins }).tim.st = .holdover := by decide +kernel

/-! ### Alarms and the record store -/

theorem test_witness_Acknowledge :
    AllAccepted [(.acknowledge, [5, 0xFF, 0xFF], withTable [anEntry .raised true]),
      (.acknowledge, [5, 0xFF, 0xFF], withTable [anEntry .falling false]), (.acknowledge, [4, 48, 15], armed),
      (.acknowledge, [4, 47, 15], armed), (.acknowledge, [4, 47, 15], withTable [anEntry .rising false]),
      (.acknowledge, [4, 47, 15], withTable [anEntry .raised true]),
      (.acknowledge, [4, 47, 15], withTable [anEntry .raised false])]
    ∧ ackTarget [4, 48, 15] = none ∧ ackTarget [4, 47, 15] = some (.port 47, .lossOfLight)
    ∧ entryOf armed.shelf (.port 47) .lossOfLight = none
    ∧ entryOf (withTable [anEntry .rising false]).shelf (.port 47) .lossOfLight = some (anEntry .rising false)
    ∧ (anEntry .falling false).state ≠ .rising ∧ (anEntry .falling false).acked = false :=
  ⟨allAccepted _ (by decide +kernel), by decide +kernel⟩

theorem test_acknowledge : run (.acknowledge .a 1 [5, 0xFF, 0xFF]) (withTable [anEntry .falling false]) (fun t =>
    decide (t.shelf.alm.table = [anEntry .falling true]) && decide (t.shelf.alm.history.length = 1)) = true := by
  decide +kernel

theorem test_witness_ConditionSetting :
    AllAccepted [(.setCondition, [24, 0, 0, 0, 0, 0], armed), (.setCondition, [0, 0, 0, 1, 0, 0], armed),
      (.setCondition, [23, 2, 0, 25, 0, 10], armed), (.setCondition, [23, 3, 2, 88, 1, 44], armed)]
    ∧ (Cond.code .moveExpired).val = byteAt [23, 3, 2, 88, 1, 44] 0 ∧ Severity.warning.code = byteAt [23, 3, 2, 88, 1, 44] 1
    ∧ nat2At [23, 3, 2, 88, 1, 44] 2 = 600 ∧ nat2At [23, 3, 2, 88, 1, 44] 4 = 300
    ∧ settingOf armed.shelf .moveExpired = ⟨.minor, 25, 10⟩ ∧ StoreTakes armed.shelf.sto :=
  ⟨allAccepted _ (by decide +kernel), by unfold StoreTakes; decide +kernel⟩

theorem test_condition : run (.setCondition .a 1 [23, 3, 2, 88, 1, 44]) armed (fun t =>
    decide (settingOf t.shelf .moveExpired = ⟨.warning, 600, 300⟩)) = true := by decide +kernel

theorem test_witness_Soaks : entryOf (withTable [anEntry .rising false]).shelf (.port 47) .lossOfLight = some (anEntry .rising false)
    ∧ entryOf (withTable [anEntry .falling true]).shelf (.port 47) .lossOfLight = some (anEntry .falling true)
    ∧ ((Obj.port 47, Cond.lossOfLight) ∉ (withTable [anEntry .falling true]).shelf.alm.eff) := by decide +kernel

theorem test_soaks : run (.raiseSoakExpiry (.port 47) .lossOfLight) (withTable [anEntry .rising false]) (fun t =>
      lampOn t.shelf.alm.table .critical && audibleOn t.shelf.alm.table t.shelf.alm.cutOff) = true := by decide +kernel

theorem test_clear_soak : run (.clearSoakExpiry (.port 47) .lossOfLight) (withTable [anEntry .falling true]) (fun t =>
    decide (t.shelf.alm.table = [])) = true := by decide +kernel

/-- 95 ordinary entries: `first`, and 94 of other ports and conditions. -/
def crowded (first : AlarmEntry) : Shelf :=
  (withTable (first :: (List.finRange 48).map (fun p => { anEntry .raised false with obj := .port p, cond := .tagMismatch })
    ++ ((List.finRange 48).take 46).map (fun p => { anEntry .raised false with obj := .port p, cond := .degraded }))).shelf

/-- A raised entry that may be evicted. -/
def evictable : AlarmEntry := ⟨.port 47, .lightOnSpare, .minor, .raised, true, some 0, 1, none⟩

theorem test_witness_Newcomers : masked armed.shelf (.port 5) .lossOfLight = false
    ∧ entryOf armed.shelf (.port 5) .lossOfLight = none ∧ (Obj.port 5, Cond.lossOfLight) ∉ armed.shelf.alm.eff
    ∧ usedCount armed.shelf.alm.table < 95 ∧ 95 ≤ usedCount (crowded evictable).alm.table
    ∧ entryOf (crowded evictable) (.port 5) .lossOfLight = none
    ∧ (settingOf (crowded evictable) .lossOfLight).sev = .major
    ∧ (crowded evictable).alm.table = [] ++ evictable :: (crowded evictable).alm.table.tail
    ∧ masked armed.shelf (.port 47) .lossOfLight = true := by decide +kernel

/-- Port 5's entry in each state: not masked, in a table that is in its places. -/
theorem test_witness_Transitions : ∀ st ∈ [EntryState.rising, .raised, .falling],
    let x := (withTable [{ anEntry st true with obj := .port 5 }]).shelf
    entryOf x (.port 5) .lossOfLight = some { anEntry st true with obj := .port 5 } ∧ masked x (.port 5) .lossOfLight = false
    ∧ usedCount x.alm.table ≤ 95 ∧ (x.alm.table.map AlarmEntry.key).Nodup ∧ AlarmsOk x.alm := by
  unfold AlarmsOk
  decide +kernel

theorem test_eviction : (let y := report (.port 5) .lossOfLight true (crowded evictable)
      decide (entryOf y (.port 47) .lightOnSpare = none) && decide ((entryOf y (.port 5) .lossOfLight).isSome = true)
        && decide ((entryOf y .shelf .tableFull).isSome = true)) = true
    ∧ (report (.port 5) .lossOfLight true (crowded (anEntry .raised false))).alm.table.length = 96 := by decide +kernel

theorem test_report : (let y := report (.port 5) .lossOfLight true armed.shelf
      let back := report (.port 5) .lossOfLight false y
      decide ((entryOf y (.port 5) .lossOfLight).map AlarmEntry.state = some .rising)
        && decide (entryOf back (.port 5) .lossOfLight = none)) = true
    ∧ entryOf (report (.port 47) .lossOfLight true (withTable [anEntry .raised false]).shelf) (.port 47) .lossOfLight = none := by
  decide +kernel

theorem test_witness_Commit :
    AllAccepted [(.commit, [], withStore (fun t => { t with writer := .stopped })), (.commit, [], armed),
      (.commit, [], withStore (fun t => { t with list := [anEdit], writer := .writing, marks := [1] })),
      (.commit, [], withStore (fun t => { t with list := [anEdit], writer := .writing, marks := [2, 3, 4, 5] })),
      (.commit, [], withStore (fun t => { t with list := [anEdit], writer := .writing, marks := [2, 3, 4] }))] :=
  allAccepted _ (by decide +kernel)

theorem test_commit : run (.commit .a 1 []) (withStore (fun t => { t with list := [anEdit], writer := .writing }))
    (fun t => decide (outcomeOnA t = some 1) && decide (t.shelf.sto.marks = [1])) = true := by decide +kernel

/-- Link A's reply waits for the edit being written. -/
def writing (w : Writer) : State :=
  { withStore (fun t => { t with list := [anEdit], writer := w }) with
    linkA := { armed.linkA with held := some ⟨0x23, 9, false, .awaiting 1 ⟨.done, []⟩⟩ } }

theorem test_witness_Writes : (writing .writing).shelf.sto.list = anEdit :: [] ∧ (writing .retrying).shelf.sto.writer = .retrying
    ∧ (linkOf (writing .retrying) .a).held = some ⟨0x23, 9, false, .awaiting anEdit.num ⟨.done, []⟩⟩
    ∧ (linkOf (writing .writing) .a).tx = none ∧ (writing .writing).shelf.recs.held = []
    ∧ (writing .writing).shelf.eng.held = [] ∧ (writing .writing).shelf.tim.held = [] := by decide +kernel

theorem test_writes : run .storeWriteComplete (writing .writing) (fun t => decide (outcomeOnA t = some 0)
      && decide (t.shelf.sto.nvm.thresholds = .value ⟨900, 100⟩) && decide (t.shelf.sto.writer = .idle)) = true
    ∧ run .storeWriteFailed (writing .retrying) (fun t => decide (outcomeOnA t = some 0x34)
      && decide (t.shelf.sto.writer = .stopped)) = true := by decide +kernel

/-- The edit being written is marked, the list behind it is full, and the records and the engine each hold an edit. -/
def marked : State := withShelf0 (fun x => { x with
  sto := { x.sto with list := anEdit :: List.replicate 31 anEdit, writer := .writing, marks := [1], counter := 65535 }
  recs := { x.recs with held := [⟨2, .identity []⟩] }
  eng := { x.eng with held := [⟨1, .groupDef 7 none⟩] } })

theorem test_witness_MarksAndHeldEdits : marked.shelf.sto.list = anEdit :: List.replicate 31 anEdit
    ∧ marked.shelf.sto.marks = anEdit.num :: [] ∧ heldBy .engine marked.shelf = ⟨1, .groupDef 7 none⟩ :: []
    ∧ (List.replicate 31 anEdit).length < 32 ∧ (heldBy .records marked.shelf).head? = some ⟨2, .identity []⟩
    ∧ (heldBy .timing marked.shelf).head? = none := by decide +kernel

theorem test_marks : run .storeWriteComplete marked (fun t => decide (t.shelf.sto.marks = [])
    && decide (t.shelf.sto.list.getLast? = some ⟨65535, .groupDef 7 none⟩) && decide (t.shelf.sto.counter = 1)
    && decide (t.shelf.eng.held = []) && decide (t.shelf.recs.held.length = 1)) = true := by decide +kernel

/-- The scanner waits beside a probe and the executor, passed over `n` times. -/
def crowdedBus (n : Nat) : Shelf := { shelf0 with bp := { shelf0.bp with
  probeWaiting := some 5, waitExecutor := some (.read 1 0x40), waitScanner := some (.block 11 0x1C), waitCount := n } }

theorem test_witness_Grants : (crowdedBus 8).bp.bus = none ∧ (crowdedBus 8).bp.waitScanner = some (.block 11 0x1C)
    ∧ (crowdedBus 8).bp.waitCount = 8 ∧ (crowdedBus 7).bp.waitCount ≠ 8 ∧ (crowdedBus 7).bp.probeWaiting = some 5 := by
  decide +kernel

theorem test_grants : (grant (crowdedBus 8)).bp.bus = some ⟨.scanner, .block 11 0x1C, [], 0, 0, none⟩
    ∧ (grant (crowdedBus 7)).bp.bus = some ⟨.backplane, .read 5 0, [], 0, 0, none⟩ ∧ (grant (crowdedBus 7)).bp.waitCount = 8
    ∧ (grant (crowdedBus 8)).bp.waitCount = 0 := by decide +kernel

/-- A tag write at its second word and at its last, whose port has changed meanwhile or not. -/
def tagWriting (word : Nat) (changed : Bool) : Shelf :=
  { shelf0 with recs := { shelf0.recs with tagWrite := some ⟨4, word, changed⟩, tagList := [5] } }

theorem test_tag_writes : (tagWriteEnd (.done []) (tagWriting 3 true)).recs.tagList = [5, 4]
    ∧ (tagWriteEnd (.done []) (tagWriting 3 false)).recs.tagList = [5]
    ∧ (tagWriteEnd (.done []) (tagWriting 1 false)).recs.tagWrite = some ⟨4, 2, false⟩
    ∧ (tagWriteEnd (.fault .timeout 1 0x40 0 0) (tagWriting 1 false)).recs.tagList = [5, 4]
    ∧ (serveRecords { shelf0 with recs := { shelf0.recs with tagList := [4] } }).recs.tagWrite = some ⟨4, 0, false⟩ := by
  decide +kernel

/-- Port 4's grade is owed and listed behind port 3's, which is equal; or its write is in progress. -/
def gradeListed : Shelf := { shelf0 with tim := { shelf0.tim with
  list := [3, 4], planned := put shelf0.tim.planned 4 .gx, written := put shelf0.tim.written 3 (some (at' shelf0.tim.planned 3)) } }
def gradeWriting : Shelf := { gradeListed with tim := { gradeListed.tim with list := [3], writing := some (4, .g2) } }

theorem test_grade_writes : (serveTiming gradeListed).tim.writing = some (4, .gx) ∧ (serveTiming gradeListed).tim.list = []
    ∧ (gradeWriteEnd (.done []) gradeWriting).tim.list = [4, 3]
    ∧ at' (gradeWriteEnd (.done []) gradeWriting).tim.written 4 = some .g2
    ∧ at' (gradeWriteEnd (.fault .timeout 1 0x40 0 0) gradeWriting).tim.written 4 = none := by decide +kernel

end Sys2Proof.Machine.Tests
end

/-! The claim and the craft code (R160, R161, R166): an equation per case of each owning block's rule, and the three
statements assembled from them with what Laws/Links.lean says of an accepted request. -/

namespace Sys2Proof.Machine

/-! ### The claim (R160, R161) -/

section Claim
variable {l : Link} {s : State}

theorem handleClaim_of_unclaimed (h : s.lock.holder = .none) :
    handleClaim l s = (setHolder (holderOf l) .claim s, done [0#8]) := if_pos h

theorem handleClaim_of_holder (h : s.lock.holder = holderOf l) : handleClaim l s = (s, done [1#8]) := by
  have hne : s.lock.holder ≠ .none := by rw [h]; cases l <;> decide
  rw [handleClaim, if_neg hne, if_pos h]

theorem handleClaim_of_other (hne : s.lock.holder ≠ .none) (h : s.lock.holder ≠ holderOf l) :
    handleClaim l s = (s, done [2#8]) := by rw [handleClaim, if_neg hne, if_neg h]

theorem handleRelease_of_holder (h : s.lock.holder = holderOf l) :
    handleRelease l s = (setHolder .none .release s, done [0#8]) := if_pos h

theorem handleRelease_of_other (h : s.lock.holder ≠ holderOf l) : handleRelease l s = (s, done [1#8]) := if_neg h

end Claim

/-- R162: a change of the claim holder within a request changes the work lock's record and the notices made. -/
theorem setHolder_holding (h : Holder) (c : ClaimCause) (l : Link) (k : ReqKind) (tag : Byte) (s : State) :
    setHolder h c (holding l k tag s)
      = { holding l k tag s with shelf := tell (.claim h c) s.shelf, lock := { s.lock with holder := h } } := by
  simp [setHolder]

/-- Settles O19: Claim answers by the three cases of its claim holder. -/
theorem claimIsTestAndSet : Obligations.ClaimIsTestAndSet := by
  intro l tag body s hacc
  refine ⟨fun hfree => ?_, fun hown => ?_, fun hne hother => ?_⟩
  · refine exec_accepts (k := .claim) (a := done [0#8]) hacc rfl ?_
    rw [← setHolder_holding]
    exact handleClaim_of_unclaimed (by simpa using hfree)
  · exact exec_accepts_same (k := .claim) (a := done [1#8]) hacc rfl (handleClaim_of_holder (by simpa using hown))
  · exact exec_accepts_same (k := .claim) (a := done [2#8]) hacc rfl
      (handleClaim_of_other (by simpa using hne) (by simpa using hother))

/-- Settles O20: Release answers by whether its link holds the claim. -/
theorem releaseFreesTheClaim : Obligations.ReleaseFreesTheClaim := by
  intro l tag body s hacc
  refine ⟨fun hown => ?_, fun hother => ?_⟩
  · refine exec_accepts (k := .release) (a := done [0#8]) hacc rfl ?_
    rw [← setHolder_holding]
    exact handleRelease_of_holder (by simpa using hown)
  · exact exec_accepts_same (k := .release) (a := done [1#8]) hacc rfl (handleRelease_of_other (by simpa using hother))

/-! ### The craft code (R166) -/

/-- A change of the work lock within a request whose edit has been appended. -/
theorem setLock_holding (f : WorkLock → WorkLock) (x : Shelf) (l : Link) (k : ReqKind) (tag : Byte) (s : State) :
    setLock f { holding l k tag s with shelf := x } = { holding l k tag s with shelf := x, lock := f s.lock } := by
  simp [setLock]

section CraftCode
variable {b : List Byte} {s : State}

theorem handleSetCraftCode_of_frozen (hf : s.lock.frozen = true) :
    handleSetCraftCode b s = (s, refuse .frozen) := by simp [handleSetCraftCode, hf]

theorem handleSetCraftCode_of_locked (hf : s.lock.frozen = false) (hm : s.lock.mode = .locked) :
    handleSetCraftCode b s = (s, refuse .locked) := by simp [handleSetCraftCode, hf, hm]

theorem handleSetCraftCode_of_equal (hf : s.lock.frozen = false) (hm : s.lock.mode = .opened)
    (hc : s.lock.code = some b) : handleSetCraftCode b s = (s, done []) := by simp [handleSetCraftCode, hf, hm, hc]

/-- R166: in UNGUARDED, and in OPEN with another code, Set Craft Code changes the stored code. -/
theorem handleSetCraftCode_of_change (hf : s.lock.frozen = false)
    (hm : s.lock.mode = .unguarded ∨ s.lock.mode = .opened ∧ s.lock.code ≠ some b) :
    handleSetCraftCode b s = storeChange (.craftCode (some b)) []
      (setLock (fun k => { k with code := some b, mode := .opened })) s := by
  obtain hu | ⟨ho, hc⟩ := hm
  · simp [handleSetCraftCode, hf, hu]
  · simp [handleSetCraftCode, hf, ho, hc]

/-- R166, R167: below the limit a mismatch counts one more, and the fifth answers EXPIRED. -/
theorem countMismatch_of_lt {o : Outcome} (h : s.lock.count < 5) :
    countMismatch o s = ({ s with lock := { s.lock with count := s.lock.count + 1 } },
      refuse (if s.lock.count = 4 then .expired else o)) := by
  simp [countMismatch, setLock, bump, Config.unlockMax, h]

theorem handleClearCraftCode_of_frozen (hf : s.lock.frozen = true) :
    handleClearCraftCode b s = (s, refuse .frozen) := by simp [handleClearCraftCode, hf]

theorem handleClearCraftCode_of_expired (hf : s.lock.frozen = false) (hn : s.lock.count = 5) :
    handleClearCraftCode b s = (s, refuse .expired) := by simp [handleClearCraftCode, hf, hn, Config.unlockMax]

theorem handleClearCraftCode_of_unguarded (hf : s.lock.frozen = false) (hn : s.lock.count < 5)
    (hm : s.lock.mode = .unguarded) : handleClearCraftCode b s = (s, refuse .conflict) := by
  simp [handleClearCraftCode, Config.unlockMax, hf, Nat.ne_of_lt hn, hm]

theorem handleClearCraftCode_of_locked (hf : s.lock.frozen = false) (hn : s.lock.count < 5)
    (hm : s.lock.mode = .locked) : handleClearCraftCode b s = (s, refuse .locked) := by
  simp [handleClearCraftCode, Config.unlockMax, hf, Nat.ne_of_lt hn, hm]

theorem handleClearCraftCode_of_equal (hf : s.lock.frozen = false) (hn : s.lock.count < 5)
    (hm : s.lock.mode = .opened) (hc : s.lock.code = some b) :
    handleClearCraftCode b s = storeChange (.craftCode none) []
      (setLock (fun k => { k with code := none, mode := .unguarded })) s := by
  simp [handleClearCraftCode, Config.unlockMax, hf, Nat.ne_of_lt hn, hm, hc]

theorem handleClearCraftCode_of_other (hf : s.lock.frozen = false) (hn : s.lock.count < 5)
    (hm : s.lock.mode = .opened) (hc : s.lock.code ≠ some b) :
    handleClearCraftCode b s = countMismatch .conflict s := by
  simp [handleClearCraftCode, Config.unlockMax, hf, Nat.ne_of_lt hn, hm, hc]

end CraftCode

section Requests
variable {l : Link} {tag : Byte} {body : List Byte} {s : State}

/-- R166, R171, R173: where Set Craft Code changes the code, its edit decides the reply. -/
theorem setCraftCode_stored (hacc : Accepts l .setCraftCode body s) (hf : s.lock.frozen = false)
    (hm : s.lock.mode = .unguarded ∨ s.lock.mode = .opened ∧ s.lock.code ≠ some body) :
    StoredChange (.setCraftCode l tag body) l .setCraftCode tag []
      { s with lock := { s.lock with code := some body, mode := .opened }
               shelf := editing (.craftCode (some body)) s.shelf } s :=
  storeChange_stored (k := .setCraftCode) hacc
    (handleSetCraftCode_of_change (by simpa using hf) (by simpa using hm)) fun _ => setLock_holding ..

/-- R166, R171, R173: where Clear Craft Code clears the code, its edit decides the reply. -/
theorem clearCraftCode_stored (hacc : Accepts l .clearCraftCode body s) (hf : s.lock.frozen = false)
    (hn : s.lock.count < 5) (hm : s.lock.mode = .opened) (hc : s.lock.code = some body) :
    StoredChange (.clearCraftCode l tag body) l .clearCraftCode tag []
      { s with lock := { s.lock with code := none, mode := .unguarded }
               shelf := editing (.craftCode none) s.shelf } s :=
  storeChange_stored (k := .clearCraftCode) hacc
    (handleClearCraftCode_of_equal (by simpa using hf) (by simpa using hn) (by simpa using hm) (by simpa using hc))
    fun _ => setLock_holding ..

/-- R166: in OPEN a Clear Craft Code with another body takes a count. -/
theorem clearCraftCode_counts (hacc : Accepts l .clearCraftCode body s) (hf : s.lock.frozen = false)
    (hn : s.lock.count < 5) (hm : s.lock.mode = .opened) (hc : s.lock.code ≠ some body) :
    exec (.clearCraftCode l tag body) s
      = .next (taken l .clearCraftCode tag (formed (if s.lock.count = 4 then .expired else .conflict) []) s.shelf
          { s with lock := { s.lock with count := s.lock.count + 1 } }) := by
  refine exec_accepts_lock (k := .clearCraftCode) (a := refuse (if s.lock.count = 4 then .expired else .conflict)) hacc
    rfl ?_
  have hmis := handleClearCraftCode_of_other (b := body) (s := holding l .clearCraftCode tag s) (by simpa using hf)
    (by simpa using hn) (by simpa using hm) (by simpa using hc)
  simpa [handlerOf] using hmis.trans (countMismatch_of_lt (by simpa using hn))

end Requests

/-- Settles O22: each of the two requests by the frozen flag, the count, the mode and the code. -/
theorem craftCodeChanges : Obligations.CraftCodeChanges := by
  intro l tag body s
  refine ⟨fun hacc => ?set, fun hacc => ?clear⟩
  case set =>
    have same (a : Answer) (hr : a.restart = false) := exec_accepts_same (tag := tag) (a := a) hacc hr
    refine ⟨fun hf => ?_, fun hf => ⟨fun hm => ?_, fun hm => ?_, fun hm hc => ?_, fun hm hc => ?_⟩⟩
    · exact same (refuse .frozen) rfl (handleSetCraftCode_of_frozen (by simpa using hf))
    · exact same (refuse .locked) rfl (handleSetCraftCode_of_locked (by simpa using hf) (by simpa using hm))
    · exact setCraftCode_stored hacc hf (.inl hm)
    · exact same (done []) rfl
        (handleSetCraftCode_of_equal (by simpa using hf) (by simpa using hm) (by simpa using hc))
    · exact setCraftCode_stored hacc hf (.inr ⟨hm, hc⟩)
  case clear =>
    have same (o : Outcome) := exec_accepts_same (tag := tag) (a := refuse o) hacc rfl
    refine ⟨fun hf => ?_, fun hf hn => ?_, fun hf hn =>
      ⟨fun hm => ?_, fun hm => ?_, fun hm hc => ?_, fun hm hc => ?_⟩⟩
    · exact same .frozen (handleClearCraftCode_of_frozen (by simpa using hf))
    · exact same .expired (handleClearCraftCode_of_expired (by simpa using hf) (by simpa using hn))
    · exact same .conflict
        (handleClearCraftCode_of_unguarded (by simpa using hf) (by simpa using hn) (by simpa using hm))
    · exact same .locked (handleClearCraftCode_of_locked (by simpa using hf) (by simpa using hn) (by simpa using hm))
    · exact clearCraftCode_stored hacc hf hn hm hc
    · exact clearCraftCode_counts hacc hf hn hm hc

end Sys2Proof.Machine

/-! Start-up and restart (R182, R184): what a hard reset keeps by the retain flag, and how shelf time and the times held
in it move. -/

namespace Sys2Proof.Machine

/-! ### What a reset keeps (R182) -/

section Retain
variable (cause : ResetCause) (s : Shelf)

/-- R103, R182: of a group's request list a hard reset keeps the Barred and Pinned entries, with the flag set alone. -/
theorem kept_list (retain : Bool) (r : GroupRun) : (GroupRun.kept retain r).list
    = if retain then r.list.filter (fun e => decide (e.cls = .barred) || decide (e.cls = .pinned)) else [] := rfl

theorem hardReset_setup : (s.hardReset cause).scan.setup
    = if s.rdy.opts.retain then s.scan.setup else ScanSetup.default := by
  obtain ⟨-, hscan, -⟩ := hardReset_blocks cause s
  rw [hscan, Scanner.reset]

theorem hardReset_run (g : GroupNo) :
    runOf (s.hardReset cause) g = GroupRun.kept s.rdy.opts.retain (runOf s g) := by
  obtain ⟨-, -, -, -, heng, -⟩ := hardReset_blocks cause s
  rw [runOf, heng, Engine.reset, at'_mapAll, runOf]

theorem hardReset_locked (r : RefNo) : (refOf (s.hardReset cause) r).locked
    = (s.rdy.opts.retain && (refOf s r).locked) := by
  obtain ⟨-, -, -, -, -, -, -, -, -, ⟨v, htim, hrefs⟩, -⟩ := hardReset_blocks cause s
  obtain ⟨-, hlocked⟩ := hrefs r
  rw [refOf, htim, hlocked]

theorem hardReset_forced : (s.hardReset cause).tim.forced = if s.rdy.opts.retain then s.tim.forced else none := by
  obtain ⟨-, -, -, -, -, -, -, -, -, ⟨v, htim, -⟩, -⟩ := hardReset_blocks cause s
  rw [htim, Timing.reset]

theorem powerOn_setup : s.powerOn.scan.setup = ScanSetup.default := by
  obtain ⟨-, hscan, -⟩ := powerOn_blocks s
  rw [hscan, Scanner.reset]

theorem powerOn_run (g : GroupNo) : runOf s.powerOn g = GroupRun.fresh := by
  obtain ⟨-, -, -, -, heng, -⟩ := powerOn_blocks s
  rw [runOf, heng, Engine.reset, at'_replicate]

theorem powerOn_locked (r : RefNo) : (refOf s.powerOn r).locked = false := by
  obtain ⟨-, -, -, -, -, -, -, -, -, ⟨v, htim, hrefs⟩, -⟩ := powerOn_blocks s
  obtain ⟨-, hlocked⟩ := hrefs r
  rw [refOf, htim, hlocked]

theorem powerOn_forced : s.powerOn.tim.forced = none := by
  obtain ⟨-, -, -, -, -, -, -, -, -, ⟨v, htim, -⟩, -⟩ := powerOn_blocks s
  rw [htim, Timing.reset]

end Retain

/-! ### The state after a reset -/

theorem exec_hardReset (s : State) : exec .hardReset s = .next (takeHardReset .pin s) := rfl
theorem exec_powerOnReset (s : State) : exec .powerOnReset s = .next (deliverOut (powerOn s)) := rfl

theorem exec_linkReset (l : Link) (s : State) : exec (.linkReset l) s = .next (linkReset l s) := rfl

theorem takeHardReset_shelf (cause : ResetCause) (s : State) :
    (takeHardReset cause s).shelf = { s.shelf.hardReset cause with out := [] } := deliverOut_shelf _

theorem deliverOut_powerOn_shelf (s : State) :
    (deliverOut (powerOn s)).shelf = { s.shelf.powerOn with out := [] } := deliverOut_shelf _

@[simp] theorem runOf_withOut (x : Shelf) (l : List Notice) (g : GroupNo) :
    runOf { x with out := l } g = runOf x g := rfl
@[simp] theorem refOf_withOut (x : Shelf) (l : List Notice) (r : RefNo) :
    refOf { x with out := l } r = refOf x r := rfl

/-- Settles O7: item by item, by the retain flag before the hard reset. -/
theorem retainFlagDecides : Obligations.RetainFlagDecides := by
  intro s
  refine ⟨_, _, exec_hardReset s, exec_powerOnReset s, ?_⟩
  rw [takeHardReset_shelf, deliverOut_powerOn_shelf]
  refine ⟨fun hset => ?kept, fun hclear => ?cleared, ?setup, fun g => ?list, fun r => ?locked, ?forced⟩
  case kept =>
    exact ⟨by simp [hardReset_setup, hset], fun g => by simp [hardReset_run, kept_list, hset],
      fun r => by simp [hardReset_locked, hset], by simp [hardReset_forced, hset]⟩
  case cleared =>
    exact ⟨by simp [hardReset_setup, hclear, ScanSetup.default], fun g => by simp [hardReset_run, kept_list, hclear],
      fun r => by simp [hardReset_locked, hclear], by simp [hardReset_forced, hclear]⟩
  case setup => simp [powerOn_setup, ScanSetup.default]
  case list => rw [runOf_withOut, powerOn_run, GroupRun.fresh]
  case locked => rw [refOf_withOut, powerOn_locked]
  case forced => simp [powerOn_forced]

/-! ### Shelf time (R184) -/

/-- R184: a power-on reset sets the base and the time counted to 0. -/
theorem powerOn_time (s : Shelf) : s.powerOn.rdy.base = 0 ∧ s.powerOn.rdy.ms = 0 := by
  obtain ⟨-, -, -, -, -, -, hrdy, -⟩ := powerOn_blocks s
  rw [hrdy]
  exact ⟨rfl, rfl⟩

/-- R184: a hard reset sets the time counted to 0 and keeps the base. -/
theorem hardReset_time (cause : ResetCause) (s : Shelf) :
    (s.hardReset cause).rdy.base = s.rdy.base ∧ (s.hardReset cause).rdy.ms = 0 := by
  obtain ⟨-, -, -, -, -, -, hrdy, -⟩ := hardReset_blocks cause s
  rw [hrdy]
  exact ⟨rfl, rfl⟩

/-- R162: the freeing of the claim leaves the readiness controller. -/
theorem freeClaim_rdy (l : Link) (s : State) : (freeClaim l s).shelf.rdy = s.shelf.rdy := by
  unfold freeClaim
  split
  · rfl
  · rfl

/-- R192: a link reset with no Restart held leaves the readiness controller. -/
theorem linkReset_rdy {l : Link} {s : State} (h : restartHeld (linkOf s l) = false) :
    (linkReset l s).shelf.rdy = s.shelf.rdy := by
  simp [linkReset, h, freeClaim_rdy]

/-- Four bytes hold a number below 2^32. -/
theorem nat4At_lt (b : List Byte) (i : Nat) : nat4At b i < 4294967296 := by
  have hbyte (j : Nat) : byteAt b j < 256 := (b.getD j 0#8).isLt
  have h0 := hbyte i
  have h1 := hbyte (i + 1)
  have h2 := hbyte (i + 2)
  have h3 := hbyte (i + 3)
  unfold nat4At
  omega

/-- R184: the base set makes the seconds counted read as the value given. -/
theorem add_baseFor {v : Nat} (secs : Nat) (h : v < 4294967296) : (secs + baseFor v secs) % 4294967296 = v := by
  unfold baseFor
  omega

/-- R184: a moved time stands to the new shelf time as it stood to the old one. -/
theorem moveTime_add (old new t : Nat) : (moveTime old new t + old) % 4294967296 = (t + new) % 4294967296 := by
  unfold moveTime
  omega

theorem shelfTime_setShelfTime {v : Nat} (s : Shelf) (h : v < 4294967296) : shelfTime (setShelfTime v s) = v := by
  rw [shelfTime_eq, setShelfTime_rdy]
  exact add_baseFor _ h

theorem setShelfTime_candidates (v : Nat) (s : Shelf) : (setShelfTime v s).recs.candidates
    = s.recs.candidates.map (fun c => { c with time := moveTime (shelfTime s) v c.time }) := rfl

theorem setShelfTime_orders (v : Nat) (s : Shelf) : (setShelfTime v s).ords.list
    = s.ords.list.map (fun o => { o with
        stageStart := moveTime (shelfTime s) v o.stageStart
        lightStart := o.lightStart.map (moveTime (shelfTime s) v) }) := rfl

/-- R184: the change of shelf time is one of the base, of the candidates' times and of the orders' start times. -/
theorem setShelfTime_frame (v : Nat) (s : Shelf) : setShelfTime v s
    = { s with
        rdy := { s.rdy with base := (setShelfTime v s).rdy.base }
        recs := { s.recs with candidates := (setShelfTime v s).recs.candidates }
        ords := { s.ords with list := (setShelfTime v s).ords.list } } := rfl

/-- R184: an accepted Set Time replies DONE and sets shelf time to the value of its body. -/
theorem exec_setTime {l : Link} {tag : Byte} {body : List Byte} {s : State} (h : Accepts l .setTime body s) :
    exec (.setTime l tag body) s
      = .next (taken l .setTime tag (formed .done []) (setShelfTime (nat4At body 0) s.shelf) s) := by
  refine exec_accepts_shelf (k := .setTime) (a := done []) h rfl ?_
  simp [handlerOf, handleSetTime, mapShelf]

/-- Settles O24: the resets block by block, and Set Time by the move of each held time. -/
theorem setTimeMovesShelfTime : Obligations.SetTimeMovesShelfTime := by
  intro s
  refine ⟨shelfTime_eq _, ⟨_, exec_powerOnReset s, ?power⟩, ⟨_, exec_hardReset s, ?hard⟩,
    fun l h => ⟨_, exec_linkReset l s, linkReset_rdy h⟩, fun l tag body hacc =>
    ⟨setShelfTime (nat4At body 0) s.shelf, exec_setTime hacc, shelfTime_setShelfTime _ (nat4At_lt _ _),
      setShelfTime_frame _ _, ?candidates, ?orders⟩⟩
  case power =>
    rw [deliverOut_powerOn_shelf]
    simpa using powerOn_time s.shelf
  case hard =>
    rw [takeHardReset_shelf]
    simpa using hardReset_time .pin s.shelf
  case candidates =>
    rw [setShelfTime_candidates, List.forall₂_map_right_iff, List.forall₂_same]
    exact fun c _ => ⟨rfl, moveTime_add _ _ _⟩
  case orders =>
    rw [setShelfTime_orders, List.forall₂_map_right_iff, List.forall₂_same]
    intro o _
    refine ⟨rfl, moveTime_add _ _ _, fun m hm => ?_, Option.map_eq_none_iff⟩
    obtain ⟨n, hn, rfl⟩ := Option.map_eq_some_iff.1 hm
    exact ⟨n, hn, moveTime_add _ _ _⟩

end Sys2Proof.Machine

/-! The block as a whole and its invariants (R146, R164, R171, R174, R191): the values at reset, the step, and one
inversion lemma of a step from which the invariants of the work lock and of the links are derived. -/

namespace Sys2Proof.Machine

/-! ### The block as a whole -/

theorem step_of_pending {c : Instr} {rest : List Instr} {s : State} (h : s.pending = c :: rest) :
    step s = exec c { s with pending := rest } := by simp [step, h]

theorem step_of_idle {s : State} (h : s.pending = []) : step s = .next { s with shelf := tick s.shelf } := by
  simp [step, h]

/-- Settles O1: the branch of the step with a command waiting. -/
theorem stepTakesFrontCommand : Obligations.StepTakesFrontCommand := fun _ _ _ h => step_of_pending h

/-- Log entry 2: what one millisecond does to an order. -/
theorem tickOrder_eq : tickOrder = fun o => { o with
    stageMs := o.stageMs + 1, lightMs := if o.lightStart = none then o.lightMs else o.lightMs + 1 } := by
  funext o
  cases h : o.lightStart <;> simp [tickOrder, h]

/-- R51, log entry 2: a condemn timer that runs and is not due advances. -/
theorem tickTimer_eq (t : CondemnTimer) :
    tickTimer t = if t.running = true ∧ t.due = false then { t with ms := t.ms + 1 } else t := by simp [tickTimer]

/-- Settles O2: the millisecond, timer by timer. -/
theorem idleStepIsOneMillisecond : Obligations.IdleStepIsOneMillisecond := by
  intro s hidle
  refine ⟨tick s.shelf, step_of_idle hidle, ?frame, fun n => at'_mapAll _ _ n, fun p => ?timer,
    fun p => at'_mapAll _ _ p, fun g => at'_mapAll _ _ g, fun g => at'_mapAll _ _ g, fun r => at'_mapAll _ _ r⟩
  case frame =>
    rw [← tickOrder_eq]
    rfl
  case timer => exact (at'_mapAll _ _ p).trans (tickTimer_eq _)

/-- Settles O3: the reset state is closed data, so its values are computed. -/
theorem resetValues : Obligations.ResetValues := by
  refine ⟨?self, rfl, rfl, rfl, ?slots, ?ports, rfl, ?recs, ?groups, ?refs, ?settings, rfl, rfl, rfl, rfl, rfl, rfl,
    ?lost, rfl, rfl⟩
  case self =>
    have hvalue : deliverOut (powerOn State.reset) = State.reset := by decide +kernel
    rw [exec_powerOnReset, hvalue]
  case slots => exact fun n => at'_replicate _ n
  case ports => exact fun p => congrArg Obs.cond (at'_replicate _ p)
  case recs => exact fun p => at'_replicate _ p
  case groups => exact fun g => at'_replicate _ g
  case refs => exact fun r => by simp [refOf, State.reset, Shelf.reset, RefDef.default]
  case settings => exact fun c => by cases c <;> rfl
  case lost => decide +kernel

/-- Settles O4: each invariant at the reset values. -/
theorem invariantsHoldAtReset : Obligations.InvariantsHoldAtReset := by
  refine ⟨⟨by decide, by decide⟩, ⟨?_, ?_⟩, rfl, ⟨by decide, by decide⟩, ?_⟩
  · simp [UnitOk, State.reset, LinkUnit.reset]
  · simp [UnitOk, State.reset, LinkUnit.reset]
  · unfold AlarmsOk
    decide +kernel

end Sys2Proof.Machine

/-! What a step can do, said once, and the invariants that every step keeps (R146, R155, R164, R171, R174, R187 to
R192). -/

namespace Sys2Proof.Machine

/-! ### What a command can do -/

/-- What a command makes of a state, by the way in which it reaches the shelf, the work lock and the links. -/
inductive Happens (s : State) : State → Prop
  | power : Happens s (deliverOut (powerOn s))
  | hard (cause : ResetCause) : Happens s (takeHardReset cause s)
  | linkReset (l : Link) : Happens s (linkReset l s)
  | mark (l : Link) : Happens s (setLink l markUnit s)
  | cut (l : Link) : Happens s (setLink l cutReception s)
  | overrun (l : Link) : Happens s (setLink l overrunUnit s)
  | bytes (l : Link) (bs : List Byte) : Happens s (bs.foldl (takeByte l) s)
  | unknown (l : Link) (kind tag : Byte) : Happens s (takeUnknown l kind tag s)
  | sent (l : Link) : Happens s (transmitEnd l s)
  | request (l : Link) (k : ReqKind) (tag : Byte) (b : List Byte) :
      Happens s (takeRequest l k tag b (handlerOf k l b) s)
  | shelf (f : Shelf → Shelf) : Happens s (onShelf f s)
  | written : Happens s (storeCompleted s)
  | failed : Happens s (storeFailed s)

theorem exec_happens {c : Instr} {s t : State} (e : exec c s = .next t) : Happens s t := by
  cases c <;> (injection e with e; subst e)
  case powerOnReset => exact .power
  case hardReset => exact .hard _
  case linkReset l => exact .linkReset l
  case lineReturnsToMark l => exact .mark l
  case interByteTimeout l => exact .cut l
  case overrun l => exact .overrun l
  case frameDiscarded l bs => exact .bytes l bs
  case unknownKind l kind tag b => exact .unknown l kind tag
  case transmitEnd l => exact .sent l
  case storeWriteComplete => exact .written
  case storeWriteFailed => exact .failed
  case cardAnswer | transferTimeout | exchangeValuesReturned | reprobeTimerExpiry | cardAttention | periodTimerExpiry
    | batteryRunningChange | candidateMemoryExpiry | condemnTimerExpiry | darkLimitExpiry | lightLimitExpiry
    | verifyTimerExpiry | holdOffTimerExpiry | wtrTimerExpiry | confirmTimerExpiry | retryWaitExpiry | clearRetryExpiry
    | buildingClockInputChange | qualificationTimerExpiry | acquireTimerExpiry | lockedTimerExpiry | holdoverTimerExpiry
    | raiseSoakExpiry | clearSoakExpiry | armingDelayExpiry => exact .shelf _
  all_goals exact .request _ _ _ _

/-- A step is a millisecond, or a command's effect on the state with the queue's rest. -/
theorem step_happens {s t : State} (e : step s = .next t) :
    t = { s with shelf := tick s.shelf } ∨ ∃ rest, Happens { s with pending := rest } t := by
  cases hp : s.pending with
  | nil =>
    rw [step_of_idle hp] at e
    injection e with e
    exact .inl (by rw [← e, hp])
  | cons c rest =>
    rw [step_of_pending hp] at e
    exact .inr ⟨rest, exec_happens e⟩

/-! ### The work lock (R164) -/

@[simp] theorem reply_lock (l : Link) (kind tag : Byte) (a : Answer) (s : State) :
    (reply l kind tag a s).lock = s.lock := by simp [reply]

@[simp] theorem setHolder_lock (h : Holder) (c : ClaimCause) (s : State) :
    (setHolder h c s).lock = { s.lock with holder := h } := rfl

theorem lockOk_holder {k : WorkLock} (h : Holder) (hk : LockOk k) : LockOk { k with holder := h } := hk

theorem lockOk_setHolder {h : Holder} {c : ClaimCause} {s : State} (hs : LockOk s.lock) :
    LockOk (setHolder h c s).lock := lockOk_holder h hs

/-- R166, R167: the count of a mismatch stays within its limit. -/
theorem lockOk_mismatch {o : Outcome} {s : State} (hs : LockOk s.lock) : LockOk (countMismatch o s).1.lock :=
  ⟨bump_le hs.1, hs.2⟩

theorem lockOk_storeChange {v : ItemValue} {data : List Byte} {f : WorkLock → WorkLock} {s : State}
    (hs : LockOk s.lock) (hf : LockOk (f s.lock)) : LockOk (storeChange v data (setLock f) s).1.lock := by
  unfold storeChange
  split
  · exact hs
  · exact hf

theorem lockOk_handleClaim {l : Link} {s : State} (hs : LockOk s.lock) : LockOk (handleClaim l s).1.lock := by
  unfold handleClaim
  split
  · exact lockOk_setHolder hs
  · split
    · exact hs
    · exact hs

theorem lockOk_handleRelease {l : Link} {s : State} (hs : LockOk s.lock) : LockOk (handleRelease l s).1.lock := by
  unfold handleRelease
  split
  · exact lockOk_setHolder hs
  · exact hs

theorem lockOk_handleSetCraftCode {b : List Byte} {s : State} (hs : LockOk s.lock) :
    LockOk (handleSetCraftCode b s).1.lock := by
  have hset : LockOk (storeChange (.craftCode (some b)) []
      (setLock fun k => { k with code := some b, mode := .opened }) s).1.lock :=
    lockOk_storeChange hs ⟨hs.1, by simp⟩
  unfold handleSetCraftCode
  dsimp only
  split
  · exact hs
  · split
    · exact hset
    · split
      · exact hs
      · exact hset
    · exact hs

theorem lockOk_handleClearCraftCode {b : List Byte} {s : State} (hs : LockOk s.lock) :
    LockOk (handleClearCraftCode b s).1.lock := by
  unfold handleClearCraftCode
  dsimp only
  split
  · exact hs
  · split
    · exact hs
    · split
      · exact hs
      · exact hs
      · split
        · exact lockOk_storeChange hs ⟨hs.1, by simp⟩
        · exact lockOk_mismatch hs

theorem lockOk_handleUnlock {b : List Byte} {s : State} (hs : LockOk s.lock) : LockOk (handleUnlock b s).1.lock := by
  unfold handleUnlock
  dsimp only
  split
  · exact hs
  · split
    · exact hs
    · split
      · exact hs
      · exact hs
      · rename_i hm
        have hcode : s.lock.code ≠ none := fun hc => by simp [hs.2.2 hc] at hm
        split
        · exact ⟨by simp [setLock], by simp [setLock, hcode]⟩
        · exact lockOk_mismatch hs

theorem lockOk_handleLock {s : State} (hs : LockOk s.lock) : LockOk (handleLock s).1.lock := by
  unfold handleLock
  dsimp only
  split
  · exact hs
  · split
    · exact hs
    · rename_i hm
      have hcode : s.lock.code ≠ none := fun hc => by simp [hs.2.2 hc] at hm
      exact ⟨hs.1, by simp [setLock, hcode]⟩
    · exact hs

/-- Every owning block's rule keeps the invariant: those of chapter 9 one by one, the others by not touching
the lock. -/
theorem lockOk_handler (k : ReqKind) (l : Link) (b : List Byte) {s : State} (hs : LockOk s.lock) :
    LockOk (handlerOf k l b s).1.lock := by
  by_cases hk : k ∈ lockKinds
  · simp only [lockKinds, List.mem_cons, List.not_mem_nil, or_false] at hk
    obtain rfl | rfl | rfl | rfl | rfl | rfl | rfl := hk
    · exact lockOk_handleClaim hs
    · exact lockOk_handleRelease hs
    · exact lockOk_handleSetCraftCode hs
    · exact lockOk_handleClearCraftCode hs
    · exact lockOk_handleUnlock hs
    · exact lockOk_handleLock hs
    · exact ⟨hs.1, hs.2⟩
  · rw [handler_lock hk]
    exact hs

theorem lockOk_takeRequest (l : Link) (k : ReqKind) (tag : Byte) (b : List Byte) {s : State} (hs : LockOk s.lock) :
    LockOk (takeRequest l k tag b (handlerOf k l b) s).lock := by
  unfold takeRequest
  dsimp only
  split
  · exact hs
  · split
    · simpa using hs
    · split
      · simpa using hs
      · rw [reply_lock]
        exact lockOk_handler k l b (by simpa using hs)

@[simp] theorem takeUnknown_lock (l : Link) (kind tag : Byte) (s : State) :
    (takeUnknown l kind tag s).lock = s.lock := by
  unfold takeUnknown
  dsimp only
  split
  · rfl
  · split <;> simp

theorem lockOk_takeByte (l : Link) (b : Byte) {s : State} (hs : LockOk s.lock) : LockOk (takeByte l s b).lock := by
  unfold takeByte
  dsimp only
  split
  · exact hs
  · split
    · simpa using hs
    · simpa using hs
    · split
      · exact lockOk_takeRequest _ _ _ _ hs
      · simpa using hs

theorem takeHardReset_lock (cause : ResetCause) (s : State) :
    (takeHardReset cause s).lock = { s.lock with holder := .none } := rfl

/-- R164: a power-on reset leaves the mode by the code loaded. -/
theorem lockOk_reset (code : Option (List Byte)) : LockOk (WorkLock.reset code) := by
  cases code <;> simp [LockOk, WorkLock.reset]

theorem lockOk_freeClaim (l : Link) {s : State} (hs : LockOk s.lock) : LockOk (freeClaim l s).lock := by
  unfold freeClaim
  split
  · exact lockOk_holder _ hs
  · exact hs

theorem lockOk_linkReset (l : Link) {s : State} (hs : LockOk s.lock) : LockOk (linkReset l s).lock := by
  have hfree : LockOk (freeClaim l (setLink l resetUnit s)).lock := lockOk_freeClaim l (by simpa using hs)
  unfold linkReset
  dsimp only
  split
  · exact lockOk_holder _ hfree
  · exact hfree

@[simp] theorem releaseReplies_lock (p : Nat → Bool) (o : Option Outcome) (s : State) :
    (releaseReplies p o s).lock = s.lock := rfl

theorem storeCompleted_lock (s : State) : (storeCompleted s).lock = s.lock := by
  unfold storeCompleted
  split <;> rfl

theorem storeFailed_lock (s : State) : (storeFailed s).lock = s.lock := by
  unfold storeFailed
  split
  · rfl
  · dsimp only
    rw [deliverOut_lock]
    split <;> rfl

theorem Happens.lockOk {s t : State} (e : Happens s t) (hs : LockOk s.lock) : LockOk t.lock := by
  cases e with
  | power => exact lockOk_reset _
  | hard cause => exact lockOk_holder _ hs
  | linkReset l => exact lockOk_linkReset l hs
  | mark l | cut l | overrun l => simpa using hs
  | bytes l bs => exact List.foldlRecOn (motive := fun z : State => LockOk z.lock) bs _ hs fun _ h b _ =>
      lockOk_takeByte l b h
  | unknown l kind tag => simpa using hs
  | sent l =>
    unfold transmitEnd
    split
    · exact lockOk_holder _ hs
    · simpa using hs
  | request l k tag b => exact lockOk_takeRequest l k tag b hs
  | shelf f => exact hs
  | written => exact (storeCompleted_lock s).symm ▸ hs
  | failed => exact (storeFailed_lock s).symm ▸ hs

/-- Settles O8: by what a step can do. -/
theorem lockOkIsKept : Obligations.LockOkIsKept := by
  intro s t hs e
  obtain rfl | ⟨rest, happens⟩ := step_happens e
  · exact hs
  · exact happens.lockOk hs

/-! ### The link units (R187, R188, R191, R192) -/

theorem unitOk_reset (atSpace : Bool) : UnitOk (LinkUnit.reset atSpace) := by simp [UnitOk, LinkUnit.reset]

theorem SameLinks.linksOk {s t : State} (e : SameLinks s t) (hs : LinksOk s) : LinksOk t := by
  obtain ⟨ha, hb, -⟩ := e
  exact ⟨ha ▸ hs.1, hb ▸ hs.2⟩

theorem reply_ok {l : Link} {kind tag : Byte} {a : Answer} {s : State} (hs : LinksOk s) :
    LinksOk (reply l kind tag a s) := deliverOut_ok (setLink_ok (fun _ hu => startTx_ok hu) hs)

/-- R187: a discard of the frame in reception keeps the unit in its ranges. -/
theorem discardFrame_ok {u : LinkUnit} (h : UnitOk u) : UnitOk (discardFrame u) := by
  obtain ⟨hq, hl, hd, ho, hr⟩ := h
  exact ⟨hq, hl, bump_le hd, ho, hr⟩

theorem cutReception_ok {u : LinkUnit} (h : UnitOk u) : UnitOk (cutReception u) := by
  unfold cutReception
  split
  · exact discardFrame_ok h
  · exact h
  · exact h

theorem resetUnit_ok {u : LinkUnit} (h : UnitOk u) : UnitOk (resetUnit u) := by
  obtain ⟨-, -, hd, ho, -⟩ := cutReception_ok h
  obtain ⟨-, -, -, -, hr⟩ := h
  exact ⟨by simp [resetUnit], by simp [resetUnit], hd, ho, bump_le hr⟩

theorem countOverrun_ok {u : LinkUnit} (h : UnitOk u) :
    UnitOk { u with overrun := bump 65535 u.overrun, rx := .hunting } := by
  obtain ⟨hq, hl, hd, ho, hr⟩ := h
  exact ⟨hq, hl, hd, bump_le ho, hr⟩

theorem overrunUnit_ok {u : LinkUnit} (h : UnitOk u) : UnitOk (overrunUnit u) := by
  unfold overrunUnit
  split
  · exact countOverrun_ok h
  · exact h

theorem sentUnit_ok {u : LinkUnit} (h : UnitOk u) : UnitOk (sentUnit u) := by
  unfold sentUnit
  split
  · exact h
  · exact startTx_ok h

theorem takeRequest_ok (l : Link) (k : ReqKind) (tag : Byte) (b : List Byte) {s : State} (hs : LinksOk s) :
    LinksOk (takeRequest l k tag b (handlerOf k l b) s) := by
  unfold takeRequest
  dsimp only
  split
  · exact hs
  · split
    · exact setLink_ok (fun _ hu => countOverrun_ok hu) hs
    · have held : LinksOk (setLink l (fun u =>
          { u with rx := .hunting, held := some ⟨k.row.code, tag, false, .forming⟩ }) s) :=
              setLink_ok (fun _ hu => hu) hs
      split
      · exact reply_ok held
      · exact reply_ok ((handler_links k l b _).linksOk held)

theorem takeUnknown_ok (l : Link) (kind tag : Byte) {s : State} (hs : LinksOk s) :
    LinksOk (takeUnknown l kind tag s) := by
  unfold takeUnknown
  dsimp only
  split
  · exact hs
  · split
    · exact setLink_ok (fun _ hu => countOverrun_ok hu) hs
    · exact reply_ok (setLink_ok (fun _ hu => hu) hs)

theorem takeByte_ok (l : Link) (b : Byte) {s : State} (hs : LinksOk s) : LinksOk (takeByte l s b) := by
  unfold takeByte
  dsimp only
  split
  · exact hs
  · split
    · exact setLink_ok (fun _ hu => hu) hs
    · exact setLink_ok (fun _ hu => discardFrame_ok hu) hs
    · split
      · exact takeRequest_ok _ _ _ _ hs
      · exact takeUnknown_ok _ _ _ hs

theorem takeHardReset_ok (cause : ResetCause) (s : State) : LinksOk (takeHardReset cause s) :=
  deliverOut_ok ⟨unitOk_reset _, unitOk_reset _⟩

theorem freeClaim_ok (l : Link) {s : State} (hs : LinksOk s) : LinksOk (freeClaim l s) := by
  unfold freeClaim
  split
  · exact deliverOut_ok hs
  · exact hs

theorem linkReset_ok (l : Link) {s : State} (hs : LinksOk s) : LinksOk (linkReset l s) := by
  unfold linkReset
  dsimp only
  split
  · exact takeHardReset_ok _ _
  · exact freeClaim_ok l (setLink_ok (fun _ hu => resetUnit_ok hu) hs)

theorem storeCompleted_ok {s : State} (hs : LinksOk s) : LinksOk (storeCompleted s) := by
  unfold storeCompleted
  split
  · exact hs
  · exact deliverOut_ok (releaseReplies_ok hs)

theorem storeFailed_ok {s : State} (hs : LinksOk s) : LinksOk (storeFailed s) := by
  unfold storeFailed
  split
  · exact hs
  · dsimp only
    split
    · exact deliverOut_ok (releaseReplies_ok hs)
    · exact deliverOut_ok hs

theorem Happens.linksOk {s t : State} (e : Happens s t) (hs : LinksOk s) : LinksOk t := by
  cases e with
  | power => exact deliverOut_ok ⟨unitOk_reset _, unitOk_reset _⟩
  | hard cause => exact takeHardReset_ok _ _
  | linkReset l => exact linkReset_ok l hs
  | mark l => exact setLink_ok (fun _ hu => hu) hs
  | cut l => exact setLink_ok (fun _ hu => cutReception_ok hu) hs
  | overrun l => exact setLink_ok (fun _ hu => overrunUnit_ok hu) hs
  | bytes l bs => exact List.foldlRecOn bs _ hs fun _ h b _ => takeByte_ok l b h
  | unknown l kind tag => exact takeUnknown_ok l kind tag hs
  | sent l =>
    unfold transmitEnd
    split
    · exact takeHardReset_ok _ _
    · exact setLink_ok (fun _ hu => sentUnit_ok hu) hs
  | request l k tag b => exact takeRequest_ok l k tag b hs
  | shelf f => exact deliverOut_ok hs
  | written => exact storeCompleted_ok hs
  | failed => exact storeFailed_ok hs

/-! ### The notices are offered in their step (log entry 9) -/

@[simp] theorem deliverOut_offered (s : State) : NoticesOffered (deliverOut s) := rfl

theorem offered_setLink {l : Link} {f : LinkUnit → LinkUnit} {s : State} (hs : NoticesOffered s) :
    NoticesOffered (setLink l f s) := by
  unfold NoticesOffered
  rw [setLink_shelf]
  exact hs

theorem takeRequest_offered (l : Link) (k : ReqKind) (tag : Byte) (b : List Byte) {s : State} (hs : NoticesOffered s) :
    NoticesOffered (takeRequest l k tag b (handlerOf k l b) s) := by
  unfold takeRequest
  dsimp only
  split
  · exact hs
  · split
    · exact offered_setLink hs
    · split <;> exact deliverOut_offered _

theorem takeUnknown_offered (l : Link) (kind tag : Byte) {s : State} (hs : NoticesOffered s) :
    NoticesOffered (takeUnknown l kind tag s) := by
  unfold takeUnknown
  dsimp only
  split
  · exact hs
  · split
    · exact offered_setLink hs
    · exact deliverOut_offered _

theorem takeByte_offered (l : Link) (b : Byte) {s : State} (hs : NoticesOffered s) :
    NoticesOffered (takeByte l s b) := by
  unfold takeByte
  dsimp only
  split
  · exact hs
  · split
    · exact offered_setLink hs
    · exact offered_setLink hs
    · split
      · exact takeRequest_offered _ _ _ _ hs
      · exact takeUnknown_offered _ _ _ hs

theorem linkReset_offered (l : Link) {s : State} (hs : NoticesOffered s) : NoticesOffered (linkReset l s) := by
  unfold linkReset freeClaim
  dsimp only
  split
  · exact deliverOut_offered _
  · split
    · exact deliverOut_offered _
    · exact offered_setLink hs

theorem Happens.offered {s t : State} (e : Happens s t) (hs : NoticesOffered s) : NoticesOffered t := by
  cases e with
  | power | hard | shelf => exact deliverOut_offered _
  | linkReset l => exact linkReset_offered l hs
  | mark l | cut l | overrun l => exact offered_setLink hs
  | bytes l bs => exact List.foldlRecOn bs _ hs fun _ h b _ => takeByte_offered l b h
  | unknown l kind tag => exact takeUnknown_offered l kind tag hs
  | sent l =>
    unfold transmitEnd
    split
    · exact deliverOut_offered _
    · exact offered_setLink hs
  | request l k tag b => exact takeRequest_offered l k tag b hs
  | written =>
    unfold storeCompleted
    split
    · exact hs
    · exact deliverOut_offered _
  | failed =>
    unfold storeFailed
    split
    · exact hs
    · exact deliverOut_offered _

/-- Settles O9: by what a step can do, for the ranges and for the notices. -/
theorem linksOkIsKept : Obligations.LinksOkIsKept := by
  refine ⟨fun s t hs e => ?_, fun s t hs e => ?_⟩
  · obtain rfl | ⟨rest, happens⟩ := step_happens e
    · exact hs
    · exact happens.linksOk hs
  · obtain rfl | ⟨rest, happens⟩ := step_happens e
    · exact hs
    · exact happens.offered hs

/-! ### The store (R171, R174) and the alarm unit (R146, R155) -/

theorem SameButAlarms.sto {s x : Shelf} (h : SameButAlarms s x) : x.sto = s.sto := by
  obtain ⟨-, -, -, -, -, -, -, hsto, -⟩ := h
  exact hsto

theorem storeOk_stepFree : StepFree (fun s => StoreOk s.sto) where
  toFreeOf := storeOk_free
  cleared _ _ h := h
  append _ _ h := appendEdit_ok h
  mark m s hlt h := ⟨h.1, by simpa [Config.commitMax] using hlt⟩
  setting c v s h := (changeSetting_frame c v s).sto ▸ h
  ackOne e s h := (acknowledgeOne_frame e s).sto ▸ h
  ackAll s h := (acknowledgeAll_frame s).sto ▸ h
  cut _ _ h := h
  raiseSoak o c s h := (endRaiseSoak_frame o c s).sto ▸ h
  clearSoak o c s h := (endClearSoak_frame o c s).sto ▸ h
  complete _ h := completeWrite_ok h
  fail _ h := failWrite_ok h
  power s _ := by
    obtain ⟨-, -, -, -, -, -, -, -, -, -, n, k, w, hsto⟩ := powerOn_blocks s
    rw [hsto]
    simp [StoreOk, Store.reset]
  hard cause s h := by
    obtain ⟨-, -, -, -, -, -, -, -, -, -, n, k, w, hsto⟩ := hardReset_blocks cause s
    rw [hsto]
    exact ⟨h.1, by simp⟩
  time _ h := h

/-- Settles O10: the walk over every operation, for the sizes of the store's lists. -/
theorem storeOkIsKept : Obligations.StoreOkIsKept := storeOk_stepFree.step

theorem alarmsOk_reset (v : Vector CondSetting 24) : AlarmsOk (Alarms.reset v) := by
  simp [AlarmsOk, Alarms.reset, usedCount]

/-- A millisecond moves the soaks and nothing else of the table. -/
theorem alarmsOk_tick {s : Shelf} (h : AlarmsOk s.alm) : AlarmsOk (tick s).alm :=
  mapTable_ok (f := tickEntry) (fun _ => ⟨rfl, rfl⟩) h

theorem alarmsOk_failWrite {s : Shelf} (h : AlarmsOk s.alm) : AlarmsOk (failWrite s).alm := by
  unfold failWrite
  split
  · exact h
  · exact stopStore_alarms h
  · exact h
  · exact h

theorem alarmsOk_stepFree : StepFree (fun s => AlarmsOk s.alm) where
  toFreeOf := alarmsOk_free
  cleared _ _ h := h
  append _ _ h := h
  mark _ _ _ h := h
  setting _ _ _ h := changeSetting_ok h
  ackOne _ _ h := acknowledgeOne_ok h
  ackAll _ h := acknowledgeAll_ok h
  cut _ _ h := h
  raiseSoak _ _ _ h := endRaiseSoak_ok h
  clearSoak _ _ _ h := endClearSoak_ok h
  complete s h := (completeWrite_alm s).symm ▸ h
  fail _ h := alarmsOk_failWrite h
  power s _ := by
    unfold Shelf.powerOn
    exact reportsAfterReset_free alarmsOk_free (alarmsOk_reset _)
  hard cause s _ := by
    unfold Shelf.hardReset
    exact reportsAfterReset_free alarmsOk_free (alarmsOk_reset _)
  time _ h := alarmsOk_tick h

/-- Settles O11: the walk over every operation, for the places of the alarm table. -/
theorem alarmsOkIsKept : Obligations.AlarmsOkIsKept := alarmsOk_stepFree.step

end Sys2Proof.Machine

/-! The two resets (R177 to R179, R182 to R184): what both leave, and what a power-on loads. -/

namespace Sys2Proof.Machine

/-! ### The link units after a reset -/

/-- What offering notices to a unit that holds no request leaves of it: all but the transmitter, the queue and the lost
count. -/
structure SameReceiver (u v : LinkUnit) : Prop where
  held : v.held = none
  rx : v.rx = u.rx
  atSpace : v.atSpace = u.atSpace
  discarded : v.discarded = u.discarded
  overrun : v.overrun = u.overrun
  resets : v.resets = u.resets

theorem SameReceiver.trans {u v w : LinkUnit} (h : SameReceiver u v) (k : SameReceiver v w) : SameReceiver u w :=
  ⟨k.held, k.rx.trans h.rx, k.atSpace.trans h.atSpace, k.discarded.trans h.discarded, k.overrun.trans h.overrun,
    k.resets.trans h.resets⟩

theorem startTx_receiver {u : LinkUnit} (h : u.held = none) : SameReceiver u (startTx u) := by
  unfold startTx
  split
  · exact ⟨h, rfl, rfl, rfl, rfl, rfl⟩
  · simp only [h]
    split
    · exact ⟨h, rfl, rfl, rfl, rfl, rfl⟩
    · exact ⟨by simp, rfl, rfl, rfl, rfl, rfl⟩

theorem offer_receiver (n : Notice) {u : LinkUnit} (h : u.held = none) : SameReceiver u (offer n u) := by
  unfold offer
  split
  · obtain ⟨hheld, hrx, hspace, hdisc, hover, hres⟩ :=
      startTx_receiver (u := { u with queue := u.queue ++ [⟨u.lost, n⟩], lost := 0 }) h
    exact ⟨hheld, hrx, hspace, hdisc, hover, hres⟩
  · exact ⟨h, rfl, rfl, rfl, rfl, rfl⟩

theorem offers_receiver (l : List Notice) {u : LinkUnit} (h : u.held = none) :
    SameReceiver u (l.foldl (fun u n => offer n u) u) := by
  induction l generalizing u with
  | nil => exact ⟨h, rfl, rfl, rfl, rfl, rfl⟩
  | cons n l ih => exact (offer_receiver n h).trans (ih (offer_receiver n h).held)

/-- R192: both units of a state whose links have been reset, when the first notices have been offered. -/
theorem links_reset {s t : State} (h : ∀ l, linkOf t l = LinkUnit.reset (linkOf s l).atSpace) (l : Link) :
    (linkOf (deliverOut t) l).rx = .hunting ∧ (linkOf (deliverOut t) l).atSpace = (linkOf s l).atSpace
    ∧ (linkOf (deliverOut t) l).held = none ∧ (linkOf (deliverOut t) l).discarded = 0
    ∧ (linkOf (deliverOut t) l).overrun = 0 ∧ (linkOf (deliverOut t) l).resets = 0 := by
  rw [linkOf_deliverOut, h]
  obtain ⟨hheld, hrx, hspace, hdisc, hover, hres⟩ :=
    offers_receiver t.shelf.out (u := LinkUnit.reset (linkOf s l).atSpace) rfl
  exact ⟨hrx, hspace, hheld, hdisc, hover, hres⟩

theorem linkOf_powerOn (s : State) (l : Link) : linkOf (powerOn s) l = LinkUnit.reset (linkOf s l).atSpace := by
  cases l <;> rfl

theorem linkOf_hardResetBy (cause : ResetCause) (s : State) (l : Link) :
    linkOf (hardResetBy cause s) l = LinkUnit.reset (linkOf s l).atSpace := by cases l <;> rfl

/-! ### What both resets leave -/

/-- R183: a group's record after a hard reset has nothing active, planned, far, stuck or waiting. -/
theorem kept_idle (retain : Bool) (r : GroupRun) : (GroupRun.kept retain r).stuck = false
    ∧ (GroupRun.kept retain r).active = none ∧ (GroupRun.kept retain r).plan = none
    ∧ (GroupRun.kept retain r).far = none ∧ (GroupRun.kept retain r).wtr = none := ⟨rfl, rfl, rfl, rfl, rfl⟩

theorem powerOn_cold (s : State) : ColdStart s (deliverOut (powerOn s)) := by
  obtain ⟨hbp, hscan, hrecs, hords, heng, hexe, hrdy, hpins, -, ⟨v, htim, -⟩, -⟩ := powerOn_blocks s.shelf
  have hshelf := deliverOut_powerOn_shelf s
  constructor
  case links => exact links_reset (linkOf_powerOn s)
  case unclaimed => rfl
  case groups =>
    intro g
    rw [hshelf, runOf_withOut, powerOn_run]
    exact ⟨rfl, rfl, rfl, rfl, rfl⟩
  all_goals
    rw [hshelf]
    simp [hbp, hscan, hrecs, hords, hexe, hrdy, hpins, htim, Backplane.reset, Scanner.reset, Records.reset,
      Orders.reset, Timing.reset, obsOf, condemnOf, identityOffset, powerOn]

theorem hardReset_cold (cause : ResetCause) (s : State) : ColdStart s (takeHardReset cause s) := by
  obtain ⟨hbp, hscan, hrecs, hords, heng, hexe, hrdy, hpins, -, ⟨v, htim, -⟩, -⟩ := hardReset_blocks cause s.shelf
  have hshelf := takeHardReset_shelf cause s
  constructor
  case links => exact links_reset (linkOf_hardResetBy cause s)
  case unclaimed => rfl
  case groups =>
    intro g
    rw [hshelf, runOf_withOut, hardReset_run]
    exact kept_idle _ _
  all_goals
    rw [hshelf]
    simp [hbp, hscan, hrecs, hords, hexe, hrdy, hpins, htim, Backplane.reset, Scanner.reset, Records.reset,
      Orders.reset, Timing.reset, obsOf, condemnOf, identityOffset, takeHardReset, hardResetBy]

/-- R178, R182 to R184: a hard reset by whatever cause. -/
theorem hardReset_leaves (cause : ResetCause) (s : State) : HardResetLeaves cause s (takeHardReset cause s) := by
  obtain ⟨-, hscan, hrecs, -, heng, -, hrdy, -, hset, ⟨v, htim, hrefs⟩, ⟨n, k, w, hsto⟩⟩ :=
      hardReset_blocks cause s.shelf
  have hshelf := takeHardReset_shelf cause s
  constructor
  case toColdStart => exact hardReset_cold cause s
  case lock => exact takeHardReset_lock cause s
  case definitions =>
    rw [hshelf]
    refine ⟨by simp [heng, Engine.reset], fun r => ?_⟩
    obtain ⟨hdefn, -⟩ := hrefs r
    rw [refOf_withOut, refOf, htim, hdefn]
  case selected =>
    intro g
    rw [hshelf, runOf_withOut, hardReset_run]
    rfl
  all_goals
    rw [hshelf]
    simp [hscan, hrecs, hrdy, hset, htim, hsto, Scanner.reset, Records.reset, Timing.reset]

/-- Settles O6: the hard reset of the reset pin. -/
theorem hardResetKeepsSettings : Obligations.HardResetKeepsSettings :=
  fun s => ⟨_, exec_hardReset s, hardReset_leaves .pin s⟩

/-! ### What a power-on loads (R177, R178) -/

/-- R178: with no write in flight the nonvolatile memory is found as it was. -/
theorem nvmAtPowerLoss_idle {t : Store} (h : t.writer = .idle ∨ t.writer = .stopped ∨ t.list = []) :
    nvmAtPowerLoss t = t.nvm := by
  unfold nvmAtPowerLoss
  obtain h | h | h := h
  · simp [h]
  · simp [h]
  · simp [h]

/-- R178: the write in flight spoils its item. -/
theorem nvmAtPowerLoss_writing {t : Store} {e : Edit} {rest : List Edit}
    (h : t.writer = .writing ∨ t.writer = .retrying)
    (hl : t.list = e :: rest) : nvmAtPowerLoss t = t.nvm.spoil e.value.item := by
  unfold nvmAtPowerLoss
  obtain h | h := h
  · simp [h, hl]
  · simp [h, hl]

/-- R177: an item is lost as BLANK exactly where it was never written. -/
theorem loadItem_blank {α : Type} {ok : α → Bool} {x : Stored α} : loadItem ok x = .error .blank ↔ x = .blank := by
  unfold loadItem
  cases x with
  | blank => simp
  | badCheck => simp
  | value v => simp; split <;> simp

theorem mem_lostAs {α : Type} {i : Item} {x : Except LostReason α} {j : Item} {r : LostReason} :
    ⟨j, r⟩ ∈ lostAs i x ↔ j = i ∧ x = .error r := by
  cases x with
  | ok v => simp [lostAs]
  | error e => simp [lostAs, eq_comm]

/-- R177: the lost port records. -/
theorem mem_lost_port (l : Load) (p : PortNo) (r : LostReason) :
    ⟨.portRecord p, r⟩ ∈ l.lost ↔ at' l.ports p = .error r := by
  simp [Load.lost, mem_lostAs, allPorts]

/-- R177: a reference definition that a load takes is loaded, and what is loaded is one of these. -/
theorem refLoads_iff {s : Shelf} (h5 : ∀ g, defOf s g = loaded none (at' (loadAll s.sto.nvm).groups g)) (r : RefNo)
    (d : RefDef) : RefLoads s r d ↔ r.val ≤ 4 ∧ at' (loadAll s.sto.nvm).refs r = .ok d := by
  obtain ⟨hload, hloaded⟩ := loadAll_ref s.sto.nvm r
  constructor
  · rintro ⟨hr, hstored, hok, hport, hgroup⟩
    exact ⟨hr, hload d hr hstored hok hport fun g hg => h5 g ▸ hgroup g hg⟩
  · rintro ⟨hr, hd⟩
    obtain ⟨hstored, hok, hport, hgroup⟩ := hloaded d hr hd
    exact ⟨hr, hstored, hok, hport, fun g hg => (h5 g).symm ▸ hgroup g hg⟩

section
variable (s : Shelf)

theorem powerOn_nvm : s.powerOn.sto.nvm = nvmAtPowerLoss s.sto := by
  obtain ⟨-, -, -, -, -, -, -, -, -, -, n, k, w, hsto⟩ := powerOn_blocks s
  rw [hsto, Store.reset]

theorem powerOn_defOf (g : GroupNo) : defOf s.powerOn g = loaded none (at' (loadAll s.powerOn.sto.nvm).groups g) := by
  obtain ⟨-, -, -, -, heng, -⟩ := powerOn_blocks s
  rw [powerOn_nvm, defOf, heng, Engine.reset, at'_mapAll]

theorem powerOn_recOf (p : PortNo) :
    recOf s.powerOn p = loaded PortRec.default (at' (loadAll s.powerOn.sto.nvm).ports p) := by
  obtain ⟨-, -, hrecs, -⟩ := powerOn_blocks s
  rw [powerOn_nvm, recOf, hrecs, Records.reset, at'_mapAll]

theorem powerOn_defn (r : RefNo) : (refOf s.powerOn r).defn
    = if r.val = 5 then RefDef.default else loaded RefDef.default (at' (loadAll s.powerOn.sto.nvm).refs r) := by
  obtain ⟨-, -, -, -, -, -, -, -, -, ⟨v, htim, hrefs⟩, -⟩ := powerOn_blocks s
  obtain ⟨hdefn, -⟩ := hrefs r
  rw [powerOn_nvm, refOf, htim, hdefn]
  split
  case isTrue h =>
    obtain rfl : r = 5 := Fin.ext h
    exact at'_put_same _ _ _
  case isFalse h =>
    rw [at'_put_ne _ _ (fun e => h (by rw [e]; rfl)), at'_mapAll]

/-- R177: the groups that a power-on takes as defined. -/
theorem powerOn_groups (g : GroupNo) (d : GroupDef) : defOf s.powerOn g = some d ↔
    at' s.powerOn.sto.nvm.groups g = .value (some d) ∧ groupOk d = true
    ∧ (∀ p ∈ d.members, classOf s.powerOn p = .inService)
    ∧ ∀ h, h.val < g.val → ∀ e, defOf s.powerOn h = some e → ∀ p ∈ d.members, p ∉ e.members := by
  simp only [classOf, powerOn_recOf, powerOn_defOf]
  exact loadAll_group

/-- R177: the reference definitions that a power-on takes. -/
theorem powerOn_references (r : RefNo) : (∀ d, RefLoads s.powerOn r d → (refOf s.powerOn r).defn = d)
    ∧ ((∀ d, ¬ RefLoads s.powerOn r d) → (refOf s.powerOn r).defn = ⟨.none, 0, none⟩) := by
  simp only [refLoads_iff (powerOn_defOf s) r, powerOn_defn]
  refine ⟨fun d hd => ?_, fun hnone => ?_⟩
  · rw [if_neg (by omega), hd.2]
    rfl
  · split
    · rfl
    · cases hload : at' (loadAll s.powerOn.sto.nvm).refs r with
      | ok d => exact absurd ⟨by omega, hload⟩ (hnone d)
      | error e => rfl

end

/-- R164: the mode after a power-on reset follows the code. -/
theorem workLock_reset_mode (code : Option (List Byte)) :
    (WorkLock.reset code).mode = if code = none then .unguarded else .locked := by cases code <;> rfl

/-- Settles O5: block by block, and the load item by item. -/
theorem powerOnResetClears : Obligations.PowerOnResetClears := by
  intro s
  refine ⟨_, exec_powerOnReset s, ?_⟩
  have hcold := powerOn_cold s
  have hlock : (powerOn s).lock = WorkLock.reset _ := rfl
  have hshelf := deliverOut_powerOn_shelf s
  obtain ⟨-, hscan, hrecs, -, -, -, hrdy, -, hset, ⟨v, htim, -⟩, ⟨n, k, w, hsto⟩⟩ := powerOn_blocks s.shelf
  have hnvm := powerOn_nvm s.shelf
  have hrun := powerOn_run s.shelf
  have hrec := powerOn_recOf s.shelf
  have hgroups := powerOn_groups s.shelf
  have hrefs := powerOn_references s.shelf
  have hlocked := powerOn_locked s.shelf
  generalize s.shelf.powerOn = x at *
  constructor
  case toColdStart => exact hcold
  case lock =>
    rw [deliverOut_lock, hlock]
    exact ⟨rfl, rfl, workLock_reset_mode _⟩
  case fresh =>
    intro g
    rw [hshelf, runOf_withOut, hrun]
    exact ⟨rfl, rfl⟩
  case nothingInFlight =>
    intro h
    rw [hshelf]
    exact hnvm.trans (nvmAtPowerLoss_idle h)
  case inFlight =>
    intro e rest h hl
    rw [hshelf]
    exact hnvm.trans (nvmAtPowerLoss_writing h hl)
  case groupsLoaded =>
    rw [hshelf]
    exact hgroups
  case references =>
    rw [hshelf]
    exact fun r => ⟨hlocked r, hrefs r⟩
  case lostPorts =>
    intro p
    rw [hshelf]
    simp only [hsto, Store.reset, mem_lost_port]
    simp only [loadAll, at'_mapAll, loadItem_blank]
  case loads =>
    rw [hshelf]
    refine ⟨fun p => ?_, ?_, ?_, ?_, ?_, ?_, ?_, ?_⟩
    · refine (hrec p).trans ?_
      simp only [loadAll, at'_mapAll, loaded_loadItem, PortRec.default]
    all_goals
      simp [hnvm, hlock, hrecs, hset, hscan, htim, hrdy, WorkLock.reset, Records.reset, Scanner.reset, Timing.reset,
        loadAll, loaded_loadItem, blankIdentity]
  all_goals
    rw [hshelf]
    simp [hscan, hrdy, hsto, htim, Scanner.reset, Store.reset, Timing.reset, ScanSetup.default]

end Sys2Proof.Machine

/-! The links (R183, R186 to R192): the checks of a request, the reception of a frame byte by byte, the transmitter, and
the link reset. -/

namespace Sys2Proof.Machine

/-! ### The checks of a request (R163, R165, R189) -/

section Checks
variable {l : Link} {k : ReqKind} {body : List Byte} {s : State}

theorem checkRequest_badForm (h : bodyFits k body = false) : checkRequest l k body s = some .badForm := by
  simp [checkRequest, h]

theorem checkRequest_notReady (h : bodyFits k body = true) (hp : s.shelf.rdy.phase = .discovery) (hi : k ≠ .identify)
    (hl : k ≠ .linkStatus) : checkRequest l k body s = some .notReady := by
  simp [checkRequest, h, hp, hi, hl]

theorem checkRequest_notClaimed (h : bodyFits k body = true) (hp : s.shelf.rdy.phase ≠ .discovery)
    (ht : k.row.type ≠ .watch) (hc : s.lock.holder ≠ holderOf l) : checkRequest l k body s = some .notClaimed := by
  simp only [checkRequest, h, hp]
  cases hk : k.row.type with
  | watch => exact absurd hk ht
  | act => simp [hc]
  | gated => simp [hc]

/-- R165: the work lock answers a gated request of the claim holder. -/
theorem checkRequest_gated (h : bodyFits k body = true) (hp : s.shelf.rdy.phase ≠ .discovery)
    (ht : k.row.type = .gated) (hc : s.lock.holder = holderOf l) (hm : s.lock.mode = .locked) :
    checkRequest l k body s
      = some (if s.lock.frozen then .frozen else if s.lock.count = 5 then .expired else .locked) := by
  simp only [checkRequest, h, hp, ht, hc, gate, hm, Config.unlockMax]
  cases s.lock.frozen
  · by_cases hn : s.lock.count = 5 <;> simp [hn]
  · simp

end Checks

theorem exec_refused {l : Link} {k : ReqKind} {body : List Byte} {s : State} {o : Outcome} (tag : Byte)
    (hfree : Free l s)
    (hc : checkRequest l k body s = some o) :
    exec (k.instr l tag body) s = .next (taken l k tag (formed o []) s.shelf s) := by
  rw [exec_instr, takeRequest_refused hfree hc]

theorem takeUnknown_free {l : Link} {s : State} (kind tag : Byte) (h : Free l s) :
    takeUnknown l kind tag s = deliverOut (setLink l (answered kind tag (formed .unknownKind [])) s) := by
  obtain ⟨hspace, hheld⟩ := h
  simp only [takeUnknown, hspace, hheld, reply, setLink_setLink]
  rfl

/-- Settles O12: one lemma per check, each under the passing of those before it. -/
theorem firstFailedCheckAnswers : Obligations.FirstFailedCheckAnswers := by
  intro k l tag body s hfree
  refine ⟨fun kind => ?_, fun hb => ?_, fun hb hp hi hl => ?_, fun hb hp ht hc => ?_, fun hb hp ht hc hm => ?_⟩
  · rw [exec_unknownKind, takeUnknown_free kind tag hfree]
  · exact exec_refused tag hfree (checkRequest_badForm hb)
  · exact exec_refused tag hfree (checkRequest_notReady hb hp hi hl)
  · exact exec_refused tag hfree (checkRequest_notClaimed hb hp ht hc)
  · exact exec_refused tag hfree (checkRequest_gated hb hp ht hc hm)

/-! ### A request while one is held (R188) -/

theorem isSome_of_held {u : LinkUnit} (h : u.held ≠ none) : u.held.isSome = true := Option.isSome_iff_ne_none.2 h

theorem overrunUnit_held {u : LinkUnit} (hspace : u.atSpace = false) (hheld : u.held ≠ none) :
    overrunUnit u = { u with rx := .hunting, overrun := bump 65535 u.overrun } := by
  simp [overrunUnit, hspace, isSome_of_held hheld]

theorem takeUnknown_held {l : Link} {s : State} (kind tag : Byte) (hspace : (linkOf s l).atSpace = false)
    (hheld : (linkOf s l).held ≠ none) :
    takeUnknown l kind tag s = setLink l (fun u => { u with rx := .hunting, overrun := bump 65535 u.overrun }) s := by
  simp [takeUnknown, hspace, isSome_of_held hheld]

/-- Settles O13: the command of an overrun, and a frame of either sort while a request is held. -/
theorem heldRequestOverruns : Obligations.HeldRequestOverruns := by
  intro k l kind tag body s hspace hheld
  refine ⟨?_, ?_, ?_⟩
  · exact congrArg Host.Outcome.next (setLink_congr (overrunUnit_held hspace hheld))
  · rw [exec_instr, takeRequest_held hspace hheld]
  · rw [exec_unknownKind, takeUnknown_held kind tag hspace hheld]

/-! ### The reception of a frame (R186, R187) -/

/-- The link's receiver stands at `rx`. -/
def receiving (l : Link) (rx : Receiver) (s : State) : State := setLink l (fun u => { u with rx := rx }) s

section Reception
variable {l : Link} {s : State}

@[simp] theorem linkOf_receiving (l : Link) (rx : Receiver) (s : State) :
    linkOf (receiving l rx s) l = { linkOf s l with rx := rx } := linkOf_setLink_same _ _ _

@[simp] theorem receiving_receiving (l : Link) (rx ry : Receiver) (s : State) :
    receiving l ry (receiving l rx s) = receiving l ry s := setLink_setLink _ _ _ _

theorem receiving_self {rx : Receiver} (h : (linkOf s l).rx = rx) : receiving l rx s = s :=
  setLink_self (by rw [← h])

theorem takeByte_more {b : Byte} {rx : Receiver} (hspace : (linkOf s l).atSpace = false)
    (h : rxByte (linkOf s l).rx b = .more rx) : takeByte l s b = receiving l rx s := by
  simp [takeByte, hspace, h, receiving]

theorem takeByte_discard {b : Byte} (hspace : (linkOf s l).atSpace = false)
    (h : rxByte (linkOf s l).rx b = .discard) : takeByte l s b = setLink l discardFrame s := by
  simp [takeByte, hspace, h]

theorem takeByte_request {b kind tag : Byte} {body : List Byte} {k : ReqKind} (hspace : (linkOf s l).atSpace = false)
    (h : rxByte (linkOf s l).rx b = .frame kind tag body) (hk : ReqKind.ofCode kind = some k) :
    takeByte l s b = takeRequest l k tag body (handlerOf k l body) s := by simp [takeByte, hspace, h, hk]

theorem takeByte_unknown {b kind tag : Byte} {body : List Byte} (hspace : (linkOf s l).atSpace = false)
    (h : rxByte (linkOf s l).rx b = .frame kind tag body) (hk : ReqKind.ofCode kind = none) :
    takeByte l s b = takeUnknown l kind tag s := by simp [takeByte, hspace, h, hk]

/-- A discard does not depend on what has been received. -/
theorem discard_receiving (rx : Receiver) : setLink l discardFrame (receiving l rx s)
    = setLink l (fun u => { u with rx := .hunting, discarded := bump 65535 u.discarded }) s := setLink_setLink _ _ _ _

/-- A request that is taken does not depend on what has been received. -/
theorem takeRequest_receiving (rx : Receiver) (k : ReqKind) (tag : Byte) (body : List Byte) (f : State → State × Answer)
    (hspace : (linkOf s l).atSpace = false) :
    takeRequest l k tag body f (receiving l rx s) = takeRequest l k tag body f s := by
  simp [takeRequest, receiving, setLink_setLink, checkRequest, hspace]

theorem takeUnknown_receiving (rx : Receiver) (kind tag : Byte) (hspace : (linkOf s l).atSpace = false) :
    takeUnknown l kind tag (receiving l rx s) = takeUnknown l kind tag s := by
  simp [takeUnknown, receiving, setLink_setLink, hspace]

/-- The bytes of a frame but its last are kept. -/
theorem receive_bytes {len : Byte} {got : List Byte} (bs : List Byte) (hspace : (linkOf s l).atSpace = false)
    (hrx : (linkOf s l).rx = .inFrame (len :: got)) (hlen : got.length + bs.length < len.toNat + 2) :
    bs.foldl (takeByte l) s = receiving l (.inFrame (len :: got ++ bs)) s := by
  induction bs generalizing got s with
  | nil => simpa using (receiving_self hrx).symm
  | cons b bs ih =>
    rw [List.length_cons] at hlen
    have hmore : rxByte (linkOf s l).rx b = .more (.inFrame (len :: (got ++ [b]))) := by
      rw [hrx, rxByte]
      simp
      omega
    rw [List.foldl_cons, takeByte_more hspace hmore,
      ih (got := got ++ [b]) (by simpa using hspace) (by simp) (by simp; omega)]
    simp

theorem toNat_byte1 {n : Nat} (h : n < 256) : (byte1 n).toNat = n := by
  simp [byte1]
  omega

/-- The part of a frame that its check covers. -/
def covered (kind tag : Byte) (body : List Byte) : List Byte := byte1 (2 + body.length) :: kind :: tag :: body

theorem length_covered (kind tag : Byte) (body : List Byte) : (covered kind tag body).length = body.length + 3 := by
  simp [covered]

/-- The sync byte and the length byte open a frame. -/
theorem receive_head {n : Byte} (hspace : (linkOf s l).atSpace = false) (hrx : (linkOf s l).rx = .hunting)
    (hn : 2 ≤ n.toNat ∧ n.toNat ≤ 250) :
    [0xA7#8, n].foldl (takeByte l) s = receiving l (.inFrame [n]) s := by
  have hsync : rxByte (linkOf s l).rx 0xA7#8 = .more (.inFrame []) := by rw [hrx, rxByte, if_pos rfl]
  rw [List.foldl_cons, takeByte_more hspace hsync, List.foldl_cons,
    takeByte_more (rx := .inFrame [n]) (by simpa using hspace) (by simp [rxByte]; omega)]
  simp

/-- A frame up to its last check byte is in reception. -/
theorem receive_frame {kind tag c1 : Byte} {body : List Byte} (hspace : (linkOf s l).atSpace = false)
    (hrx : (linkOf s l).rx = .hunting) (hb : body.length ≤ 248) :
    (0xA7#8 :: covered kind tag body ++ [c1]).foldl (takeByte l) s
      = receiving l (.inFrame (covered kind tag body ++ [c1])) s := by
  have hn : (byte1 (2 + body.length)).toNat = 2 + body.length := toNat_byte1 (by omega)
  have hsplit : 0xA7#8 :: covered kind tag body ++ [c1]
      = [0xA7#8, byte1 (2 + body.length)] ++ (kind :: tag :: body ++ [c1]) := rfl
  rw [hsplit, List.foldl_append, receive_head hspace hrx (by omega),
    receive_bytes (len := byte1 (2 + body.length)) (got := []) _ (by simpa using hspace) (by simp)
      (by simp [hn]; omega), receiving_receiving]
  rfl

/-- The last check byte completes the frame, which is judged. -/
theorem rxByte_last {kind tag c1 c2 : Byte} {body : List Byte} (hb : body.length ≤ 248) :
    rxByte (.inFrame (covered kind tag body ++ [c1])) c2 = judgeFrame (covered kind tag body ++ [c1, c2]) := by
  have hn : (byte1 (2 + body.length)).toNat = 2 + body.length := toNat_byte1 (by omega)
  simp [covered, rxByte, hn]
  omega

theorem judgeFrame_covered (kind tag c1 c2 : Byte) (body : List Byte) :
    judgeFrame (covered kind tag body ++ [c1, c2])
      = if checkBytes (covered kind tag body) ≠ [c1, c2] then .discard
        else if kind.toNat < 0x80 then .frame kind tag body else .discard := by
  have hlen : (covered kind tag body ++ [c1, c2]).length - 2 = (covered kind tag body).length := by simp
  unfold judgeFrame
  rw [hlen, List.take_left, List.drop_left]
  rfl

theorem frameBytes_eq {kind tag : Byte} {body : List Byte} (hb : body.length ≤ 248) :
    frameBytes kind tag body = 0xA7#8 :: covered kind tag body ++ checkBytes (covered kind tag body) := by
  rw [frameBytes, Config.bodyMax, List.take_of_length_le hb]
  rfl

/-- R186: the check is two bytes. -/
theorem checkBytes_pair (bs : List Byte) : ∃ c1 c2, checkBytes bs = [c1, c2] := ⟨_, _, rfl⟩

/-- A frame that arrives ends with the judging of its last byte. -/
theorem foldl_frame {kind tag c1 c2 : Byte} {body : List Byte} (hspace : (linkOf s l).atSpace = false)
    (hrx : (linkOf s l).rx = .hunting) (hb : body.length ≤ 248) :
    (0xA7#8 :: covered kind tag body ++ [c1, c2]).foldl (takeByte l) s
      = takeByte l (receiving l (.inFrame (covered kind tag body ++ [c1])) s) c2 := by
  have hsplit : 0xA7#8 :: covered kind tag body ++ [c1, c2] = (0xA7#8 :: covered kind tag body ++ [c1]) ++ [c2] := by
    simp
  rw [hsplit, List.foldl_append, receive_frame hspace hrx hb]
  rfl

/-- A frame with its own check and a request's kind arrives as a frame. -/
theorem foldl_frameBytes {kind tag : Byte} {body : List Byte} (hspace : (linkOf s l).atSpace = false)
    (hrx : (linkOf s l).rx = .hunting) (hb : body.length ≤ 248) : ∃ rx c,
    (frameBytes kind tag body).foldl (takeByte l) s = takeByte l (receiving l rx s) c
    ∧ rxByte rx c = if kind.toNat < 0x80 then .frame kind tag body else .discard := by
  obtain ⟨c1, c2, hc⟩ := checkBytes_pair (covered kind tag body)
  refine ⟨_, c2, ?_, (rxByte_last hb).trans ((judgeFrame_covered kind tag c1 c2 body).trans (if_neg ?_))⟩
  · rw [frameBytes_eq hb, hc, foldl_frame hspace hrx hb]
  · simp [hc]

end Reception

theorem exec_frameDiscarded (l : Link) (bs : List Byte) (s : State) :
    exec (.frameDiscarded l bs) s = .next (bs.foldl (takeByte l) s) := rfl

theorem ofCode_row (k : ReqKind) : ReqKind.ofCode k.row.code = some k := by cases k <;> rfl

theorem row_code_lt (k : ReqKind) : k.row.code.toNat < 0x80 := by cases k <;> decide

/-- Settles O14: the frame byte by byte, up to its last check byte, and what the receiver then makes of it. -/
theorem wholeFrameIsTheRequest : Obligations.WholeFrameIsTheRequest := by
  intro l tag body s hb hspace hrx
  refine ⟨fun k => ?_, fun kind hkind hnone => ?_⟩
  · obtain ⟨rx, c, hfold, hlast⟩ := foldl_frameBytes (kind := k.row.code) (tag := tag) hspace hrx hb
    rw [if_pos (row_code_lt k)] at hlast
    rw [exec_frameDiscarded, hfold, takeByte_request (by simpa using hspace) (by simpa using hlast) (ofCode_row k),
      takeRequest_receiving _ _ _ _ _ hspace, exec_instr]
  · obtain ⟨rx, c, hfold, hlast⟩ := foldl_frameBytes (kind := kind) (tag := tag) hspace hrx hb
    rw [if_pos hkind] at hlast
    rw [exec_frameDiscarded, hfold, takeByte_unknown (by simpa using hspace) (by simpa using hlast) hnone,
      takeUnknown_receiving _ _ _ hspace, exec_unknownKind]

theorem exec_interByteTimeout (l : Link) (s : State) :
    exec (.interByteTimeout l) s = .next (setLink l cutReception s) := rfl

/-- Settles O15: each way in which the receiver discards a frame or passes a byte over. -/
theorem badFramesAreDiscarded : Obligations.BadFramesAreDiscarded := by
  intro l s hspace
  refine ⟨fun hrx => ⟨fun n hn => ?_, fun kind tag c1 c2 body hb hc => ?_, fun kind tag body hb hkind => ?_,
    fun b hb => ?_, ?_⟩, fun bytes hrx => ?_⟩
  · have hsync : rxByte (linkOf s l).rx 0xA7#8 = .more (.inFrame []) := by rw [hrx, rxByte, if_pos rfl]
    have hlen : rxByte (.inFrame []) n = .discard := if_pos hn
    rw [exec_frameDiscarded, List.foldl_cons, takeByte_more hspace hsync, List.foldl_cons,
      takeByte_discard (by simpa using hspace) (by simpa using hlen), discard_receiving]
    rfl
  · have hjudge := judgeFrame_covered kind tag c1 c2 body
    have hcheck : checkBytes (covered kind tag body) ≠ [c1, c2] := Ne.symm hc
    rw [if_pos hcheck] at hjudge
    refine (exec_frameDiscarded l _ s).trans (congrArg _ ((foldl_frame hspace hrx hb).trans ?_))
    rw [takeByte_discard (by simpa using hspace) (by simpa using (rxByte_last hb).trans hjudge), discard_receiving]
  · obtain ⟨rx, c, hfold, hlast⟩ := foldl_frameBytes (kind := kind) (tag := tag) hspace hrx hb
    rw [if_neg (by omega)] at hlast
    rw [exec_frameDiscarded, hfold, takeByte_discard (by simpa using hspace) (by simpa using hlast), discard_receiving]
  · have hpass : rxByte (linkOf s l).rx b = .more .hunting := by rw [hrx, rxByte, if_neg hb]
    rw [exec_frameDiscarded, List.foldl_cons, takeByte_more hspace hpass, receiving_self hrx, List.foldl_nil]
  · rw [exec_interByteTimeout, setLink_self (by simp [cutReception, hrx])]
  · exact congrArg Host.Outcome.next (setLink_congr (by simp [cutReception, hrx, discardFrame]))

/-! ### The transmitter and the queue (R190, R191) -/

section Transmitter
variable {u : LinkUnit}

theorem startTx_busy (h : u.tx ≠ none) : startTx u = u := by
  simp [startTx, Option.isSome_iff_ne_none.2 h]

theorem startTx_forming {kind tag : Byte} {b : Bool} (h : u.held = some ⟨kind, tag, b, .forming⟩) : startTx u = u := by
  unfold startTx
  split
  · rfl
  · simp [h]

/-- R190: the pending reply goes first. -/
theorem startTx_ready {kind tag : Byte} {b : Bool} {r : Reply} (htx : u.tx = none)
    (h : u.held = some ⟨kind, tag, b, .ready r⟩) :
    startTx u = { u with
      tx := some ⟨true, frameBytes (kind + 0x80#8) tag (r.outcome.code :: r.data)⟩
      held := some ⟨kind, tag, b, .sending⟩ } := by simp [startTx, htx, h, replyFrame]

/-- The unit holds no request whose reply could start or is being formed. -/
def NoReplyDue (u : LinkUnit) : Prop :=
  u.held = none ∨ (∃ kind tag b m r, u.held = some ⟨kind, tag, b, .awaiting m r⟩)
    ∨ ∃ kind tag b, u.held = some ⟨kind, tag, b, .sending⟩

/-- R190: with no reply due the notice at the head of the queue goes. -/
theorem startTx_notice {q : QNotice} {rest : List QNotice} (htx : u.tx = none) (h : NoReplyDue u)
    (hq : u.queue = q :: rest) :
    startTx u = { u with
      tx := some ⟨false, frameBytes q.notice.kind 0#8 (byte1 q.lost :: q.notice.body)⟩, queue := rest } := by
  obtain h | ⟨kind, tag, b, m, r, h⟩ | ⟨kind, tag, b, h⟩ := h
  · simp [startTx, htx, h, hq, noticeFrame]
  · simp [startTx, htx, h, hq, noticeFrame]
  · simp [startTx, htx, h, hq, noticeFrame]

theorem startTx_empty (htx : u.tx = none) (h : NoReplyDue u) (hq : u.queue = []) : startTx u = u := by
  obtain h | ⟨kind, tag, b, m, r, h⟩ | ⟨kind, tag, b, h⟩ := h
  · simp [startTx, htx, h, hq]
  · simp [startTx, htx, h, hq]
  · simp [startTx, htx, h, hq]

theorem offer_full (n : Notice) (h : 16 ≤ u.queue.length) :
    offer n u = { u with lost := if u.lost < 255 then u.lost + 1 else u.lost } := if_neg (Nat.not_lt.2 h)

theorem offer_room (n : Notice) (h : u.queue.length < 16) :
    offer n u = startTx { u with queue := u.queue ++ [⟨u.lost, n⟩], lost := 0 } := if_pos h

end Transmitter

theorem exec_transmitEnd (l : Link) (s : State) : exec (.transmitEnd l) s = .next (transmitEnd l s) := rfl

/-- R190: the end of a frame that is no Restart's reply. -/
theorem transmitEnd_sent {l : Link} {s : State} {f : TxFrame} (htx : (linkOf s l).tx = some f)
    (h : f.isReply = true → restartHeld (linkOf s l) = false) : transmitEnd l s = setLink l (fun u =>
      startTx { u with tx := none, held := if f.isReply then none else u.held }) s := by
  have hsent : restartSent (linkOf s l) = false := by
    cases hr : f.isReply
    · simp [restartSent, htx, hr]
    · simp [restartSent, h hr]
  rw [transmitEnd, if_neg (by simp [hsent])]
  exact setLink_congr (by simp [sentUnit, htx])

/-- R191: the notices are offered one by one, each to both units. -/
theorem deliverOut_cons {s : State} {n : Notice} {rest : List Notice} (h : s.shelf.out = n :: rest) :
    deliverOut s = deliverOut { s with
      shelf := { s.shelf with out := rest }, linkA := offer n s.linkA, linkB := offer n s.linkB } := by
  simp [deliverOut, h]

/-- What the request held after the end of a frame leaves due. -/
theorem noReplyDue_of_sent {u : LinkUnit} {f : TxFrame} {held : Option HeldRequest}
    (h : (f.isReply = true ∧ restartHeld u = false ∧ held = none)
      ∨ (f.isReply = false ∧ held = u.held ∧ (held = none ∨ ∃ kind tag b n r,
          held = some ⟨kind, tag, b, .awaiting n r⟩))) :
    (f.isReply = true → restartHeld u = false) ∧ (if f.isReply then none else u.held) = held
      ∧ NoReplyDue { u with tx := none, held := held } := by
  obtain ⟨hf, hr, rfl⟩ | ⟨hf, rfl, hnone | hawait⟩ := h
  · exact ⟨fun _ => hr, by simp [hf], .inl rfl⟩
  · exact ⟨by simp [hf], by simp [hf], .inl hnone⟩
  · exact ⟨by simp [hf], by simp [hf], .inr (.inl hawait)⟩

/-- Settles O17: the cases of the transmitter at the end of a frame and at the offer of a notice. -/
theorem transmitEndStartsTheNext : Obligations.TransmitEndStartsTheNext := by
  refine ⟨fun l s f htx => ⟨fun kind tag b r hf hheld => ?_, fun held hcase => ?_⟩,
    fun s => ⟨deliverOut_none, fun n rest h => deliverOut_cons h⟩, fun n u => ⟨offer_full n, fun hroom => ?_⟩⟩
  · rw [exec_transmitEnd, transmitEnd_sent htx (by simp [hf])]
    refine congrArg _ (setLink_congr ?_)
    exact startTx_ready rfl (by simpa [hf] using hheld)
  · obtain ⟨hno, hafter, hdue⟩ := noReplyDue_of_sent hcase
    rw [exec_transmitEnd, transmitEnd_sent htx hno]
    refine ⟨fun q rest hq => congrArg _ (setLink_congr ?_), fun hq => congrArg _ (setLink_congr ?_)⟩
    · rw [hafter]
      exact startTx_notice rfl hdue hq
    · rw [hafter]
      exact startTx_empty rfl hdue hq
  · rw [offer_room n hroom]
    exact ⟨fun htx => startTx_busy htx, fun htx => ⟨fun kind tag b h => startTx_forming h,
      fun kind tag b r h => startTx_ready htx h, fun h q rest hq => startTx_notice htx h hq⟩⟩

/-! ### The link reset (R162, R183, R192) -/

theorem linkReset_eq {l : Link} {s : State} (h : restartHeld (linkOf s l) = false) :
    linkReset l s = freeClaim l (setLink l resetUnit s) := by simp [linkReset, h]

theorem freeClaim_of_other {l : Link} {s : State} (h : s.lock.holder ≠ holderOf l) : freeClaim l s = s := if_neg h

theorem freeClaim_of_holder {l : Link} {s : State} (h : s.lock.holder = holderOf l) :
    freeClaim l s = deliverOut (setHolder .none .linkReset s) := if_pos h

/-- R187, R192: what a link reset makes of the unit. -/
theorem resetUnit_eq (u : LinkUnit) : resetUnit u = ⟨.heldReset, true, none, none, [], 0,
    (cutReception u).discarded, u.overrun, bump 255 u.resets⟩ := by
  unfold resetUnit cutReception
  cases u.rx <;> rfl

theorem markUnit_eq (u : LinkUnit) : markUnit u
    = { u with atSpace := false, rx := if u.rx = .heldReset then .hunting else u.rx } := by
  unfold markUnit
  cases u.rx <;> simp

/-- Settles O16: the unit, the claim and the receiver at a link reset and at the return to mark. -/
theorem linkResetClearsItsUnit : Obligations.LinkResetClearsItsUnit := by
  intro l s u v t
  have hv : (cutReception u).discarded = v.discarded := by
    unfold cutReception v
    cases u.rx <;> rfl
  have ht : setLink l resetUnit s = t := setLink_congr (by rw [resetUnit_eq, hv])
  refine ⟨fun hr hother => ?_, fun hr hown => ?_, ?_⟩
  · rw [exec_linkReset, linkReset_eq hr, freeClaim_of_other (by simpa using hother), ht]
  · rw [exec_linkReset, linkReset_eq hr, freeClaim_of_holder (by simpa using hown), ht]
    simp [setHolder, t]
  · exact congrArg Host.Outcome.next (setLink_congr (markUnit_eq _))

/-! ### The Restart (R183) -/

theorem freeClaim_lock (l : Link) (s : State) : { (freeClaim l s).lock with holder := .none }
    = { s.lock with holder := .none } := by
  unfold freeClaim
  split <;> rfl

theorem restartHeld_of {u : LinkUnit} {h : HeldRequest} (hheld : u.held = some h) (hr : h.restart = true) :
    restartHeld u = true := by simp [restartHeld, hheld, hr]

/-- Settles O18: the reply of an accepted Restart, and the hard reset at its sending or at a link reset before it. -/
theorem restartResetsAfterItsReply : Obligations.RestartResetsAfterItsReply := by
  intro l tag s
  refine ⟨fun body hacc => ?_, fun h f hheld hr => ⟨fun htx hf => ?_, ?_⟩⟩
  · refine (exec_instr .restart l tag body s).trans (congrArg _ ?_)
    rw [takeRequest_accepts hacc]
    simp only [reply, holding, handlerOf, handleRestart, setLink_setLink]
    rfl
  · refine ⟨_, exec_transmitEnd l s, ?_⟩
    rw [transmitEnd, if_pos (by simp [restartSent, htx, hf, restartHeld_of hheld hr])]
    exact hardReset_leaves .restart s
  · have hreset : linkReset l s = takeHardReset .restart (freeClaim l (setLink l resetUnit s)) := by
      simp [linkReset, restartHeld_of hheld hr]
    obtain ⟨⟨hphase, -⟩, ⟨hcause, -⟩, hlock, -⟩ := hardReset_leaves .restart (freeClaim l (setLink l resetUnit s))
    refine ⟨_, exec_linkReset l s, ?_, ?_, ?_⟩
    · rw [hreset, hcause]
    · rw [hreset, hphase]
    · rw [hreset, hlock, freeClaim_lock, setLink_lock]

end Sys2Proof.Machine

/-! The work lock (R165, R167, R168), arming and the start options (R179 to R181). -/

namespace Sys2Proof.Machine

/-! ### Unlock, Lock and Freeze (R167, R168) -/

section WorkLockRules
variable {b : List Byte} {s : State}

theorem handleUnlock_of_frozen (hf : s.lock.frozen = true) : handleUnlock b s = (s, refuse .frozen) := by
  simp [handleUnlock, hf]

theorem handleUnlock_of_expired (hf : s.lock.frozen = false) (hn : s.lock.count = 5) :
    handleUnlock b s = (s, refuse .expired) := by simp [handleUnlock, hf, hn, Config.unlockMax]

theorem handleUnlock_of_not_locked (hf : s.lock.frozen = false) (hn : s.lock.count < 5) (hm : s.lock.mode ≠ .locked) :
    handleUnlock b s = (s, done []) := by
  cases h : s.lock.mode with
  | unguarded => simp [handleUnlock, Config.unlockMax, hf, Nat.ne_of_lt hn, h]
  | opened => simp [handleUnlock, Config.unlockMax, hf, Nat.ne_of_lt hn, h]
  | locked => exact absurd h hm

theorem handleUnlock_of_equal (hf : s.lock.frozen = false) (hn : s.lock.count < 5) (hm : s.lock.mode = .locked)
    (hc : s.lock.code = some b) :
    handleUnlock b s = ({ s with lock := { s.lock with mode := .opened, count := 0 } }, done []) := by
  simp [handleUnlock, Config.unlockMax, hf, Nat.ne_of_lt hn, hm, hc, setLock]

theorem handleUnlock_of_other (hf : s.lock.frozen = false) (hn : s.lock.count < 5) (hm : s.lock.mode = .locked)
    (hc : s.lock.code ≠ some b) : handleUnlock b s = countMismatch .locked s := by
  simp [handleUnlock, Config.unlockMax, hf, Nat.ne_of_lt hn, hm, hc]

theorem handleLock_of_frozen (hf : s.lock.frozen = true) : handleLock s = (s, refuse .frozen) := by
  simp [handleLock, hf]

theorem handleLock_of_unguarded (hf : s.lock.frozen = false) (hm : s.lock.mode = .unguarded) :
    handleLock s = (s, refuse .conflict) := by simp [handleLock, hf, hm]

theorem handleLock_of_opened (hf : s.lock.frozen = false) (hm : s.lock.mode = .opened) :
    handleLock s = ({ s with lock := { s.lock with mode := .locked } }, done []) :=
        by simp [handleLock, hf, hm, setLock]

theorem handleLock_of_locked (hf : s.lock.frozen = false) (hm : s.lock.mode = .locked) :
    handleLock s = (s, done []) := by simp [handleLock, hf, hm]

end WorkLockRules

/-- Settles O21: Unlock by the frozen flag, the count, the mode and the code. -/
theorem unlockComparesTheCode : Obligations.UnlockComparesTheCode := by
  intro l tag body s hacc answer
  have same (a : Answer) (hr : a.restart = false) := exec_accepts_same (tag := tag) (a := a) hacc hr
  have changed (a : Answer) (hr : a.restart = false) :=
      fun y => exec_accepts_lock (tag := tag) (a := a) (y := y) hacc hr
  refine ⟨fun hf => ?_, fun hf hn => ⟨?_, ?_⟩, fun hf hn => ⟨fun hm => ?_, fun hm hc => ?_, fun hm hc => ?_⟩,
    ⟨_, exec_powerOnReset s, rfl⟩⟩
  · exact same (refuse .frozen) rfl (handleUnlock_of_frozen (by simpa using hf))
  · exact same (refuse .expired) rfl (handleUnlock_of_expired (by simpa using hf) (by simpa using hn))
  · obtain ⟨hfree, hfits, hphase, hclaim, hgate⟩ := hacc
    have hclear : Accepts l .clearCraftCode body s :=
      ⟨hfree, hfits, fun h => absurd (hphase h) (by simp), hclaim, hgate⟩
    exact exec_accepts_same (k := .clearCraftCode) (a := refuse .expired) hclear rfl
      (handleClearCraftCode_of_expired (by simpa using hf) (by simpa using hn))
  · exact same (done []) rfl (handleUnlock_of_not_locked (by simpa using hf) (by simpa using hn) (by simpa using hm))
  · refine changed (done []) rfl _ ?_
    have hopen := handleUnlock_of_equal (b := body) (s := holding l .unlock tag s) (by simpa using hf)
      (by simpa using hn) (by simpa using hm) (by simpa using hc)
    simpa [handlerOf] using hopen
  · refine changed (refuse (if s.lock.count = 4 then .expired else .locked)) rfl _ ?_
    have hmis := handleUnlock_of_other (b := body) (s := holding l .unlock tag s) (by simpa using hf)
      (by simpa using hn) (by simpa using hm) (by simpa using hc)
    simpa [handlerOf] using hmis.trans (countMismatch_of_lt (by simpa using hn))

/-- R168: the requests that a set frozen flag refuses. -/
theorem handler_of_frozen {k : ReqKind} (l : Link) (b : List Byte) {s : State} (hf : s.lock.frozen = true)
    (hk : k = .setCraftCode ∨ k = .clearCraftCode ∨ k = .unlock ∨ k = .lock) :
    handlerOf k l b s = (s, refuse .frozen) := by
  obtain rfl | rfl | rfl | rfl := hk
  · exact handleSetCraftCode_of_frozen hf
  · exact handleClearCraftCode_of_frozen hf
  · exact handleUnlock_of_frozen hf
  · exact handleLock_of_frozen hf

/-- Settles O23: Lock by the frozen flag and the mode, Freeze, and the refusals of a set frozen flag. -/
theorem lockAndFreezeCloseTheLock : Obligations.LockAndFreezeCloseTheLock := by
  intro l tag body s
  refine ⟨fun hacc => ?lock, fun hacc => ?freeze, fun hf k hk hacc => ?frozen,
    fun hf hm k ht hfree hb hp hc => ?gated, ⟨_, exec_powerOnReset s, fun hcode => ?power⟩⟩
  case lock =>
    have same (a : Answer) (hr : a.restart = false) := exec_accepts_same (tag := tag) (a := a) hacc hr
    refine ⟨fun hf => ?_, fun hf => ⟨fun hm => ?_, fun hm => ?_, fun hm => ?_⟩⟩
    · exact same (refuse .frozen) rfl (handleLock_of_frozen (by simpa using hf))
    · exact same (refuse .conflict) rfl (handleLock_of_unguarded (by simpa using hf) (by simpa using hm))
    · refine exec_accepts_lock (k := .lock) (a := done []) hacc rfl ?_
      simpa [handlerOf] using handleLock_of_opened (s := holding l .lock tag s) (by simpa using hf) (by simpa using hm)
    · exact same (done []) rfl (handleLock_of_locked (by simpa using hf) (by simpa using hm))
  case freeze =>
    refine exec_accepts_lock (k := .freeze) (a := done []) hacc rfl ?_
    simp [handlerOf, handleFreeze, setLock]
  case frozen =>
    exact exec_accepts_same (a := refuse .frozen) hacc rfl (handler_of_frozen l body (by simpa using hf) hk)
  case gated =>
    have hgate := checkRequest_gated hb hp ht hc hm
    rw [if_pos hf] at hgate
    exact exec_refused tag hfree hgate
  case power =>
    have hmode := workLock_reset_mode (loaded none (loadAll (nvmAtPowerLoss s.shelf.sto)).craftCode)
    rw [if_neg (by simpa [powerOn, WorkLock.reset] using hcode)] at hmode
    simpa [powerOn] using hmode

/-! ### Arming (R179, R180) -/

theorem startArming_of_other {s : Shelf} (h : s.rdy.phase ≠ .watch) (cause : ArmCause) : startArming cause s = s :=
  if_neg h

/-- R180: the phase to which arming leads. -/
theorem startArming_phase {s : Shelf} (h : s.rdy.phase = .watch) (cause : ArmCause) : (startArming cause s).rdy.phase
    = if (∃ g, (defOf s g).isSome = true ∧ (execOf s g).prepareDue = false) then .arming else .armed := by
  rw [startArming_rdy h]
  dsimp only
  by_cases hg : ∃ g, (defOf s g).isSome = true ∧ (execOf s g).prepareDue = false
  · rw [if_pos hg, (armingGroups_empty s).2 hg]
    rfl
  · have hnone : (armingGroups s).isEmpty = true := by
      rw [← Bool.not_eq_false]
      exact fun h => hg ((armingGroups_empty s).1 h)
    rw [if_neg hg, if_pos hnone]

/-- Settles O25: Arm and the arming delay by the phase, what arming leads to, and the entry to WATCH. -/
theorem armingIsStartedOnce : Obligations.ArmingIsStartedOnce := by
  intro s
  refine ⟨fun l tag body hacc => ⟨fun hw => ?_, fun hw => ?_⟩, fun hrun => ?_, fun hw cause => ?_,
    fun hw cause => startArming_of_other hw cause, fun x => ?_⟩
  · refine exec_accepts_shelf (k := .arm) (a := done []) hacc rfl ?_
    simp [handlerOf, handleArm, hw, mapShelf]
  · refine exec_accepts_same (k := .arm) (a := done []) hacc rfl ?_
    simp [handlerOf, handleArm, hw]
  · have hover : armingDelayOver s.shelf = startArming .delay s.shelf := if_pos (Option.isSome_iff_ne_none.2 hrun)
    refine congrArg Host.Outcome.next ?_
    rw [onShelfBus, onShelf, hover]
    rfl
  · have hrdy := startArming_rdy hw cause
    exact ⟨congrArg Readiness.armCause hrdy, congrArg Readiness.armingFor hrdy, startArming_phase hw cause⟩
  · obtain ⟨hcycle, hperiod, hrdy⟩ := enterWatch_cycle x
    exact ⟨hrdy, hcycle, hperiod, enterWatch_out x⟩

/-! ### The start options (R181) -/

section StoredShelf
variable {l : Link} {k : ReqKind} {tag : Byte} {body : List Byte} {s : State} {v : ItemValue} {f : Shelf → Shelf}

/-- A request that changes a stored item and the shelf alone, where blocks may then have work for the bus. -/
theorem storeChange_busShelf (h : Accepts l k body s)
    (hh : handlerOf k l body (holding l k tag s) = storeChange v [] (busShelf f) (holding l k tag s)) :
    StoredChange (k.instr l tag body) l k tag [] { s with shelf := pump (f (editing v s.shelf)) } s :=
  storeChange_stored (y := s.lock) h hh fun _ => by cases l <;> rfl

/-- A request that changes a stored item and the shelf alone. -/
theorem storeChange_mapShelf (h : Accepts l k body s)
    (hh : handlerOf k l body (holding l k tag s) = storeChange v [] (mapShelf f) (holding l k tag s)) :
    StoredChange (k.instr l tag body) l k tag [] { s with shelf := f (editing v s.shelf) } s :=
  storeChange_stored (y := s.lock) h hh fun _ => by cases l <;> rfl

/-- A request of a block that may hold edits, where blocks may then have work for the bus. -/
theorem heldChange_busShelf {e : EditHolder} (h : Accepts l k body s)
    (hh : handlerOf k l body (holding l k tag s) = heldChange e v [] (busShelf f) (holding l k tag s)) :
    StoredChange (k.instr l tag body) l k tag (heldBy e s.shelf) { s with shelf := pump (f (editing v s.shelf)) } s :=
  heldChange_stored (y := s.lock) h hh fun _ => by cases l <;> rfl

end StoredShelf

theorem flagAt_eq_some {b : List Byte} {i : Nat} {f : Bool} : flagAt b i = some f ↔ byteAt b i = f.toNat := by
  unfold flagAt
  by_cases h0 : byteAt b i = 0
  · cases f <;> simp [h0]
  · cases f <;> simp [h0]

theorem flagAt_eq_none {b : List Byte} {i : Nat} : flagAt b i = none ↔ 1 < byteAt b i := by
  unfold flagAt
  by_cases h0 : byteAt b i = 0
  · simp [h0]
  · by_cases h1 : byteAt b i = 1
    · simp [h1]
    · simp [h0, h1]
      omega

theorem startOptionsOf_bad {b : List Byte} (h : nat2At b 0 < 5 ∨ 300 < nat2At b 0 ∨ 1 < byteAt b 2) :
    startOptionsOf b = none := by
  unfold startOptionsOf
  split
  · rfl
  · rename_i retain hflag
    rw [flagAt_eq_some] at hflag
    have : retain.toNat < 2 := Bool.toNat_lt retain
    simp [startOptionsOk]
    omega

theorem startOptionsOf_good {b : List Byte} {retain : Bool} (h5 : 5 ≤ nat2At b 0) (h300 : nat2At b 0 ≤ 300)
    (hflag : byteAt b 2 = retain.toNat) : startOptionsOf b = some ⟨nat2At b 0, retain⟩ := by
  simp [startOptionsOf, flagAt_eq_some.2 hflag, startOptionsOk, h5, h300]

/-- R181: options under which no arming delay has run out change nothing else. -/
theorem changeStartOptions_early {o : StartOptions} {s : Shelf}
    (h : ∀ ms, s.rdy.armingFor = some ms → ms < 1000 * o.delay) :
    changeStartOptions o s = { s with rdy := { s.rdy with opts := o } } := by
  unfold changeStartOptions
  dsimp only
  split
  · rename_i ms hms
    rw [if_neg (Nat.not_le.2 (h ms hms))]
  · rfl

/-- R181: an arming delay that has reached the new delay starts arming. -/
theorem changeStartOptions_reached {o : StartOptions} {s : Shelf} {ms : Nat} (h : s.rdy.armingFor = some ms)
    (hms : 1000 * o.delay ≤ ms) :
    changeStartOptions o s = startArming .delay { s with rdy := { s.rdy with opts := o } } := by
  simp [changeStartOptions, h, hms]

/-- The options, the records and the definitions after a change of the start options: arming changes none of them. -/
theorem changeStartOptions_wide (o : StartOptions) (s : Shelf) :
    Wide { s with rdy := { s.rdy with opts := o } } (changeStartOptions o s) := by
  unfold changeStartOptions
  dsimp only
  split
  · split
    · exact keep_startArming (wide _) (wide_rfl _)
    · exact wide_rfl _
  · exact wide_rfl _

theorem handleSetStartOptions_of_bad {b : List Byte} (s : State) (h : startOptionsOf b = none) :
    handleSetStartOptions b s = (s, refuse .badValue) := by simp [handleSetStartOptions, h, turnAway]

theorem handleSetStartOptions_of_equal {b : List Byte} {s : State} (h : startOptionsOf b = some s.shelf.rdy.opts) :
    handleSetStartOptions b s = (s, done []) := by simp [handleSetStartOptions, h]

theorem handleSetStartOptions_of_change {b : List Byte} {s : State} {o : StartOptions} (h : startOptionsOf b = some o)
    (ho : s.shelf.rdy.opts ≠ o) :
    handleSetStartOptions b s = storeChange (.start o) [] (busShelf (changeStartOptions o)) s := by
  simp [handleSetStartOptions, h, Ne.symm ho]

/-- Settles O26: the body's fields, equal options, and the change with what the arming delay makes of it. -/
theorem startOptionsChange : Obligations.StartOptionsChange := by
  intro l tag body s hacc refused delay
  refine ⟨fun hbad => ?_, fun retain h5 h300 hflag => ⟨fun heq => ?_, fun hne => ?_⟩⟩
  · exact exec_accepts_same (k := .setStartOptions) (a := refuse .badValue) hacc rfl
      (handleSetStartOptions_of_bad _ (startOptionsOf_bad hbad))
  · refine exec_accepts_same (k := .setStartOptions) (a := done []) hacc rfl (handleSetStartOptions_of_equal ?_)
    rw [startOptionsOf_good h5 h300 hflag, holding_shelf, heq]
  · obtain ⟨hset, -, -⟩ := wide_settings (changeStartOptions_wide ⟨delay, retain⟩
      (editing (.start ⟨delay, retain⟩) s.shelf))
    obtain ⟨hrecs, -, -, hdefs, -, -, -, hopts, -⟩ := hset
    refine ⟨changeStartOptions ⟨delay, retain⟩ (editing (.start ⟨delay, retain⟩) s.shelf), ?_, hopts, hrecs, hdefs,
      fun h => changeStartOptions_early h, fun ms hw hms hreached => ?_⟩
    · exact storeChange_busShelf (k := .setStartOptions) hacc
        (handleSetStartOptions_of_change (startOptionsOf_good h5 h300 hflag) (by simpa using hne))
    · have hwatch : ({ editing (.start ⟨delay, retain⟩) s.shelf with
          rdy := { s.shelf.rdy with opts := ⟨delay, retain⟩ } } : Shelf).rdy.phase = .watch := hw
      rw [changeStartOptions_reached (s := editing (.start ⟨delay, retain⟩) s.shelf) hms hreached]
      have hrdy := startArming_rdy hwatch .delay
      refine ⟨fun hp => ?_, congrArg Readiness.armCause hrdy⟩
      have hphase := (congrArg Readiness.phase hrdy).symm.trans hp
      dsimp only at hphase
      split at hphase <;> cases hphase

end Sys2Proof.Machine

/-! The reads (R20, R37, R38, R59, R78, R102, R139, R157, R158, R169, R176, R185, R193): each replies DONE with its data
and changes nothing, and the data field by field. -/

namespace Sys2Proof.Machine

/-! ### Fields -/

theorem flagByte_eq (b : Bool) : flagByte b = if b then 1#8 else 0#8 := rfl

theorem flagByte_decide (p : Prop) [Decidable p] : flagByte (decide p) = if p then 1#8 else 0#8 := by
  by_cases h : p
  · simp [flagByte, h]
  · simp [flagByte, h]

theorem flagByte_isSome {α : Type} [DecidableEq α] (x : Option α) :
    flagByte x.isSome = if x = none then 0#8 else 1#8 := by cases x <;> rfl

/-! ### The answers -/

section Answers
variable {l : Link} {tag : Byte} {s : State}

/-- A read replies DONE with its data and changes nothing. -/
theorem exec_read {k : ReqKind} {body data : List Byte} (h : Accepts l k body s)
    (hh : handlerOf k l body (holding l k tag s) = (holding l k tag s, done data)) :
    exec (k.instr l tag body) s = .next (taken l k tag (formed .done data) s.shelf s) :=
  exec_accepts_same (a := done data) h rfl hh

theorem lockStatusData_holding (k : ReqKind) : lockStatusData l (holding l k tag s) = lockStatusData l s := by
  simp [lockStatusData]

theorem identifyData_holding (k : ReqKind) : identifyData (holding l k tag s) = identifyData s := by
  simp [identifyData]

/-- R173: the request being answered is not one whose reply waits for an edit. -/
theorem storeStatusData_holding (k : ReqKind) (h : (linkOf s l).held = none) :
    storeStatusData (holding l k tag s) = storeStatusData s := by
  cases l with
  | a =>
    have ha : s.linkA.held = none := h
    simp [storeStatusData, replyHeld, holding, setLink, ha]
  | b =>
    have hb : s.linkB.held = none := h
    simp [storeStatusData, replyHeld, holding, setLink, hb]

end Answers

/-! ### The data, field by field -/

theorem lockStatusData_eq (l : Link) (s : State) : lockStatusData l s
    = [byte1 s.lock.mode.code, if s.lock.frozen then 1#8 else 0#8, byte1 s.lock.count,
       if s.lock.code = none then 0#8 else 1#8,
       if ∃ e ∈ s.shelf.sto.list, e.value.item = .craftCode then 1#8 else 0#8,
       byte1 s.lock.holder.code, if s.lock.holder = holderOf l then 1#8 else 0#8] := by
  have hedit : s.shelf.sto.list.any (fun e => decide (e.value.item = .craftCode))
      = decide (∃ e ∈ s.shelf.sto.list, e.value.item = .craftCode) := by
    rw [Bool.eq_iff_iff]
    simp
  simp only [lockStatusData, hedit, flagByte_decide, flagByte_isSome, flagByte_eq s.lock.frozen]

/-- R185: the names of Identify are the characters of the manual, filled with spaces. -/
theorem identifyData_eq (s : State) : identifyData s
    = "SZ48    ".toList.map (fun c => byte1 c.toNat) ++ "Sotrize ".toList.map (fun c => byte1 c.toNat)
      ++ [Config.partRevision] ++ s.shelf.recs.identity
      ++ [48#8, byte1 s.shelf.rdy.phase.code, byte1 s.shelf.rdy.cause.code] ++ bytes4 (shelfTime s.shelf) := by
  have hname : "SZ48    ".toList.map (fun c => byte1 c.toNat)
      = [0x53#8, 0x5A#8, 0x34#8, 0x38#8, 0x20#8, 0x20#8, 0x20#8, 0x20#8] := by decide
  have hmaker : "Sotrize ".toList.map (fun c => byte1 c.toNat)
      = [0x53#8, 0x6F#8, 0x74#8, 0x72#8, 0x69#8, 0x7A#8, 0x65#8, 0x20#8] := by decide
  rw [hname, hmaker, identifyData]

/-- A list of single bytes. -/
theorem listBytes_map {α : Type} (f : α → Byte) (l : List α) :
    listBytes (fun x => [f x]) l = byte1 l.length :: l.map f := by rw [listBytes, List.map_eq_flatMap]

/-- R193: Link Status gives the two units, link A first. -/
theorem linkStatusData_eq (l : Link) (s : State) : linkStatusData l s
    = [s.linkA, s.linkB].flatMap linkData ++ [if l = .a then 0#8 else 1#8] := by cases l <;> simp [linkStatusData]

/-- R173: the links whose replies wait for an edit, counted as the links with the flag set. -/
theorem length_filter_awaiting (u v : LinkUnit) {p : LinkUnit → Bool} (hp : ∀ w, (p w).toNat = replyHeld w) :
    ([u, v].filter p).length = replyHeld u + replyHeld v := by
  rw [← hp u, ← hp v]
  cases hu : p u <;> cases hv : p v <;> simp [hu, hv]

/-- Settles O27: the answer of each read, and its data. -/
theorem statusReadsChangeNothing : Obligations.StatusReadsChangeNothing := by
  intro l tag s reads
  refine ⟨fun body h => exec_read h ?_, fun body h => exec_read h rfl, fun body h => exec_read h ?_,
    fun body h => exec_read h ?_, fun body h => exec_read h ?_, fun body h => exec_read h ?_,
    fun body h => exec_read h ?_,
    fun body h => exec_read h ?_, lockStatusData_eq l s, identifyData_eq s, ?link, ?scan, ?spares, ?orders, ?timing,
    ?store⟩
  · simp only [handlerOf, handleIdentify, identifyData_holding]
  · simp only [handlerOf, handleLockStatus, lockStatusData_holding]
  · simp only [handlerOf, handleScanStatus, holding_shelf]
  · simp only [handlerOf, handleReadSpares, holding_shelf]
  · simp only [handlerOf, handleReadMoveOrders, holding_shelf]
  · simp only [handlerOf, handleReadTiming, holding_shelf]
  · obtain ⟨⟨-, hheld⟩, -⟩ := h
    simp only [handlerOf, handleStoreStatus, storeStatusData_holding _ hheld]
  case link =>
    rw [linkStatusData_eq]
    refine congrArg (· ++ _) (List.flatMap_congr fun u _ => ?_)
    obtain ⟨rx, atSpace, held, tx, queue, lost, discarded, overrun, resets⟩ := u
    rcases held with _ | ⟨kind, tag, restart, _ | _ | _ | _⟩ <;> rfl
  case scan =>
    simp only [scanStatusData, scanStarted, isQuiet]
    cases s.shelf.scan.cycle <;> rfl
  case spares =>
    have hkind (p : PortNo) : optByte ((condemnOf s.shelf p).map (fun c => c.kind.code))
        = (match condemnOf s.shelf p with
          | some c => byte1 c.kind.code
          | none => 0xFF#8) := by cases condemnOf s.shelf p <;> rfl
    simp only [readSparesData, listBytes_map, hkind, poolPorts, allPorts]
    rfl
  case orders =>
    simp only [readMoveOrdersData, listBytes_map]
    rfl
  case timing =>
    have href (x : Option RefNo) : numByte (x.map Fin.val) = (match x with
        | none => 0xFF#8
        | some r => byte1 r.val) := by cases x <;> rfl
    have hport (x : Option PortNo) : numByte (x.map Fin.val) = (match x with
        | none => 0xFF#8
        | some p => byte1 p.val) := by cases x <;> rfl
    have hwriting : numByte ((gradeInProgress s.shelf).map Fin.val)
        = (match s.shelf.tim.writing, s.shelf.bp.bus with
          | some (p, _), some b => if b.req = .timing then byte1 p.val else 0xFF#8
          | none, _ | some _, none => 0xFF#8) := by
      unfold gradeInProgress
      cases hw : s.shelf.tim.writing with
      | none => simp [numByte]
      | some w =>
        cases hb : s.shelf.bp.bus with
        | none => simp [numByte]
        | some b => by_cases hreq : b.req = .timing <;> simp [numByte, hreq]
    delta readTimingData refData
    simp only [listBytes_map, optByte, refByte, hwriting, href, hport, allPorts, allRefs]
    rfl
  case store =>
    simp only [storeStatusData, List.append_assoc]
    rw [length_filter_awaiting s.linkA s.linkB fun u => ?_]
    · generalize s.shelf.sto.list = edits
      generalize s.shelf.sto.writer = writer
      cases edits with
      | nil => cases writer <;> rfl
      | cons e rest => cases writer <;> rfl
    · obtain ⟨rx, atSpace, held, tx, queue, lost, discarded, overrun, resets⟩ := u
      rcases held with _ | ⟨kind, tag, restart, _ | _ | _ | _⟩ <;> rfl

/-- Settles O28: the two reads and their refusal in DISCOVERY. -/
theorem slotAndFaultReads : Obligations.SlotAndFaultReads := by
  intro l tag body s
  refine ⟨fun h => exec_read (k := .readSlots) h ?slots, fun h => exec_read (k := .readBusFault) h ?faults,
    fun hphase hfree k hk hb => ?early⟩
  case slots =>
    simp only [handlerOf, handleReadSlots, readSlotsData, holding_shelf, flagByte_decide]
    rfl
  case faults =>
    simp only [handlerOf, handleReadBusFault, readBusFaultData, holding_shelf, List.flatMap_cons, List.flatMap_nil,
      List.append_nil]
    cases s.shelf.bp.firstCause <;> cases s.shelf.bp.lastFault <;> rfl
  case early =>
    refine exec_refused tag hfree (checkRequest_notReady hb hphase ?_ ?_)
    · rintro rfl
      simp at hk
    · rintro rfl
      simp at hk

/-! ### The reads with a parameter (R37, R59, R102, R157, R158) -/

theorem finOf_lt {n k : Nat} (h : k < n) : finOf n k = some ⟨k, h⟩ := dif_pos h
theorem finOf_ge {n k : Nat} (h : n ≤ k) : finOf n k = none := dif_neg (Nat.not_lt.2 h)

section ReadAnswers
variable {b : List Byte} {s : State}

theorem handleReadPort_of_bad (h : 48 ≤ byteAt b 0) : handleReadPort b s = (s, refuse .badValue) := by
  simp [handleReadPort, portOfByte, finOf_ge h, turnAway]

theorem handleReadPort_of_port (h : byteAt b 0 < 48) :
    handleReadPort b s = (s, done (readPortData ⟨byteAt b 0, h⟩ s.shelf)) := by
  simp [handleReadPort, portOfByte, finOf_lt h]

theorem handleReadPortRecord_of_bad (h : 48 ≤ byteAt b 0) : handleReadPortRecord b s = (s, refuse .badValue) := by
  simp [handleReadPortRecord, portOfByte, finOf_ge h, turnAway]

theorem handleReadPortRecord_of_port (h : byteAt b 0 < 48) :
    handleReadPortRecord b s = (s, done (readPortRecordData ⟨byteAt b 0, h⟩ s.shelf)) := by
  simp [handleReadPortRecord, portOfByte, finOf_lt h]

theorem handleReadGroup_of_bad (h : 8 ≤ byteAt b 0) : handleReadGroup b s = (s, refuse .badValue) := by
  simp [handleReadGroup, groupOfByte, finOf_ge h, turnAway]

theorem handleReadGroup_of_absent {h : byteAt b 0 < 8} (hd : defOf s.shelf ⟨byteAt b 0, h⟩ = none) :
    handleReadGroup b s = (s, refuse .absent) := by
  simp [handleReadGroup, groupOfByte, finOf_lt h, hd, turnAway]

theorem handleReadGroup_of_defined {h : byteAt b 0 < 8} {d : GroupDef} (hd : defOf s.shelf ⟨byteAt b 0, h⟩ = some d) :
    handleReadGroup b s = (s, done (readGroupData ⟨byteAt b 0, h⟩ d s.shelf)) := by
  simp [handleReadGroup, groupOfByte, finOf_lt h, hd]

theorem handleReadAlarms_of_bad (h : 95 < byteAt b 0) : handleReadAlarms b s = (s, refuse .badValue) := if_pos h

theorem handleReadAlarms_of_index (h : byteAt b 0 ≤ 95) :
    handleReadAlarms b s = (s, done (readAlarmsData (byteAt b 0) s.shelf)) := if_neg (Nat.not_lt.2 h)

end ReadAnswers

/-- R157: the entries of a Read Alarms reply are the first of at most 16 that go whole into the room of the frame. -/
theorem fitting_take16 {α : Type} (room : Nat) (f : α → List Byte) (t : List α) :
    ∃ n ≤ 16, fitting room ((t.take 16).map f) = (t.take n).map f ∧ ((t.take n).flatMap f).length ≤ room
      ∧ (n < 16 → room < ((t.take (n + 1)).flatMap f).length) := by
  obtain ⟨n, hn, hfit, hle, hnext⟩ := fitting_spec room ((t.take 16).map f)
  have htake (m : Nat) (hm : m ≤ 16) : ((t.take 16).map f).take m = (t.take m).map f := by
    rw [← List.map_take, List.take_take, Nat.min_eq_left hm]
  rw [List.length_map, List.length_take] at hn hnext
  rw [htake n (by omega), ← List.flatMap_def] at hle
  rw [htake n (by omega)] at hfit
  by_cases hcut : n < min 16 t.length
  · refine ⟨n, by omega, hfit, hle, fun h16 => ?_⟩
    have := hnext hcut
    rwa [htake (n + 1) (by omega), ← List.flatMap_def] at this
  · have hall : t.take n = t.take 16 := by
      obtain h16 | hlen : n = 16 ∨ t.length ≤ n := by omega
      · rw [h16]
      · rw [List.take_of_length_le hlen, List.take_of_length_le (by omega)]
    exact ⟨16, Nat.le_refl _, hall ▸ hfit, hall ▸ hle, fun h => absurd h (by omega)⟩

/-- R158: from a number that a held record has, the records follow from the first that has it. -/
theorem recordsFrom_held {s : Shelf} {start : Nat} {older newer : List HistRec} {r : HistRec}
    (h : s.alm.history = older ++ r :: newer) (hr : r.seq = start) (ho : ∀ q ∈ older, q.seq ≠ start) :
    recordsFrom start s = r :: newer ∧ historyGap start s = false := by
  have hdrop : s.alm.history.dropWhile (fun r => decide (r.seq ≠ start)) = r :: newer := by
    rw [h, List.dropWhile_append_of_pos (by simpa using ho), List.dropWhile_cons_of_neg (by simpa using hr)]
  refine ⟨by simp only [recordsFrom, hdrop], ?_⟩
  unfold historyGap
  split
  · rfl
  · have hany : s.alm.history.any (fun x => decide (x.seq = start)) = true :=
      List.any_eq_true.2 ⟨r, by simp [h], by simpa using hr⟩
    simp [hany]

/-- R158: a number that no held record has asks for records made before the oldest, or for none. -/
theorem recordsFrom_absent {s : Shelf} {start : Nat} (h : ∀ r ∈ s.alm.history, r.seq ≠ start)
    (hl : s.alm.lapped = false) :
    (historyGap start s = true ↔ ∃ r, s.alm.history.head? = some r ∧ start < r.seq)
    ∧ recordsFrom start s = if historyGap start s then s.alm.history else [] := by
  have hany : s.alm.history.any (fun x => decide (x.seq = start)) = false := by simpa using h
  have hdrop : s.alm.history.dropWhile (fun r => decide (r.seq ≠ start)) = [] := by simpa using h
  refine ⟨?_, by simp only [recordsFrom, hdrop]⟩
  unfold historyGap
  split
  · rename_i hh
    simp [hh]
  · rename_i r rest hh
    rw [hany, hh, hl]
    simp [madeBefore]

/-- Settles O29: the answers by the parameter, and the data of each read. -/
theorem readsWithAParameter : Obligations.ReadsWithAParameter := by
  intro l tag body s answers n
  have turned {k : ReqKind} {o : Outcome} (h : Accepts l k body s)
      (hh : handlerOf k l body (holding l k tag s) = (holding l k tag s, refuse o)) : answers k o [] :=
    exec_accepts_same (a := refuse o) h rfl hh
  refine ⟨fun h => ⟨fun hn => ?_, fun hn => ?_⟩, fun h => ⟨fun hn => ?_, fun hn => ?_⟩,
    fun h => ⟨fun hn => ?_, fun hn => ⟨fun hd => ?_, fun d hd => ?_⟩⟩, fun h => ⟨fun hn => ?_, fun hn => ?_⟩,
    fun h => ?_, ?_⟩
  · exact turned h (handleReadPort_of_bad hn)
  · exact exec_read h ((handleReadPort_of_port hn).trans (by rw [holding_shelf]))
  · exact turned h (handleReadPortRecord_of_bad hn)
  · exact exec_read h ((handleReadPortRecord_of_port hn).trans (by rw [holding_shelf]))
  · exact turned h (handleReadGroup_of_bad hn)
  · exact turned h (handleReadGroup_of_absent (by simpa using hd))
  · exact exec_read h ((handleReadGroup_of_defined (by simpa using hd)).trans (by rw [holding_shelf]))
  · exact turned h (handleReadAlarms_of_bad hn)
  · exact exec_read h ((handleReadAlarms_of_index hn).trans (by rw [holding_shelf]))
  · exact exec_read h (by simp [handlerOf, handleReadHistory])
  refine ⟨fun p => ?port, rfl, fun p => ?record, fun g d => ?group, fun start => ?alarms, fun start => rfl,
    fun start older r newer h hr ho => recordsFrom_held h hr ho, fun start h hl => recordsFrom_absent h hl⟩
  case port =>
    simp only [readPortData, windowSum_eq]
    rfl
  case record =>
    have hlisted : (decide (p ∈ s.shelf.recs.tagList) || s.shelf.recs.tagWrite.any (fun w => decide (w.port = p)))
        = decide (p ∈ s.shelf.recs.tagList ∨ s.shelf.recs.tagWrite.map TagWrite.port = some p) := by
      cases s.shelf.recs.tagWrite <;> simp
    simp only [readPortRecordData, hlisted]
    rfl
  case group =>
    have hentry : entryData d (runOf s.shelf g) = fun e => [byte1 e.cls.rank, byte1 e.chan]
        ++ (if e.cls = .settling then optTime (remaining (1000 * d.wtr) (runOf s.shelf g).wtr) else [])
        ++ (if e.cls = .patchHold then [optByte e.order, flagByte e.granted] else []) := by
      funext e
      unfold entryData
      cases e.cls <;> simp
    simp only [readGroupData, groupDefBytes, listBytes_map, hentry]
    rfl
  case alarms =>
    intro t entry
    have hentry : entryBytes s.shelf = entry := by
      funext e
      obtain ⟨obj, cond, sev, state, acked, raiseTime, count, soak⟩ := e
      cases state <;> cases soak <;> rfl
    obtain ⟨n, hn, hfit, hle, hnext⟩ := fitting_take16 alarmsRoom (entryBytes s.shelf) (s.shelf.alm.table.drop start)
    rw [hentry] at hle hnext
    refine ⟨n, hn, ?_, hle, hnext⟩
    rw [readAlarmsData, hfit, hentry, listBytes, List.length_map, List.flatMap_id, List.flatMap_def]
    rfl

end Sys2Proof.Machine

/-! The bodies of requests (12.7): each encoding is read back as the value it was written from. -/

namespace Sys2Proof.Machine

/-! ### Bytes of a body -/

@[simp] theorem byteAt_zero (x : Byte) (l : List Byte) : byteAt (x :: l) 0 = x.toNat := rfl

@[simp] theorem byteAt_succ (x : Byte) (l : List Byte) (i : Nat) : byteAt (x :: l) (i + 1) = byteAt l i := by
  simp [byteAt]

theorem byteAt_append (l m : List Byte) (i : Nat) : byteAt (l ++ m) (l.length + i) = byteAt m i := by
  simp [byteAt, List.getElem?_append_right]

theorem toNat_flagByte (b : Bool) : (flagByte b).toNat = b.toNat := by cases b <;> rfl

/-- Two bytes hold a number below 2^16. -/
theorem bytes2_value {n : Nat} (h : n < 65536) : (byte1 (n / 256)).toNat * 256 + (byte1 n).toNat = n := by
  simp [byte1]
  omega

theorem finOf_val {n : Nat} (i : Fin n) : finOf n i.val = some i := finOf_lt i.isLt

theorem allSome_map_some {α β : Type} (f : α → Option β) (g : α → β) (l : List α) (h : ∀ a ∈ l, f a = some (g a)) :
    allSome (l.map f) = some (l.map g) := by
  induction l with
  | nil => rfl
  | cons a l ih =>
    rw [List.map_cons, h a (by simp), List.map_cons, allSome, ih fun b hb => h b (by simp [hb])]
    rfl

/-! ### Port records (R57) -/

theorem length_optChars {width : Nat} {t : Option (List Byte)} (h : optCharsOk width t = true) :
    (optChars width t).length = width + 1 := by
  cases t with
  | none => simp [optChars]
  | some cs =>
    simp only [optCharsOk, charsOk, Bool.and_eq_true, decide_eq_true_eq] at h
    simp [optChars, h.1]

/-- An optional designation or tag is read back from its place in a body. -/
theorem optCharsAt_append {width : Nat} {t : Option (List Byte)} (pre post : List Byte)
    (h : optCharsOk width t = true) :
    optCharsAt (pre ++ (optChars width t ++ post)) pre.length width = some t := by
  have hbyte := byteAt_append pre (optChars width t ++ post) 0
  rw [Nat.add_zero] at hbyte
  cases t with
  | none =>
    have hflag : flagAt (pre ++ (optChars width none ++ post)) pre.length = some false := by
      rw [flagAt_eq_some, hbyte]
      rfl
    simp only [optCharsAt, hflag]
  | some cs =>
    have hflag : flagAt (pre ++ (optChars width (some cs) ++ post)) pre.length = some true := by
      rw [flagAt_eq_some, hbyte]
      rfl
    simp only [optCharsOk, charsOk, Bool.and_eq_true, decide_eq_true_eq] at h
    obtain ⟨hlen, hchars⟩ := h
    have hdrop : ((pre ++ (optChars width (some cs) ++ post)).drop (pre.length + 1)).take width = cs := by
      rw [List.drop_length_add_append, optChars, List.cons_append, List.drop_succ_cons, List.drop_zero, ← hlen,
        List.take_left]
    simp only [optCharsAt, hflag, hdrop, hchars, if_true]

theorem serviceClass_ofCode (c : ServiceClass) : ServiceClass.ofCode (byte1 c.code).toNat = some c := by
  cases c <;> rfl

theorem byte1_port (p : PortNo) : (byte1 p.val).toNat = p.val := toNat_byte1 (by omega)

theorem recordOfBody_written (p : PortNo) (r : PortRec) (h : recordOk r = true) :
    recordOfBody (byte1 p.val :: byte1 r.cls.code :: optChars 12 r.desig ++ optChars 16 r.tag) = some (p, r) := by
  simp only [recordOk, Bool.and_eq_true, decide_eq_true_eq] at h
  obtain ⟨⟨hdesig, htag⟩, hcls⟩ := h
  have hd := optCharsAt_append [byte1 p.val, byte1 r.cls.code] (optChars 16 r.tag) hdesig
  have ht := optCharsAt_append (byte1 p.val :: byte1 r.cls.code :: optChars 12 r.desig) [] htag
  rw [List.append_nil, List.length_cons, List.length_cons, length_optChars hdesig] at ht
  have hport : portOfByte (byte1 p.val :: byte1 r.cls.code :: optChars 12 r.desig ++ optChars 16 r.tag) 0 = some p := by
    simp [portOfByte, byte1_port, finOf_val]
  have hcode : ServiceClass.ofCode
      (byteAt (byte1 p.val :: byte1 r.cls.code :: optChars 12 r.desig ++ optChars 16 r.tag) 1) = some r.cls :=
    serviceClass_ofCode r.cls
  have hd' : optCharsAt (byte1 p.val :: byte1 r.cls.code :: optChars 12 r.desig ++ optChars 16 r.tag) 2 12
      = some r.desig := hd
  rw [recordOfBody, hport, hcode, hd', ht]
  simp [hcls]

/-! ### Group definitions (R81) -/

theorem groupOfBody_written (g : GroupNo) (d : GroupDef) (h : groupOk d = true) :
    groupOfBody ([byte1 g.val, flagByte d.shared, byte1 d.protect.val, byte1 d.working.length, flagByte d.revertive]
      ++ bytes2 d.holdOff ++ bytes2 d.wtr ++ d.working.map (fun p => byte1 p.val)) = some (g, d) := by
  have hok := h
  simp only [groupOk, Bool.and_eq_true, decide_eq_true_eq] at hok
  obtain ⟨⟨⟨⟨⟨hcount, -⟩, hhold⟩, -⟩, -⟩, hwtr⟩ := hok
  have hlen : d.working.length ≤ 6 := by
    split at hcount
    · simp only [Bool.and_eq_true, decide_eq_true_eq] at hcount
      exact hcount.2
    · simp only [decide_eq_true_eq] at hcount
      omega
  generalize hb : [byte1 g.val, flagByte d.shared, byte1 d.protect.val, byte1 d.working.length, flagByte d.revertive]
      ++ bytes2 d.holdOff ++ bytes2 d.wtr ++ d.working.map (fun p => byte1 p.val) = b
  have hgroup : groupOfByte b 0 = some g := by
    rw [← hb]
    exact (congrArg (finOf 8) (toNat_byte1 (by omega))).trans (finOf_val g)
  have hshared : flagAt b 1 = some d.shared := by
    rw [flagAt_eq_some, ← hb]
    exact toNat_flagByte _
  have hprotect : portOfByte b 2 = some d.protect := by
    rw [← hb]
    exact (congrArg (finOf 48) (byte1_port _)).trans (finOf_val _)
  have hrevert : flagAt b 4 = some d.revertive := by
    rw [flagAt_eq_some, ← hb]
    exact toNat_flagByte _
  have hnum : byteAt b 3 = d.working.length := by
    rw [← hb]
    exact toNat_byte1 (by omega)
  have hholdOff : nat2At b 5 = d.holdOff := by
    rw [← hb]
    exact bytes2_value (by omega)
  have hwait : nat2At b 7 = d.wtr := by
    rw [← hb]
    exact bytes2_value (by omega)
  have hworking : allSome ((List.range (byteAt b 3)).map (fun i => portOfByte b (9 + i))) = some d.working := by
    rw [hnum, allSome_map_some _ (fun i => d.working.getD i d.protect)]
    · refine congrArg some (List.ext_getElem (by simp) fun i hi hi' => ?_)
      simp [hi']
    · intro i hi
      have hi' : i < d.working.length := List.mem_range.1 hi
      have hbyte : byteAt b (9 + i) = d.working[i].val := by
        rw [← hb]
        refine (byteAt_append ([byte1 g.val, flagByte d.shared, byte1 d.protect.val, byte1 d.working.length,
          flagByte d.revertive] ++ bytes2 d.holdOff ++ bytes2 d.wtr) _ i).trans ?_
        simp [byteAt, hi', byte1_port]
      rw [portOfByte, hbyte, finOf_val]
      simp [hi']
  simp only [groupOfBody, hgroup, hshared, hprotect, hrevert, hworking, hholdOff, hwait]
  exact if_pos h

/-! ### Setups, references and settings (R23, R136, R142) -/

theorem setupOf_written (u : ScanSetup) (h1 : 1 ≤ u.count) (h48 : u.count ≤ 48) (h20 : 20 ≤ u.period)
    (h1000 : u.period ≤ 1000) :
    setupOf ([byte1 u.first.val, byte1 u.count, flagByte (!u.up)] ++ bytes2 u.period ++ [flagByte u.quiet])
        = some u := by
  generalize hb : [byte1 u.first.val, byte1 u.count, flagByte (!u.up)] ++ bytes2 u.period ++ [flagByte u.quiet] = b
  have hfirst : portOfByte b 0 = some u.first := by
    rw [← hb]
    exact (congrArg (finOf 48) (byte1_port _)).trans (finOf_val _)
  have hdown : flagAt b 2 = some (!u.up) := by
    rw [flagAt_eq_some, ← hb]
    exact toNat_flagByte _
  have hquiet : flagAt b 5 = some u.quiet := by
    rw [flagAt_eq_some, ← hb]
    exact toNat_flagByte _
  have hcount : byteAt b 1 = u.count := by
    rw [← hb]
    exact toNat_byte1 (by omega)
  have hperiod : nat2At b 3 = u.period := by
    rw [← hb]
    exact bytes2_value (by omega)
  simp [setupOf, hfirst, hdown, hquiet, hcount, hperiod, h1, h48, h20, h1000]

theorem bindingOf_written (d : Binding) :
    bindingOf (byte1 d.code.1).toNat (numByte d.code.2).toNat = some d := by
  cases d with
  | none => rfl
  | port p =>
    have : (byte1 p.val).toNat = p.val := byte1_port p
    simp only [Binding.code, numByte, this]
    simp [bindingOf, byte1, finOf_val]
  | group g =>
    have : (byte1 g.val).toNat = g.val := toNat_byte1 (by omega)
    simp only [Binding.code, numByte, this]
    simp [bindingOf, byte1, finOf_val]

theorem overrideOf_written (g : Option Grade) : overrideOf (gradeByte g).toNat = some g := by
  rcases g with _ | _ | _ | _ | _ | _ | _ <;> rfl

theorem refOfBody_written (r : RefNo) (d : RefDef) (h4 : r.val ≤ 4) (h : refOk r d = true) :
    refOfBody [byte1 r.val, byte1 d.binding.code.1, numByte d.binding.code.2, byte1 d.priority, gradeByte d.override]
      = some (r, d) := by
  have hprio : d.priority ≤ 8 := by
    have hok := h
    simp only [refOk, Bool.or_eq_true, Bool.and_eq_true, decide_eq_true_eq] at hok
    obtain h5 | ⟨h8, -⟩ := hok
    · omega
    · exact h8
  have hbyte : (byte1 d.priority).toNat = d.priority := toNat_byte1 (by omega)
  have href : (byte1 r.val).toNat = r.val := toNat_byte1 (by omega)
  simp only [refOfBody, byteAt_zero, byteAt_succ, href, hbyte, finOf_val, bindingOf_written, overrideOf_written]
  exact if_pos ⟨h4, h⟩

theorem cond_ofCode (c : Cond) : Cond.ofCode (byte1 (Cond.code c).val).toNat = some c := by cases c <;> rfl

theorem severity_ofCode (v : Severity) : Severity.ofCode (byte1 v.code).toNat = some v := by cases v <;> rfl

theorem settingOfBody_written (c : Cond) (v : CondSetting) (h : settingOk c v = true) :
    settingOfBody ([byte1 (Cond.code c).val, byte1 v.sev.code] ++ bytes2 v.raise ++ bytes2 v.clear) = some (c, v) := by
  have hok := h
  simp only [settingOk, Bool.and_eq_true, decide_eq_true_eq] at hok
  obtain ⟨⟨hraise, hclear⟩, -⟩ := hok
  have hr := bytes2_value (n := v.raise) (by omega)
  have hc := bytes2_value (n := v.clear) (by omega)
  simp only [bytes2, List.cons_append, List.nil_append, settingOfBody, nat2At, byteAt_zero, byteAt_succ, cond_ofCode,
    severity_ofCode, hr, hc]
  exact if_pos h

/-- Settles O30: the five encodings. -/
theorem bodiesAreReadBack : Obligations.BodiesAreReadBack :=
  ⟨recordOfBody_written, groupOfBody_written, setupOf_written, refOfBody_written, settingOfBody_written⟩

end Sys2Proof.Machine

/-! The scan settings (R22, R23, R36), the bus fault record (R19) and cut-off (R153). -/

namespace Sys2Proof.Machine

/-! ### The scan window -/

/-- R22: a port is in the window of a setup when a visit below the port count is to it. -/
theorem inWindowOf_iff {u : ScanSetup} {p : PortNo} (h48 : u.count ≤ 48) : inWindowOf u p = true ↔
    ∃ i < u.count, p.val = if u.up then (u.first.val + i) % 48 else (u.first.val + 48 - i) % 48 := by
  have hfirst := u.first.isLt
  have hp := p.isLt
  unfold inWindowOf windowPlace
  rw [decide_eq_true_iff]
  constructor
  · intro h
    refine ⟨_, h, ?_⟩
    split <;> omega
  · rintro ⟨i, hi, hv⟩
    cases hup : u.up <;> simp only [hup, if_true, if_false, Bool.false_eq_true] at hv ⊢ <;> omega

theorem isLine_iff {r : RefNo} : isLine r = true ↔ 2 ≤ r.val ∧ r.val ≤ 4 := by simp [isLine]

/-- R23: the ports a window may not leave out. -/
theorem mustScan_iff {s : Shelf} {p : PortNo} : mustScan s p = true ↔ isMember s p = true ∨ inOrder s p = true
    ∨ ∃ r : RefNo, 2 ≤ r.val ∧ r.val ≤ 4 ∧ (refOf s r).defn.binding = .port p := by
  simp [mustScan, isLine_iff, allRefs, or_assoc, and_assoc]

theorem setupFits_iff {s : Shelf} {u : ScanSetup} :
    setupFits s u = true ↔ ∀ p, mustScan s p = true → inWindowOf u p = true := by
  simp only [setupFits, allPorts, List.all_eq_true, List.mem_finRange, true_implies, Bool.or_eq_true,
    Bool.not_eq_true']
  refine forall_congr' fun p => ?_
  cases mustScan s p <;> simp

/-! ### Set Scan (R23) -/

section SetScan
variable {b : List Byte} {s : State}

/-- R23: the fields of the body in range. -/
def SetupInRange (b : List Byte) : Prop :=
  byteAt b 0 < 48 ∧ 1 ≤ byteAt b 1 ∧ byteAt b 1 ≤ 48 ∧ byteAt b 2 ≤ 1 ∧ 20 ≤ nat2At b 3 ∧ nat2At b 3 ≤ 1000
    ∧ byteAt b 5 ≤ 1

theorem setupOf_bad (h : ¬ SetupInRange b) : setupOf b = none := by
  unfold setupOf
  split
  · rename_i f down quiet hf hdown hquiet
    refine if_neg fun hr => h ?_
    have h0 : byteAt b 0 < 48 := by
      by_contra hge
      rw [portOfByte, finOf_ge (Nat.not_lt.1 hge)] at hf
      cases hf
    rw [flagAt_eq_some] at hdown hquiet
    have hd := Bool.toNat_lt down
    have hq := Bool.toNat_lt quiet
    obtain ⟨h1, h48, h20, h1000⟩ := hr
    exact ⟨h0, h1, h48, by omega, h20, h1000, by omega⟩
  · rfl

theorem setupOf_good (h : SetupInRange b) (h0 : byteAt b 0 < 48) : setupOf b
    = some ⟨⟨byteAt b 0, h0⟩, byteAt b 1, decide (byteAt b 2 = 0), nat2At b 3, decide (byteAt b 5 = 1)⟩ := by
  obtain ⟨-, h1, h48, hdown, h20, h1000, hquiet⟩ := h
  have hup : (!decide (byteAt b 2 = 1)) = decide (byteAt b 2 = 0) := by
    have h01 : byteAt b 2 = 0 ∨ byteAt b 2 = 1 := by omega
    rcases h01 with h | h <;> simp [h]
  simp [setupOf, portOfByte, finOf_lt h0, flag_of hdown, flag_of hquiet, h1, h48, h20, h1000, hup]

theorem handleSetScan_of_bad (h : setupOf b = none) : handleSetScan b s = (s, refuse .badValue) := by
  simp [handleSetScan, h, turnAway]

theorem handleSetScan_of_misfit {u : ScanSetup} (h : setupOf b = some u) (hf : ¬ setupFits s.shelf u = true) :
    handleSetScan b s = (s, refuse .conflict) := by
  simp [handleSetScan, h, turnAway, hf]

theorem handleSetScan_of_fit {u : ScanSetup} (h : setupOf b = some u) (hf : setupFits s.shelf u = true) :
    handleSetScan b s = (mapShelf (setScan (fun c => { c with pending := some u, dropped := false })) s, done []) := by
  simp [handleSetScan, h, hf]

end SetScan

/-- Settles O31: the body's fields, and the window against the ports that must be scanned. -/
theorem setScanMakesTheSetupPending : Obligations.SetScanMakesTheSetupPending := by
  intro l tag body s hacc refused inRange
  refine ⟨fun hbad => ?_, fun hin h0 => ?_⟩
  · exact exec_accepts_same (k := .setScan) (a := refuse .badValue) hacc rfl (handleSetScan_of_bad (setupOf_bad hbad))
  intro u inNew needed
  have hu : setupOf body = some u := setupOf_good hin h0
  have hfits : setupFits s.shelf u = true ↔ ∀ p, needed p → inNew p := by
    rw [setupFits_iff]
    exact forall_congr' fun p => imp_congr mustScan_iff (inWindowOf_iff hin.2.2.1)
  refine ⟨fun ⟨p, hn, hi⟩ => ?_, fun hall => ?_⟩
  · refine exec_accepts_same (k := .setScan) (a := refuse .conflict) hacc rfl (handleSetScan_of_misfit hu ?_)
    rw [holding_shelf]
    exact fun h => hi (hfits.1 h p hn)
  · refine exec_accepts_shelf (k := .setScan) (a := done []) hacc rfl ((handleSetScan_of_fit hu ?_).trans ?_)
    · rw [holding_shelf]
      exact hfits.2 hall
    · cases l <;> rfl

/-! ### Set Degrade Thresholds (R36) -/

theorem nat2At_lt (b : List Byte) (i : Nat) : nat2At b i < 65536 := by
  have hbyte : ∀ j, byteAt b j < 256 := fun j => by
    unfold byteAt
    exact BitVec.isLt _
  have hhigh := hbyte i
  have hlow := hbyte (i + 1)
  unfold nat2At
  omega

/-- R32: of two numbers of two bytes the order alone decides. -/
theorem thresholdsOk_iff {b : List Byte} {i j : Nat} :
    thresholdsOk ⟨nat2At b i, nat2At b j⟩ = true ↔ nat2At b j < nat2At b i := by
  have hi := nat2At_lt b i
  simp only [thresholdsOk, Bool.and_eq_true, decide_eq_true_iff]
  omega

/-- Settles O32: the order of the two thresholds, equal ones, and the change. -/
theorem degradeThresholdsChange : Obligations.DegradeThresholdsChange := by
  intro l tag body s hacc refused t
  have hok : thresholdsOk t = true ↔ t.clear < t.degrade := thresholdsOk_iff
  refine ⟨fun hbad => ?_, fun hlt heq => ?_, fun hlt hne => ?_⟩
  · have hnot : thresholdsOk t = false := by
      rw [← Bool.not_eq_true, hok]
      omega
    refine exec_accepts_same (k := .setDegradeThresholds) (a := refuse .badValue) hacc rfl (if_pos ?_)
    rw [hnot]
    rfl
  · refine exec_accepts_same (k := .setDegradeThresholds) (a := done []) hacc rfl ?_
    simp only [handlerOf, handleSetDegradeThresholds, holding_shelf]
    rw [hok.2 hlt]
    exact if_pos heq
  · refine storeChange_mapShelf (k := .setDegradeThresholds)
      (f := setScan fun c => { c with thresholds := t }) hacc ?_
    simp only [handlerOf, handleSetDegradeThresholds, holding_shelf]
    rw [hok.2 hlt]
    exact if_neg hne

/-- Settles O33: the record cleared and its condition reported absent; the flag set. -/
theorem clearBusFaultAndCutOff : Obligations.ClearBusFaultAndCutOff := by
  intro l tag body s
  refine ⟨fun hacc => ⟨clearBusFaults s.shelf, ?_, ?_, ?_⟩, fun hacc => ?_⟩
  · exact exec_accepts_shelf (k := .clearBusFault) (a := done []) hacc rfl (by cases l <;> rfl)
  · exact reportChange_frame ..
  · exact reportChange_absent .shelf .busFault _
  · exact exec_accepts_shelf (k := .cutOff) (a := done []) hacc rfl (by cases l <;> rfl)

end Sys2Proof.Machine

/-! Acknowledge (R154), Set Condition (R142) and Commit (R174). -/

namespace Sys2Proof.Machine

/-! ### Acknowledge -/

section Acknowledge
variable {b : List Byte} {s : State} {x : Shelf}

theorem ackable_iff {e : AlarmEntry} : ackable e = true ↔ e.state ≠ .rising ∧ e.acked = false := by simp [ackable]

theorem ackable_eq : ackable = fun e => decide (e.state ≠ .rising ∧ e.acked = false) := by
  funext e
  rw [Bool.eq_iff_iff, ackable_iff, decide_eq_true_iff]

/-- R155: a record made is the newest of the history, with its time and number. -/
theorem makeRecord_last (o : Option Obj) (c : Option Cond) (v : Option Severity) (t : Transition)
    (e : Option (Bool × Nat)) (x : Shelf) :
    (makeRecord o c v t e x).alm.history.getLast? = some ⟨x.alm.nextSeq, shelfTime x, o, c, v, t⟩ :=
  keepHistory_last _ _

/-- R154: with no entry due, Acknowledge of all changes nothing. -/
theorem acknowledgeAll_none (h : ∀ e ∈ x.alm.table, ackable e = false) : acknowledgeAll x = (x, 0) := by
  have hnil : x.alm.table.filter ackable = [] := by simpa using h
  simp [acknowledgeAll, hnil]

/-- R154: the shelf after an Acknowledge of all with an entry due. -/
theorem acknowledgeAll_some {e : AlarmEntry} (he : e ∈ x.alm.table) (hd : ackable e = true) : acknowledgeAll x
    = (makeRecord none none none .acknowledged none
        (setTable (fun t => t.map (fun e => if ackable e then { e with acked := true } else e)) x),
      (x.alm.table.filter ackable).length) := by
  have hne : (x.alm.table.filter ackable).length ≠ 0 := by
    rw [ne_eq, List.length_eq_zero_iff, List.filter_eq_nil_iff]
    exact fun h => h e he hd
  exact if_neg hne

/-- Setting the flag where it is due sets it in every entry that is not RISING. -/
theorem acked_of_ackable (e : AlarmEntry) : (if ackable e then { e with acked := true } else e)
    = if e.state ≠ .rising then { e with acked := true } else e := by
  obtain ⟨o, c, sev, state, acked, time, count, soak⟩ := e
  cases acked <;> cases state <;> rfl

theorem acknowledgeOne_acked {e : AlarmEntry} (h : e.acked = true) : acknowledgeOne e x = x := if_pos h

theorem acknowledgeOne_unacked {e : AlarmEntry} (h : e.acked = false) : acknowledgeOne e x
    = recordEntry { e with acked := true } .acknowledged (putEntry { e with acked := true } x) := by
  simp [acknowledgeOne, h]

theorem handleAcknowledge_of_all (h : byteAt b 0 = 5) : handleAcknowledge b s
    = ({ s with shelf := (acknowledgeAll s.shelf).1 }, done [byte1 (acknowledgeAll s.shelf).2]) := if_pos h

theorem handleAcknowledge_of_bad (h : byteAt b 0 ≠ 5) (ht : ackTarget b = none) :
    handleAcknowledge b s = (s, refuse .badValue) := by simp [handleAcknowledge, h, ht, turnAway]

theorem handleAcknowledge_of_absent {o : Obj} {c : Cond} (h : byteAt b 0 ≠ 5) (ht : ackTarget b = some (o, c))
    (he : entryOf s.shelf o c = none) : handleAcknowledge b s = (s, refuse .absent) := by
  simp [handleAcknowledge, h, ht, he, turnAway]

theorem handleAcknowledge_of_rising {o : Obj} {c : Cond} {e : AlarmEntry} (h : byteAt b 0 ≠ 5)
    (ht : ackTarget b = some (o, c)) (he : entryOf s.shelf o c = some e) (hr : e.state = .rising) :
    handleAcknowledge b s = (s, refuse .conflict) := by
  simp [handleAcknowledge, h, ht, he, hr, turnAway]

theorem handleAcknowledge_of_entry {o : Obj} {c : Cond} {e : AlarmEntry} (h : byteAt b 0 ≠ 5)
    (ht : ackTarget b = some (o, c)) (he : entryOf s.shelf o c = some e) (hr : e.state ≠ .rising) :
    handleAcknowledge b s = (mapShelf (acknowledgeOne e) s, done []) := by
  simp [handleAcknowledge, h, ht, he, hr]

end Acknowledge

/-- Settles O55: all entries or one, and of one its state and its flag. -/
theorem acknowledgeSetsFlags : Obligations.AcknowledgeSetsFlags := by
  intro l tag body s hacc answers due
  refine ⟨fun h5 => ⟨fun hno => ?_, fun ⟨e, he, hd⟩ => ?_⟩, fun h5 ht => ?_, fun h5 o c ht => ⟨fun he => ?_, fun e he =>
    ⟨fun hr => ?_, fun hr ha => ?_, fun hr ha => ?_⟩⟩⟩
  · refine exec_accepts_same (k := .acknowledge) (a := done [0#8]) hacc rfl ((handleAcknowledge_of_all h5).trans ?_)
    rw [holding_shelf, acknowledgeAll_none fun e he => Bool.eq_false_iff.2 fun hd => hno e he (ackable_iff.1 hd)]
    cases l <;> rfl
  · have hall := acknowledgeAll_some he (ackable_iff.2 hd)
    refine ⟨(acknowledgeAll s.shelf).1, ?_, acknowledgeAll_frame _, ?_, ?_⟩
    · have hcount : (acknowledgeAll s.shelf).2
          = (s.shelf.alm.table.filter (fun e => decide (e.state ≠ .rising ∧ e.acked = false))).length := by
        rw [hall, ackable_eq]
      rw [← hcount]
      refine exec_accepts_shelf (k := .acknowledge) (a := done [byte1 (acknowledgeAll s.shelf).2]) hacc rfl
        ((handleAcknowledge_of_all h5).trans ?_)
      rw [holding_shelf]
    · rw [hall]
      exact List.map_congr_left fun e _ => acked_of_ackable e
    · rw [hall]
      exact makeRecord_last ..
  · exact exec_accepts_same (k := .acknowledge) (a := refuse .badValue) hacc rfl (handleAcknowledge_of_bad h5 ht)
  · exact exec_accepts_same (k := .acknowledge) (a := refuse .absent) hacc rfl
      (handleAcknowledge_of_absent h5 ht (by rwa [holding_shelf]))
  · exact exec_accepts_same (k := .acknowledge) (a := refuse .conflict) hacc rfl
      (handleAcknowledge_of_rising h5 ht (by rwa [holding_shelf]) hr)
  · refine exec_accepts_shelf (k := .acknowledge) (a := done []) hacc rfl
      ((handleAcknowledge_of_entry h5 ht (by rwa [holding_shelf]) hr).trans ?_)
    rw [mapShelf, acknowledgeOne_acked ha]
    cases l <;> rfl
  · obtain ⟨-, hobj, hcond⟩ := entryOf_key he
    refine ⟨acknowledgeOne e s.shelf, ?_, acknowledgeOne_frame e _, ?_, ?_⟩
    · refine exec_accepts_shelf (k := .acknowledge) (a := done []) hacc rfl
        ((handleAcknowledge_of_entry h5 ht (by rwa [holding_shelf]) hr).trans ?_)
      cases l <;> rfl
    · rw [acknowledgeOne_unacked ha, entryOf_eq (recordEntry_table ..), ← hobj, ← hcond]
      exact entryOf_put (e := e) (f := { e with acked := true }) (by rwa [hobj, hcond])
    · rw [acknowledgeOne_unacked ha, ← hobj, ← hcond]
      exact makeRecord_last ..

/-! ### Set Condition -/

section SetCondition
variable {b : List Byte} {s : State}

/-- R142: the fields of the body in range. -/
def SettingInRange (b : List Byte) : Prop :=
  byteAt b 0 < 24 ∧ byteAt b 1 < 4 ∧ nat2At b 2 ≤ 600 ∧ nat2At b 4 ≤ 300
    ∧ (byteAt b 0 = 0 → nat2At b 2 = 0 ∧ nat2At b 4 = 0)

theorem cond_ofCode_val (c : Cond) : Cond.ofCode (Cond.code c).val = some c := by cases c <;> rfl

theorem severity_ofCode_code (v : Severity) : Severity.ofCode v.code = some v := by cases v <;> rfl

theorem cond_of_ofCode {n : Nat} {c : Cond} (h : Cond.ofCode n = some c) : (Cond.code c).val = n := by
  have hn : n < 24 := by
    by_contra hge
    rw [Cond.ofCode, List.getElem?_eq_none (by simpa [allConds] using hge)] at h
    cases h
  have htable : ∀ m : Fin 24, ∃ d, Cond.ofCode m.val = some d ∧ (Cond.code d).val = m.val := by decide
  obtain ⟨d, hd, hcode⟩ := htable ⟨n, hn⟩
  cases Option.some.inj (h.symm.trans hd)
  exact hcode

theorem severity_of_ofCode {n : Nat} {v : Severity} (h : Severity.ofCode n = some v) : v.code = n := by
  unfold Severity.ofCode at h
  split at h <;> cases h <;> rfl

theorem severity_code_lt (v : Severity) : v.code < 4 := by cases v <;> decide

theorem cond_code_zero {c : Cond} : (Cond.code c).val = 0 ↔ c = .tableFull := by cases c <;> decide

theorem settingOk_iff {c : Cond} {v : CondSetting} : settingOk c v = true
    ↔ v.raise ≤ 600 ∧ v.clear ≤ 300 ∧ ((Cond.code c).val = 0 → v.raise = 0 ∧ v.clear = 0) := by
  rw [cond_code_zero]
  simp only [settingOk, Bool.and_eq_true, Bool.or_eq_true, decide_eq_true_iff, ne_eq, and_assoc, imp_iff_not_or]

theorem settingOfBody_good {c : Cond} {v : Severity} (h : SettingInRange b) (hc : (Cond.code c).val = byteAt b 0)
    (hv : v.code = byteAt b 1) : settingOfBody b = some (c, ⟨v, nat2At b 2, nat2At b 4⟩) := by
  obtain ⟨-, -, hraise, hclear, hfull⟩ := h
  have hok : settingOk c ⟨v, nat2At b 2, nat2At b 4⟩ = true := settingOk_iff.2 ⟨hraise, hclear, hc ▸ hfull⟩
  simp [settingOfBody, ← hc, ← hv, cond_ofCode_val, severity_ofCode_code, hok]

theorem settingOfBody_bad (h : ¬ SettingInRange b) : settingOfBody b = none := by
  unfold settingOfBody
  split
  · rename_i c v hc hv
    refine if_neg fun hok => h ?_
    obtain ⟨hraise, hclear, hfull⟩ := settingOk_iff.1 hok
    have hcode := cond_of_ofCode hc
    have hsev := severity_of_ofCode hv
    exact ⟨hcode ▸ (Cond.code c).isLt, hsev ▸ severity_code_lt v, hraise, hclear, hcode ▸ hfull⟩
  · rfl

theorem handleSetCondition_of_bad (h : settingOfBody b = none) : handleSetCondition b s = (s, refuse .badValue) := by
  simp [handleSetCondition, h, turnAway]

theorem handleSetCondition_of_equal {c : Cond} {v : CondSetting} (h : settingOfBody b = some (c, v))
    (he : v = settingOf s.shelf c) : handleSetCondition b s = (s, done []) := by
  simp [handleSetCondition, h, he]

theorem handleSetCondition_of_change {c : Cond} {v : CondSetting} (h : settingOfBody b = some (c, v))
    (he : v ≠ settingOf s.shelf c) : handleSetCondition b s
      = storeChange (.conditions (put s.shelf.alm.settings (Cond.code c) v)) [] (mapShelf (changeSetting c v)) s := by
  simp [handleSetCondition, h, he]

end SetCondition

/-- Settles O56: the body's fields, an equal setting, and the change. -/
theorem conditionSettingChanges : Obligations.ConditionSettingChanges := by
  intro l tag body s hacc refused raise clear inRange
  refine ⟨fun hbad => ?_, fun hin c sev hc hsev => ⟨fun heq => ?_, fun hne => ?_⟩⟩
  · exact exec_accepts_same (k := .setCondition) (a := refuse .badValue) hacc rfl
      (handleSetCondition_of_bad (settingOfBody_bad hbad))
  · exact exec_accepts_same (k := .setCondition) (a := done []) hacc rfl
      (handleSetCondition_of_equal (settingOfBody_good hin hc hsev) (by rw [holding_shelf, heq]))
  · refine ⟨_, _, rfl, storeChange_mapShelf (k := .setCondition) (f := changeSetting c ⟨sev, raise, clear⟩) hacc
      ((handleSetCondition_of_change (settingOfBody_good hin hc hsev) ?_).trans ?_), changeSetting_frame ..⟩
    · rw [holding_shelf]
      exact hne.symm
    · rw [holding_shelf]

/-! ### Commit -/

section Commit
variable {s : State}

theorem handleCommit_of_stopped (h : s.shelf.sto.writer = .stopped) : handleCommit s = (s, refuse .storeFault) :=
  if_pos h

theorem handleCommit_of_empty (h : s.shelf.sto.writer ≠ .stopped) (hl : s.shelf.sto.list = []) :
    handleCommit s = (s, done []) := by simp [handleCommit, h, commitMark, hl]

theorem handleCommit_of_marked {older : List Edit} {e : Edit} (h : s.shelf.sto.writer ≠ .stopped)
    (hl : s.shelf.sto.list = older ++ [e]) (hm : s.shelf.sto.marks.getLast? = some e.num) :
    handleCommit s = (s, ⟨.accepted, bytes2 e.num, none, false⟩) := by
  simp [handleCommit, h, commitMark, hl, hm]

theorem handleCommit_of_full {older : List Edit} {e : Edit} (h : s.shelf.sto.writer ≠ .stopped)
    (hl : s.shelf.sto.list = older ++ [e]) (hm : s.shelf.sto.marks.getLast? ≠ some e.num)
    (hf : 4 ≤ s.shelf.sto.marks.length) : handleCommit s = (s, refuse .full) := by
  simp [handleCommit, h, commitMark, hl, hm, Config.commitMax, hf, turnAway]

theorem handleCommit_of_room {older : List Edit} {e : Edit} (h : s.shelf.sto.writer ≠ .stopped)
    (hl : s.shelf.sto.list = older ++ [e]) (hm : s.shelf.sto.marks.getLast? ≠ some e.num)
    (hf : s.shelf.sto.marks.length < 4) : handleCommit s
      = (mapShelf (fun x => { x with sto := { x.sto with marks := x.sto.marks ++ [e.num] } }) s,
        ⟨.accepted, bytes2 e.num, none, false⟩) := by
  simp [handleCommit, h, commitMark, hl, hm, Config.commitMax, Nat.not_le.2 hf]

end Commit

/-- Settles O58: the writer, the newest edit, its mark and the room for it. -/
theorem commitMarksTheNewestEdit : Obligations.CommitMarksTheNewestEdit := by
  intro l tag body s hacc t answers
  have hsto : (holding l .commit tag s).shelf.sto = t := congrArg Shelf.sto (holding_shelf ..)
  refine ⟨fun hw => ?_, fun hw hl => ?_, fun older e hw hl => ⟨fun hm => ?_, fun hm hf => ?_, fun hm hf => ?_⟩⟩
  · exact exec_accepts_same (k := .commit) (a := refuse .storeFault) hacc rfl (handleCommit_of_stopped (by rwa [hsto]))
  · exact exec_accepts_same (k := .commit) (a := done []) hacc rfl
      (handleCommit_of_empty (by rwa [hsto]) (by rwa [hsto]))
  · exact exec_accepts_same (k := .commit) (a := ⟨.accepted, bytes2 e.num, none, false⟩) hacc rfl
      (handleCommit_of_marked (by rwa [hsto]) (by rwa [hsto]) (by rwa [hsto]))
  · exact exec_accepts_same (k := .commit) (a := refuse .full) hacc rfl
      (handleCommit_of_full (by rwa [hsto]) (by rwa [hsto]) (by rwa [hsto]) (by rwa [hsto]))
  · refine exec_accepts_shelf (k := .commit) (a := ⟨.accepted, bytes2 e.num, none, false⟩) hacc rfl
      ((handleCommit_of_room (by rwa [hsto]) (by rwa [hsto]) (by rwa [hsto]) (by rwa [hsto])).trans ?_)
    cases l <;> rfl

end Sys2Proof.Machine

/-! The end of a write of the record store (R171 to R175). -/

namespace Sys2Proof.Machine

/-! ### Held edits -/

@[simp] theorem heldBy_setHeld_self (h : EditHolder) (l : List HeldEdit) (x : Shelf) : heldBy h (setHeld h l x)
    = l := by
  cases h <;> rfl

theorem heldBy_setHeld_other {h k : EditHolder} (hk : k ≠ h) (l : List HeldEdit) (x : Shelf) :
    heldBy k (setHeld h l x) = heldBy k x := by
  cases h <;> cases k <;> trivial

theorem heldBy_sto (h : EditHolder) (x : Shelf) (t : Store) : heldBy h { x with sto := t } = heldBy h x := by
  cases h <;> rfl

/-- One step of the search for the edit offered earliest. -/
def earlier (best : Option (EditHolder × HeldEdit)) (x : EditHolder × HeldEdit) : Option (EditHolder × HeldEdit) :=
  match best with
  | none => some x
  | some b => if x.2.seq < b.2.seq then some x else some b

theorem earliestHeld_eq (x : Shelf) : earliestHeld x = (heldHeads x).foldl earlier none := rfl

/-- The edit is `x` or was offered after it. -/
def NotBefore (x y : EditHolder × HeldEdit) : Prop := y = x ∨ x.2.seq < y.2.seq

theorem earlier_keeps {x y : EditHolder × HeldEdit} (h : NotBefore x y) : earlier (some x) y = some x := by
  obtain rfl | hlt := h
  · exact if_neg (Nat.lt_irrefl _)
  · exact if_neg (Nat.not_lt.2 (Nat.le_of_lt hlt))

theorem earlier_takes {x : EditHolder × HeldEdit} {best : Option (EditHolder × HeldEdit)}
    (h : ∀ b, best = some b → NotBefore x b) : earlier best x = some x := by
  cases best with
  | none => rfl
  | some b =>
    obtain rfl | hlt := h b rfl
    · exact if_neg (Nat.lt_irrefl _)
    · exact if_pos hlt

theorem earlier_notBefore {x y : EditHolder × HeldEdit} {best : Option (EditHolder × HeldEdit)}
    (h : ∀ b, best = some b → NotBefore x b) (hy : NotBefore x y) : ∀ b, earlier best y = some b → NotBefore x b := by
  intro b hb
  cases best with
  | none =>
    cases hb
    exact hy
  | some c =>
    simp only [earlier] at hb
    split at hb <;> cases hb
    · exact hy
    · exact h _ rfl

/-- An edit offered before every other is found. -/
theorem foldl_earlier {x : EditHolder × HeldEdit} (l : List (EditHolder × HeldEdit))
    {best : Option (EditHolder × HeldEdit)} (hx : x ∈ l ∨ best = some x) (hmin : ∀ y ∈ l, NotBefore x y)
    (hbest : ∀ b, best = some b → NotBefore x b) : l.foldl earlier best = some x := by
  induction l generalizing best with
  | nil => simpa using hx
  | cons y l ih =>
    have hy := hmin y (by simp)
    refine ih ?_ (fun z hz => hmin z (by simp [hz])) (earlier_notBefore hbest hy)
    rw [List.mem_cons] at hx
    obtain (rfl | hl) | rfl := hx
    · exact .inr (earlier_takes hbest)
    · exact .inl hl
    · exact .inr (earlier_keeps hy)

theorem mem_heldHeads {x : Shelf} {h : EditHolder} {f : HeldEdit} :
    (h, f) ∈ heldHeads x ↔ (heldBy h x).head? = some f := by
  cases h <;> simp [heldHeads]

/-- R171: the place goes to the holder whose oldest edit was offered first. -/
theorem earliestHeld_of_first {x : Shelf} {h : EditHolder} {f : HeldEdit} (hf : (heldBy h x).head? = some f)
    (hmin : ∀ h' f', h' ≠ h → (heldBy h' x).head? = some f' → f.seq < f'.seq) : earliestHeld x = some (h, f) := by
  rw [earliestHeld_eq]
  refine foldl_earlier _ (.inl (mem_heldHeads.2 hf)) (fun y hy => ?_) (fun b hb => by cases hb)
  obtain ⟨k, g⟩ := y
  have hg := mem_heldHeads.1 hy
  by_cases hk : k = h
  · subst hk
    exact .inl (by rw [Option.some.inj (hg.symm.trans hf)])
  · exact .inr (hmin k g hk hg)

theorem earliestHeld_none {x : Shelf} (h : ∀ h, heldBy h x = []) : earliestHeld x = none := by
  simp [earliestHeld, heldHeads, h]

/-! ### The write completes -/

theorem grantPlace_none {x : Shelf} (h : earliestHeld x = none) : grantPlace x = x := by simp [grantPlace, h]

theorem grantPlace_some {x : Shelf} {h : EditHolder} {f : HeldEdit} (hf : earliestHeld x = some (h, f)) :
    grantPlace x = setHeld h (heldBy h x).tail { x with sto := appendEdit f.value x.sto } := by simp [grantPlace, hf]

theorem appendEdit_room {v : ItemValue} {t : Store} (h : t.list.length < 32) : appendEdit v t
    = beginWrite { t with list := t.list ++ [⟨t.counter, v⟩], counter := nextEdit t.counter } := if_pos h

theorem beginWrite_idle {t : Store} (h : t.writer = .idle) :
    (beginWrite t).writer = if t.list = [] then .idle else .writing := by
  cases hl : t.list <;> simp [beginWrite, h, hl]

theorem beginWrite_writing {t : Store} (h : t.writer = .writing) : beginWrite t = t := by simp [beginWrite, h]

/-- An appended edit changes the list, the counter and the writer alone. -/
theorem appendEdit_frame (v : ItemValue) (t : Store) : (appendEdit v t).nvm = t.nvm ∧ (appendEdit v t).marks = t.marks
    ∧ (appendEdit v t).writtenThrough = t.writtenThrough := by
  unfold appendEdit
  split
  · obtain ⟨-, hmarks, hnvm, hthrough, -⟩ :=
      beginWrite_list { t with list := t.list ++ [⟨t.counter, v⟩], counter := nextEdit t.counter }
    exact ⟨hnvm, hmarks, hthrough⟩
  · exact ⟨rfl, rfl, rfl⟩

theorem setHeld_recs (h : EditHolder) (l : List HeldEdit) (x : Shelf) : (setHeld h l x).recs.recs = x.recs.recs := by
  cases h <;> rfl

/-- What a freed place that is granted leaves as it was. -/
theorem grantPlace_frame (x : Shelf) : (grantPlace x).sto.nvm = x.sto.nvm ∧ (grantPlace x).sto.marks = x.sto.marks
    ∧ (grantPlace x).sto.writtenThrough = x.sto.writtenThrough ∧ (grantPlace x).out = x.out
    ∧ (grantPlace x).recs.recs = x.recs.recs := by
  cases hf : earliestHeld x with
  | none => rw [grantPlace_none hf]; exact ⟨rfl, rfl, rfl, rfl, rfl⟩
  | some hf' =>
    obtain ⟨h, f⟩ := hf'
    obtain ⟨hnvm, hmarks, hthrough⟩ := appendEdit_frame f.value x.sto
    rw [grantPlace_some hf, setHeld_sto, setHeld_out, setHeld_recs]
    exact ⟨hnvm, hmarks, hthrough, rfl, rfl⟩

/-- R172: the shelf with the head edit written and gone from the list. -/
def headWritten (e : Edit) (rest : List Edit) (x : Shelf) : Shelf :=
  { x with sto := { x.sto with
      nvm := x.sto.nvm.store e.value, list := rest, writer := .idle, writtenThrough := some e.num } }

theorem completeWrite_eq {x : Shelf} {e : Edit} {rest : List Edit} (h : x.sto.list = e :: rest) : completeWrite x
    = { grantPlace (settleMarks e.num (headWritten e rest x)) with
        sto := beginWrite (grantPlace (settleMarks e.num (headWritten e rest x))).sto } := by
  simp [completeWrite, h, headWritten]

theorem settleMarks_head {n : Nat} {more : List Nat} {x : Shelf} (h : x.sto.marks = n :: more) : settleMarks n x
    = tell (.commit n true x.sto.list.length) { x with sto := { x.sto with marks := more } } := by
  simp [settleMarks, h]

theorem settleMarks_other {n : Nat} {x : Shelf} (h : x.sto.marks.head? ≠ some n) : settleMarks n x = x := by
  cases hm : x.sto.marks with
  | nil => simp [settleMarks, hm]
  | cons m more =>
    have hne : m ≠ n := by simpa [hm] using h
    simp [settleMarks, hm, hne]

/-- Settling the marks changes the marks and the notices alone. -/
theorem settleMarks_frame (n : Nat) (x : Shelf) : ∃ m o, settleMarks n x
    = { x with sto := { x.sto with marks := m }, out := o } := by
  by_cases h : x.sto.marks.head? = some n
  · obtain ⟨more, hmore⟩ := List.head?_eq_some_iff.1 h
    exact ⟨more, _, settleMarks_head hmore⟩
  · exact ⟨x.sto.marks, x.out, settleMarks_other h⟩

/-- R172: the image, the mark of the last write, the marks, the notices and the records after a completion. -/
theorem completeWrite_frame {x : Shelf} {e : Edit} {rest : List Edit} (h : x.sto.list = e :: rest) :
    (completeWrite x).sto.nvm = x.sto.nvm.store e.value ∧ (completeWrite x).sto.writtenThrough = some e.num
    ∧ (completeWrite x).sto.marks = (settleMarks e.num (headWritten e rest x)).sto.marks
    ∧ (completeWrite x).out = (settleMarks e.num (headWritten e rest x)).out
    ∧ (completeWrite x).recs.recs = x.recs.recs := by
  obtain ⟨m, o, hsettle⟩ := settleMarks_frame e.num (headWritten e rest x)
  obtain ⟨hnvm, hmarks, hthrough, hout, hrecs⟩ := grantPlace_frame (settleMarks e.num (headWritten e rest x))
  obtain ⟨-, hbm, hbn, hbt, -⟩ := beginWrite_list (grantPlace (settleMarks e.num (headWritten e rest x))).sto
  rw [completeWrite_eq h]
  refine ⟨hbn.trans (hnvm.trans ?_), hbt.trans (hthrough.trans ?_), hbm.trans hmarks, hout, hrecs.trans ?_⟩ <;>
    rw [hsettle] <;> rfl

theorem heldBy_headWritten (h : EditHolder) (n : Nat) (e : Edit) (rest : List Edit) (x : Shelf) :
    heldBy h (settleMarks n (headWritten e rest x)) = heldBy h x := by
  obtain ⟨m, o, hsettle⟩ := settleMarks_frame n (headWritten e rest x)
  rw [hsettle]
  cases h <;> rfl

/-- R172: with no edit held the next write begins, if an edit is left. -/
theorem completeWrite_none {x : Shelf} {e : Edit} {rest : List Edit} (h : x.sto.list = e :: rest)
    (hheld : ∀ h, heldBy h x = []) :
    (completeWrite x).sto.list = rest ∧ (completeWrite x).sto.writer = if rest = [] then .idle else .writing := by
  obtain ⟨m, o, hsettle⟩ := settleMarks_frame e.num (headWritten e rest x)
  rw [completeWrite_eq h, grantPlace_none (earliestHeld_none fun k => (heldBy_headWritten ..).trans (hheld k)), hsettle]
  exact ⟨(beginWrite_list _).1, beginWrite_idle rfl⟩

/-- R171: the freed place is granted to the holder whose oldest edit was offered first. -/
theorem completeWrite_held {x : Shelf} {e : Edit} {rest : List Edit} {h : EditHolder} {first : HeldEdit}
    {more : List HeldEdit} (hl : x.sto.list = e :: rest) (hh : heldBy h x = first :: more) (hroom : rest.length < 32)
    (hmin : ∀ h' f, h' ≠ h → (heldBy h' x).head? = some f → first.seq < f.seq) :
    (completeWrite x).sto.list = rest ++ [⟨x.sto.counter, first.value⟩]
    ∧ (completeWrite x).sto.counter = nextEdit x.sto.counter ∧ (completeWrite x).sto.writer = .writing
    ∧ heldBy h (completeWrite x) = more ∧ ∀ h', h' ≠ h → heldBy h' (completeWrite x) = heldBy h' x := by
  have hkeep := heldBy_headWritten (n := e.num) (e := e) (rest := rest) (x := x)
  have hfirst : earliestHeld (settleMarks e.num (headWritten e rest x)) = some (h, first) :=
    earliestHeld_of_first (by rw [hkeep, hh]; rfl) fun h' f hne hf => hmin h' f hne (by rwa [hkeep] at hf)
  have htail : (heldBy h (settleMarks e.num (headWritten e rest x))).tail = more := by rw [hkeep, hh]; rfl
  obtain ⟨m, o, hsettle⟩ := settleMarks_frame e.num (headWritten e rest x)
  have happend : appendEdit first.value (settleMarks e.num (headWritten e rest x)).sto
      = { x.sto with
          nvm := x.sto.nvm.store e.value, writtenThrough := some e.num, marks := m
          list := rest ++ [⟨x.sto.counter, first.value⟩], counter := nextEdit x.sto.counter, writer := .writing } := by
    rw [hsettle, appendEdit_room hroom]
    cases rest <;> rfl
  rw [completeWrite_eq hl, grantPlace_some hfirst, htail, happend]
  simp only [heldBy_sto, setHeld_sto]
  refine ⟨rfl, rfl, rfl, heldBy_setHeld_self .., fun h' hne => ?_⟩
  rw [heldBy_setHeld_other hne, heldBy_sto, hkeep]

/-! ### Replies that wait for an edit -/

theorem releaseReply_awaiting {p : Nat → Bool} {u : LinkUnit} {kind tag : Byte} {b : Bool} {n : Nat} {r : Reply}
    (instead : Option Outcome) (h : u.held = some ⟨kind, tag, b, .awaiting n r⟩) (hp : p n = true)
    (htx : u.tx = none) (a : Reply)
    (ha : a = match instead with | none => r | some o => ⟨o, []⟩) : releaseReply p instead u = { u with
      tx := some ⟨true, frameBytes (kind + 0x80#8) tag (a.outcome.code :: a.data)⟩
      held := some ⟨kind, tag, b, .sending⟩ } := by
  subst ha
  simp only [releaseReply, h, hp, if_true]
  exact startTx_ready htx rfl

/-- A notice offered to a busy transmitter leaves its frame and the held request. -/
theorem offers_busy (l : List Notice) {u : LinkUnit} (h : u.tx ≠ none) :
    (l.foldl (fun u n => offer n u) u).tx = u.tx ∧ (l.foldl (fun u n => offer n u) u).held = u.held := by
  induction l generalizing u with
  | nil => exact ⟨rfl, rfl⟩
  | cons n l ih =>
    have hone : (offer n u).tx = u.tx ∧ (offer n u).held = u.held := by
      by_cases hroom : u.queue.length < 16
      · rw [offer_room n hroom, startTx_busy (u := { u with queue := u.queue ++ [⟨u.lost, n⟩], lost := 0 }) h]
        exact ⟨rfl, rfl⟩
      · rw [offer_full n (Nat.not_lt.1 hroom)]
        exact ⟨rfl, rfl⟩
    rw [List.foldl_cons]
    obtain ⟨htx, hheld⟩ := ih (u := offer n u) (by rwa [hone.1])
    exact ⟨htx.trans hone.1, hheld.trans hone.2⟩

/-- R173: an idle transmitter starts the reply released before it is offered the step's notices. -/
theorem released_starts {p : Nat → Bool} {s : State} {l : Link} {kind tag : Byte} {b : Bool} {n : Nat} {r : Reply}
    (instead : Option Outcome) (h : (linkOf s l).held = some ⟨kind, tag, b, .awaiting n r⟩) (hp : p n = true)
    (htx : (linkOf s l).tx = none) (a : Reply) (ha : a = match instead with | none => r | some o => ⟨o, []⟩) :
    (linkOf (deliverOut (releaseReplies p instead s)) l).tx
      = some ⟨true, frameBytes (kind + 0x80#8) tag (a.outcome.code :: a.data)⟩
    ∧ (linkOf (deliverOut (releaseReplies p instead s)) l).held = some ⟨kind, tag, b, .sending⟩ := by
  have hunit : linkOf (deliverOut (releaseReplies p instead s)) l
      = s.shelf.out.foldl (fun u n => offer n u) (releaseReply p instead (linkOf s l)) := by cases l <;> rfl
  rw [hunit, releaseReply_awaiting instead h hp htx a ha]
  exact offers_busy _ (by simp)

/-! ### The write fails -/

/-- R175: the Commit Notices of a store that stops, in the order of the marks. -/
theorem failMarks_out (x : Shelf) :
    (failMarks x).out = x.out ++ x.sto.marks.map (fun m => Notice.commit m false x.sto.list.length) := by
  have hall : ∀ (l : List Nat) (y : Shelf), (l.foldl (fun s m => tell (.commit m false s.sto.list.length) s) y).out
      = y.out ++ l.map (fun m => Notice.commit m false y.sto.list.length) := by
    intro l
    induction l with
    | nil => simp
    | cons m l ih =>
      intro y
      rw [List.foldl_cons, ih]
      simp [tell]
  exact hall x.sto.marks _

theorem stopStore_out (x : Shelf) :
    x.out ++ x.sto.marks.map (fun m => Notice.commit m false x.sto.list.length) <+: (stopStore x).out := by
  have hmarks := failMarks_out { x with sto := { x.sto with writer := .stopped } }
  refine List.IsPrefix.trans ?_ (report_grows .shelf .storeFault true _)
  simp only [setHeld_out, hmarks]
  exact List.prefix_refl _

theorem stopStore_told (x : Shelf) : (Obj.shelf, Cond.storeFault) ∈ (stopStore x).alm.told := by
  unfold stopStore
  dsimp only
  rw [report_told]
  exact joinTail_self _ _

/-! ### The two events -/

theorem writeInFlight_some {t : Store} {e : Edit} {rest : List Edit} (hl : t.list = e :: rest)
    (h : t.writer = .writing ∨ t.writer = .retrying) : writeInFlight t = some e.num := by
  rcases h with h | h <;> simp [writeInFlight, h, hl]

theorem exec_storeWriteComplete {s : State} {n : Nat} (h : writeInFlight s.shelf.sto = some n) :
    exec .storeWriteComplete s
      = .next (deliverOut (releaseReplies (fun m => decide (m = n)) none
          { s with shelf := completeWrite s.shelf })) := by
  refine congrArg Host.Outcome.next ?_
  simp only [storeCompleted, h]
  rfl

theorem exec_storeWriteFailed_first {s : State} {n : Nat} (h : writeInFlight s.shelf.sto = some n)
    (hw : s.shelf.sto.writer = .writing) : exec .storeWriteFailed s = .next (deliverOut { s with shelf :=
      { s.shelf with sto := { s.shelf.sto with writer := .retrying, failed := bump 255 s.shelf.sto.failed } } }) := by
  refine congrArg Host.Outcome.next ?_
  simp [storeFailed, h, mapShelf, failWrite, hw]

theorem exec_storeWriteFailed_second {s : State} {n : Nat} (h : writeInFlight s.shelf.sto = some n)
    (hw : s.shelf.sto.writer = .retrying) : exec .storeWriteFailed s
      = .next (deliverOut (releaseReplies (fun _ => true) (some .storeFault)
          { s with shelf := stopStore s.shelf })) := by
  obtain ⟨-, -, -, -, -, -, -, hsto, -⟩ := stopStore_frame s.shelf
  refine congrArg Host.Outcome.next ?_
  simp [storeFailed, h, mapShelf, failWrite, hw, hsto]

/-- Settles O59: the completion, the first failure and the second. -/
theorem writesCompleteOrFail : Obligations.WritesCompleteOrFail := by
  intro s e rest hl
  refine ⟨fun hw => ?_, fun hw => ?_, fun hw => ?_⟩
  · obtain ⟨hnvm, hthrough, hmarks, hout, hrecs⟩ := completeWrite_frame hl
    refine ⟨_, exec_storeWriteComplete (writeInFlight_some hl hw), hnvm, hthrough, fun h1 h2 h3 => ?_, rfl,
      completeWrite_alm _, hrecs, fun l kind tag b r hheld htx => ?_, completeWrite s.shelf, rfl, fun more hmore => ?_,
      fun hno => ?_, fun h first more hh hroom hmin => ?_⟩
    · exact completeWrite_none hl fun h => by cases h <;> assumption
    · exact released_starts (s := { s with shelf := completeWrite s.shelf }) none (by cases l <;> exact hheld)
        (by simp) (by cases l <;> exact htx) r rfl
    · rw [hmarks, hout, settleMarks_head (x := headWritten e rest s.shelf) hmore]
      exact ⟨rfl, rfl⟩
    · rw [hmarks, hout, settleMarks_other (x := headWritten e rest s.shelf) hno]
      exact ⟨rfl, rfl⟩
    · exact completeWrite_held hl hh hroom hmin
  · exact exec_storeWriteFailed_first (writeInFlight_some hl (.inl hw)) hw
  · obtain ⟨hbp, hscan, hrecs, hords, heng, hexe, htim, hsto, hrest⟩ := stopStore_frame s.shelf
    have hrecs' := congrArg Records.recs hrecs
    have hdefs := congrArg Engine.defs heng
    refine ⟨_, exec_storeWriteFailed_second (writeInFlight_some hl (.inr hw)) hw, hsto, congrArg Records.held hrecs,
      congrArg Engine.held heng, congrArg Timing.held htim, stopStore_told _, hrecs', hdefs, rfl,
      fun l kind tag b n r hheld htx => ?_, stopStore s.shelf, rfl, stopStore_out _⟩
    exact released_starts (s := { s with shelf := stopStore s.shelf }) (some .storeFault) (by cases l <;> exact hheld)
      rfl (by cases l <;> exact htx) ⟨.storeFault, []⟩ rfl

end Sys2Proof.Machine

/-! The work of the blocks for the bus (R14, R15, R45, R46, R133, R134). -/

namespace Sys2Proof.Machine

/-! ### The arbiter -/

section Grant
variable {x : Shelf}

theorem grant_busy {u : BusUse} (h : x.bp.bus = some u) : grant x = x := by simp [grant, h]

theorem grant_idle (h : x.bp.bus = none) (hn : nextGrant x.bp = none) : grant x = x := by simp [grant, h, hn]

/-- R15: a transaction granted takes the bus, and the scanner's wait is counted while it still waits. -/
theorem grant_takes {r : Requester} {t : Txn} {rest : Backplane} (h : x.bp.bus = none)
    (hn : nextGrant x.bp = some (r, t)) (hrest : takeWaiting r x.bp = rest) (hcount : rest.waitCount = x.bp.waitCount) :
    grant x = { x with bp := { rest with
      bus := some ⟨r, t, [], 0, 0, none⟩
      waitCount := if rest.waitScanner = none then 0
        else if x.bp.waitCount < 8 then x.bp.waitCount + 1 else x.bp.waitCount } } := by
  subst hrest
  simp only [grant, h, hn, setBp, bump, Config.waitMax, hcount]
  cases (takeWaiting r x.bp).waitScanner <;> rfl

/-- R14: with the scanner's wait below its limit, or no read of it waiting, the others go first in their order. -/
theorem nextGrant_inOrder {b : Backplane} (h : b.waitCount ≠ 8 ∨ b.waitScanner = none) : nextGrant b
    = (b.probeWaiting.map (fun n => (Requester.backplane, Txn.read n 0))).or
        ((b.waitExecutor.map (fun t => (Requester.executor, t))).or
          ((b.waitTiming.map (fun t => (Requester.timing, t))).or
            ((b.waitRecords.map (fun t => (Requester.records, t))).or
              (b.waitScanner.map (fun t => (Requester.scanner, t)))))) := by
  refine if_neg fun ⟨hcount, hscan⟩ => ?_
  rcases h with h | h
  · exact h hcount
  · simp [h] at hscan

theorem nextGrant_scanner {b : Backplane} {t : Txn} (ht : b.waitScanner = some t) (h : b.waitCount = 8
    ∨ b.probeWaiting = none ∧ b.waitExecutor = none ∧ b.waitTiming = none ∧ b.waitRecords = none) :
    nextGrant b = some (.scanner, t) := by
  rcases h with h | ⟨h1, h2, h3, h4⟩
  · simp [nextGrant, h, ht, Config.waitMax]
  · simp [nextGrant, ht, h1, h2, h3, h4]

end Grant

/-! ### The tag write list (R45, R46) -/

section Tags
variable {x : Shelf}

theorem serveRecords_idle (h : x.recs.tagWrite ≠ none ∨ x.recs.tagList = []) : serveRecords x = x := by
  cases hw : x.recs.tagWrite with
  | some w => simp [serveRecords, hw]
  | none =>
    have hl : x.recs.tagList = [] := h.resolve_left fun hne => hne hw
    simp [serveRecords, hw, hl]

theorem serveRecords_head {p : PortNo} {rest : List PortNo} (hw : x.recs.tagWrite = none)
    (hl : x.recs.tagList = p :: rest) : serveRecords x = { x with
      recs := { x.recs with tagList := rest, tagWrite := some ⟨p, 0, false⟩ }
      bp := { x.bp with waitRecords := some (.write (slotOf p) (txTagOffset p 0) (tagWord (owedTag x p) 0)) } } := by
  simp only [serveRecords, hw, hl]
  rfl

theorem joinTags_eq (p : PortNo) (x : Shelf) : joinTags p x = { x with recs := { x.recs with
    tagList := if slotStateOf x (slotOf p) = .present ∧ p ∉ x.recs.tagList then x.recs.tagList ++ [p]
      else x.recs.tagList } } := by
  by_cases hp : slotStateOf x (slotOf p) = .present
  · by_cases hm : p ∈ x.recs.tagList <;> simp [joinTags, portPresent, isPresent, joinTail, hp, hm]
  · simp [joinTags, portPresent, isPresent, hp]

theorem tagWriteEnd_fault {w : TagWrite} {a : BusAnswer} {n : SlotNo} {off r v : Nat} (h : x.recs.tagWrite = some w) :
    tagWriteEnd (.fault a n off r v) x = joinTags w.port { x with recs := { x.recs with tagWrite := none } } := by
  simp [tagWriteEnd, h]

theorem tagWriteEnd_next {w : TagWrite} {ws : List Word} (h : x.recs.tagWrite = some w) (hw : w.word < 3) :
    tagWriteEnd (.done ws) x = { x with
      recs := { x.recs with tagWrite := some { w with word := w.word + 1 } }
      bp := { x.bp with waitRecords := some (.write (slotOf w.port) (txTagOffset w.port (w.word + 1))
        (tagWord (owedTag x w.port) (w.word + 1))) } } := by
  simp only [tagWriteEnd, h, hw, if_true]
  rfl

theorem tagWriteEnd_last {w : TagWrite} {ws : List Word} (h : x.recs.tagWrite = some w) (hw : w.word = 3) :
    tagWriteEnd (.done ws) x = if w.changed then joinTags w.port { x with recs := { x.recs with tagWrite := none } }
      else { x with recs := { x.recs with tagWrite := none } } := by
  simp [tagWriteEnd, h, hw]

end Tags

/-! ### The grade write list (R133, R134) -/

section Grades
variable {x : Shelf}

theorem gradeDiffers_iff {p : PortNo} : gradeDiffers x p = true ↔ at' x.tim.written p ≠ some (at' x.tim.planned p) := by
  simp [gradeDiffers]

theorem serveGrades_equal {l : List PortNo} (h : ∀ q ∈ l, at' x.tim.written q = some (at' x.tim.planned q)) :
    serveGrades l x = { x with tim := { x.tim with list := [] } } := by
  induction l with
  | nil => rfl
  | cons p l ih =>
    have hp : ¬ gradeDiffers x p = true := fun hd => gradeDiffers_iff.1 hd (h p (by simp))
    rw [serveGrades, if_neg hp]
    exact ih fun q hq => h q (by simp [hq])

theorem serveGrades_first {passed : List PortNo} {p : PortNo} {rest : List PortNo}
    (h : ∀ q ∈ passed, at' x.tim.written q = some (at' x.tim.planned q))
    (hp : at' x.tim.written p ≠ some (at' x.tim.planned p)) : serveGrades (passed ++ p :: rest) x = { x with
      tim := { x.tim with list := rest, writing := some (p, at' x.tim.planned p) }
      bp := { x.bp with
        waitTiming := some (.write (slotOf p) (gradeOffset p) (BitVec.ofNat 32 (at' x.tim.planned p).code)) } } := by
  induction passed with
  | nil => exact if_pos (gradeDiffers_iff.2 hp)
  | cons q passed ih =>
    have hq : ¬ gradeDiffers x q = true := fun hd => gradeDiffers_iff.1 hd (h q (by simp))
    rw [List.cons_append, serveGrades, if_neg hq]
    exact ih fun r hr => h r (by simp [hr])

theorem serveTiming_busy (h : x.tim.writing ≠ none) : serveTiming x = x := if_pos (Option.isSome_iff_ne_none.2 h)

theorem serveTiming_free (h : x.tim.writing = none) : serveTiming x = serveGrades x.tim.list x := by
  simp [serveTiming, h]

theorem gradeWriteEnd_done {p : PortNo} {g : Grade} (ws : List Word) (h : x.tim.writing = some (p, g)) :
    gradeWriteEnd (.done ws) x = { x with tim := { x.tim with
      writing := none
      written := put x.tim.written p (some g)
      list := if at' x.tim.planned p = g ∨ ¬ slotStateOf x (slotOf p) = .present then x.tim.list
        else if at' x.tim.planned p = .gx then p :: x.tim.list.filter (· ≠ p)
        else if p ∈ x.tim.list then x.tim.list else x.tim.list ++ [p] } } := by
  have hend : gradeWriteEnd (.done ws) x = gradeWritten p g { x with tim := { x.tim with writing := none } } := by
    simp [gradeWriteEnd, h]
  rw [hend]
  by_cases hg : at' x.tim.planned p = g
  · simp [gradeWritten, gradeDiffers, hg]
  · have hg' : g ≠ at' x.tim.planned p := Ne.symm hg
    by_cases hp : slotStateOf x (slotOf p) = .present
    · have hp' : ∀ t : Timing, slotStateOf { x with tim := t } (slotOf p) = .present := fun _ => hp
      by_cases hx : at' x.tim.planned p = .gx
      · rw [hx] at hg hg'
        simp [gradeWritten, gradeDiffers, portPresent, isPresent, joinGradeList, leave, hg, hg', hp, hp', hx]
      · simp [gradeWritten, gradeDiffers, portPresent, isPresent, joinGradeList, joinTail, hg, hg', hp, hp', hx]
    · have hp' : ∀ t : Timing, slotStateOf { x with tim := t } (slotOf p) ≠ .present := fun _ => hp
      simp [gradeWritten, gradeDiffers, portPresent, isPresent, hp, hp']

theorem gradeWriteEnd_fault {p : PortNo} {g : Grade} (a : BusAnswer) (n : SlotNo) (off r v : Nat)
    (h : x.tim.writing = some (p, g)) : gradeWriteEnd (.fault a n off r v) x = { x with tim := { x.tim with
      writing := none
      written := put x.tim.written p none
      list := if slotStateOf x (slotOf p) = .present then
          (if p ∈ x.tim.list then x.tim.list else x.tim.list ++ [p])
        else x.tim.list } } := by
  have hend : gradeWriteEnd (.fault a n off r v) x
      = gradeFaulted p { x with tim := { x.tim with writing := none } } := by
    simp [gradeWriteEnd, h]
  have hsame : ∀ t : Timing, slotStateOf { x with tim := t } (slotOf p) = slotStateOf x (slotOf p) := fun _ => rfl
  rw [hend]
  by_cases hp : slotStateOf x (slotOf p) = .present
  · simp [gradeFaulted, portPresent, isPresent, joinTail, hsame, hp]
  · simp [gradeFaulted, portPresent, isPresent, hsame, hp]

end Grades

/-! ### What the work leaves as it was -/

theorem pump_grants (x : Shelf) :
    ∃ y : Shelf, pump x = grant y ∧ y.bp.bus = x.bp.bus ∧ y.bp.waitCount = x.bp.waitCount :=
  ⟨_, rfl, serveRecords_bus (serveTiming_bus (serveExecutor_bus (serveScanner_bus (askProbe_bus ⟨rfl, rfl⟩))))⟩

/-- An event of the shelf that keeps the settings. -/
theorem onShelf_settings {f : Shelf → Shelf} {s : State} (h : Wide s.shelf (f s.shelf)) :
    SameSettings s.shelf (onShelf f s).shelf ∧ (onShelf f s).lock = s.lock :=
  ⟨(wide_settings (x := f s.shelf) h).1, rfl⟩

/-- Settles O60: the frame of the work, the arbiter, the tag writes and the grade writes. -/
theorem busWorkChangesNoSetting : Obligations.BusWorkChangesNoSetting := by
  refine ⟨fun x => wide_settings (keep_pump (wide x) (wide_rfl x)), fun a s => ?_, fun s => ?_, pump_grants,
    fun x => ?_, fun x p rest => ⟨serveRecords_idle, serveRecords_head⟩, fun x w hw => ?_, fun x passed p rest => ?_,
    fun x p g hw => ⟨fun ws => gradeWriteEnd_done ws hw, fun a n off r v => gradeWriteEnd_fault a n off r v hw⟩⟩
  · exact ⟨_, rfl, onShelf_settings (keep_answerCard (wide _) (wide_rfl _))⟩
  · exact ⟨_, rfl, onShelf_settings (keep_transferTimedOut (wide _) (wide_rfl _))⟩
  · intro b granted none4
    refine ⟨fun h => ?_, fun h h4 hs => ?_, fun h t ht hor => ?_, fun h hor => ⟨fun n hp => ?_, fun hp t ht => ?_,
      fun hp he t ht => ?_, fun hp he hti t ht => ?_⟩⟩
    · obtain ⟨u, hu⟩ := Option.ne_none_iff_exists'.1 h
      exact grant_busy hu
    · obtain ⟨h1, h2, h3, h5⟩ := h4
      exact grant_idle h (by rw [nextGrant_inOrder (.inr hs), h1, h2, h3, h5, hs]; rfl)
    · exact grant_takes h (nextGrant_scanner ht hor) rfl rfl
    · exact grant_takes h (by rw [nextGrant_inOrder hor, hp]; rfl) rfl rfl
    · exact grant_takes h (by rw [nextGrant_inOrder hor, hp, ht]; rfl) rfl rfl
    · exact grant_takes h (by rw [nextGrant_inOrder hor, hp, he, ht]; rfl) rfl rfl
    · exact grant_takes h (by rw [nextGrant_inOrder hor, hp, he, hti, ht]; rfl) rfl rfl
  · refine ⟨fun a n off r v => ?_, fun ws hlt => tagWriteEnd_next hw hlt, fun ws h3 => ⟨fun hc => ?_, fun hc => ?_⟩⟩
    · exact (tagWriteEnd_fault hw).trans (joinTags_eq ..)
    · exact (tagWriteEnd_last hw h3).trans ((if_pos hc).trans (joinTags_eq ..))
    · rw [tagWriteEnd_last hw h3, hc]
      rfl
  · refine ⟨serveTiming_busy, fun hw heq => ?_, fun hw hl heq hp => ?_⟩
    · rw [serveTiming_free hw, serveGrades_equal heq]
    · rw [serveTiming_free hw, hl, serveGrades_first heq hp]

end Sys2Proof.Machine

/-! The answers of the cards (R2 to R13, R16, R18): probes, the ends of transactions, re-probes and attention. -/

namespace Sys2Proof.Machine

/-! ### The fault of a transaction -/

section Faults
variable {v : Vector SlotRec 12} {f l : Option BusFault} {b : Option BusUse} {r : Readiness} {s : Shelf}

/-- R18: the fault of a transaction as the bus fault record takes it. -/
def faultOf (u : BusUse) (t : Transfer) (a : BusAnswer) : BusFault := ⟨u.req, u.txn.kind, t.slot, t.off, a⟩

/-- R3: a probe that ends in TIMEOUT is no bus fault. -/
theorem enterFault_probe (u : BusUse) (t : Transfer) (h : u.req = .backplane) : enterFault u t .timeout s = s :=
  if_pos ⟨h, rfl⟩

theorem enterFault_slots {u : BusUse} {t : Transfer} {a : BusAnswer} (h : SlotsAre v f l b r s)
    (ha : ¬ (u.req = .backplane ∧ a = .timeout)) :
    SlotsAre v (f.or (some (faultOf u t a))) (some (faultOf u t a)) b r (enterFault u t a s) := by
  obtain ⟨hslots, hfirst, -, hbus, hrdy⟩ := h
  rw [enterFault, if_neg ha]
  have K := slotsAre v (f.or (some (faultOf u t a))) (some (faultOf u t a)) b r
  refine stay_reportChange K (o := .shelf) (c := .busFault) (b := true) ?_
  exact ⟨hslots, hfirst ▸ rfl, rfl, hbus, hrdy⟩

theorem free_slots (s : Shelf) : SlotsAre s.bp.slots s.bp.firstCause s.bp.lastFault none s.rdy
    (setBp (fun b => { b with bus := none }) s) := ⟨rfl, rfl, rfl, rfl, rfl⟩

end Faults

/-! ### Probes -/

section Probe
variable {n : SlotNo} {s : Shelf}

/-- The transaction of a probe, with the retries it has had. -/
def probeUse (n : SlotNo) (retries : Nat) : BusUse := ⟨.backplane, .read n 0, [], 0, retries, none⟩

/-- R2: in DISCOVERY the next slot is probed, and after slot 11 the shelf enters WATCH. -/
theorem discoveryNext_eq (n : SlotNo) (x : Shelf) : discoveryNext n x
    = if x.rdy.phase = .discovery then
        (if h : n.val + 1 < 12 then setBp (fun b => { b with probeWaiting := some ⟨n.val + 1, h⟩ }) x else enterWatch x)
      else x := by
  unfold discoveryNext
  by_cases h : n.val + 1 < 12
  · rw [finOf_lt h, dif_pos h]
  · rw [finOf_ge (Nat.not_lt.1 h), dif_neg h]

theorem probe_acked (hslot : slotStateOf s n ≠ .present) (retries : Nat) (w : Word) :
    transferAcked (probeUse n retries) ⟨n, 0, false⟩ w s
      = discoveryNext n (probeOutcome n (.done [w]) (setBp (fun b => { b with bus := none }) s)) := by
  have hcount : countFaults { probeUse n 0 with reads := [w] } none (setBp (fun b => { b with bus := none }) s) = _ :=
    countFaults_probe rfl (fun _ h => by cases h) hslot
  have hend : transferAcked (probeUse n retries) ⟨n, 0, false⟩ w s
    = endTransaction { probeUse n 0 with reads := [w] } none s := rfl
  rw [hend, endTransaction, hcount]
  rfl

theorem probe_faulted (hslot : slotStateOf s n ≠ .present) (retries : Nat) (a : BusAnswer) :
    endTransaction (probeUse n retries) (some (⟨n, 0, false⟩, a)) s
      = discoveryNext n (probeOutcome n (.fault a n 0 0 0)
          (enterFault (probeUse n retries) ⟨n, 0, false⟩ a (setBp (fun b => { b with bus := none }) s))) := by
  have hcount : countFaults (probeUse n retries) (some (⟨n, 0, false⟩, a)) (setBp (fun b => { b with bus := none }) s)
      = _ :=
    countFaults_probe rfl (fun x h => by cases h; rfl) hslot
  rw [endTransaction, hcount]
  rfl

end Probe

/-! ### Transactions -/

section Transactions
variable {s : Shelf} {u : BusUse} {t : Transfer}

theorem timedOut_eq (hb : s.bp.bus = some u) (ht : transferOf u = some t) :
    transferTimedOut s = pump (endTransaction u (some (t, .timeout)) s) := by simp [transferTimedOut, hb, ht]

theorem transferRetried_limit (hm : mayRetry u = true) (h : 3 ≤ u.retries) :
    transferRetried u t s = endTransaction u (some (t, .retryLimit)) s := by
  simp [transferRetried, hm, Config.retryMax, Nat.not_lt.2 h]

theorem transferRetried_again (hm : mayRetry u = true) (h : u.retries < 3) :
    transferRetried u t s = setBp (fun b => { b with bus := some { u with retries := u.retries + 1 } }) s := by
  simp [transferRetried, hm, Config.retryMax, h]

theorem transferRetried_refused (hm : mayRetry u = false) :
    transferRetried u t s = endTransaction u (some (t, .fault)) s := by
  simp [transferRetried, hm]

theorem countedSlot_true (r : SlotRec) : countedSlot true r = if r.state ≠ .present then r
    else if r.faults < 2 then { r with faults := r.faults + 1 } else ⟨.failed, none, none, 3⟩ := by
  simp [countedSlot, Nat.lt_succ_iff]

theorem countedSlot_false (r : SlotRec) :
    countedSlot false r = if r.state = .present then { r with faults := 0 } else r := by
  by_cases h : r.state = .present <;> simp [countedSlot, h]

/-- R5: the record of a slot whose card acknowledged a transfer, as one condition. -/
theorem countedSlot_of_mem {m : SlotNo} {good : List SlotNo} {r : SlotRec} {p : Prop} [Decidable p] (h : p ↔ m ∈ good) :
    (if p then countedSlot false r else r) = if r.state = .present ∧ m ∈ good then { r with faults := 0 } else r := by
  by_cases hm : m ∈ good <;> by_cases hr : r.state = .present <;> simp [h, hm, hr, countedSlot_false]

/-- R5: a transaction that is no locked exchange has acknowledged transfers of one slot alone. -/
theorem ackedSlots_single {m : SlotNo} (ht : transferOf u = some t) (hx : ∀ words, u.txn ≠ .exchange words)
    (hm : m ∈ ackedSlots u) : m = t.slot := by
  obtain ⟨req, txn, reads, writes, retries, values⟩ := u
  cases txn with
  | exchange words => exact absurd rfl (hx words)
  | read n off | write n off w | block n off =>
    cases ht
    simp only [ackedSlots] at hm
    split at hm
    · cases hm
    · exact List.mem_singleton.1 hm

/-- What the transfer acknowledged makes of the transaction. -/
def ackedUse (t : Transfer) (w : Word) (u : BusUse) : BusUse :=
  if t.write then { u with writes := u.writes + 1, retries := 0 } else { u with reads := u.reads ++ [w], retries := 0 }

theorem transferAcked_eq (u : BusUse) (t : Transfer) (w : Word) (s : Shelf) : transferAcked u t w s
    = if isComplete t.write (ackedUse t w u) then endTransaction (ackedUse t w u) none (releaseAttention t s)
      else setBp (fun b => { b with bus := some (ackedUse t w u) }) (releaseAttention t s) := rfl

/-- The answer's retry count is no part of whether a transaction is complete. -/
theorem isComplete_acked (t : Transfer) (w : Word) (u : BusUse) : isComplete t.write (ackedUse t w u)
    = isComplete t.write (if t.write then { u with writes := u.writes + 1 } else
        { u with reads := u.reads ++ [w] }) := by
  unfold ackedUse
  cases t.write <;> rfl

theorem ackedUse_reads (t : Transfer) (w : Word) (u : BusUse) :
    (ackedUse t w u).reads = if t.write then u.reads else u.reads ++ [w] := by
  unfold ackedUse
  cases t.write <;> rfl

theorem deliver_acked (t : Transfer) (w : Word) (u : BusUse) (e : TxnEnd) (y : Shelf) :
    deliver (ackedUse t w u) e y = deliver u e y := by
  unfold ackedUse
  cases t.write <;> rfl

/-- Every transfer of a transaction of one slot is of that slot, and every one of a complete exchange is
acknowledged. -/
theorem ackedSlots_complete {w : Word} (ht : transferOf u = some t) (hc : isComplete t.write (ackedUse t w u) = true) :
    (∀ n, ((∃ off, u.txn = .read n off) ∨ (∃ off x, u.txn = .write n off x) ∨ ∃ off, u.txn = .block n off) →
      ackedSlots (ackedUse t w u) = [n])
    ∧ ∀ words, u.txn = .exchange words → ackedSlots (ackedUse t w u) = words.map Prod.fst := by
  obtain ⟨req, txn, reads, writes, retries, values⟩ := u
  refine ⟨fun n h => ?_, fun words h => ?_⟩
  · rcases h with ⟨off, h⟩ | ⟨off, x, h⟩ | ⟨off, h⟩ <;> cases h <;> cases ht <;> simp [ackedSlots, ackedUse]
  · cases h
    cases hr : words[reads.length]? with
    | some no =>
      obtain ⟨n, off⟩ := no
      simp only [transferOf, hr, Option.some.injEq] at ht
      subst ht
      simp [isComplete, ackedUse] at hc
    | none =>
      simp only [transferOf, hr] at ht
      split at ht
      · obtain ⟨p, -, rfl⟩ := Option.map_eq_some_iff.1 ht
        have hlen : words.length ≤ reads.length := by simpa using hr
        simp [ackedSlots, ackedUse, List.take_of_length_le hlen]
      · cases ht

/-- R16: the release of an attention line changes the lines alone. -/
theorem releaseAttention_eq (t : Transfer) (s : Shelf) : releaseAttention t s = setBp (fun b => { b with
      attLine := if t.write = false ∧ 0x10 ≤ t.off ∧ t.off < 0x20 then put b.attLine t.slot false
        else b.attLine }) s := by
  by_cases h : t.write = false ∧ 0x10 ≤ t.off ∧ t.off < 0x20
  · obtain ⟨hw, h1, h2⟩ := h
    simp [releaseAttention, isStatusOffset, hw, h1, h2]
  · simp only [releaseAttention, isStatusOffset, h, if_false]
    refine if_neg fun hc => h ?_
    simpa using hc

end Transactions

/-- R3, R2: what a probe that has ended leaves, given the bus fault record as its fault leaves it. -/
theorem probe_leaves {n : SlotNo} (e : TxnEnd) {f l : Option BusFault} {s y : Shelf}
    (hy : SlotsAre s.bp.slots f l none s.rdy y) : ∃ x : Shelf,
    at' x.bp.slots n = probeRecord e ∧ x.bp.firstCause = f ∧ x.bp.lastFault = l
    ∧ (∀ m, m ≠ n → at' x.bp.slots m = at' s.bp.slots m)
    ∧ discoveryNext n (probeOutcome n e y) = if s.rdy.phase = .discovery then
        (if h : n.val + 1 < 12 then setBp (fun b => { b with probeWaiting := some ⟨n.val + 1, h⟩ }) x else enterWatch x)
      else x := by
  obtain ⟨hslots, hfirst, hlast, -, hrdy⟩ := probeOutcome_slots n e hy
  refine ⟨probeOutcome n e y, ?_, hfirst, hlast, fun m hm => ?_, ?_⟩
  · rw [hslots, at'_upd_same]
  · rw [hslots, at'_upd_ne _ _ hm]
  · rw [discoveryNext_eq, hrdy]

theorem exec_transferTimeout (s : State) : exec .transferTimeout s = .next (settled (transferTimedOut s.shelf) s) := rfl

theorem worked_congr {x y : Shelf} {s : State} (h : x = y) :
    (Host.Outcome.next (worked x s) : Result) = .next (worked y s) := by rw [h]

/-- The end of a transaction is followed by the work for the bus. -/
theorem exec_answer_ends {s : State} {u : BusUse} {t : Transfer} {c : Instr} {a : BusAnswer}
    (hb : s.shelf.bp.bus = some u) (ht : transferOf u = some t)
    (hc : c = .cardAnswer .fault ∧ a = .fault ∨ c = .transferTimeout ∧ a = .timeout
      ∨ c = .cardAnswer .retry ∧ a = .retryLimit ∧ mayRetry u = true ∧ 3 ≤ u.retries) :
    exec c s = .next (worked (endTransaction u (some (t, a)) s.shelf) s) := by
  rcases hc with ⟨rfl, rfl⟩ | ⟨rfl, rfl⟩ | ⟨rfl, rfl, hm, hr⟩
  · rw [exec_answer, answer_fault hb ht]
    rfl
  · rw [exec_transferTimeout, timedOut_eq hb ht]
    rfl
  · rw [exec_answer, answer_retry hb ht, transferRetried_limit hm hr]
    rfl

theorem exec_answer_again {s : State} {u : BusUse} {t : Transfer} (hb : s.shelf.bp.bus = some u)
    (ht : transferOf u = some t) (hm : mayRetry u = true) (hr : u.retries < 3) : exec (.cardAnswer .retry) s
      = .next (worked (setBp (fun b => { b with bus := some { u with retries := u.retries + 1 } }) s.shelf) s) := by
  rw [exec_answer, answer_retry hb ht, transferRetried_again hm hr]
  rfl

theorem exec_answer_acked {s : State} {u : BusUse} {t : Transfer} (hb : s.shelf.bp.bus = some u)
    (ht : transferOf u = some t) (w : Word) :
    exec (.cardAnswer (.ack w)) s = .next (worked (transferAcked u t w s.shelf) s) := by
  rw [exec_answer, answer_ack hb ht]
  rfl

/-- Settles O34: the answers to a probe, the ends of any transaction, and where the outcome goes. -/
theorem probeSetsTheSlot : Obligations.ProbeSetsTheSlot := by
  refine ⟨fun s n retries hbus hslot => ?_, fun s u t hbus ht => ?_, fun u e y => ?_⟩
  · intro ends
    have ht : transferOf (probeUse n retries) = some ⟨n, 0, false⟩ := rfl
    have hfree := free_slots s.shelf
    have hfault : ∀ (c : Instr) (a : BusAnswer), a ≠ .timeout →
        exec c s = .next (worked (endTransaction (probeUse n retries) (some (⟨n, 0, false⟩, a)) s.shelf) s) →
        ends c (probeRecord (.fault a n 0 0 0)) (some a) := by
      intro c a ha hc
      obtain ⟨x, hrec, hfirst, hlast, hother, hnext⟩ := probe_leaves (n := n) (.fault a n 0 0 0)
        (enterFault_slots (u := probeUse n retries) (t := ⟨n, 0, false⟩) hfree
          fun h => ha h.2)
      refine ⟨x, hrec, hfirst, hlast, hother, ?_⟩
      rw [hc]
      refine worked_congr ?_
      rw [probe_faulted hslot retries a]
      exact hnext
    refine ⟨fun w => ?_, ?_, ?_, fun h3 => ?_, fun h3 => ?_⟩
    · obtain ⟨x, hrec, hfirst, hlast, hother, hnext⟩ := probe_leaves (n := n) (.done [w]) hfree
      exact ⟨x, hrec, by simpa using hfirst, by simpa using hlast, hother,
          (exec_answer_acked (u := probeUse n retries) hbus ht w).trans
        (worked_congr ((probe_acked hslot retries w).trans hnext))⟩
    · obtain ⟨x, hrec, hfirst, hlast, hother, hnext⟩ := probe_leaves (n := n) (.fault .timeout n 0 0 0) hfree
      have hnone := enterFault_probe (s := setBp (fun b => { b with bus := none }) s.shelf) (probeUse n retries)
        ⟨n, 0, false⟩ rfl
      rw [← hnone] at hnext
      exact ⟨x, hrec, by simpa using hfirst, by simpa using hlast, hother,
        (exec_answer_ends (u := probeUse n retries) (c := .transferTimeout) hbus ht (.inr (.inl ⟨rfl, rfl⟩))).trans
          (worked_congr ((probe_faulted hslot retries .timeout).trans hnext))⟩
    · exact hfault _ .fault (by decide) (exec_answer_ends (u := probeUse n retries) hbus ht (.inl ⟨rfl, rfl⟩))
    · exact hfault _ .retryLimit (by decide)
        (exec_answer_ends (u := probeUse n retries) hbus ht (.inr (.inr ⟨rfl, rfl, rfl, Nat.le_of_eq h3.symm⟩)))
    · exact exec_answer_again (u := probeUse n retries) hbus ht rfl h3
  · intro old
    refine ⟨fun c a hc => ?_, fun hm hr => exec_answer_again hbus ht hm hr, fun w hw => ?_⟩
    · intro f
      obtain ⟨y, hend, hfree, hslots, hkeep, henter⟩ := endTransaction_spec u (some (t, a)) s.shelf
      refine ⟨y, (exec_answer_ends hbus ht hc).trans (worked_congr hend), hfree, ?_, fun m hm => ?_,
        fun h => hkeep fun t' a' he => by cases he; exact h, fun h => henter t a rfl h⟩
      · rw [hslots]
        exact (if_pos rfl).trans (countedSlot_true _)
      · have hne : (some (t, a)).map (fun a => a.1.slot) ≠ some m := by simpa using Ne.symm hm
        rw [hslots, if_neg hne]
        refine countedSlot_of_mem ?_
        cases htxn : u.txn with
        | exchange words => simp [ackedSlots, htxn]
        | read n off | write n off w | block n off =>
          simp only [List.not_mem_nil, iff_false]
          exact fun hmem => hm (ackedSlots_single ht (by simp [htxn]) hmem)
    · rw [← isComplete_acked] at hw
      obtain ⟨y, hend, hfree, hslots, hkeep, -⟩ :=
          endTransaction_spec (ackedUse t w u) none (releaseAttention t s.shelf)
      obtain ⟨hfirst, hlast⟩ := hkeep fun _ _ h => by cases h
      obtain ⟨hsingle, hexchange⟩ := ackedSlots_complete ht hw
      rw [releaseAttention_eq] at hfirst hlast hslots
      refine ⟨y, (exec_answer_acked hbus ht w).trans (worked_congr ?_), hfree, hfirst, hlast, fun m => ?_⟩
      · rw [transferAcked_eq, if_pos hw, hend, deliver_acked, ackedUse_reads]
      · rw [hslots]
        refine countedSlot_of_mem (Iff.of_eq (congrArg (m ∈ ·) ?_))
        cases htxn : u.txn with
        | exchange words => exact hexchange words htxn
        | read n off => exact hsingle n (.inl ⟨off, htxn⟩)
        | write n off x => exact hsingle n (.inr (.inl ⟨off, x, htxn⟩))
        | block n off => exact hsingle n (.inr (.inr ⟨off, htxn⟩))
  · refine ⟨fun h => ?_, fun h => ?_, fun h => ?_, fun h => ?_⟩ <;> rw [deliver, h]

end Sys2Proof.Machine

/-! Re-probes and attention (R4, R16), and the transfers of block reads and locked exchanges (R11, R12). -/

namespace Sys2Proof.Machine

/-! ### Re-probes and attention -/

/-- The first number of a range that satisfies a test, found by its place. -/
theorem find?_finRange {n : Nat} {p : Fin n → Bool} {i : Fin n} (hi : p i = true) (hlt : ∀ j < i, p j = false) :
    (List.finRange n).find? p = some i := by
  rw [List.find?_eq_some_iff_getElem]
  refine ⟨hi, i.val, by simp, by simp, fun j hj => ?_⟩
  simpa using hlt ⟨j, by omega⟩ hj

/-- R4: the lowest slot due is probed, one at a time. -/
theorem askProbe_lowest {x : Shelf} {n : SlotNo} (hp : probing x = false) (hd : x.rdy.phase ≠ .discovery)
    (hn : at' x.bp.reprobeDue n = true) (hlt : ∀ m < n, at' x.bp.reprobeDue m = false) :
    askProbe x = setBp (fun b => { b with probeWaiting := some n, reprobeDue := put b.reprobeDue n false }) x := by
  have hfind : allSlots.find? (fun n => at' x.bp.reprobeDue n) = some n := find?_finRange hn hlt
  simp [askProbe, hp, hd, hfind]

theorem reprobeOver_running {x : Shelf} {n : SlotNo} (h : at' x.bp.reprobe n ≠ none) : reprobeOver n x
    = pump (setBp (fun b => { b with reprobe := put b.reprobe n none, reprobeDue := put b.reprobeDue n true }) x) :=
  if_pos (Option.isSome_iff_ne_none.2 h)

/-- R16: a slot with a card joins the attention list, once. -/
theorem attentionAsserted_eq (n : SlotNo) (x : Shelf) : attentionAsserted n x = pump (setBp (fun b => { b with
    attLine := put b.attLine n true
    attention := if slotStateOf x n = .present ∧ n ∉ b.attention then b.attention ++ [n] else b.attention }) x) := by
  by_cases hp : slotStateOf x n = .present
  · by_cases hm : n ∈ x.bp.attention <;> simp [attentionAsserted, isPresent, hp, joinAttention, joinTail, setBp, hm]
  · simp [attentionAsserted, isPresent, hp, setBp]

/-- Settles O36: the timer that runs out, the probe that it brings, and the line that is asserted. -/
theorem reprobeAndAttention : Obligations.ReprobeAndAttention := by
  intro s n
  refine ⟨fun h => ?_, ?_⟩
  · intro x
    refine ⟨congrArg (fun y => Host.Outcome.next (settled y s)) (reprobeOver_running h), fun hd hp hlt => ?_⟩
    have hprobing : probing x = false := hp
    rw [askProbe_lowest hprobing hd (at'_put_same ..) fun m hm => ?_]
    · rfl
    · exact (at'_put_ne _ _ (Fin.ne_of_lt hm)).trans (hlt m hm)
  · exact congrArg (fun y => Host.Outcome.next (settled y s)) (attentionAsserted_eq n s.shelf)

end Sys2Proof.Machine

/-! The transfers of block reads and locked exchanges (R11, R12), and the values of a group's exchange (R104, R108,
R112, R116, R117, R119). -/

namespace Sys2Proof.Machine

/-! ### Transfers that do not end their transaction -/

section Transfers
variable {s : State} {u : BusUse} {n : SlotNo} {off : Nat}

/-- R16: an acknowledged read that leaves more to do keeps its word, and of a status word releases the line. -/
theorem exec_read_goesOn (hb : s.shelf.bp.bus = some u) (ht : transferOf u = some ⟨n, off, false⟩) (w : Word)
    (hc : isComplete false { u with reads := u.reads ++ [w], retries := 0 } = false) :
    exec (.cardAnswer (.ack w)) s = .next (worked (setBp (fun b => { b with
      attLine := if 0x10 ≤ off ∧ off < 0x20 then put b.attLine n false else b.attLine
      bus := some { u with reads := u.reads ++ [w], retries := 0 } }) s.shelf) s) := by
  have hmore : isComplete (Transfer.mk n off false).write (ackedUse ⟨n, off, false⟩ w u) ≠ true :=
    Bool.eq_false_iff.1 hc
  rw [exec_answer_acked hb ht, transferAcked_eq, if_neg hmore, releaseAttention_eq]
  by_cases hoff : 0x10 ≤ off ∧ off < 0x20
  · simp [setBp, hoff, ackedUse]
  · simp only [setBp, hoff, and_false, if_false, ackedUse]
    rfl

theorem exec_write_goesOn (hb : s.shelf.bp.bus = some u) (ht : transferOf u = some ⟨n, off, true⟩) (w : Word)
    (hc : isComplete true { u with writes := u.writes + 1, retries := 0 } = false) :
    exec (.cardAnswer (.ack w)) s = .next (worked (setBp (fun b => { b with
      bus := some { u with writes := u.writes + 1, retries := 0 } }) s.shelf) s) := by
  have hmore : isComplete (Transfer.mk n off true).write (ackedUse ⟨n, off, true⟩ w u) ≠ true :=
    Bool.eq_false_iff.1 hc
  rw [exec_answer_acked hb ht, transferAcked_eq, if_neg hmore]
  rfl

theorem transferOf_exchange_read {words : List (SlotNo × Nat)} (htxn : u.txn = .exchange words)
    (h : words[u.reads.length]? = some (n, off)) : transferOf u = some ⟨n, off, false⟩ := by
  simp [transferOf, htxn, h]

theorem transferOf_exchange_waits {words : List (SlotNo × Nat)} (htxn : u.txn = .exchange words)
    (h : u.reads.length = words.length) (hv : u.values = none) : transferOf u = none := by
  simp [transferOf, htxn, h, hv]

theorem transferOf_exchange_write {words : List (SlotNo × Nat)} (htxn : u.txn = .exchange words)
    (h : u.reads.length = words.length) (hv : u.values ≠ none)
    (hw : words[words.length - 1 - u.writes]? = some (n, off)) : transferOf u = some ⟨n, off, true⟩ := by
  simp only [transferOf, htxn, h, List.getElem?_length, Option.isSome_iff_ne_none.2 hv, if_true, hw]
  rfl

/-- R12: no answer changes anything while the values are awaited. -/
theorem exec_answer_waits (hb : s.shelf.bp.bus = some u) (ht : transferOf u = none) (a : CardAnswer) :
    exec (.cardAnswer a) s = .next (settled s.shelf s) := by
  rw [exec_answer]
  simp [answerCard, hb, ht]

theorem exec_exchangeValuesReturned {words : List (SlotNo × Nat)} (hb : s.shelf.bp.bus = some u)
    (htxn : u.txn = .exchange words) (h : u.reads.length = words.length) (hv : u.values = none) :
    exec .exchangeValuesReturned s = .next (settled (setBp (fun b => { b with
      bus := some { u with values := some (exchangeValues u.reads s.shelf).1 } })
      (exchangeValues u.reads s.shelf).2) s) := by
  have hwait : awaitsValues u = true := by simp [awaitsValues, htxn, h, hv]
  refine congrArg (fun x => Host.Outcome.next (settled x s)) ?_
  simp only [valuesReturned, hb, hwait, if_true]

end Transfers

/-! ### The values of an exchange -/

section Values
variable {x : Shelf} {g : GroupNo} {d : GroupDef} {j : XJob} {reads : List Word}

theorem exchangeValues_clear {ports : List PortNo} (h : x.exe.active = some (.clear ports)) :
    exchangeValues reads x = ((ports.zip reads).map (fun pw => setField pw.2 0 2 0), x) := by
  simp only [exchangeValues, h]
  rfl

theorem exchangeValues_recovery (h : x.exe.active = some (.exchange g)) (hr : (execOf x g).step = .recovery) :
    exchangeValues reads x = ((execOf x g).saved.map Prod.snd, x) := by
  simp [exchangeValues, h, hr]

/-- R12: the words handed over are saved. -/
theorem exchangeValues_job (h : x.exe.active = some (.exchange g)) (hd : defOf x g = some d)
    (hj : (execOf x g).job = some j) (hr : (execOf x g).step ≠ .recovery) : exchangeValues reads x
      = ((j.ports.zip reads).map (fun y => exchangeValue d (execOf x g) j.kind ((j.ports.map Prod.fst).zip reads) y.1.1
          y.1.2 y.2),
        setExec g (fun y => { y with saved := (j.ports.map Prod.fst).zip reads }) x) := by
  simp [exchangeValues, h, hd, hj, hr]

theorem exchangeValues_at (h : x.exe.active = some (.exchange g)) (hd : defOf x g = some d)
    (hj : (execOf x g).job = some j) (hr : (execOf x g).step ≠ .recovery) {i : Nat} {p : PortNo} {c : Nat} {w : Word}
    (hp : j.ports[i]? = some (p, c)) (hw : reads[i]? = some w) : (exchangeValues reads x).1[i]?
      = some (exchangeValue d (execOf x g) j.kind ((j.ports.map Prod.fst).zip reads) p c w) := by
  rw [exchangeValues_job h hd hj hr, List.getElem?_map, (List.getElem?_zip_eq_some (z := ((p, c), w))).2 ⟨hp, hw⟩]
  rfl

end Values

section PlanValues
variable {d : GroupDef} {p : XPlan} {c : Nat} {w : Word}

/-- R108: the fields that a bridge exchange writes to a protect port. -/
theorem planValue_bridge_protect (hc : c = 0) : planValue d p .bridge c w
    = withFields w ([(0, 2, if d.shared then 3 else 2), (8, 3, p.target), (12, 3, 0), (15, 1, 0)]
        ++ [(16, 4, p.cls.rank), (20, 3, p.chan)]) := by
  subst hc
  rfl

theorem planValue_select_protect (hc : c = 0) : planValue d p .select c w
    = withFields w ([(0, 2, if d.shared then 3 else 2), (12, 3, p.target), (15, 1, 1)]
        ++ if d.shared then [(16, 4, p.cls.rank), (20, 3, p.chan)] else [(16, 4, 10), (20, 3, 0)]) := by
  subst hc
  cases hs : d.shared <;> simp only [planValue, hs, if_true, if_false, Bool.false_eq_true] <;> rfl

theorem planValue_release_protect (hc : c = 0) : planValue d p .release c w
    = withFields w ([(0, 2, if d.shared then 3 else 2), (12, 3, 0), (15, 1, 0)] ++ [(16, 4, 10), (20, 3, 0)]
        ++ if d.shared then [(8, 3, 0)] else []) := by
  subst hc
  cases hs : d.shared <;> simp only [planValue, hs, if_true, if_false, Bool.false_eq_true] <;> rfl

/-- R108: the fields that a bridge exchange writes to a working port. -/
theorem planValue_bridge_working (hc : c ≠ 0) : planValue d p .bridge c w
    = withFields w (if c = p.target then [(0, 2, 1), (4, 1, 1)] else [(0, 2, 1), (4, 1, 0), (5, 1, 0)]) := by
  by_cases ht : c = p.target
  · simp only [planValue, if_neg hc, if_pos ht]
    rfl
  · simp only [planValue, if_neg hc, if_neg ht]
    rfl

theorem planValue_select_working (hc : c ≠ 0) : planValue d p .select c w = withFields w [(0, 2, 1), (5, 1, 1)] := by
  simp only [planValue, if_neg hc]
  rfl

theorem planValue_release_working (hc : c ≠ 0) : planValue d p .release c w
    = withFields w (if d.shared then [(0, 2, 1), (4, 1, 0), (5, 1, 0)] else [(0, 2, 1), (5, 1, 0)]) := by
  simp only [planValue, if_neg hc]
  cases d.shared <;> rfl

/-- R119: the destination's word takes the source's role and switching fields. -/
theorem movedWord_fields (c : Nat) (r w : Word) : movedWord c r w = withFields w ((0, 2, field r 0 2) ::
    if c = 0 then [(8, 3, field r 8 3), (12, 3, field r 12 3), (15, 1, (r.getLsbD 15).toNat), (16, 4, field r 16 4),
      (20, 3, field r 20 3)]
    else [(4, 1, (r.getLsbD 4).toNat), (5, 1, (r.getLsbD 5).toNat)]) := by
  by_cases hc : c = 0
  · simp only [movedWord, if_pos hc]
    rfl
  · simp only [movedWord, if_neg hc]
    rfl

end PlanValues

/-! ### Preparation (R116) -/

/-- R116: a preparation goes on while a word is owed. -/
theorem finishPreparation_owed {x : Shelf} {g : GroupNo} (h : (execOf x g).owed ≠ []) : finishPreparation g x = x := by
  unfold finishPreparation
  split
  · rfl
  · simp [h]

/-- R116: what the preparation of a group makes it owe. -/
theorem owed_prepareGroup {y : Shelf} {g : GroupNo} {d : GroupDef} (hd : defOf y g = some d)
    (hp : (execOf y g).prepareDue = true) (ha : y.rdy.phase = .armed) :
    (execOf (prepareGroup g y) g).owed = preparationOwed d := by
  have howed : (execOf (scheduleGroup g (setExec g (fun x => { x with owed := preparationOwed d }) y)) g).owed
      = preparationOwed d := by rw [scheduleGroup_owed, execOf_setExec_same]
  have hdue : ((execOf y g).prepareDue && isArmed y) = true := by simp [hp, isArmed, ha]
  have hne : preparationOwed d ≠ [] := by simp [preparationOwed, GroupDef.members]
  simp only [prepareGroup, hd, hdue, if_true]
  rw [finishPreparation_owed (by rw [howed]; exact hne), howed]

/-- R116: the due word of the protect port. -/
theorem dueWord_protect {d : GroupDef} {p : PortNo} (h : d.channelOf p = some 0) (c b cls chan : Nat) :
    dueWord d p c b cls chan = if d.shared then .protect true b c cls chan else .protect false 1 c 10 0 := by
  simp only [dueWord, h]
  rfl

/-- R116: the due word of a working port. -/
theorem dueWord_working {d : GroupDef} {p : PortNo} {n : Nat} (hn : 0 < n) (h : d.channelOf p = some n)
    (c b cls chan : Nat) : dueWord d p c b cls chan
      = if d.shared then .working (decide (n = b)) (decide (n = c)) else .working true (decide (c = 1)) := by
  obtain ⟨m, rfl⟩ := Nat.exists_eq_succ_of_ne_zero (Nat.ne_of_gt hn)
  simp only [dueWord, h]

/-- Settles O35: the transfers of a transaction, the values of an exchange, and the due words of a preparation. -/
theorem transfersGoOnInOrder : Obligations.TransfersGoOnInOrder := by
  refine ⟨fun s u hb => ⟨fun n off w htxn hlt => ?_, fun n off htxn hne hlt => ?_,
      fun words htxn => ⟨fun n off hw => ?_,
    fun hall hv => ?_, fun hall hv hlt n off hw => ?_, fun ports hact => exchangeValues_clear hact,
    fun g d j hact hd hj => ?_⟩⟩, fun y g d hd hp ha => ?_, fun d p c b cls chan => ?_⟩
  · refine exec_read_goesOn hb (by simp [transferOf, htxn]) w ?_
    simp only [isComplete, htxn, List.length_append, List.length_singleton, decide_eq_false_iff_not]
    omega
  · have ht : transferOf u = some ⟨n, off + u.reads.length, false⟩ := by simp [transferOf, htxn]
    have hm : mayRetry u = false := by simpa [mayRetry, htxn] using hne
    rw [exec_answer, exec_answer, answer_retry hb ht, answer_fault hb ht, transferRetried_refused hm]
  · have ht := transferOf_exchange_read htxn hw
    exact ⟨ht, fun w => exec_read_goesOn hb ht w (by simp [isComplete, htxn])⟩
  · exact ⟨exec_answer_waits hb (transferOf_exchange_waits htxn hall hv),
      exec_exchangeValuesReturned hb htxn hall hv⟩
  · have ht := transferOf_exchange_write htxn hall hv hw
    refine ⟨ht, fun w => exec_write_goesOn hb ht w ?_⟩
    simp only [isComplete, htxn, Bool.true_and, decide_eq_false_iff_not]
    omega
  · intro x v
    refine ⟨exchangeValues_recovery hact, fun hr => ⟨congrArg Prod.snd (exchangeValues_job hact hd hj hr),
      fun i p c w hp hw => ?_⟩⟩
    have hat := exchangeValues_at hact hd hj hr hp hw
    have hwrites : ∀ fields : List (Nat × Nat × Nat),
        exchangeValue d x j.kind ((j.ports.map Prod.fst).zip u.reads) p c w = withFields w fields →
        v.1[i]? = some (withFields w fields) := fun fields h => hat.trans (congrArg some h)
    refine ⟨fun pl hpl => ?_, fun hk q due hq => ?_, fun hk b hb => ⟨fun hsrc => ?_, fun hsrc q r hr => ?_⟩,
        fun hk => ?_⟩
    · refine ⟨fun hc => ⟨fun hk => ?_, fun hk => ?_, fun hk => ?_⟩,
        fun hc => ⟨fun hk => ?_, fun hk => ?_, fun hk => ?_⟩⟩
      all_goals
        refine hwrites _ ?_
        simp only [exchangeValue, hk, hpl]
      · exact planValue_bridge_protect hc
      · exact planValue_select_protect hc
      · exact planValue_release_protect hc
      · exact planValue_bridge_working hc
      · exact planValue_select_working hc
      · exact planValue_release_working hc
    · refine hwrites _ ?_
      simp only [exchangeValue, hk, hq]
      exact applyDue_fields due w
    · refine hwrites _ ?_
      simp only [exchangeValue, hk, hb, if_pos hsrc]
      rfl
    · refine hwrites _ ?_
      simp only [exchangeValue, hk, hb, if_neg hsrc, hr]
      exact movedWord_fields b.chan r w
    · refine hwrites _ ?_
      simp only [exchangeValue, hk]
      exact applyDue_fields _ w
  · rw [owed_prepareGroup hd hp ha]
    simp [preparationOwed, GroupDef.members, prepareBridge, ReqClass.rank]
  · exact ⟨fun h => dueWord_protect h c b cls chan, fun n hn h => dueWord_working hn h c b cls chan⟩

end Sys2Proof.Machine

/-! The reads of the scanner (R27, R29 to R33): what the end of a status read and of a tag read gives. -/

namespace Sys2Proof.Machine

/-! ### The end of a read of the scanner -/

section Ends
variable {x : Shelf}

/-- R5: the counts after acknowledged transfers change the fault counts alone. -/
theorem countFaults_acked (u : BusUse) (x : Shelf) : ∃ v : Vector SlotRec 12,
    countFaults u none x = { x with bp := { x.bp with slots := v } }
    ∧ ∀ m, (at' v m).state = (at' x.bp.slots m).state := by
  refine List.foldlRecOn (motive := fun y : Shelf => ∃ v : Vector SlotRec 12,
    y = { x with bp := { x.bp with slots := v } } ∧ ∀ m, (at' v m).state = (at' x.bp.slots m).state)
    (allSlots.filter _) (fun s n => countFault n false s) ⟨x.bp.slots, rfl, fun _ => rfl⟩ fun y hy n _ => ?_
  obtain ⟨v, rfl, hv⟩ := hy
  by_cases hp : (at' v n).state = .present
  · refine ⟨upd v n (fun r => { r with faults := 0 }), ?_, fun m => ?_⟩
    · simp [countFault, hp, setSlot, setBp]
    · by_cases hm : m = n
      · subst hm
        rw [at'_upd_same]
        exact hv m
      · rw [at'_upd_ne _ _ hm]
        exact hv m
  · exact ⟨v, if_pos hp, hv⟩

/-- R7: the last word of a read of the scanner reaches it on a shelf that differs in nothing it looks at. -/
theorem exec_scanner_read {s : State} {u : BusUse} {n : SlotNo} {off : Nat} (hb : s.shelf.bp.bus = some u)
    (ht : transferOf u = some ⟨n, off, false⟩) (hreq : u.req = .scanner) (w : Word)
    (hc : isComplete false { u with reads := u.reads ++ [w], retries := 0 } = true) : ∃ y : Shelf,
    exec (.cardAnswer (.ack w)) s = .next (worked (scannerEnd (.done (u.reads ++ [w])) y) s)
    ∧ y.scan = s.shelf.scan ∧ y.pins = s.shelf.pins ∧ ∀ m, slotStateOf y m = slotStateOf s.shelf m := by
  obtain ⟨a, hfreed⟩ : ∃ a, setBp (fun b => { b with bus := none }) (releaseAttention ⟨n, off, false⟩ s.shelf)
      = { s.shelf with bp := { s.shelf.bp with attLine := a, bus := none } } := by
    rw [releaseAttention_eq]
    exact ⟨_, rfl⟩
  obtain ⟨v, hcount, hv⟩ := countFaults_acked (ackedUse ⟨n, off, false⟩ w u)
    { s.shelf with bp := { s.shelf.bp with attLine := a, bus := none } }
  have hdone : isComplete (Transfer.mk n off false).write (ackedUse ⟨n, off, false⟩ w u) = true := hc
  have hdeliver : ∀ e z, deliver (ackedUse ⟨n, off, false⟩ w u) e z = scannerEnd e z := fun e z => by
    rw [deliver_acked, deliver, hreq]
  refine ⟨{ s.shelf with bp := { s.shelf.bp with attLine := a, bus := none, slots := v } },
    (exec_answer_acked hb ht w).trans (worked_congr ?_), rfl, rfl, hv⟩
  rw [transferAcked_eq, if_pos hdone, endTransaction, hfreed, hcount, hdeliver]
  rfl

end Ends

/-! ### The end of a visit (R27) -/

section Visits
variable {x : Shelf} {p : PortNo}

/-- R27: the visit of a running cycle has ended. -/
def visitEnded : Cycle → Cycle
  | .running v _ => .running (v + 1) false
  | .waiting => .waiting
  | .stopped => .stopped

theorem endVisit_eq (cyclic : Bool) (x : Shelf) : endVisit cyclic x
    = setScan (fun c => { c with cycle := if cyclic then visitEnded c.cycle else c.cycle }) x := by
  cases cyclic with
  | false => rfl
  | true =>
    unfold endVisit
    cases hc : x.scan.cycle with
    | running v b => simp [setScan, hc, visitEnded]
    | waiting | stopped =>
      simp only [setScan, hc, visitEnded, if_true]
      rw [← hc]

theorem endVisit_obsOf (cyclic : Bool) (x : Shelf) (q : PortNo) : obsOf (endVisit cyclic x) q = obsOf x q := by
  rw [obsOf, endVisit_obs]
  rfl

theorem endVisit_job (cyclic : Bool) (x : Shelf) : (endVisit cyclic x).scan.job = x.scan.job := by
  rw [endVisit_eq]
  rfl

theorem observe_obsOf (o : Obs) (x : Shelf) (q : PortNo) : obsOf (observe p o x) q = obsOf (setObs p o x) q := by
  rw [obsOf, observe_scan]
  rfl

theorem observe_job (o : Obs) (x : Shelf) : (observe p o x).scan.job = x.scan.job := by
  rw [observe_scan]
  rfl

theorem observe_cycle (o : Obs) (x : Shelf) : (observe p o x).scan.cycle = x.scan.cycle := by
  rw [observe_scan]
  rfl

/-! ### Status reads and tag reads -/

/-- R27, R30: an acknowledged status read gives the port's observation, and asks for an owed tag read or ends
the visit. -/
theorem statusRead_done {cyclic : Bool} {words : List Word} {o : Obs} (hp : portPresent x p = true)
    (hw : inWindow x p = true) (hj : x.scan.job = none)
    (ho : statusObs (isQuiet x) cyclic x.scan.thresholds words (obsOf x p) = o) :
    (∀ q, q ≠ p → obsOf (statusRead p cyclic (.done words) x) q = obsOf x q)
    ∧ obsOf (statusRead p cyclic (.done words) x) p = o
    ∧ (o.tagOwed = true → (statusRead p cyclic (.done words) x).scan.job = some (.tag p cyclic)
        ∧ (statusRead p cyclic (.done words) x).bp.waitScanner = some (.block (slotOf p) (rxTagOffset p)))
    ∧ (o.tagOwed = false → (statusRead p cyclic (.done words) x).scan.job = none)
    ∧ (statusRead p cyclic (.done words) x).scan.cycle
      = if cyclic = true ∧ o.tagOwed = false then visitEnded x.scan.cycle else x.scan.cycle := by
  have hobs : obsOf (observe p o x) p = o := by rw [observe_obsOf, obsOf_setObs_same]
  have hother : ∀ q, q ≠ p → obsOf (observe p o x) q = obsOf x q := fun q hq => by
    rw [observe_obsOf, obsOf_setObs_ne o x hq]
  have hread : statusRead p cyclic (.done words) x
      = if o.tagOwed then askScanner (.tag p cyclic) (.block (slotOf p) (rxTagOffset p)) (observe p o x)
        else endVisit cyclic (observe p o x) := by
    simp only [statusRead, hp, hw, ho, hobs]
    rfl
  rw [hread]
  cases howed : o.tagOwed with
  | true =>
    refine ⟨hother, hobs, fun _ => ⟨rfl, rfl⟩, nofun, ?_⟩
    exact (observe_cycle (p := p) o x).trans (if_neg fun h => nomatch h.2).symm
  | false =>
    refine ⟨fun q hq => ?_, ?_, nofun, fun _ => ?_, ?_⟩
    · exact (endVisit_obsOf ..).trans (hother q hq)
    · exact (endVisit_obsOf ..).trans hobs
    · exact (endVisit_job ..).trans ((observe_job ..).trans hj)
    · simp only [Bool.false_eq_true, if_false, and_true]
      rw [endVisit_eq, ← observe_cycle (p := p) o x]
      rfl

/-- R30: an acknowledged tag read of a port still lit gives the tag received. -/
theorem tagRead_done (cyclic : Bool) (words : List Word) (hj : x.scan.job = none) :
    (tagRead p cyclic (.done words) x).scan.job = none
    ∧ (∀ q, q ≠ p → obsOf (tagRead p cyclic (.done words) x) q = obsOf x q)
    ∧ obsOf (tagRead p cyclic (.done words) x) p = if portPresent x p = true ∧ (condOf x p).lit = true then
        { obsOf x p with tagOwed := false, rxTag := some (tagOf words) } else obsOf x p := by
  by_cases h : portPresent x p = true ∧ (condOf x p).lit = true
  · have hread : tagRead p cyclic (.done words) x
        = endVisit cyclic (observe p { obsOf x p with tagOwed := false, rxTag := some (tagOf words) } x) := by
      simp [tagRead, h]
    rw [hread, if_pos h]
    refine ⟨(endVisit_job ..).trans ((observe_job ..).trans hj), fun q hq => ?_, ?_⟩
    · rw [endVisit_obsOf, observe_obsOf, obsOf_setObs_ne _ x hq]
    · rw [endVisit_obsOf, observe_obsOf, obsOf_setObs_same]
  · have hread : tagRead p cyclic (.done words) x = endVisit cyclic x := by
      refine if_pos ?_
      cases hp : portPresent x p <;> simp_all
    rw [hread, if_neg h]
    exact ⟨(endVisit_job ..).trans hj, fun q _ => endVisit_obsOf .., endVisit_obsOf ..⟩

/-- A read that ends in fault leaves the observations. -/
theorem scannerEnd_fault (a : BusAnswer) (n : SlotNo) (off reads writes : Nat) (x : Shelf) :
    (scannerEnd (.fault a n off reads writes) x).scan.obs = x.scan.obs
    ∧ (scannerEnd (.fault a n off reads writes) x).scan.job = none := by
  unfold scannerEnd
  cases hj : x.scan.job with
  | none => exact ⟨rfl, hj⟩
  | some j => cases j <;> exact ⟨endVisit_obs .., endVisit_job ..⟩

end Visits

/-! ### The observation that a status read gives (R29, R31, R33) -/

section StatusObs
variable {quiet cyclic : Bool} {t : Thresholds} {status count prot grade : Word} {o : Obs}

/-- R33: the observation of a port without light or frame lock. -/
def unlit (o : Obs) (light frame : Bool) : Obs :=
  { o with
      cond := if light then .failed else .dark
      light := some light
      frame := some frame
      window := []
      degraded := false
      carry := 0
      tagOwed := false
      rxTag := none
      rxProt := none
      rxGrade := none }

theorem statusObs_unlit {rest : List Word} (h : status.getLsbD 0 = false ∨ status.getLsbD 1 = false) :
    statusObs quiet cyclic t (status :: rest) o = unlit o (status.getLsbD 0) (status.getLsbD 1) := by
  by_cases hl : status.getLsbD 0 = true
  · have hf : status.getLsbD 1 = false := h.resolve_left (by simp [hl])
    simp only [statusObs, List.headD_cons, bitOf, hl, hf, Bool.not_true, Bool.not_false, Bool.false_eq_true, if_true,
      if_false]
    rfl
  · rw [Bool.not_eq_true] at hl
    simp only [statusObs, List.headD_cons, bitOf, hl, Bool.not_false, if_true]
    rfl

/-- R33: the observation of a lit and framed port, from what its status words give. -/
def litObs (status : Word) (o : Obs) : Obs :=
  { o with
      cond := if o.degraded then .degraded else .clean
      tagOwed := o.tagOwed || !o.cond.lit || status.getLsbD 2 }

theorem take_lit (o : Obs) : o.take (if o.degraded then .degraded else .clean)
    = { o with cond := if o.degraded then .degraded else .clean, tagOwed := o.tagOwed || !o.cond.lit } := by
  cases hd : o.degraded <;> simp [Obs.take, PortCond.lit, hd]

theorem statusObs_block (hl : status.getLsbD 0 = true) (hf : status.getLsbD 1 = true) :
    statusObs quiet cyclic t [status, count, prot, grade] o
      = litObs status { takeCount quiet cyclic t (field count 0 16)
          { o with light := some true, frame := some true } with
          rxProt := protWordOf prot, rxGrade := some (gradeOf grade) } := by
  simp only [statusObs, List.headD_cons, bitOf, hl, hf, Bool.not_true, Bool.false_eq_true, if_false]
  rw [take_lit, litObs, Bool.or_right_comm]

theorem statusObs_word (hl : status.getLsbD 0 = true) (hf : status.getLsbD 1 = true) :
    statusObs quiet cyclic t [status] o = litObs status { o with light := some true, frame := some true } := by
  simp only [statusObs, List.headD_cons, bitOf, hl, hf, Bool.not_true, Bool.false_eq_true, if_false]
  rw [take_lit, litObs, Bool.or_right_comm]

/-- R31: a count changes the window, the degraded flag, the carry and the resume flag alone. -/
theorem takeCount_keeps (n : Nat) (o : Obs) : (takeCount quiet cyclic t n o).cond = o.cond
    ∧ (takeCount quiet cyclic t n o).light = o.light ∧ (takeCount quiet cyclic t n o).frame = o.frame
    ∧ (takeCount quiet cyclic t n o).tagOwed = o.tagOwed ∧ (takeCount quiet cyclic t n o).rxTag = o.rxTag := by
  unfold takeCount
  split
  · exact ⟨rfl, rfl, rfl, rfl, rfl⟩
  · split
    · exact ⟨rfl, rfl, rfl, rfl, rfl⟩
    · split <;> exact ⟨rfl, rfl, rfl, rfl, rfl⟩

theorem statusObs_lightFrame : (statusObs quiet cyclic t [status, count, prot, grade] o).light = some (status.getLsbD 0)
    ∧ (statusObs quiet cyclic t [status, count, prot, grade] o).frame = some (status.getLsbD 1) := by
  by_cases h : status.getLsbD 0 = true ∧ status.getLsbD 1 = true
  · obtain ⟨hl, hf⟩ := h
    obtain ⟨-, hlight, hframe, -⟩ := takeCount_keeps (quiet := quiet) (cyclic := cyclic) (t := t) (field count 0 16)
      { o with light := some true, frame := some true }
    rw [statusObs_block hl hf, hl, hf]
    exact ⟨hlight, hframe⟩
  · rw [statusObs_unlit]
    · exact ⟨rfl, rfl⟩
    · cases hl : status.getLsbD 0
      · exact .inl rfl
      · exact .inr (Bool.not_eq_true _ ▸ fun hf => h ⟨hl, hf⟩)

theorem takeCount_quiet (n : Nat) (o : Obs) : takeCount true cyclic t n o = o := rfl

theorem takeCount_resume {n : Nat} (h : o.resume = true) :
    takeCount false cyclic t n o = { o with resume := false } := by simp [takeCount, h]

theorem takeCount_attention {n : Nat} (h : o.resume = false) :
    takeCount false false t n o = { o with carry := min 65535 (n + o.carry) } := by
  simp [takeCount, h, Nat.add_comm]

/-- R25: the first count after QUIET ends the resumption. -/
theorem takeCount_resumed (n : Nat) (o : Obs) : (takeCount false cyclic t n o).resume = false := by
  cases hr : o.resume with
  | true => rw [takeCount_resume hr]
  | false => cases cyclic <;> simp [takeCount, addSample, hr]

/-- R31, R32: the sample of a cyclic read joins the window. -/
theorem takeCount_cyclic {n : Nat} (h : o.resume = false) :
    (takeCount false true t n o).resume = false ∧ (takeCount false true t n o).carry = 0
    ∧ (takeCount false true t n o).window = (o.window ++ [min 65535 (n + o.carry)]).drop
        ((o.window ++ [min 65535 (n + o.carry)]).length - 8)
    ∧ (takeCount false true t n o).degraded
      = if t.degrade ≤ (takeCount false true t n o).window.sum then true
        else if (takeCount false true t n o).window.sum ≤ t.clear then false else o.degraded := by
  simp [takeCount, h, addSample, windowSum_eq, Config.windowMax]

/-- R29 to R33: the block of a lit and framed port, by the mode, the resume flag and the kind of the read. -/
theorem statusObs_lit {o' : Obs} (ho : statusObs quiet cyclic t [status, count, prot, grade] o = o')
    (hl : status.getLsbD 0 = true) (hf : status.getLsbD 1 = true) :
    o'.tagOwed = (o.tagOwed || !o.cond.lit || status.getLsbD 2)
    ∧ o'.cond = (if o'.degraded then .degraded else .clean)
    ∧ o'.rxProt = protWordOf prot ∧ o'.rxGrade = some (gradeOf grade) ∧ o'.rxTag = o.rxTag
    ∧ (quiet = true → o'.window = o.window ∧ o'.degraded = o.degraded ∧ o'.carry = o.carry ∧ o'.resume = o.resume)
    ∧ (quiet = false → o'.resume = false
        ∧ (o.resume = true → o'.window = o.window ∧ o'.degraded = o.degraded ∧ o'.carry = o.carry)
        ∧ (o.resume = false → cyclic = false → o'.window = o.window ∧ o'.degraded = o.degraded
            ∧ o'.carry = min 65535 (field count 0 16 + o.carry))
        ∧ (o.resume = false → cyclic = true →
            o'.window = (o.window ++ [min 65535 (field count 0 16 + o.carry)]).drop
              ((o.window ++ [min 65535 (field count 0 16 + o.carry)]).length - 8)
            ∧ o'.carry = 0
            ∧ o'.degraded = if t.degrade ≤ o'.window.sum then true else if o'.window.sum ≤ t.clear then false
                else o.degraded)) := by
  obtain ⟨hcond, -, -, htag, hrx⟩ := takeCount_keeps (quiet := quiet) (cyclic := cyclic) (t := t) (field count 0 16)
    { o with light := some true, frame := some true }
  rw [statusObs_block hl hf] at ho
  subst ho
  refine ⟨?_, rfl, rfl, rfl, hrx, fun hq => ?_, fun hq => ⟨?_, fun hr => ?_, fun hr hc => ?_, fun hr hc => ?_⟩⟩
  · simp only [litObs, hcond, htag]
  · subst hq
    exact ⟨rfl, rfl, rfl, rfl⟩
  · subst hq
    exact takeCount_resumed _ _
  · subst hq
    rw [takeCount_resume (o := { o with light := some true, frame := some true }) hr]
    exact ⟨rfl, rfl, rfl⟩
  · subst hq hc
    rw [takeCount_attention (o := { o with light := some true, frame := some true }) hr]
    exact ⟨rfl, rfl, rfl⟩
  · subst hq hc
    obtain ⟨-, hcarry, hwindow, hdegraded⟩ :=
      takeCount_cyclic (t := t) (n := field count 0 16) (o := { o with light := some true, frame := some true }) hr
    exact ⟨hwindow, hcarry, hdegraded⟩

/-- R30: a tag block with a byte that is no character is the empty tag. -/
theorem tagOf_eq (ws : List Word) (chars : List Byte) (hc : ws.flatMap charsOf = chars) : tagOf ws
    = if ∀ c ∈ chars, 0x20 ≤ c.toNat ∧ c.toNat ≤ 0x7E then chars else List.replicate 16 0x20#8 := by
  subst hc
  have hall : (ws.flatMap charsOf).all isChar = true
      ↔ ∀ c ∈ ws.flatMap charsOf, 0x20 ≤ c.toNat ∧ c.toNat ≤ 0x7E := by
    simp only [List.all_eq_true, isChar, Bool.and_eq_true, decide_eq_true_iff]
  simp only [tagOf, hall]
  rfl

end StatusObs

/-! ### The reads from the bus to the observation -/

section Reads
variable {s y : Shelf} {p : PortNo} {cyclic : Bool}

theorem scannerEnd_status (hj : y.scan.job = some (if cyclic then .cyclic p else .attention p)) (e : TxnEnd) :
    scannerEnd e y = statusRead p cyclic e (setScan (fun c => { c with job := none }) y) := by
  cases cyclic <;> simp only [scannerEnd, hj, if_true, Bool.false_eq_true, if_false]

theorem scannerEnd_tag (hj : y.scan.job = some (.tag p cyclic)) (e : TxnEnd) :
    scannerEnd e y = tagRead p cyclic e (setScan (fun c => { c with job := none }) y) := by
  simp only [scannerEnd, hj]

/-- Two shelves that the scanner does not tell apart. -/
structure SameScanner (s y : Shelf) : Prop where
  scan : y.scan = s.scan
  pins : y.pins = s.pins
  slots : ∀ m, slotStateOf y m = slotStateOf s m

theorem SameScanner.portPresent (h : SameScanner s y) (p : PortNo) : portPresent y p = portPresent s p := by
  simp [Machine.portPresent, isPresent, h.slots]

theorem SameScanner.isQuiet (h : SameScanner s y) : isQuiet y = isQuiet s := by
  simp [Machine.isQuiet, h.scan, h.pins]

/-- R27, R29: the end of a status read of a port still looked at. -/
theorem scannerEnd_status_done (hy : SameScanner s y)
    (hj : s.scan.job = some (if cyclic then .cyclic p else .attention p)) (hp : portPresent s p = true)
    (hw : inWindow s p = true) {words : List Word} {o : Obs}
    (ho : statusObs (isQuiet s) cyclic s.scan.thresholds words (obsOf s p) = o) :
    (∀ q, q ≠ p → obsOf (scannerEnd (.done words) y) q = obsOf s q)
    ∧ obsOf (scannerEnd (.done words) y) p = o
    ∧ (o.tagOwed = true → (scannerEnd (.done words) y).scan.job = some (.tag p cyclic)
        ∧ (scannerEnd (.done words) y).bp.waitScanner = some (.block (slotOf p) (rxTagOffset p)))
    ∧ (o.tagOwed = false → (scannerEnd (.done words) y).scan.job = none)
    ∧ (scannerEnd (.done words) y).scan.cycle
      = if cyclic = true ∧ o.tagOwed = false then visitEnded s.scan.cycle else s.scan.cycle := by
  have hpres := (hy.portPresent p).trans hp
  have hobs : ∀ q, obsOf y q = obsOf s q := fun q => by rw [obsOf, hy.scan]; rfl
  have hwin : inWindow y p = true := by rw [inWindow, hy.scan]; exact hw
  have ho' : statusObs (isQuiet y) cyclic y.scan.thresholds words (obsOf y p) = o := by
    rw [hy.isQuiet, hobs, hy.scan, ho]
  obtain ⟨hother, hp', hrest⟩ := statusRead_done (x := setScan (fun c => { c with job := none }) y) hpres hwin rfl ho'
  rw [scannerEnd_status (hy.scan ▸ hj), ← hy.scan]
  exact ⟨fun q hq => (hother q hq).trans (hobs q), hp', hrest⟩

/-- R27: the cycle after the end of a read, by cases of the cycle before. -/
theorem visitEnded_if (c : Prop) [Decidable c] (y : Cycle) (z : Cycle)
    (hr : ∀ v b, y = .running v b → z = if c then .running (v + 1) false else .running v b)
    (hs : y = .stopped → z = .stopped) (hw : y = .waiting → z = .waiting) :
    (if c then visitEnded y else y) = z := by
  cases y with
  | running v b =>
    rw [hr v b rfl]
    rfl
  | waiting => rw [hw rfl]; exact ite_self _
  | stopped => rw [hs rfl]; exact ite_self _

end Reads

/-- Settles O37: the status read in both modes, the tag read, and a read that ends in fault. -/
theorem statusReadGivesTheObservation : Obligations.StatusReadGivesTheObservation := by
  refine ⟨fun s p cyclic status count prot grade hb hj hp hw => ?_, fun s p status retries hb hj hp hw => ?_,
    fun s p cyclic w0 w1 w2 w3 hb hj => ?_, fun x a n off r v => scannerEnd_fault a n off r v x⟩
  · intro o t samples window
    obtain ⟨y, hexec, hscan, hpins, hslots⟩ := exec_scanner_read hb (n := slotOf p) (off := statusOffset p + 3) rfl rfl
      grade rfl
    obtain ⟨hother, hobs, howed, hnone, hcycle⟩ := scannerEnd_status_done ⟨hscan, hpins, hslots⟩ hj hp hw
      (words := [status, count, prot] ++ [grade]) rfl
    rw [← hobs] at howed hnone hcycle
    have hlight := statusObs_lightFrame (quiet := isQuiet s.shelf) (cyclic := cyclic) (t := t) (status := status)
      (count := count) (prot := prot) (grade := grade) (o := o)
    refine ⟨_, hexec, hother, ?_, ?_, fun h => ?_, howed, hnone, ?_, fun hl hf => ?_⟩
    · rw [hobs]
      exact hlight.1
    · rw [hobs]
      exact hlight.2
    · rw [hobs]
      exact (statusObs_unlit h).trans (by rw [List.cons_append, statusObs_unlit h]; rfl)
    · exact hcycle.trans (visitEnded_if _ _ _ (fun v b h => by rw [h]) (fun h => by rw [h]) fun h => by rw [h])
    · obtain ⟨htag, hcond, hprot, hgrade, hrx, hquiet, hloud⟩ := statusObs_lit hobs.symm hl hf
      refine ⟨htag, hcond, hprot, hgrade, hrx, hquiet, fun hq => ?_⟩
      obtain ⟨hresume, hkept, hcarry, hsample⟩ := hloud hq
      refine ⟨hresume, hkept, hcarry, fun hr hc => ?_⟩
      obtain ⟨hwindow, hzero, hdegraded⟩ := hsample hr hc
      rw [hwindow] at hdegraded
      exact ⟨hwindow, hzero, hdegraded⟩
  · intro o
    obtain ⟨y, hexec, hscan, hpins, hslots⟩ := exec_scanner_read hb (n := slotOf p) (off := statusOffset p) rfl rfl
      status rfl
    obtain ⟨hother, hobs, howed, hnone, hcycle⟩ :=
        scannerEnd_status_done (cyclic := true) ⟨hscan, hpins, hslots⟩ hj hp hw
      (words := [status]) rfl
    rw [← hobs] at howed hnone hcycle
    refine ⟨_, hexec, hother, fun h => hobs.trans (statusObs_unlit h), fun hl hf => hobs.trans (statusObs_word hl hf),
      howed, hnone, ?_⟩
    · refine hcycle.trans (visitEnded_if _ _ _ (fun v b h => ?_) (fun h => by rw [h]) fun h => by rw [h])
      rw [h]
      simp only [true_and]
      rfl
  · intro chars
    obtain ⟨y, hexec, hscan, hpins, hslots⟩ := exec_scanner_read hb (n := slotOf p) (off := rxTagOffset p + 3) rfl rfl
      w3 rfl
    have hy : SameScanner s.shelf y := ⟨hscan, hpins, hslots⟩
    rw [scannerEnd_tag (hscan ▸ hj)] at hexec
    obtain ⟨hjob, hother, hobs⟩ := tagRead_done (x := setScan (fun c => { c with job := none }) y) (p := p) cyclic
      ([w0, w1, w2] ++ [w3]) rfl
    have hsame : ∀ q, obsOf y q = obsOf s.shelf q := fun q => by rw [obsOf, hscan]; rfl
    refine ⟨_, hexec, hjob, fun q hq => (hother q hq).trans (hsame q), hobs.trans ?_⟩
    have hp : portPresent (setScan (fun c => { c with job := none }) y) p = portPresent s.shelf p := hy.portPresent p
    have hc : condOf (setScan (fun c => { c with job := none }) y) p = condOf s.shelf p := congrArg Obs.cond (hsame p)
    have ho : obsOf (setScan (fun c => { c with job := none }) y) p = obsOf s.shelf p := hsame p
    rw [hp, hc, ho, tagOf_eq ([w0, w1, w2] ++ [w3]) chars rfl]

end Sys2Proof.Machine

/-! The scanner's period, its modes and its own work (R17, R24 to R28). -/

namespace Sys2Proof.Machine

/-! ### Pending setups and the cycle start (R24, R26) -/

section Pending
variable {x : Shelf} {u : ScanSetup}

theorem takePending_none (h : x.scan.pending = none) : takePending x = x := by simp [takePending, h]

theorem takePending_misfit (h : x.scan.pending = some u) (hf : setupFits x u = false) :
    takePending x = setScan (fun c => { c with pending := none, dropped := true }) x := by
  simp [takePending, h, hf]

/-- R24, R25: a setup that fits is taken, and may leave QUIET. -/
theorem takePending_fit (h : x.scan.pending = some u) (hf : setupFits x u = true) : ∃ o, takePending x
    = setScan (fun c => { c with setup := u, pending := none, obs := o }) x := by
  simp only [takePending, h, hf, if_true, modeChanged]
  split
  · exact ⟨_, rfl⟩
  · exact ⟨x.scan.obs, rfl⟩

/-- A pending setup changes the setup, the pending setup, the dropped flag and the observations alone. -/
theorem takePending_frame (x : Shelf) : ∃ u p d o, takePending x
    = { x with scan := { x.scan with setup := u, pending := p, dropped := d, obs := o } } := by
  cases h : x.scan.pending with
  | none => exact ⟨x.scan.setup, x.scan.pending, x.scan.dropped, x.scan.obs, takePending_none h⟩
  | some u =>
    cases hf : setupFits x u with
    | true =>
      obtain ⟨o, ho⟩ := takePending_fit h hf
      exact ⟨u, none, x.scan.dropped, o, ho⟩
    | false => exact ⟨x.scan.setup, none, true, x.scan.obs, takePending_misfit h hf⟩

/-- R26: the shelf at a cycle start, before the window's changes are told. -/
def cycleBegun (x : Shelf) : Shelf :=
  setScan (fun c => { c with cycle := .running 0 false, late := false, period := some 0 }) (takePending x)

theorem cycleStart_eq (x : Shelf) : cycleStart x = windowChanged (cycleBegun x) := rfl

theorem cycleBegun_frame (x : Shelf) : (cycleBegun x).scan.cycle = .running 0 false
    ∧ (cycleBegun x).scan.late = false ∧ (cycleBegun x).scan.period = some 0
    ∧ (cycleBegun x).scan.job = x.scan.job ∧ (cycleBegun x).scan.thresholds = x.scan.thresholds
    ∧ cycleBegun x = { x with scan := (cycleBegun x).scan } := by
  obtain ⟨u, p, d, o, h⟩ := takePending_frame x
  rw [cycleBegun, h]
  exact ⟨rfl, rfl, rfl, rfl, rfl, rfl⟩

theorem reportOverrun_frame (b : Bool) (x : Shelf) :
    SameButAlarms { x with scan := { x.scan with overrun := b } } (reportOverrun b x) := reportChange_frame ..

end Pending

/-! ### The period timer and the battery input -/

section Events
variable {x : Shelf}

theorem periodOver_waiting (hp : x.scan.period ≠ none) (hc : x.scan.cycle = .waiting) :
    periodOver x = windowChanged (cycleBegun x) := by
  rw [periodOver, if_neg (by simpa using hp), hc]
  rfl

theorem periodOver_running {v : Nat} {asked : Bool} (hp : x.scan.period ≠ none) (hc : x.scan.cycle = .running v asked) :
    periodOver x = reportOverrun true (setScan (fun c => { c with late := true, period := none }) x) := by
  rw [periodOver, if_neg (by simpa using hp), hc]

theorem exec_periodTimerExpiry (s : State) :
    exec .periodTimerExpiry s = .next (worked (periodOver s.shelf) s) := rfl

theorem exec_batteryRunningChange (b : Bool) (s : State) :
    exec (.batteryRunningChange b) s = .next (settled (batteryChanged b s.shelf) s) := rfl

/-- R25: the battery input changes the observations where it ends QUIET. -/
theorem batteryChanged_eq (b : Bool) (x : Shelf) : batteryChanged b x = { x with
    pins := { x.pins with battery := b }
    scan := { x.scan with obs := (if x.scan.setup.quiet = false ∧ x.pins.battery = true ∧ b = false then
      mapAll (fun o : Obs => { o with resume := true }) x.scan.obs else x.scan.obs) } } := by
  unfold batteryChanged modeChanged isQuiet
  cases hq : x.scan.setup.quiet <;> cases hb : x.pins.battery <;> cases b <;> rfl

end Events

/-! ### The scanner's own steps -/

section Steps
variable {y : Shelf}

theorem portsOf_eq (n : SlotNo) : portsOf n = (List.finRange 48).filter (fun p => decide (slotOf p = n)) := by
  revert n
  decide

/-- R17, R28: the slot at the head of the attention list, and its ports in the window. -/
theorem takeAttention_head {n : SlotNo} {rest : List SlotNo} (h : y.bp.attention = n :: rest) : takeAttention y
    = some { y with
        scan := { y.scan with
          serving := (List.finRange 48).filter (fun p => decide (slotOf p = n) && inWindow y p) }
        bp := { y.bp with attention := rest } } := by
  have hports : (portsOf n).filter (inWindow y)
      = (List.finRange 48).filter (fun p => decide (slotOf p = n) && inWindow y p) := by
    rw [portsOf_eq, List.filter_filter]
    exact List.filter_congr fun p _ => Bool.and_comm _ _
  rw [← hports]
  simp only [takeAttention, h]
  rfl

theorem takeAttention_empty (h : y.bp.attention = []) : takeAttention y = none := by simp [takeAttention, h]

theorem scanIdle_iff : scanIdle y = true ↔ y.scan.job ≠ none
    ∨ y.scan.serving = [] ∧ (y.scan.cycle = .stopped ∨ y.scan.cycle = .waiting ∧ y.bp.attention = []) := by
  rw [← Option.isSome_iff_ne_none]
  cases hc : y.scan.cycle <;> simp [scanIdle, hc]

/-- R28: a port of the slot served. -/
theorem scanStep_serving {p : PortNo} {rest : List PortNo} (h : y.scan.serving = p :: rest) : scanStep y
    = if portPresent y p && inWindow y p then
        askScanner (.attention p) (.block (slotOf p) (statusOffset p)) (setScan (fun c => { c with serving := rest }) y)
      else setScan (fun c => { c with serving := rest }) y := by
  simp only [scanStep, h]

theorem scanStep_waiting (h : y.scan.serving = []) (hc : y.scan.cycle = .waiting) :
    scanStep y = (takeAttention y).getD y := by simp only [scanStep, h, hc]

/-- R27: the step of a running cycle with no slot being served. -/
theorem scanStep_running {v : Nat} {b : Bool} (h : y.scan.serving = []) (hc : y.scan.cycle = .running v b) : scanStep y
    = if y.scan.setup.count ≤ v then cycleEnd y
      else if b then visit v y
      else setScan (fun c => { c with cycle := .running v true }) ((takeAttention y).getD y) := by
  simp only [scanStep, h, hc]

/-- R27: the visit of the next port in window order. -/
theorem scanStep_visit {v : Nat} {p : PortNo} (h : y.scan.serving = []) (hc : y.scan.cycle = .running v true)
    (hv : v < y.scan.setup.count) (hp : p.val = if y.scan.setup.up then (y.scan.setup.first.val + v) % 48
      else (y.scan.setup.first.val + 48 - v % 48) % 48) : scanStep y
    = if portPresent y p then
        askScanner (.cyclic p)
          (if isQuiet y then .read (slotOf p) (statusOffset p) else .block (slotOf p) (statusOffset p)) y
      else setScan (fun c => { c with cycle := .running (v + 1) false }) y := by
  have hport : windowPort y.scan.setup v = p := by
    apply Fin.ext
    rw [hp, windowPort]
    split <;> rfl
  rw [scanStep_running h hc, if_neg (Nat.not_le.2 hv), if_pos rfl, visit, hport]

end Steps

/-- Settles O38: the timer, the battery input, and each of the scanner's steps. -/
theorem periodAndBattery : Obligations.PeriodAndBattery := by
  refine ⟨fun s => ⟨fun hp hc => ?_, fun v asked hp hc => ?_, fun b => ?_⟩, fun y => ?_⟩
  · obtain ⟨hcycle, hlate, hperiod, hjob, hthr, hframe⟩ := cycleBegun_frame s.shelf
    refine ⟨cycleBegun s.shelf, ?_, hcycle, hlate, hperiod, hjob, hthr, hframe, fun hn => ?_, fun u hu =>
      ⟨?_, fun hf => ?_, fun hf => ?_⟩⟩
    · rw [exec_periodTimerExpiry, periodOver_waiting hp hc]
    · rw [cycleBegun, takePending_none hn]
      exact ⟨rfl, rfl, rfl⟩
    · cases hf : setupFits s.shelf u with
      | true =>
        obtain ⟨o, ho⟩ := takePending_fit hu hf
        rw [cycleBegun, ho]
        rfl
      | false =>
        rw [cycleBegun, takePending_misfit hu hf]
        rfl
    · obtain ⟨o, ho⟩ := takePending_fit hu hf
      rw [cycleBegun, ho]
      rfl
    · rw [cycleBegun, takePending_misfit hu hf]
      exact ⟨rfl, rfl⟩
  · refine ⟨reportOverrun true (setScan (fun c => { c with late := true, period := none }) s.shelf), ?_,
      reportOverrun_frame .., reportChange_present ..⟩
    rw [exec_periodTimerExpiry, periodOver_running hp hc]
  · refine ⟨batteryChanged b s.shelf, exec_batteryRunningChange b s, ?_, fun p => ?_⟩
    · rw [batteryChanged_eq]
    · rw [batteryChanged_eq]
      split
      · exact at'_mapAll ..
      · rfl
  · intro c scanned asks served
    refine ⟨fun k => rfl, scanIdle_iff, fun p rest hs => ⟨fun h => ?_, fun h => ?_⟩, fun hs hc n rest ha => ?_,
      fun hs v b hc => ⟨fun hv hb => ⟨fun ha => ?_, fun n rest ha => ?_⟩,
          fun hv hb p hp => ⟨fun hno => ?_, fun hyes hq => ?_,
        fun hyes hq => ?_⟩, fun hv hl => ?_, fun hv hl => ?_⟩⟩
    · exact (scanStep_serving hs).trans (if_pos (by simp [h]))
    · refine (scanStep_serving hs).trans (if_neg ?_)
      rcases h with h | h <;> simp [h]
    · rw [scanStep_waiting hs hc, takeAttention_head ha]
      rfl
    · subst hb
      refine (scanStep_running hs hc).trans ((if_neg (Nat.not_le.2 hv)).trans ?_)
      rw [takeAttention_empty ha]
      rfl
    · subst hb
      refine (scanStep_running hs hc).trans ((if_neg (Nat.not_le.2 hv)).trans ?_)
      rw [takeAttention_head ha]
      rfl
    · exact (scanStep_visit hs (hb ▸ hc) hv hp).trans (if_neg (by simp [hno]))
    · exact (scanStep_visit hs (hb ▸ hc) hv hp).trans ((if_pos hyes).trans (by rw [if_pos hq]; rfl))
    · exact (scanStep_visit hs (hb ▸ hc) hv hp).trans ((if_pos hyes).trans (by rw [if_neg (by simp [hq])]; rfl))
    · refine ((scanStep_running hs hc).trans (if_pos hv)) ▸ ?_
      rw [cycleEnd, if_neg (by simpa using hl)]
      exact ⟨reportOverrun_frame .., reportChange_absent .shelf .scanOverrun _⟩
    · obtain ⟨hcycle, hlate, hperiod, -, -, hframe⟩ := cycleBegun_frame y
      refine ⟨cycleBegun y, ?_, hcycle, hlate, hperiod, hframe⟩
      rw [scanStep_running hs hc, if_pos hv, cycleEnd, if_pos hl]
      rfl

end Sys2Proof.Machine

/-! Fibre records (R41, R47, R49, R57): the edits of the records, the reassign settings and the identity. -/

namespace Sys2Proof.Machine

/-! ### Edit Port Record (R57) -/

section EditRecord
variable {b : List Byte} {s : State} {p : PortNo} {r : PortRec}

theorem editConflicts_iff {x : Shelf} : editConflicts x p r = true ↔ (isMember x p = true ∧ r.cls ≠ .inService)
    ∨ inOrder x p = true ∨ (r.cls = .spare ∧ condemnOf x p ≠ none) := by
  simp [editConflicts, Option.isSome_iff_ne_none, or_assoc]

theorem handleEditPortRecord_of_bad (h : recordOfBody b = none) :
    handleEditPortRecord b s = (s, refuse .badValue) := by simp [handleEditPortRecord, h, turnAway]

theorem handleEditPortRecord_of_conflict (h : recordOfBody b = some (p, r)) (hc : editConflicts s.shelf p r = true) :
    handleEditPortRecord b s = (s, refuse .conflict) := by simp [handleEditPortRecord, h, hc, turnAway]

theorem handleEditPortRecord_of_equal (h : recordOfBody b = some (p, r)) (hc : ¬ editConflicts s.shelf p r = true)
    (he : r = recOf s.shelf p) : handleEditPortRecord b s = (s, done []) := by
  simp only [handleEditPortRecord, h, if_neg hc, if_pos he]

theorem handleEditPortRecord_of_change (h : recordOfBody b = some (p, r)) (hc : ¬ editConflicts s.shelf p r = true)
    (he : r ≠ recOf s.shelf p) : handleEditPortRecord b s
      = heldChange .records (.portRecord p r) [] (busShelf (editRecord p r)) s := by
  simp only [handleEditPortRecord, h, if_neg hc, if_neg he]

end EditRecord

/-- Settles O39: the body, the conflicts, an equal record, and the record replaced. -/
theorem portRecordIsEdited : Obligations.PortRecordIsEdited := by
  intro l tag body s hacc refused
  refine ⟨fun hbad => ?_, fun p r hbody => ?_⟩
  · exact exec_accepts_same (k := .editPortRecord) (a := refuse .badValue) hacc rfl (handleEditPortRecord_of_bad hbad)
  intro conflict
  have hconf : editConflicts (holding l .editPortRecord tag s).shelf p r = true ↔ conflict := by
    rw [holding_shelf]
    exact editConflicts_iff
  have hrec : recOf (holding l .editPortRecord tag s).shelf p = recOf s.shelf p := by rw [holding_shelf]
  refine ⟨fun hc => ?_, fun hc he => ?_, fun hc hne => ?_⟩
  · exact exec_accepts_same (k := .editPortRecord) (a := refuse .conflict) hacc rfl
      (handleEditPortRecord_of_conflict hbody (hconf.2 hc))
  · exact exec_accepts_same (k := .editPortRecord) (a := done []) hacc rfl
      (handleEditPortRecord_of_equal hbody (mt hconf.1 hc) (he.trans hrec.symm))
  · obtain ⟨hwide, hcards⟩ := editRecord_kept p r (editing (.portRecord p r) s.shelf)
    obtain ⟨⟨hrecs, hid, -, hdefs, -, -, -, -, -, hlist, -⟩, -⟩ := wide_settings hwide
    refine ⟨editRecord p r (editing (.portRecord p r) s.shelf), ?_, ?_, fun q hq => ?_, hid, hdefs, hcards, hlist⟩
    · exact heldChange_busShelf (k := .editPortRecord) hacc
        (handleEditPortRecord_of_change hbody (mt hconf.1 hc) (by rwa [hrec]))
    · exact (congrArg (at' · p) hrecs).trans (at'_put_same ..)
    · exact (congrArg (at' · q) hrecs).trans (at'_put_ne _ _ hq)

/-! ### Set Reassign (R49) -/

section Reassigning
variable {b : List Byte} {s : State}

/-- R49: the fields of the body in range. -/
def ReassignInRange (b : List Byte) : Prop := byteAt b 0 ≤ 1 ∧ byteAt b 1 ≤ 8 ∧ 1 ≤ byteAt b 2 ∧ byteAt b 2 ≤ 120

theorem reassignOf_bad (h : ¬ ReassignInRange b) : reassignOf b = none := by
  by_cases h0 : byteAt b 0 ≤ 1
  · have hno : ¬ (byteAt b 1 ≤ 8 ∧ 1 ≤ byteAt b 2 ∧ byteAt b 2 ≤ 120) := fun hin => h ⟨h0, hin⟩
    simp [reassignOf, flag_of h0, reassignOk, and_assoc, hno]
  · simp [reassignOf, flag_none h0]

theorem reassignOf_good (h : ReassignInRange b) :
    reassignOf b = some ⟨decide (byteAt b 0 = 1), byteAt b 1, byteAt b 2⟩ := by
  obtain ⟨h0, h8, h1, h120⟩ := h
  simp [reassignOf, flag_of h0, reassignOk, h8, h1, h120]

theorem handleSetReassign_of_bad (h : reassignOf b = none) : handleSetReassign b s = (s, refuse .badValue) := by
  simp [handleSetReassign, h, turnAway]

theorem handleSetReassign_of_equal (h : reassignOf b = some s.shelf.recs.reassign) :
    handleSetReassign b s = (s, done []) := by simp [handleSetReassign, h]

theorem handleSetReassign_of_change {r : Reassign} (h : reassignOf b = some r) (hr : r ≠ s.shelf.recs.reassign) :
    handleSetReassign b s = heldChange .records (.reassign r) [] (busShelf (changeReassign r)) s := by
  simp [handleSetReassign, h, hr]

end Reassigning

/-! ### Set Shelf Identity (R47) -/

section Identity
variable {b : List Byte} {s : State}

theorem all_isChar_iff : b.all isChar = true ↔ ∀ c ∈ b, 0x20 ≤ c.toNat ∧ c.toNat ≤ 0x7E := by
  simp only [List.all_eq_true, isChar, Bool.and_eq_true, decide_eq_true_iff]

theorem handleSetShelfIdentity_of_bad (h : ¬ b.all isChar = true) :
    handleSetShelfIdentity b s = (s, refuse .badValue) := by simp [handleSetShelfIdentity, h, turnAway]

theorem handleSetShelfIdentity_of_equal (h : b.all isChar = true) (he : b = s.shelf.recs.identity) :
    handleSetShelfIdentity b s = (s, done []) := by simp [handleSetShelfIdentity, h, ← he]

theorem handleSetShelfIdentity_of_change (h : b.all isChar = true) (he : b ≠ s.shelf.recs.identity) :
    handleSetShelfIdentity b s = heldChange .records (.identity b) [] (busShelf (changeIdentity b)) s := by
  simp [handleSetShelfIdentity, h, he]

end Identity

/-- Settles O41: both requests by their bodies, equal settings, and the change. -/
theorem reassignAndIdentityChange : Obligations.ReassignAndIdentityChange := by
  intro l tag body s
  refine ⟨fun hacc => ?_, fun hacc => ?_⟩
  · intro refused inRange r
    have hold : (holding l .setReassign tag s).shelf.recs.reassign = s.shelf.recs.reassign := by rw [holding_shelf]
    refine ⟨fun hbad => ?_, fun hin heq => ?_, fun hin hne => ?_⟩
    · exact exec_accepts_same (k := .setReassign) (a := refuse .badValue) hacc rfl
        (handleSetReassign_of_bad (reassignOf_bad hbad))
    · exact exec_accepts_same (k := .setReassign) (a := done []) hacc rfl
        (handleSetReassign_of_equal ((reassignOf_good hin).trans (congrArg some (heq.trans hold.symm))))
    · obtain ⟨hwide, hcards⟩ := changeReassign_kept r (editing (.reassign r) s.shelf)
      obtain ⟨⟨hrecs, -, hreassign, hdefs, -, -, -, -, -, hlist, -⟩, -⟩ := wide_settings hwide
      refine ⟨changeReassign r (editing (.reassign r) s.shelf), ?_, hreassign, hrecs, hdefs, hcards, hlist⟩
      exact heldChange_busShelf (k := .setReassign) hacc
        (handleSetReassign_of_change (reassignOf_good hin) (by rwa [hold]))
  · intro refused inRange
    have hold : (holding l .setShelfIdentity tag s).shelf.recs.identity = s.shelf.recs.identity := by rw [holding_shelf]
    refine ⟨fun hbad => ?_, fun hin heq => ?_, fun hin hne => ?_⟩
    · exact exec_accepts_same (k := .setShelfIdentity) (a := refuse .badValue) hacc rfl
        (handleSetShelfIdentity_of_bad (mt all_isChar_iff.1 hbad))
    · exact exec_accepts_same (k := .setShelfIdentity) (a := done []) hacc rfl
        (handleSetShelfIdentity_of_equal (all_isChar_iff.2 hin) (heq.trans hold.symm))
    · obtain ⟨hframe, -, hjoined⟩ := tagsOwed_frame
        (allPorts.filter (fun p => decide (classOf (editing (.identity body) s.shelf) p = .inService)))
        { editing (.identity body) s.shelf with recs := { s.shelf.recs with identity := body } }
      refine ⟨changeIdentity body (editing (.identity body) s.shelf), ?_, hframe, fun p hc hp => ?_⟩
      · exact heldChange_busShelf (k := .setShelfIdentity) hacc
          (handleSetShelfIdentity_of_change (all_isChar_iff.2 hin) (by rwa [hold]))
      · refine hjoined p ?_ hp
        simp only [allPorts, List.mem_filter, List.mem_finRange, true_and, decide_eq_true_iff]
        exact hc

end Sys2Proof.Machine

/-! Move orders (R50 to R54, R63, R65, R67, R68, R70 to R72): they are opened, leave and complete; candidates and
condemn timers. -/

namespace Sys2Proof.Machine

/-! ### Open Move Order (R62, R63) -/

section OpenMove
variable {b : List Byte} {s : State} {m : MoveFields}

theorem portOfByte_lt {i : Nat} (h : byteAt b i < 48) : portOfByte b i = some ⟨byteAt b i, h⟩ := finOf_lt h
theorem portOfByte_ge {i : Nat} (h : ¬ byteAt b i < 48) : portOfByte b i = none := finOf_ge (Nat.not_lt.1 h)

theorem limitOk_iff {n : Nat} : limitOk n = true ↔ 60 ≤ n ∧ n ≤ 3600 := by simp [limitOk]

/-- R63, check 1: the fields of the body in range. -/
def MoveInRange (b : List Byte) : Prop := byteAt b 0 < 48 ∧ byteAt b 1 < 48 ∧ byteAt b 2 ≤ 1
  ∧ 60 ≤ nat2At b 3 ∧ nat2At b 3 ≤ 3600 ∧ 60 ≤ nat2At b 5 ∧ nat2At b 5 ≤ 3600

theorem moveOfBody_bad (h : ¬ MoveInRange b) : moveOfBody b = none := by
  by_cases h0 : byteAt b 0 < 48
  · by_cases h1 : byteAt b 1 < 48
    · by_cases h2 : byteAt b 2 ≤ 1
      · have hlim : ¬ (limitOk (nat2At b 3) && limitOk (nat2At b 5)) = true := by
          rw [Bool.and_eq_true, limitOk_iff, limitOk_iff]
          exact fun ⟨⟨h3, h4⟩, h5, h6⟩ => h ⟨h0, h1, h2, h3, h4, h5, h6⟩
        simp only [moveOfBody, portOfByte_lt h0, portOfByte_lt h1, flag_of h2, if_neg hlim]
      · simp [moveOfBody, flag_none h2]
    · simp [moveOfBody, portOfByte_ge h1]
  · simp [moveOfBody, portOfByte_ge h0]

theorem moveOfBody_good (h : MoveInRange b) (h0 : byteAt b 0 < 48) (h1 : byteAt b 1 < 48) : moveOfBody b
    = some ⟨⟨byteAt b 0, h0⟩, ⟨byteAt b 1, h1⟩, decide (byteAt b 2 = 1), nat2At b 3, nat2At b 5⟩ := by
  obtain ⟨-, -, h2, h3, h4, h5, h6⟩ := h
  simp [moveOfBody, portOfByte_lt h0, portOfByte_lt h1, flag_of h2, limitOk_iff.2 ⟨h3, h4⟩, limitOk_iff.2 ⟨h5, h6⟩]

/-- R63, checks 3 to 5: what an order conflicts with. -/
def MoveConflicts (x : Shelf) (m : MoveFields) : Prop :=
  ¬ (classOf x m.dst = .spare ∧ inOrder x m.dst = false)
    ∨ (isMember x m.src = false ∧ m.unprotected = false) ∨ inOrder x m.src = true

theorem moveRefused_absent {x : Shelf} (h : classOf x m.src ≠ .inService) : moveRefused x m = some .absent := if_pos h

theorem moveRefused_conflict {x : Shelf} (h : classOf x m.src = .inService) (hc : MoveConflicts x m) :
    moveRefused x m = some .conflict := by
  simp only [moveRefused, h, ne_eq, not_true_eq_false, if_false]
  rcases hc with hd | ⟨hm, hu⟩ | hs
  · have hpool : inPool x m.dst = false := by simpa [inPool] using hd
    simp [hpool]
  · simp [hm, hu]
  · simp [hs]

/-- R63: past the conflicts an order is refused for want of a place alone. -/
theorem moveRefused_of_free {x : Shelf} (h : classOf x m.src = .inService) (hc : ¬ MoveConflicts x m) :
    moveRefused x m = if Config.orderMax ≤ x.ords.list.length then some .full else none := by
  obtain ⟨hdest, hprotected, hsource⟩ := not_or.1 hc |>.imp_right not_or.1
  obtain ⟨hspare, hdst⟩ := not_not.1 hdest
  have hsrc : inOrder x m.src = false := by simpa using hsource
  have hpool : inPool x m.dst = true := by simp [inPool, hspare, hdst]
  have hprot : (!isMember x m.src && !m.unprotected) = false := by
    cases hb : isMember x m.src
    · simpa [hb] using hprotected
    · rfl
  simp [moveRefused, h, hpool, hprot, hsrc, hdst]

theorem handleOpenMoveOrder_of_bad (h : moveOfBody b = none) : handleOpenMoveOrder b s = (s, refuse .badValue) := by
  simp [handleOpenMoveOrder, h, turnAway]

theorem handleOpenMoveOrder_of_refused {o : Outcome} (h : moveOfBody b = some m)
    (hr : moveRefused s.shelf m = some o) : handleOpenMoveOrder b s = (s, refuse o) := by
  simp [handleOpenMoveOrder, h, hr, turnAway]

theorem handleOpenMoveOrder_of_open (h : moveOfBody b = some m) (hr : moveRefused s.shelf m = none) :
    handleOpenMoveOrder b s
      = ({ s with shelf := pump (openOrder .host m.src m.dst m.unprotected m.dark m.light s.shelf).1 },
          done [byte1 (openOrder .host m.src m.dst m.unprotected m.dark m.light s.shelf).2]) := by
  simp only [handleOpenMoveOrder, h, hr]

end OpenMove

theorem SameButPool.sameCards {s x : Shelf} (h : SameButPool s x) : SameCards s x := by
  refine ⟨?_, ?_, ?_, ?_⟩ <;> rw [h]

/-- R62: a number found for a list of fewer than 9 orders is the first that no order holds. -/
theorem freeNumber_first (s : Shelf) (n : Nat) (h : s.ords.list.length < 9) :
    ∃ k, freeNumber s 9 n = nextOrderNum^[k] n ∧ orderOf s (freeNumber s 9 n) = none
      ∧ ∀ i < k, orderOf s (nextOrderNum^[i] n) ≠ none := by
  obtain ⟨k, -, hk, hheld, -⟩ := freeNumber_search s 9 n
  exact ⟨k, hk, freeNumber_free s n h, hheld⟩

theorem at'_put_false {n : Nat} (v : Vector Bool n) (i j : Fin n) : at' (put (put v i false) j false) i = false := by
  by_cases h : i = j
  · rw [h, at'_put_same]
  · rw [at'_put_ne _ _ h, at'_put_same]

/-- Settles O42: the checks in their order, and the order at the tail under the first free number. -/
theorem moveOrderIsOpened : Obligations.MoveOrderIsOpened := by
  intro l tag body s hacc refused dark light inRange
  have refusal {o : Outcome} (hh : handleOpenMoveOrder body (holding l .openMoveOrder tag s)
      = (holding l .openMoveOrder tag s, refuse o)) : refused o :=
    exec_accepts_same (k := .openMoveOrder) (a := refuse o) hacc rfl hh
  have hshelf : (holding l .openMoveOrder tag s).shelf = s.shelf := holding_shelf ..
  refine ⟨fun hbad => refusal (handleOpenMoveOrder_of_bad (moveOfBody_bad hbad)), fun hin h1 h2 => ?_⟩
  intro src dst unprotected conflict
  have hbody : moveOfBody body = some ⟨src, dst, unprotected, dark, light⟩ := moveOfBody_good hin h1 h2
  have hfree (hs : classOf s.shelf src = .inService) (hc : ¬ conflict) :=
    moveRefused_of_free (m := ⟨src, dst, unprotected, dark, light⟩) hs hc
  refine ⟨fun ha => ?_, fun hs hc => ?_, fun hs hc hfull => ?_, fun hs hc hroom => ?_⟩
  · exact refusal (handleOpenMoveOrder_of_refused hbody (by rw [hshelf]; exact moveRefused_absent ha))
  · exact refusal (handleOpenMoveOrder_of_refused hbody (by rw [hshelf]; exact moveRefused_conflict hs hc))
  · refine refusal (handleOpenMoveOrder_of_refused hbody ?_)
    rw [hshelf]
    exact (hfree hs hc).trans (if_pos hfull)
  · have hopen := handleOpenMoveOrder_of_open (s := holding l .openMoveOrder tag s) hbody
      (by rw [hshelf]; exact (hfree hs hc).trans (if_neg (Nat.not_le.2 hroom)))
    obtain ⟨x, hx, hlist, hexpired, hpool, -, hnext⟩ := openOrder_spec .host src dst unprotected dark light s.shelf
    rw [hshelf, hx] at hopen
    refine ⟨x, _, exec_accepts_shelf (k := .openMoveOrder) (a := done [byte1 _]) hacc rfl hopen, hlist, ?_, ?_, ?_, ?_,
        ?_⟩
    · obtain ⟨k, hk, hfree, hheld⟩ := freeNumber_first s.shelf s.shelf.ords.next (by omega)
      exact ⟨k, hk, hfree, hheld, hnext⟩
    · rw [hexpired]
      exact at'_put_false _ src dst
    · rw [hexpired]
      exact at'_put_same ..
    · rw [hpool]
    · have hcards := SameButPool.sameCards hpool
      exact hcards

/-! ### Orders that leave (R65, R67, R68, R71, R74) -/

section Leaving
variable {b : List Byte} {s : State} {o : Order}

theorem handleCancelMoveOrder_of_absent (h : orderOf s.shelf (byteAt b 0) = none) :
    handleCancelMoveOrder b s = (s, refuse .absent) := by simp [handleCancelMoveOrder, h, turnAway]

theorem handleCancelMoveOrder_of_completing (h : orderOf s.shelf (byteAt b 0) = some o) (hs : o.stage = .completing) :
    handleCancelMoveOrder b s = (s, refuse .conflict) := by simp [handleCancelMoveOrder, h, hs, turnAway]

theorem handleCancelMoveOrder_of_leaves (h : orderOf s.shelf (byteAt b 0) = some o) (hs : o.stage ≠ .completing) :
    handleCancelMoveOrder b s = (busShelf (leaveOrder (byteAt b 0) .cancelled) s, done []) := by
  simp only [handleCancelMoveOrder, h, if_neg hs, order_num h]

theorem darkOver_of_awaitDark {x : Shelf} {n : Nat} (h : orderOf x n = some o) (hs : o.stage = .awaitDark) :
    darkOver n x = leaveOrder n .expired x := by simp only [darkOver, h, if_pos hs, expireOrder]

theorem lightOver_of_awaitLight {x : Shelf} {n : Nat} (h : orderOf x n = some o) (hs : o.stage = .awaitLight) :
    lightOver n x = leaveOrder n .expired x := by simp only [lightOver, h, if_pos hs, expireOrder]

theorem leaveOrder_leaves_self {x : Shelf} {n : Nat} (h : orderOf x n = some o) (e : OrderEvent) :
    OrderLeaves e o x (leaveOrder n e x) :=
  leaveOrder_leaves h rfl rfl (wide_rfl x) ⟨rfl, rfl, rfl, rfl⟩

end Leaving

/-- Settles O43: a cancellation by the order's presence and stage, and the two limits, each of which is an order's
leaving. -/
theorem orderLeavesWithoutChange : Obligations.OrderLeavesWithoutChange := by
  intro s
  refine ⟨fun l tag body hacc => ?_, fun n o ho hs => ?_, fun n o ho hs => ?_⟩
  · intro refused
    have horder : orderOf (holding l .cancelMoveOrder tag s).shelf (byteAt body 0)
        = orderOf s.shelf (byteAt body 0) := by
      rw [holding_shelf]
    refine ⟨fun ha => ?_, fun o ho hs => ?_, fun o ho hs => ⟨_, leaveOrder_leaves_self ho .cancelled, ?_⟩⟩
    · exact exec_accepts_same (k := .cancelMoveOrder) (a := refuse .absent) hacc rfl
        (handleCancelMoveOrder_of_absent (horder.trans ha))
    · exact exec_accepts_same (k := .cancelMoveOrder) (a := refuse .conflict) hacc rfl
        (handleCancelMoveOrder_of_completing (horder.trans ho) hs)
    · exact exec_accepts_shelf (k := .cancelMoveOrder) (a := done []) hacc rfl
        ((handleCancelMoveOrder_of_leaves (horder.trans ho) hs).trans (by cases l <;> rfl))
  · refine ⟨_, leaveOrder_leaves_self ho .expired, ?_⟩
    exact congrArg (fun y => Host.Outcome.next (worked y s)) (darkOver_of_awaitDark ho hs)
  · refine ⟨_, leaveOrder_leaves_self ho .expired, ?_⟩
    exact congrArg (fun y => Host.Outcome.next (worked y s)) (lightOver_of_awaitLight ho hs)

/-! ### Completion (R58, R70, R72, R99) -/

theorem verifyOver_of_matched {x : Shelf} {n : Nat} {o : Order} (h : orderOf x n = some o) (hs : o.stage = .verifying)
    (hm : destMatched x o = true) : verifyOver n x = completeOrder n x := by
  simp [verifyOver, h, hs, hm]

/-- R99: the definition of the move's group with the destination in the source's place. -/
theorem movedDefs_group {o : Order} {g : GroupNo} {c : Nat} {d : GroupDef} {v : Vector (Option GroupDef) 8}
    (hc : o.circuit = some (g, c)) (hd : at' v g = some d) :
    at' (movedDefs o v) g = some (d.replace o.src o.dst) := by
  simp only [movedDefs, hc, hd, at'_put_same]

/-- Settles O44: the records and definitions of a completed order are the ones of `completeOrder_records`. -/
theorem verifiedMoveChangesRecords : Obligations.VerifiedMoveChangesRecords := by
  intro s n o ho hs hm hne
  have hrecs := completeOrder_records (v := s.shelf.recs.recs) (d := s.shelf.eng.defs) (i := s.shelf.recs.identity)
    (r := s.shelf.recs.reassign) ho ⟨rfl, rfl, rfl, rfl⟩
  obtain ⟨hrec, hdefs, hid, hreassign⟩ := hrecs
  refine ⟨completeOrder n s.shelf, ?_, ?_, ?_, fun p hp hq => ?_, fun g c d hc hd => ?_, hid, hreassign, ?_⟩
  · exact congrArg (fun y => Host.Outcome.next (worked y s)) (verifyOver_of_matched ho hs hm)
  · refine (congrArg (at' · o.dst) hrec).trans ?_
    exact (at'_put_ne _ _ (Ne.symm hne)).trans (at'_put_same ..)
  · refine (congrArg (at' · o.src) hrec).trans ((at'_put_same ..).trans ?_)
    simp only [vacatedRecord, Option.isSome_iff_ne_none]
  · refine (congrArg (at' · p) hrec).trans ?_
    exact (at'_put_ne _ _ hp).trans (at'_put_ne _ _ hq)
  · exact (congrArg (at' · g) hdefs).trans (movedDefs_group hc hd)
  · exact stay_completeOrder (cards s.shelf) ⟨rfl, rfl, rfl, rfl⟩

/-! ### Candidates and condemn timers (R50 to R52) -/

theorem condemnTimerOver_eq {p : PortNo} {x : Shelf} (hr : (at' x.recs.timers p).running = true)
    (hd : (at' x.recs.timers p).due = false) :
    condemnTimerOver p x = trigger p (setTimer p ⟨true, 60000 * x.recs.reassign.minutes, true⟩ x) := by
  simp [condemnTimerOver, hr, hd]

theorem trigger_off {p : PortNo} {x : Shelf} (h : x.recs.reassign.on = false ∨ x.rdy.phase ≠ .armed) :
    trigger p x = x := by
  rcases h with h | h <;> simp [trigger, isArmed, h]

theorem trigger_on {p : PortNo} {x : Shelf} (h : x.recs.reassign.on = true) (ha : x.rdy.phase = .armed) :
    trigger p x = autoCondemn p x := by simp [trigger, isArmed, h, ha]

/-- Settles O45: the entry leaves by the event's own meaning, and the timer that runs out is a trigger. -/
theorem candidateAndCondemnTimers : Obligations.CandidateAndCondemnTimers := by
  intro s p
  refine ⟨rfl, fun hr hd => ?_⟩
  intro x
  have hover : condemnTimerOver p s.shelf = trigger p x := condemnTimerOver_eq hr hd
  refine ⟨fun hoff => ?_, fun hon ha => ?_⟩
  · exact congrArg (fun y => Host.Outcome.next (worked y s)) (hover.trans (trigger_off (x := x) hoff))
  · exact congrArg (fun y => Host.Outcome.next (worked y s)) (hover.trans (trigger_on (x := x) hon ha))

end Sys2Proof.Machine

/-! Condemn Port (R50, R53, R54, R56): the request, the flag it sets, and the order it opens or the wait. -/

namespace Sys2Proof.Machine

/-! ### The request -/

section CondemnPort
variable {b : List Byte} {s : State} {p : PortNo} {c : Condemn}

/-- R56: the fields of the body in range. -/
def CondemnInRange (b : List Byte) : Prop := byteAt b 0 < 48 ∧ byteAt b 1 ≤ 1
  ∧ 60 ≤ nat2At b 2 ∧ nat2At b 2 ≤ 3600 ∧ 60 ≤ nat2At b 4 ∧ nat2At b 4 ≤ 3600

theorem condemnOfBody_bad (h : ¬ CondemnInRange b) : condemnOfBody b = none := by
  by_cases h0 : byteAt b 0 < 48
  · by_cases h1 : byteAt b 1 ≤ 1
    · have hlim : ¬ (limitOk (nat2At b 2) && limitOk (nat2At b 4)) = true := by
        rw [Bool.and_eq_true, limitOk_iff, limitOk_iff]
        exact fun ⟨⟨h2, h3⟩, h4, h5⟩ => h ⟨h0, h1, h2, h3, h4, h5⟩
      simp only [condemnOfBody, portOfByte_lt h0, flag_of h1, if_neg hlim]
    · simp [condemnOfBody, flag_none h1]
  · simp [condemnOfBody, portOfByte_ge h0]

theorem condemnOfBody_good (h : CondemnInRange b) (h0 : byteAt b 0 < 48) : condemnOfBody b
    = some (⟨byteAt b 0, h0⟩, ⟨.manual, decide (byteAt b 1 = 1), nat2At b 2, nat2At b 4⟩) := by
  obtain ⟨-, h1, h2, h3, h4, h5⟩ := h
  simp [condemnOfBody, portOfByte_lt h0, flag_of h1, limitOk_iff.2 ⟨h2, h3⟩, limitOk_iff.2 ⟨h4, h5⟩]

/-- R56: what a condemnation conflicts with. -/
def CondemnConflicts (x : Shelf) (p : PortNo) (unprotected : Bool) : Prop :=
  inOrder x p = true ∨ (isMember x p = false ∧ unprotected = false)

theorem condemnConflicts_iff {x : Shelf} {u : Bool} :
    (inOrder x p || (!isMember x p && !u)) = true ↔ CondemnConflicts x p u := by
  simp [CondemnConflicts]

theorem handleCondemnPort_of_bad (h : condemnOfBody b = none) : handleCondemnPort b s = (s, refuse .badValue) := by
  simp [handleCondemnPort, h, turnAway]

theorem handleCondemnPort_of_absent (h : condemnOfBody b = some (p, c)) (ha : classOf s.shelf p ≠ .inService) :
    handleCondemnPort b s = (s, refuse .absent) := by simp [handleCondemnPort, h, ha, turnAway]

theorem handleCondemnPort_of_conflict (h : condemnOfBody b = some (p, c)) (hs : classOf s.shelf p = .inService)
    (hc : CondemnConflicts s.shelf p c.unprotected) : handleCondemnPort b s = (s, refuse .conflict) := by
  have hs' : ¬ classOf s.shelf p ≠ .inService := not_not.2 hs
  simp only [handleCondemnPort, h, if_neg hs', if_pos (condemnConflicts_iff.2 hc), turnAway]

theorem handleCondemnPort_of_taken (h : condemnOfBody b = some (p, c)) (hs : classOf s.shelf p = .inService)
    (hc : ¬ CondemnConflicts s.shelf p c.unprotected) : handleCondemnPort b s
      = ({ s with shelf := pump (manualCondemn p c s.shelf).1 }, done [optByte (manualCondemn p c s.shelf).2]) := by
  have hs' : ¬ classOf s.shelf p ≠ .inService := not_not.2 hs
  simp only [handleCondemnPort, h, if_neg hs', if_neg (mt condemnConflicts_iff.1 hc)]

end CondemnPort

/-! ### The flag -/

/-- R50, R56: the port with its condemn-pending flag as Condemn Port sets it, before its order is tried. -/
def condemnMarked (p : PortNo) (c : Condemn) (s : Shelf) : Shelf :=
  syncTimer p (setCondemn p (some c) (if (condemnOf s p).isNone then leaveCandidates p s else s))

theorem manualCondemn_eq (p : PortNo) (c : Condemn) (s : Shelf) : manualCondemn p c s
    = (reportNoSpare p (tryCondemn p (condemnMarked p c s)).1, (tryCondemn p (condemnMarked p c s)).2) := rfl

theorem syncTimer_timers (p : PortNo) (s : Shelf) :
    syncTimer p s = { s with recs := { s.recs with timers := (syncTimer p s).recs.timers } } := by
  unfold syncTimer
  dsimp only
  split <;> split <;> rfl

/-- Marking changes the flag, the condemn timers and the candidates alone; the port's own candidate entry leaves where
it was not condemn-pending. -/
theorem condemnMarked_eq (p : PortNo) (c : Condemn) (s : Shelf) : ∃ t l,
    condemnMarked p c s = { s with recs := { s.recs with
      condemn := put s.recs.condemn p (some c), timers := t, candidates := l } }
    ∧ (condemnOf s p = none → ∀ k ∈ l, k.port ≠ p) ∧ (condemnOf s p ≠ none → l = s.recs.candidates) := by
  cases h : condemnOf s p with
  | none =>
    have hleft : condemnMarked p c s = syncTimer p (setCondemn p (some c) (leaveCandidates p s)) := by
      simp [condemnMarked, h]
    exact ⟨_, _, hleft.trans (syncTimer_timers p _), fun _ k hk => of_decide_eq_true (List.mem_filter.1 hk).2,
      fun hne => absurd rfl hne⟩
  | some k =>
    have hstays : condemnMarked p c s = syncTimer p (setCondemn p (some c) s) := by simp [condemnMarked, h]
    exact ⟨_, _, hstays.trans (syncTimer_timers p _), fun hn => absurd hn (Option.some_ne_none k), fun _ => rfl⟩

theorem condemnMarked_condemn (p : PortNo) (c : Condemn) (s : Shelf) : condemnOf (condemnMarked p c s) p = some c := by
  obtain ⟨t, l, hx, -⟩ := condemnMarked_eq p c s
  rw [hx]
  exact at'_put_same ..

theorem condemnMarked_wide (p : PortNo) (c : Condemn) (s : Shelf) : Wide s (condemnMarked p c s) := by
  obtain ⟨t, l, hx, -⟩ := condemnMarked_eq p c s
  rw [hx]
  exact ⟨rfl, rfl, rfl, rfl, rfl, rfl, rfl⟩

/-! ### The order, or the wait -/

theorem inOrder_of_isSource {x : Shelf} {p : PortNo} (h : isSource x p = true) : inOrder x p = true := by
  obtain ⟨o, ho, hsrc⟩ := List.any_eq_true.1 h
  rw [inOrder, orderNaming, List.find?_isSome]
  exact ⟨o, ho, by simp [of_decide_eq_true hsrc]⟩

/-- R53: a destination is chosen from the pool, if there is one. -/
theorem chooseSpare_pool {x : Shelf} {p dst : PortNo} (h : chooseSpare x p = some dst) : poolPorts x ≠ [] := by
  intro hnil
  simp [chooseSpare, hnil] at h

/-- R53, R54: a manual condemnation past its conflicts opens its order where there is room and a pool. -/
theorem condemnAllowed_manual {x : Shelf} {p : PortNo} {c : Condemn} (hk : c.kind = .manual)
    (hs : classOf x p = .inService) (hc : ¬ CondemnConflicts x p c.unprotected) :
    condemnAllowed x p c = true ↔ x.ords.list.length < Config.orderMax ∧ poolPorts x ≠ [] := by
  obtain ⟨hin, hprotected⟩ := not_or.1 hc
  have hprot : (c.unprotected || isMember x p) = true := by
    cases hb : isMember x p
    · simpa [hb] using hprotected
    · simp
  have hfree : inOrder x p = false := by simpa using hin
  simp [condemnAllowed, hs, hk, hprot, hfree, poolCount, List.length_pos_iff_ne_nil]

theorem tryCondemn_of_wait {x : Shelf} {p : PortNo} {c : Condemn} (h : condemnOf x p = some c)
    (ha : ¬ condemnAllowed x p c = true) : tryCondemn p x = (x, none) := by
  simp only [tryCondemn, h, if_neg ha]

theorem tryCondemn_of_open {x : Shelf} {p dst : PortNo} {c : Condemn} (h : condemnOf x p = some c)
    (ha : condemnAllowed x p c = true) (hd : chooseSpare x p = some dst) : tryCondemn p x
      = ((openOrder .reassign p dst c.unprotected c.dark c.light x).1,
          some (openOrder .reassign p dst c.unprotected c.dark c.light x).2) := by
  simp only [tryCondemn, h, if_pos ha, hd]

/-- R54: Condemn Port leaves its port waiting. -/
theorem manualCondemn_waits {s : Shelf} {p : PortNo} {c : Condemn}
    (ha : ¬ condemnAllowed (condemnMarked p c s) p c = true) : manualCondemn p c s
      = (reportNoSpare p (condemnMarked p c s), none) := by
  rw [manualCondemn_eq, tryCondemn_of_wait (condemnMarked_condemn p c s) ha]

/-- R54: a marked port that is in no order waits, and its waiting is told. -/
theorem condemnMarked_waits_told {s : Shelf} {p : PortNo} (c : Condemn) (h : ¬ inOrder s p = true) :
    (Obj.port p, Cond.condemnedNoSpare) ∈ (reportNoSpare p (condemnMarked p c s)).alm.told := by
  have hsource : isSource (condemnMarked p c s) p = false := by
    obtain ⟨t, l, hx, -⟩ := condemnMarked_eq p c s
    rw [hx]
    exact Bool.eq_false_iff.2 (mt inOrder_of_isSource h)
  have hwaits : isWaiting (condemnMarked p c s) p = true := by simp [isWaiting, condemnMarked_condemn, hsource]
  rw [reportNoSpare, hwaits]
  exact reportChange_present ..

theorem reportNoSpare_recs (p : PortNo) (s : Shelf) : (reportNoSpare p s).recs = s.recs :=
  (reportChange_frame _ _ _ _).2.2.1

theorem reportNoSpare_ords (p : PortNo) (s : Shelf) : (reportNoSpare p s).ords = s.ords :=
  (reportChange_frame _ _ _ _).2.2.2.1

/-- R53: Condemn Port opens the order of its port. -/
theorem manualCondemn_opens {s : Shelf} {p dst : PortNo} {c : Condemn}
    (ha : condemnAllowed (condemnMarked p c s) p c = true) (hd : chooseSpare (condemnMarked p c s) p = some dst) :
    let n := freeNumber (condemnMarked p c s) 9 s.ords.next
    ∃ x, manualCondemn p c s = (reportNoSpare p (startCheck x), some n)
      ∧ x.ords.list = s.ords.list ++ [⟨n, .reassign, p, dst, memberOf s p, c.unprotected, c.dark, c.light, .queued,
          shelfTime s, none, false, 0, 0⟩]
      ∧ condemnOf x p = some c ∧ x.recs.recs = s.recs.recs
      ∧ (condemnOf s p = none → ∀ k ∈ x.recs.candidates, k.port ≠ p) ∧ SameCards s x := by
  obtain ⟨x, hx, hlist, -, hpool, hcand, -⟩ :=
    openOrder_spec .reassign p dst c.unprotected c.dark c.light (condemnMarked p c s)
  have htry := tryCondemn_of_open (condemnMarked_condemn p c s) ha hd
  have hcondemn := condemnMarked_condemn p c s
  obtain ⟨t, l, hmarked, hleft, -⟩ := condemnMarked_eq p c s
  refine ⟨x, ?_, ?_, ?_, ?_, fun hn k hk => hleft hn k ?_, ?_⟩
  · rw [manualCondemn_eq, htry, hx, hmarked]
  · rw [hlist, hmarked]
    rfl
  · rw [← hcondemn, hpool]
    rfl
  · rw [hpool, hmarked]
  · have hmem := hcand k hk
    rwa [hmarked] at hmem
  · have hcards := SameButPool.sameCards hpool
    rw [hmarked] at hcards
    exact hcards

/-- Settles O40: the request by its checks; past them the port is marked, and its order opens or waits. -/
theorem portIsCondemned : Obligations.PortIsCondemned := by
  intro l tag body s hacc refused replied dark light inRange
  have refusal {o : Outcome} (hh : handleCondemnPort body (holding l .condemnPort tag s)
      = (holding l .condemnPort tag s, refuse o)) : refused o :=
    exec_accepts_same (k := .condemnPort) (a := refuse o) hacc rfl hh
  have hshelf : (holding l .condemnPort tag s).shelf = s.shelf := holding_shelf ..
  refine ⟨fun hbad => refusal (handleCondemnPort_of_bad (condemnOfBody_bad hbad)), fun hin h0 => ?_⟩
  intro p unprotected conflict
  have hbody : condemnOfBody body = some (p, ⟨.manual, unprotected, dark, light⟩) := condemnOfBody_good hin h0
  refine ⟨fun ha => ?_, fun hs hc => ?_, fun hs hc => ?_⟩
  · exact refusal (handleCondemnPort_of_absent hbody (by rwa [hshelf]))
  · exact refusal (handleCondemnPort_of_conflict hbody (by rwa [hshelf]) (by rw [hshelf]; exact hc))
  let c : Condemn := ⟨.manual, unprotected, dark, light⟩
  have taking {n : Option Nat} {x : Shelf} (hm : manualCondemn p c s.shelf = (x, n)) : replied n x := by
    have hh := handleCondemnPort_of_taken hbody (by rwa [hshelf]) (by rw [hshelf]; exact hc)
    rw [hshelf, hm] at hh
    exact exec_accepts_shelf (k := .condemnPort) (a := done [optByte n]) hacc rfl hh
  obtain ⟨t, k, hmarked, hleft, hkept⟩ := condemnMarked_eq p c s.shelf
  have hallowed : condemnAllowed (condemnMarked p c s.shelf) p c = true
      ↔ s.shelf.ords.list.length < Config.orderMax ∧ poolPorts s.shelf ≠ [] := by
    rw [hmarked]
    exact condemnAllowed_manual rfl hs hc
  refine ⟨fun hwait => ?_, fun dst hroom hdst => ?_⟩
  · have hnot : ¬ condemnAllowed (condemnMarked p c s.shelf) p c = true := by
      rw [hallowed, not_and_or, not_not, Nat.not_lt]
      exact hwait.symm
    refine ⟨_, taking (manualCondemn_waits hnot), ?_, ?_, fun hn => ?_, fun hne => ?_, ?_, ?_, ?_⟩
    · rw [condemnOf, reportNoSpare_recs]
      exact condemnMarked_condemn p c s.shelf
    · exact condemnMarked_waits_told c (not_or.1 hc).1
    · rw [reportNoSpare_recs, hmarked]
      exact hleft hn
    · rw [reportNoSpare_recs, hmarked]
      exact hkept hne
    · rw [reportNoSpare_ords, hmarked]
    · exact (wide_settings (keep_reportNoSpare (wide _) (condemnMarked_wide p c s.shelf))).1
    · refine stay_reportNoSpare (cards s.shelf) ?_
      rw [hmarked]
      exact ⟨rfl, rfl, rfl, rfl⟩
  · have hchosen : chooseSpare s.shelf p = some dst := hdst
    have hopens := manualCondemn_opens (hallowed.2 ⟨hroom, chooseSpare_pool hchosen⟩)
      (by rw [hmarked]; exact hchosen)
    obtain ⟨x, hm, hlist, hcondemn, hrecs, hcand, hcards⟩ := hopens
    exact ⟨x, _, taking hm, hlist, hcondemn, hrecs, hcand, hcards⟩

end Sys2Proof.Machine

/-! Group definitions (R81, R82): Define Group and Delete Group. -/

namespace Sys2Proof.Machine

section GroupRequests
variable {b : List Byte} {s : State} {g : GroupNo} {d : GroupDef}

theorem handleDefineGroup_of_bad (h : groupOfBody b = none) : handleDefineGroup b s = (s, refuse .badValue) := by
  simp [handleDefineGroup, h, turnAway]

theorem handleDefineGroup_of_conflict (h : groupOfBody b = some (g, d)) (hc : groupConflicts s.shelf g d = true) :
    handleDefineGroup b s = (s, refuse .conflict) := by simp [handleDefineGroup, h, hc, turnAway]

theorem handleDefineGroup_of_equal (h : groupOfBody b = some (g, d)) (hc : ¬ groupConflicts s.shelf g d = true)
    (he : defOf s.shelf g = some d) : handleDefineGroup b s = (s, done []) := by
  simp only [handleDefineGroup, h, if_neg hc, if_pos he]

theorem handleDefineGroup_of_change (h : groupOfBody b = some (g, d)) (hc : ¬ groupConflicts s.shelf g d = true)
    (he : defOf s.shelf g ≠ some d) : handleDefineGroup b s
      = heldChange .engine (.groupDef g (some d)) [] (busShelf (installGroup g d)) s := by
  simp only [handleDefineGroup, h, if_neg hc, if_neg he]

theorem groupOfByte_of (h : g.val = byteAt b 0) : groupOfByte b 0 = some g := by
  rw [groupOfByte, ← h]
  exact finOf_val g

theorem groupOfByte_bad (h : 8 ≤ byteAt b 0) : groupOfByte b 0 = none := finOf_ge h

theorem handleDeleteGroup_of_bad (h : groupOfByte b 0 = none) : handleDeleteGroup b s = (s, refuse .badValue) := by
  simp [handleDeleteGroup, h, turnAway]

theorem handleDeleteGroup_of_absent (h : groupOfByte b 0 = some g) (hd : defOf s.shelf g = none) :
    handleDeleteGroup b s = (s, refuse .absent) := by simp [handleDeleteGroup, h, hd, turnAway]

theorem handleDeleteGroup_of_conflict (h : groupOfByte b 0 = some g) (hd : defOf s.shelf g = some d)
    (hc : (groupBusy s.shelf g d || groupBound s.shelf g) = true) : handleDeleteGroup b s = (s, refuse .conflict) := by
  simp only [handleDeleteGroup, h, hd, if_pos hc, turnAway]

theorem handleDeleteGroup_of_change (h : groupOfByte b 0 = some g) (hd : defOf s.shelf g = some d)
    (hc : ¬ (groupBusy s.shelf g d || groupBound s.shelf g) = true) : handleDeleteGroup b s
      = heldChange .engine (.groupDef g none) [] (busShelf (removeGroup g d)) s := by
  simp only [handleDeleteGroup, h, hd, if_neg hc]

/-- What one definition's change leaves of the definitions, the records and what waits in the store. -/
theorem definition_set {v : Option GroupDef} {s a x : Shelf} (ha : Wide s a) (hx : Wide (setDef g v a) x) :
    defOf x g = v ∧ (∀ h, h ≠ g → defOf x h = defOf s h) ∧ x.recs.recs = s.recs.recs ∧ x.sto.list = s.sto.list := by
  obtain ⟨⟨hrecs, -, -, hdefs, -, -, -, -, -, hlist, -⟩, -⟩ := wide_settings ha
  obtain ⟨⟨krecs, -, -, kdefs, -, -, -, -, -, klist, -⟩, -⟩ := wide_settings hx
  have hput : x.eng.defs = put s.eng.defs g v := by rw [kdefs, ← hdefs]; rfl
  refine ⟨?_, fun h hne => ?_, krecs.trans hrecs, klist.trans hlist⟩
  · exact (congrArg (at' · g) hput).trans (at'_put_same ..)
  · exact (congrArg (at' · h) hput).trans (at'_put_ne _ _ hne)

end GroupRequests

/-- Settles O46: the body, the conflicts, an equal definition, and the definition installed. -/
theorem groupIsDefined : Obligations.GroupIsDefined := by
  intro l tag body s hacc refused
  refine ⟨fun hbad => ?_, fun g d hbody => ?_⟩
  · exact exec_accepts_same (k := .defineGroup) (a := refuse .badValue) hacc rfl (handleDefineGroup_of_bad hbad)
  intro conflict
  have hconf : groupConflicts (holding l .defineGroup tag s).shelf g d = true ↔ conflict := by
    rw [holding_shelf]
    exact conflicts_iff s.shelf g d
  have hdef : defOf (holding l .defineGroup tag s).shelf g = defOf s.shelf g := by rw [holding_shelf]
  refine ⟨fun hc => ?_, fun hc he => ?_, fun hc hne => ?_⟩
  · exact exec_accepts_same (k := .defineGroup) (a := refuse .conflict) hacc rfl
      (handleDefineGroup_of_conflict hbody (hconf.2 hc))
  · exact exec_accepts_same (k := .defineGroup) (a := done []) hacc rfl
      (handleDefineGroup_of_equal hbody (mt hconf.1 hc) (hdef.trans he))
  · obtain ⟨a, ha, hx, hcards⟩ := install_kept g d (editing (.groupDef g (some d)) s.shelf)
    obtain ⟨hg, hothers, hrecs, hlist⟩ := definition_set ha hx
    refine ⟨installGroup g d (editing (.groupDef g (some d)) s.shelf), ?_, hg, hothers, hrecs, hcards, hlist⟩
    exact heldChange_busShelf (k := .defineGroup) hacc
      (handleDefineGroup_of_change hbody (mt hconf.1 hc) (by rwa [hdef]))

/-- Settles O47: the group's number, its definition, the conflicts, and the definition removed. -/
theorem groupIsDeleted : Obligations.GroupIsDeleted := by
  intro l tag body s hacc refused
  refine ⟨fun hbad => ?_, fun g hg => ?_⟩
  · exact exec_accepts_same (k := .deleteGroup) (a := refuse .badValue) hacc rfl
      (handleDeleteGroup_of_bad (groupOfByte_bad hbad))
  have hdef : defOf (holding l .deleteGroup tag s).shelf g = defOf s.shelf g := by rw [holding_shelf]
  refine ⟨fun ha => ?_, fun d hd => ?_⟩
  · exact exec_accepts_same (k := .deleteGroup) (a := refuse .absent) hacc rfl
      (handleDeleteGroup_of_absent (groupOfByte_of hg) (hdef.trans ha))
  intro conflict
  have hconf : (groupBusy (holding l .deleteGroup tag s).shelf g d
      || groupBound (holding l .deleteGroup tag s).shelf g) = true ↔ conflict := by
    rw [holding_shelf, Bool.or_eq_true, busy_iff, bound_iff, or_assoc, or_assoc]
  refine ⟨fun hc => ?_, fun hc => ?_⟩
  · exact exec_accepts_same (k := .deleteGroup) (a := refuse .conflict) hacc rfl
      (handleDeleteGroup_of_conflict (groupOfByte_of hg) (hdef.trans hd) (hconf.2 hc))
  · obtain ⟨a, ha, hx, hcards⟩ := remove_kept g d (editing (.groupDef g none) s.shelf)
    obtain ⟨hgone, hothers, hrecs, hlist⟩ := definition_set ha hx
    refine ⟨removeGroup g d (editing (.groupDef g none) s.shelf), ?_, hgone, hothers, hrecs, hcards, hlist⟩
    exact heldChange_busShelf (k := .deleteGroup) hacc
      (handleDeleteGroup_of_change (groupOfByte_of hg) (hdef.trans hd) (mt hconf.1 hc))

end Sys2Proof.Machine

/-! The operator requests of a group (section 5.5, R89 to R92). -/

namespace Sys2Proof.Machine

/-- Section 5.5: the requests that edit a group's list. -/
def IsOperator (k : ReqKind) : Prop := k = .bar ∨ k = .pin ∨ k = .operatorSwitch ∨ k = .clearRequests

/-- R89 to R92: what an operator request with channel `c` makes of the list. -/
def operatorEdit (k : ReqKind) (c : Nat) (l : List ReqEntry) : List ReqEntry :=
  if k = .bar then placeEntry (plainEntry .barred 0) l
  else if k = .pin then placeOnly .pinned c l
  else if k = .operatorSwitch then placeOnly .operator c l
  else dropEntries (fun e => decide (e.cls = .barred) || decide (e.cls = .pinned) || decide (e.cls = .operator)) l

/-- R84, R93: the edited list, evaluated if it has changed. -/
def operatorChange (k : ReqKind) (c : Nat) (g : GroupNo) (s : Shelf) : Shelf :=
  evaluateIfChanged g s (setList g (operatorEdit k c) s)

section OperatorRequests
variable {k : ReqKind} {l : Link} {b : List Byte} {s : State} {g : GroupNo} {d : GroupDef}

theorem handler_operator_bad (hk : IsOperator k) (h : groupOfByte b 0 = none) :
    handlerOf k l b s = (s, refuse .badValue) := by
  rcases hk with rfl | rfl | rfl | rfl <;>
    simp [handlerOf, handleBar, handlePin, handleOperatorSwitch, handleClearRequests, withGroup, h, turnAway]

theorem handler_operator_absent (hk : IsOperator k) (h : groupOfByte b 0 = some g) (hd : defOf s.shelf g = none) :
    handlerOf k l b s = (s, refuse .absent) := by
  rcases hk with rfl | rfl | rfl | rfl <;>
    simp [handlerOf, handleBar, handlePin, handleOperatorSwitch, handleClearRequests, withGroup, h, hd, turnAway]

theorem channelOk_iff {c : Nat} : channelOk d c = true ↔ 1 ≤ c ∧ c ≤ d.working.length := by
  rw [channelOk, Bool.and_eq_true, decide_eq_true_iff, decide_eq_true_iff]
  rfl

theorem handler_channel_bad (hk : k = .pin ∨ k = .operatorSwitch) (h : groupOfByte b 0 = some g)
    (hd : defOf s.shelf g = some d) (hc : channelOk d (byteAt b 1) = false) :
    handlerOf k l b s = (s, refuse .badValue) := by
  rcases hk with rfl | rfl <;> simp [handlerOf, handlePin, handleOperatorSwitch, withGroup, h, hd, hc, turnAway]

theorem outranked_iff {x : Shelf} : outranked x g = true ↔ (∃ e ∈ (runOf x g).list, e.cls.rank ≤ 6)
    ∨ ∃ f, (runOf x g).far = some f ∧ f.1.rank ≤ 6 := by
  simp only [outranked, Bool.or_eq_true, List.any_eq_true, decide_eq_true_eq]
  refine or_congr Iff.rfl ?_
  cases (runOf x g).far <;> simp

theorem handler_outranked (h : groupOfByte b 0 = some g) (hd : defOf s.shelf g = some d)
    (hc : channelOk d (byteAt b 1) = true) (ho : outranked s.shelf g = true) :
    handlerOf .operatorSwitch l b s = (s, refuse .outranked) := by
  simp [handlerOf, handleOperatorSwitch, withGroup, h, hd, hc, ho, turnAway]

/-- Section 5.5: an operator request that passes its checks is recorded. -/
theorem handler_operator_recorded (hk : IsOperator k) (h : groupOfByte b 0 = some g) (hd : defOf s.shelf g = some d)
    (hc : k = .pin ∨ k = .operatorSwitch → channelOk d (byteAt b 1) = true)
    (ho : k = .operatorSwitch → outranked s.shelf g = false) :
    handlerOf k l b s = recordRequest g (operatorChange k (byteAt b 1) g) s := by
  rcases hk with rfl | rfl | rfl | rfl
  · simp only [handlerOf, handleBar, withGroup, h, hd]
    rfl
  · simp only [handlerOf, handlePin, withGroup, h, hd, hc (.inl rfl), if_true]
    rfl
  · simp only [handlerOf, handleOperatorSwitch, withGroup, h, hd, hc (.inr rfl), ho rfl, Bool.not_true,
      Bool.false_eq_true, if_false]
    rfl
  · simp only [handlerOf, handleClearRequests, withGroup, h, hd]
    rfl

theorem recordRequest_eq (f : Shelf → Shelf) : recordRequest g f s
    = ({ s with shelf := pump (startArming .request (f s.shelf)) },
        refuse (if (runOf s.shelf g).stuck then .stuck else .done)) := by
  unfold recordRequest
  split <;> rfl

end OperatorRequests

/-! ### The edited list -/

theorem placeOnly_mem (cls : ReqClass) (c : Nat) (l : List ReqEntry) : ∃ e ∈ placeOnly cls c l, e.cls = cls
    ∧ e.chan = c :=
  place_mem (plainEntry cls c) _

theorem placeOnly_only {cls : ReqClass} {c : Nat} {l : List ReqEntry} {e : ReqEntry} (h : e ∈ placeOnly cls c l)
    (hc : e.cls = cls) : e.chan = c := by
  rcases sub_place h with rfl | hmem
  · rfl
  · have hkept := (mem_dropEntries.1 hmem).2
    simpa [hc] using hkept

section Edited
variable {c : Nat} {g : GroupNo} {s : Shelf}

/-- R89. -/
theorem operatorChange_bar : ∃ e ∈ (runOf (operatorChange .bar c g s) g).list, e.cls = .barred ∧ e.chan = 0 := by
  obtain ⟨-, -, -, -, hhard, -⟩ := change_spec g (operatorEdit .bar c) s
  obtain ⟨e, he, hcls, hchan⟩ := place_mem (plainEntry .barred 0) (runOf s g).list
  exact ⟨e, (hhard e (hard_of hcls (by decide))).2 he, hcls, hchan⟩

/-- R90. -/
theorem operatorChange_pin : (∃ e ∈ (runOf (operatorChange .pin c g s) g).list, e.cls = .pinned ∧ e.chan = c)
    ∧ ∀ e ∈ (runOf (operatorChange .pin c g s) g).list, e.cls = .pinned → e.chan = c := by
  obtain ⟨-, -, -, -, hhard, -⟩ := change_spec g (operatorEdit .pin c) s
  refine ⟨?_, fun e he hcls => ?_⟩
  · obtain ⟨e, he, hcls, hchan⟩ := placeOnly_mem .pinned c (runOf s g).list
    exact ⟨e, (hhard e (hard_of hcls (by decide))).2 he, hcls, hchan⟩
  · exact placeOnly_only ((hhard e (hard_of hcls (by decide))).1 he) hcls

/-- R92: none of the operator's entries is left, and the waits that an evaluation places are none of them. -/
theorem operatorChange_clear : ∀ e ∈ (runOf (operatorChange .clearRequests c g s) g).list,
    e.cls ≠ .barred ∧ e.cls ≠ .pinned ∧ e.cls ≠ .operator := by
  obtain ⟨-, -, -, -, -, hsub⟩ := change_spec g (operatorEdit .clearRequests c) s
  intro e he
  rcases hsub e he with hkept | hwait
  · have hnot := (mem_dropEntries.1 hkept).2
    simpa [and_assoc] using hnot
  · rcases isWait_iff.1 hwait with hcls | hcls <;> simp [hcls]

end Edited

/-- Settles O48: the four requests by their checks, and the edited list. -/
theorem operatorRequestsAreRecorded : Obligations.OperatorRequestsAreRecorded := by
  intro l tag body s k hk hacc c refused takesChannel
  have refusal {o : Outcome} (hh : handlerOf k l body (holding l k tag s) = (holding l k tag s, refuse o)) :
      refused o :=
    exec_accepts_same (a := refuse o) hacc rfl hh
  have hshelf : (holding l k tag s).shelf = s.shelf := holding_shelf ..
  refine ⟨fun hbad => refusal (handler_operator_bad hk (groupOfByte_bad hbad)), fun g hg => ?_⟩
  have hbyte := groupOfByte_of hg
  intro r
  refine ⟨fun ha => refusal (handler_operator_absent hk hbyte (by rwa [hshelf])), fun d hd => ?_⟩
  have hd' : defOf (holding l k tag s).shelf g = some d := by rwa [hshelf]
  refine ⟨fun ht hc => ?_, ?_, fun hc ho => ?_⟩
  · refine refusal (handler_channel_bad ht hbyte hd' (Bool.eq_false_iff.2 (mt channelOk_iff.1 ?_)))
    omega
  · rintro rfl h1 hn ho
    exact refusal (handler_outranked hbyte hd' (channelOk_iff.2 ⟨h1, hn⟩) (by rw [hshelf]; exact outranked_iff.2 ho))
  · have hfree : k = .operatorSwitch → outranked (holding l k tag s).shelf g = false := by
      intro hks
      obtain ⟨hlist, hfar⟩ := ho hks
      rw [hshelf, Bool.eq_false_iff, Ne, outranked_iff]
      rintro (⟨e, he, hle⟩ | ⟨f, hf, hle⟩)
      · exact absurd (hlist e he) (Nat.not_lt.2 hle)
      · exact absurd (hfar f hf) (Nat.not_lt.2 hle)
    have hrecorded := (handler_operator_recorded (l := l) hk hbyte hd' (fun ht => channelOk_iff.2 (hc ht)) hfree).trans
      (recordRequest_eq _)
    rw [hshelf] at hrecorded
    obtain ⟨hframe, hothers, hsel, hstuck, -, -⟩ := change_spec g (operatorEdit k c) s.shelf
    refine ⟨operatorChange k c g s.shelf, ?_, hframe, hothers, hsel, hstuck, ?_, ?_, ?_, ?_⟩
    · exact exec_accepts_shelf (a := refuse _) hacc rfl hrecorded
    · rintro rfl
      exact operatorChange_bar
    · rintro rfl
      exact operatorChange_pin
    · rintro rfl
      rfl
    · rintro rfl
      exact operatorChange_clear

end Sys2Proof.Machine

/-! Hold-off and WTR timers (R85, R97), and what an evaluation makes of a group (R87, R91, R94, R96). -/

namespace Sys2Proof.Machine

/-! ### The round of an evaluation -/

/-- R93, R94: the run-time record is that of a round of evaluation, with the plan that was asked for. -/
def Evaluated (v a : Bool) (r x : GroupRun) : Prop := ∃ p, x = { evaluateOnce v a r with plan := p }

/-- R87, R91: the entries among which the choice was made: those that stand and the Operator entries that it
displaced. -/
def ChoiceCandidate (r x : GroupRun) (c : ReqEntry) : Prop := c ∈ x.list ∨ c ∈ r.list ∧ c.cls = .operator

/-- R87: the entry over which no other wins. -/
def Best (r x : GroupRun) (c : ReqEntry) : Prop :=
  ChoiceCandidate r x c ∧ ∀ o, ChoiceCandidate r x o →
    c.cls.rank < o.cls.rank ∨ c.cls = o.cls ∧ (c.chan = o.chan ∨ c.chan = r.sel ∨ o.chan ≠ r.sel ∧ c.chan < o.chan)

/-- R87: the far request goes before an entry. -/
def FarBefore (f : ReqClass × Nat) (c : ReqEntry) : Prop := f.1.rank < c.cls.rank ∨ f.1 = c.cls ∧ f.2 < c.chan

/-- R96: the active request ranks above Settling. -/
def ActiveHigh (x : GroupRun) : Prop := ∃ a, x.active = some a ∧ a.1.rank < ReqClass.settling.rank

/-- R96, step 4, by the active request that came out. -/
def WaitPlaced (r x : GroupRun) : Prop := r.sel ≠ 0 ∧ r.plan = none ∧ r.restoreDue = false
  ∧ (∀ w ∈ r.list, w.cls = .settling ∨ w.cls = .remain → w.chan ≠ r.sel) ∧ ¬ ActiveHigh x

/-- R96, steps 1 to 3, by the active request that came out. -/
def WaitStands (r x : GroupRun) (w : ReqEntry) : Prop :=
  w ∈ r.list ∧ (w.cls = .settling ∨ w.cls = .remain) ∧ w.chan = r.sel
  ∧ (∀ o ∈ r.list, o.chan = r.sel → o.cls.rank < ReqClass.settling.rank → o.cls = .barred ∨ o.cls = .protectFailed)
  ∧ (ActiveHigh x → targetOf x.active = r.sel)

section Round
variable {v a : Bool} {r x : GroupRun}

theorem evaluated_list (h : Evaluated v a r x) : x.list = dropOperator x.active (settleWaits v a r).list := by
  obtain ⟨p, rfl⟩ := h
  rfl

theorem evaluated_active (h : Evaluated v a r x) :
    x.active = chooseActive r.sel (settleWaits v a r).list r.far := by
  obtain ⟨p, rfl⟩ := h
  obtain ⟨hsel, -, -, hfar, -⟩ := (settleWaits_spec v a r).rest
  rw [← hsel, ← hfar]
  rfl

theorem evaluated_wtr (h : Evaluated v a r x) : x.wtr = (settleWaits v a r).wtr := by
  obtain ⟨p, rfl⟩ := h
  rfl

theorem evaluated_fields (h : Evaluated v a r x) :
    x = { r with list := x.list, active := x.active, plan := x.plan, wtr := x.wtr } := by
  obtain ⟨p, rfl⟩ := h
  obtain ⟨hsel, hstuck, hdue, hfar, -, -, -⟩ := evaluateOnce_spec v a r
  rw [← hsel, ← hstuck, ← hdue, ← hfar]

theorem isWait_false_of_operator {e : ReqEntry} (h : e.cls = .operator) : isWait e = false := by simp [isWait, h]

theorem isWait_false_iff {e : ReqEntry} : isWait e = false ↔ ¬ (e.cls = .settling ∨ e.cls = .remain) := by
  rw [← isWait_iff, Bool.not_eq_true]

/-- The choice is made among the entries of the settled list. -/
theorem candidate_iff (h : Evaluated v a r x) {e : ReqEntry} : ChoiceCandidate r x e
    ↔ e ∈ (settleWaits v a r).list := by
  have hothers := (settleWaits_spec v a r).others e
  rw [ChoiceCandidate, evaluated_list h, mem_dropOperator]
  by_cases ho : e.cls = .operator
  · have hsame := hothers (isWait_false_of_operator ho)
    exact ⟨fun hc => hc.elim And.left fun hr => hsame.2 hr.1, fun hq => .inr ⟨hsame.1 hq, ho⟩⟩
  · exact ⟨fun hc => hc.elim And.left fun hr => absurd hr.2 ho, fun hq => .inl ⟨hq, fun hc => absurd hc ho⟩⟩

theorem best_iff (h : Evaluated v a r x) {c : ReqEntry} : Best r x c ↔ c ∈ (settleWaits v a r).list
    ∧ ∀ o ∈ (settleWaits v a r).list, c.cls.rank < o.cls.rank
      ∨ c.cls = o.cls ∧ (c.chan = o.chan ∨ c.chan = r.sel ∨ o.chan ≠ r.sel ∧ c.chan < o.chan) := by
  simp only [Best, candidate_iff h]

theorem farBefore_iff {f : ReqClass × Nat} {c : ReqEntry} : FarBefore f c ↔ farFirst f c.key := by
  refine or_congr Iff.rfl (and_congr_left fun _ => ⟨fun hc => congrArg ReqClass.rank hc, rank_inj⟩)

/-- R87: without candidates the far request is active. -/
theorem active_of_none (h : Evaluated v a r x) (hn : ∀ c, ¬ ChoiceCandidate r x c) : x.active = r.far := by
  have hnil : (settleWaits v a r).list = [] :=
    List.eq_nil_iff_forall_not_mem.2 fun e he => hn e ((candidate_iff h).2 he)
  rw [evaluated_active h, hnil]
  rfl

/-- R87: the best candidate is active where the far request does not go before it. -/
theorem active_of_best (h : Evaluated v a r x) {c : ReqEntry} (hb : Best r x c)
    (hf : ∀ f, r.far = some f → ¬ FarBefore f c) : x.active = some (c.cls, c.chan) := by
  rw [evaluated_active h]
  exact chooseActive_some.2 (.inl ⟨localWinner_of_best ((best_iff h).1 hb),
      fun f hfar => mt farBefore_iff.2 (hf f hfar)⟩)

/-- R87: the far request is active where it goes before the best candidate. -/
theorem active_of_far (h : Evaluated v a r x) {f : ReqClass × Nat} (hfar : r.far = some f)
    (hb : ∀ c, Best r x c → FarBefore f c) : x.active = some f := by
  rw [evaluated_active h]
  refine chooseActive_some.2 (.inr ⟨hfar, fun w hw => ?_⟩)
  obtain ⟨c, rfl, hc⟩ := best_of_localWinner hw
  exact farBefore_iff.1 (hb c ((best_iff h).2 hc))

/-- R91: besides the waits, the list loses the displaced Operator entries alone. -/
theorem mem_evaluated (h : Evaluated v a r x) {o : ReqEntry} (ho : ¬ (o.cls = .settling ∨ o.cls = .remain)) :
    o ∈ x.list ↔ o ∈ r.list ∧ (o.cls = .operator →
        x.active = some (.operator, o.chan) ∨ targetOf x.active = o.chan) := by
  rw [evaluated_list h, mem_dropOperator, (settleWaits_spec v a r).others o (isWait_false_iff.2 ho)]

/-- The waits of the list are those of the settled list. -/
theorem wait_mem_evaluated (h : Evaluated v a r x) {w : ReqEntry} (hw : isWait w = true) :
    w ∈ x.list ↔ w ∈ (settleWaits v a r).list := by
  rw [evaluated_list h, mem_dropOperator, and_iff_left_iff_imp]
  rintro - ho
  rcases isWait_iff.1 hw with hc | hc <;> simp [hc] at ho

/-! ### The waits by the active request -/

/-- R96: above Settling the active request is the choice from the list as it was. -/
theorem active_high_iff (h : Evaluated v a r x) {b : ReqClass × Nat} (hb : b.1.rank < 8) :
    x.active = some b ↔ chooseActive r.sel r.list r.far = some b := by
  have hsame := (settleWaits_spec v a r).others
  rw [evaluated_active h]
  exact ⟨high_choice (fun e w => (hsame e w).symm) hb, high_choice hsame hb⟩

theorem wanted_iff (h : Evaluated v a r x) : Wanted r ↔ ActiveHigh x :=
  exists_congr fun _ => and_congr_left fun hb => (active_high_iff h hb).symm

theorem placed_iff (h : Evaluated v a r x) : Placed r ↔ WaitPlaced r x := by
  simp only [Placed, WaitPlaced, wanted_iff h, isWait_iff]

theorem stands_iff (h : Evaluated v a r x) {w : ReqEntry} : Stands r w ↔ WaitStands r x w := by
  have hhigh : (∀ b, chooseActive r.sel r.list r.far = some b → b.1.rank < 8 → targetOf (some b) = r.sel)
      ↔ (ActiveHigh x → targetOf x.active = r.sel) := by
    constructor
    · rintro hall ⟨b, hb, hr⟩
      rw [hb]
      exact hall b ((active_high_iff h hr).1 hb) hr
    · intro himp b hb hr
      have hact := (active_high_iff h hr).2 hb
      rw [← hact]
      exact himp ⟨b, hact, hr⟩
  simp only [Stands, WaitStands, Bears, isWait_iff, settling_rank, hhigh]

/-- R96: a wait is placed anew. -/
def WaitFresh (v a : Bool) (r x : GroupRun) : Prop :=
  WaitPlaced r x ∨ (v && a) = true ∧ ∃ w, WaitStands r x w ∧ w.cls = .remain

theorem fresh_iff (h : Evaluated v a r x) :
    WaitFresh v a r x ↔ Placed r ∨ (v && a) = true ∧ ∃ e, Stands r e ∧ e.cls = .remain := by
  simp only [WaitFresh, placed_iff h, stands_iff h]

/-- R96, steps 4 and 5: the wait that is placed anew is the only one. -/
theorem waits_of_fresh (h : Evaluated v a r x) (hf : WaitFresh v a r x) :
    (∃ w ∈ x.list, w.cls = .settling ∨ w.cls = .remain)
    ∧ ∀ w ∈ x.list, w.cls = .settling ∨ w.cls = .remain → w.chan = r.sel
      ∧ ((v && a) = true → w.cls = .settling) ∧ (¬ (v && a) = true → w.cls = .remain) := by
  obtain ⟨⟨e, he, hwait, -⟩, hall, -⟩ := (settleWaits_spec v a r).fresh ((fresh_iff h).1 hf)
  refine ⟨⟨e, (wait_mem_evaluated h hwait).2 he, isWait_iff.1 hwait⟩, fun w hw hcls => ?_⟩
  have hwait := isWait_iff.2 hcls
  obtain ⟨hchan, hclass⟩ := hall w ((wait_mem_evaluated h hwait).1 hw) hwait
  exact ⟨hchan, fun hs => by rw [hclass, if_pos hs], fun hs => by rw [hclass, if_neg hs]⟩

/-- R96, steps 1 to 3: without a new wait those that stand stay. -/
theorem waits_of_not_fresh (h : Evaluated v a r x) (hf : ¬ WaitFresh v a r x) {w : ReqEntry}
    (hcls : w.cls = .settling ∨ w.cls = .remain) : w ∈ x.list ↔ WaitStands r x w := by
  have hwait := isWait_iff.2 hcls
  rw [wait_mem_evaluated h hwait, (settleWaits_spec v a r).stood (mt (fresh_iff h).2 hf) w hwait, stands_iff h]

theorem wtr_of_fresh (h : Evaluated v a r x) (hs : (v && a) = true) (hf : WaitFresh v a r x) : x.wtr = some 0 := by
  rw [evaluated_wtr h]
  exact ((settleWaits_spec v a r).fresh ((fresh_iff h).1 hf)).2.2 hs

/-- Where no Settling is placed, one is in the list exactly where one stood. -/
theorem settling_stands (h : Evaluated v a r x) (hn : ¬ ((v && a) = true ∧ WaitFresh v a r x)) {w : ReqEntry}
    (hw : w.cls = .settling) : w ∈ x.list ↔ Stands r w := by
  by_cases hf : WaitFresh v a r x
  · have hs : ¬ (v && a) = true := fun hs => hn ⟨hs, hf⟩
    have hplaced : WaitPlaced r x := hf.resolve_right fun hk => hs hk.1
    constructor
    · intro hmem
      have hremain := ((waits_of_fresh h hf).2 w hmem (.inl hw)).2.2 hs
      rw [hw] at hremain
      cases hremain
    · rintro ⟨hmem, hwait, hchan, -⟩
      exact absurd hchan (((placed_iff h).2 hplaced).2.2.2.1 w hmem hwait)
  · rw [waits_of_not_fresh h hf (.inl hw), stands_iff h]

/-- R96: the WTR timer goes on with a Settling that stood, and stops without one. -/
theorem wtr_of_not_fresh (h : Evaluated v a r x) (hn : ¬ ((v && a) = true ∧ WaitFresh v a r x)) :
    ((∃ w ∈ x.list, w.cls = .settling) → x.wtr = r.wtr) ∧ ((∀ w ∈ x.list, w.cls ≠ .settling) → x.wtr = none) := by
  have hnone : ¬ ((v && a) = true ∧ (Placed r ∨ ∃ e, Stands r e ∧ e.cls = .remain)) := by
    rintro ⟨hs, hk⟩
    exact hn ⟨hs, (fresh_iff h).2 (hk.imp_right fun hk => ⟨hs, hk⟩)⟩
  obtain ⟨hgoes, hstops⟩ := (settleWaits_spec v a r).timer hnone
  rw [evaluated_wtr h]
  refine ⟨fun ⟨w, hw, hcls⟩ => hgoes ⟨w, (settling_stands h hn hcls).1 hw, hcls⟩,
      fun hall => hstops fun e he hcls => ?_⟩
  exact hall e ((settling_stands h hn hcls).2 he) hcls

end Round

/-- R94: an evaluation leaves a round's record. -/
theorem evaluate_evaluated {g : GroupNo} {d : GroupDef} {y : Shelf} (h : defOf y g = some d) :
    Evaluated d.revertive (isArmed y) (runOf y g) (runOf (evaluate g y) g) := by
  obtain ⟨hasked, hnot⟩ := evaluate_eq h
  rcases Classical.em _ with hk | hk
  · exact ⟨_, (hasked hk).1⟩
  · exact ⟨_, (hnot hk).1⟩

/-! ### The plan asked for (R94) -/

/-- R94, step 4: a plan is asked for, by the active request that came out. -/
def PlanAsked (g : GroupNo) (y : Shelf) (x : GroupRun) : Prop :=
  (runOf y g).stuck = false ∧ y.rdy.phase = .armed ∧ (execOf y g).prepareDue = false
  ∧ ((runOf y g).plan = none ∧ targetOf x.active ≠ (runOf y g).sel
    ∨ ∃ u, (runOf y g).plan = some u ∧ (execOf y g).step = .confirmWait ∧ targetOf x.active ≠ u)

section Asked
variable {g : GroupNo} {d : GroupDef} {y : Shelf}

theorem evaluate_active (h : defOf y g = some d) :
    (runOf (evaluate g y) g).active = (evaluateOnce d.revertive (isArmed y) (runOf y g)).active := by
  obtain ⟨p, hx⟩ := evaluate_evaluated h
  rw [hx]

theorem evaluate_of_not_asked (h : defOf y g = some d) (ha : ¬ PlanAsked g y (runOf (evaluate g y) g)) :
    (runOf (evaluate g y) g).plan = (runOf y g).plan ∧ (evaluate g y).exe = y.exe := by
  rw [PlanAsked, evaluate_active h] at ha
  obtain ⟨hx, hexe⟩ := (evaluate_eq h).2 ha
  obtain ⟨-, -, -, -, hplan, -⟩ := evaluateOnce_spec d.revertive (isArmed y) (runOf y g)
  exact ⟨(congrArg GroupRun.plan hx).trans hplan, hexe⟩

/-- R94, R108, R110: the plan, its first exchange, and the task where the group has no other work. -/
theorem evaluate_of_asked (h : defOf y g = some d) (ha : PlanAsked g y (runOf (evaluate g y) g)) :
    let z := evaluate g y
    let target := targetOf (runOf z g).active
    (runOf z g).plan = some target
    ∧ (∃ p, (execOf z g).plan = some p ∧ p.target = target ∧ (p.cls, p.chan) = (runOf z g).active.getD (.idle, 0)
        ∧ p.next = firstExchange d target)
    ∧ (execOf z g).confirm = none ∧ (∀ k, k ≠ g → execOf z k = execOf y k) ∧ z.exe.active = y.exe.active
    ∧ ((execOf y g).job = none → (execOf y g).owed = [] → (execOf y g).subst = none → adoptionListed y g = false →
        z.exe.tasks = y.exe.tasks ++ [.exchange g]
          ∧ (execOf z g).job = some ⟨firstExchange d target, [], 1, none⟩) := by
  intro z target
  have hactive : target = targetOf (evaluateOnce d.revertive (isArmed y) (runOf y g)).active :=
    congrArg targetOf (evaluate_active h)
  rw [PlanAsked, evaluate_active h] at ha
  obtain ⟨hx, w, hexe, hrdy, hdefs, hstuck, hz⟩ := (evaluate_eq h).1 ha
  have hplan : (runOf z g).plan = some target := by rw [hx, hactive]
  have hself : ∀ k, execOf w k = execOf y k := fun k => by unfold execOf; rw [hexe]
  have hexec : ∀ k, execOf z k = execOf (askPlan g d (evaluateOnce d.revertive (isArmed y) (runOf y g)).active w) k :=
    fun k => by unfold execOf; rw [hz]
  obtain ⟨-, kplan, kconfirm, kothers, kactive, ktask⟩ :=
    askPlan_spec g d (evaluateOnce d.revertive (isArmed y) (runOf y g)).active w
  rw [← hexec, ← evaluate_active h] at kplan
  refine ⟨hplan, ⟨_, kplan, rfl, rfl, rfl⟩, (hexec g).symm ▸ kconfirm, fun k hk => ?_, ?_, fun hj ho hs hl => ?_⟩
  · rw [hexec, kothers k hk, hself]
  · rw [hz, kactive, hexe]
  · have hlisted : adoptionListed w g = false := by
      unfold adoptionListed
      rw [hexe]
      exact hl
    have hdef : defOf w g ≠ none := by
      unfold defOf at h ⊢
      rw [hdefs, h]
      exact Option.some_ne_none d
    obtain ⟨htasks, hjob⟩ := ktask hdef (hrdy ▸ ha.2.1) (hstuck.trans ha.1) (by rwa [hself]) (by rwa [hself])
        (by rwa [hself])
      hlisted
    rw [← hexec, ← evaluate_active h] at hjob
    exact ⟨by rw [hz, htasks, hexe], hjob⟩

end Asked

/-! ### The two timers -/

section Timers
variable {p : PortNo} {s : Shelf} {g : GroupNo}

/-- R85: a derived class is none of those that an evaluation removes. -/
theorem derivedClass_hard {chan : Nat} {k : PortCond} {cls : ReqClass}
    {c : Nat} (h : derivedClass chan k = some (cls, c)) :
    cls ≠ .settling ∧ cls ≠ .remain ∧ cls ≠ .operator := by
  cases chan <;> cases k <;> simp [derivedClass] at h <;> obtain ⟨rfl, -⟩ := h <;> decide

theorem holdOffOver_of_class {chan : Nat} {e : ReqClass × Nat} (ht : at' s.eng.holdOff p ≠ none)
    (hm : memberOf s p = some (g, chan)) (hd : derivedClass chan (condOf s p) = some e) : holdOffOver p s
      = evaluateIfChanged g s (setList g (placeEntry (plainEntry e.1 e.2)) (setHoldOff p none s)) := by
  simp [holdOffOver, Option.isNone_iff_eq_none, ht, hm, hd]

theorem holdOffOver_of_none {chan : Nat} (ht : at' s.eng.holdOff p ≠ none)
    (hm : memberOf s p = none ∨ memberOf s p = some (g, chan) ∧ derivedClass chan (condOf s p) = none) :
    holdOffOver p s = setHoldOff p none s := by
  rcases hm with hm | ⟨hm, hd⟩
  · simp [holdOffOver, Option.isNone_iff_eq_none, ht, hm]
  · simp [holdOffOver, Option.isNone_iff_eq_none, ht, hm, hd]

theorem wtrOver_running (h : (runOf s g).wtr ≠ none) : wtrOver g s = evaluate g (setRun g (fun r => { r with
    list := dropEntries (fun e => decide (e.cls = .settling)) r.list, restoreDue := true, wtr := none }) s) := by
  simp [wtrOver, Option.isNone_iff_eq_none, h]

/-- R84, R93: a list that stands now as `l` is evaluated where that is a change. -/
theorem evaluateIfChanged_eq {y : Shelf} {l : List ReqEntry} (h : (runOf y g).list = l) :
    evaluateIfChanged g s y = if l = (runOf s g).list then y else evaluate g y := by
  rw [evaluateIfChanged, h]
  exact if_congr eq_comm rfl rfl

/-- What an evaluation, made or left out, leaves. -/
theorem evaluated_or_not {x y : Shelf} (h : x = y ∨ x = evaluate g y) : SameButProtection y x
    ∧ (∀ k, k ≠ g → runOf x k = runOf y k) ∧ ∀ e, IsHard e → (e ∈ (runOf x g).list ↔ e ∈ (runOf y g).list) := by
  rcases h with rfl | rfl
  · exact ⟨rfl, fun _ _ => rfl, fun _ _ => Iff.rfl⟩
  · obtain ⟨hframe, hothers, -, -, -, -, hhard, -⟩ := evaluate_spec g y
    exact ⟨hframe, hothers, hhard⟩

end Timers

/-- Settles O50: the hold-off timer by the port's derived class, the WTR timer, and the evaluation by its round. -/
theorem holdOffAndWtrEnd : Obligations.HoldOffAndWtrEnd := by
  refine ⟨fun s => ⟨fun p g chan cls c ht hm hd => ?_, fun p g chan ht hm => ?_, fun g hw hg => ?_⟩, fun y g d hd => ?_⟩
  · intro l y x
    have hlist : (runOf y g).list = l := congrArg GroupRun.list (at'_put_same ..)
    have hover : holdOffOver p s.shelf = x := (holdOffOver_of_class ht hm hd).trans (evaluateIfChanged_eq hlist)
    obtain ⟨hframe, hothers, hhard⟩ := evaluated_or_not (x := x) (y := y) (g := g) (ite_eq_or_eq ..)
    have hhold : x.eng.holdOff = put s.shelf.eng.holdOff p none := congrArg (fun z : Shelf => z.eng.holdOff) hframe
    refine ⟨congrArg (fun z => Host.Outcome.next (worked z s)) hover, ?_, ?_, ?_, fun q hq => ?_, fun h hne => ?_⟩
    · rw [hhold]
      exact at'_put_same ..
    · obtain ⟨e, he, hcls, hchan⟩ := place_mem (plainEntry cls c) (runOf s.shelf g).list
      refine ⟨e, (hhard e (hard_of hcls (derivedClass_hard hd))).2 ?_, hcls, hchan⟩
      rw [hlist]
      exact he
    · rw [hhold]
      exact hframe
    · rw [hhold]
      exact at'_put_ne _ _ hq
    · exact (hothers h hne).trans (at'_put_ne _ _ hne)
  · exact congrArg (fun y => Host.Outcome.next (worked y s)) (holdOffOver_of_none ht hm)
  · intro y x
    have hlist : wtrOver g s.shelf = x := by
      rw [wtrOver_running hw]
      simp only [dropEntries, ← decide_not]
      rfl
    obtain ⟨hframe, hothers, hsel, -, hdue, -⟩ := evaluate_spec g y
    have hrun : runOf y g = _ := at'_put_same ..
    refine ⟨congrArg (fun z => Host.Outcome.next (worked z s)) hlist, ?_, ?_, hframe, fun h hne => ?_⟩
    · exact hdue.trans (congrArg GroupRun.restoreDue hrun)
    · exact hsel.trans (congrArg GroupRun.sel hrun :)
    · exact (hothers h hne).trans (at'_put_ne _ _ hne)
  · intro r e z x wait target
    have htarget : target = targetOf x.active := targetOf_eq _
    clear_value target
    subst htarget
    have hev : Evaluated d.revertive (isArmed y) r x := evaluate_evaluated hd
    intro high candidate best before stands settles placed fresh asked
    have hsettles : (d.revertive && isArmed y) = true ↔ settles := by
      rw [Bool.and_eq_true]
      exact and_congr_right fun _ => decide_eq_true_iff
    have hfresh : WaitFresh d.revertive (isArmed y) r x ↔ fresh := or_congr Iff.rfl (and_congr hsettles Iff.rfl)
    obtain ⟨hframe, hothers, -⟩ := evaluate_spec g y
    refine ⟨hframe, hothers, evaluated_fields hev, active_of_none hev, fun c => active_of_best hev,
      fun f => active_of_far hev, fun o => mem_evaluated hev, fun hf => ?_, fun hf w => ?_, fun hf => ?_, fun hf => ?_,
      evaluate_of_not_asked hd, ?_⟩
    · have hwaits := waits_of_fresh hev (hfresh.2 hf)
      rwa [hsettles] at hwaits
    · exact waits_of_not_fresh hev (mt hfresh.1 hf)
    · exact wtr_of_fresh hev (hsettles.2 hf.1) (hfresh.2 hf.2)
    · refine wtr_of_not_fresh hev (mt (fun hk => ⟨hsettles.1 hk.1, hfresh.1 hk.2⟩) hf)
    · exact evaluate_of_asked hd

end Sys2Proof.Machine

/-! Timing definitions, lock-out and force (R127, R136, R137). -/

namespace Sys2Proof.Machine

/-! ### The force of the selector (R127) -/

theorem clearForceOn_frame (r : RefNo) (s : Shelf) : SameButTiming s (clearForceOn r s) := by
  unfold clearForceOn
  split <;> rfl

theorem clearForceOn_ref (r q : RefNo) (s : Shelf) : refOf (clearForceOn r s) q = refOf s q := by
  unfold clearForceOn
  split <;> rfl

theorem clearForceOn_forced (r : RefNo) (s : Shelf) : (clearForceOn r s).tim.forced ≠ some r := by
  unfold clearForceOn
  split
  · exact (Option.some_ne_none r).symm
  · assumption

/-- An event whose change leaves no force on a reference leaves none there. -/
theorem timingEvent_not_forced {f : Shelf → Shelf} {s : Shelf} {r : RefNo} (h : (f s).tim.forced ≠ some r) :
    (timingEvent f s).tim.forced ≠ some r := by
  rcases timingEvent_forced f s with hf | hf
  · rwa [hf]
  · rw [hf]
    exact (Option.some_ne_none r).symm

theorem timingEvent_no_force {f : Shelf → Shelf} {s : Shelf} (h : (f s).tim.forced = none) :
    (timingEvent f s).tim.forced = none := by
  rcases timingEvent_forced f s with hf | hf
  · exact hf.trans h
  · exact hf

/-! ### Define Reference and Set Timing Options (R136, R137) -/

section DefineReference
variable {b : List Byte} {s : State} {r : RefNo} {d : RefDef}

/-- R136, checks 2 and 3. -/
theorem refConflicts_iff {x : Shelf} : refConflicts x d = true
    ↔ (∃ p, d.binding = .port p ∧ (classOf x p ≠ .inService ∨ inWindow x p = false))
      ∨ ∃ g, d.binding = .group g ∧ defOf x g = none := by
  cases hb : d.binding <;> simp [refConflicts, hb]

theorem handleDefineReference_of_bad (h : refOfBody b = none) :
    handleDefineReference b s = (s, refuse .badValue) := by simp [handleDefineReference, h, turnAway]

theorem handleDefineReference_of_conflict (h : refOfBody b = some (r, d)) (hc : refConflicts s.shelf d = true) :
    handleDefineReference b s = (s, refuse .conflict) := by simp [handleDefineReference, h, hc, turnAway]

theorem handleDefineReference_of_equal (h : refOfBody b = some (r, d)) (hc : ¬ refConflicts s.shelf d = true)
    (he : d = (refOf s.shelf r).defn) : handleDefineReference b s
      = (if s.shelf.tim.forced = some r then busShelf (timingEvent (clearForceOn r)) s else s, done []) := by
  simp only [handleDefineReference, h, if_neg hc, if_pos he]

theorem handleDefineReference_of_change (h : refOfBody b = some (r, d)) (hc : ¬ refConflicts s.shelf d = true)
    (he : d ≠ (refOf s.shelf r).defn) : handleDefineReference b s
      = heldChange .timing (.refDef r d) [] (busShelf (changeReference r d)) s := by
  simp only [handleDefineReference, h, if_neg hc, if_neg he]

theorem changeReference_spec (r : RefNo) (d : RefDef) (s : Shelf) : (refOf (changeReference r d s) r).defn = d
    ∧ (∀ q, q ≠ r → (refOf (changeReference r d s) q).defn = (refOf s q).defn)
    ∧ (changeReference r d s).tim.forced ≠ some r ∧ SameButTiming s (changeReference r d s) := by
  unfold changeReference
  refine ⟨?_, fun q hq => ?_, timingEvent_not_forced ?_, timingEvent_frame ?_⟩
  · rw [(timingEvent_defn ..).1, clearForceOn_ref, refOf_setRef_same]
  · rw [(timingEvent_defn ..).1, clearForceOn_ref, refOf_setRef_ne _ _ hq]
  · exact clearForceOn_forced r _
  · exact SameButTiming.trans' (t := setRef r (fun x => { x with defn := d }) s) rfl (clearForceOn_frame _ _)

end DefineReference

section TimingOptionsRequest
variable {b : List Byte} {s : State} {o : TimingOptions}

/-- R137: the fields of the body in range. -/
def TimingInRange (b : List Byte) : Prop :=
  byteAt b 0 ≤ 1 ∧ 2 ≤ byteAt b 1 ∧ byteAt b 1 ≤ 60 ∧ 1 ≤ byteAt b 2 ∧ byteAt b 2 ≤ 72

theorem timingOptionsOk_iff : timingOptionsOk o = true
    ↔ 2 ≤ o.qualify ∧ o.qualify ≤ 60 ∧ 1 ≤ o.holdover ∧ o.holdover ≤ 72 := by simp [timingOptionsOk, and_assoc]

theorem timingOptionsOf_bad (h : ¬ TimingInRange b) : timingOptionsOf b = none := by
  by_cases h0 : byteAt b 0 ≤ 1
  · have hno : ¬ timingOptionsOk ⟨decide (byteAt b 0 = 1), byteAt b 1, byteAt b 2⟩ = true :=
      mt timingOptionsOk_iff.1 fun hin => h ⟨h0, hin⟩
    simp only [timingOptionsOf, flag_of h0, if_neg hno]
  · simp only [timingOptionsOf, flag_none h0]

theorem timingOptionsOf_good (h : TimingInRange b) :
    timingOptionsOf b = some ⟨decide (byteAt b 0 = 1), byteAt b 1, byteAt b 2⟩ := by
  obtain ⟨h0, hin⟩ := h
  have hok : timingOptionsOk ⟨decide (byteAt b 0 = 1), byteAt b 1, byteAt b 2⟩ = true := timingOptionsOk_iff.2 hin
  simp only [timingOptionsOf, flag_of h0, if_pos hok]

theorem handleSetTimingOptions_of_bad (h : timingOptionsOf b = none) :
    handleSetTimingOptions b s = (s, refuse .badValue) := by simp [handleSetTimingOptions, h, turnAway]

theorem handleSetTimingOptions_of_equal (h : timingOptionsOf b = some s.shelf.tim.opts) :
    handleSetTimingOptions b s = (s, done []) := by simp [handleSetTimingOptions, h]

theorem handleSetTimingOptions_of_change (h : timingOptionsOf b = some o) (ho : o ≠ s.shelf.tim.opts) :
    handleSetTimingOptions b s = heldChange .timing (.timing o) [] (busShelf (changeTimingOptions o)) s := by
  simp [handleSetTimingOptions, h, ho]

end TimingOptionsRequest

/-- Settles O52: both requests by their bodies, what stands already, and the change. -/
theorem timingDefinitionsChange : Obligations.TimingDefinitionsChange := by
  intro l tag body s
  refine ⟨fun hacc => ?_, fun hacc => ?_⟩
  · intro answers
    have hshelf : (holding l .defineReference tag s).shelf = s.shelf := holding_shelf ..
    refine ⟨fun hbad => ?_, fun r d hbody => ?_⟩
    · exact exec_accepts_same (k := .defineReference) (a := refuse .badValue) hacc rfl
        (handleDefineReference_of_bad hbad)
    intro conflict
    have hconf : refConflicts (holding l .defineReference tag s).shelf d = true ↔ conflict := by
      rw [hshelf]
      exact refConflicts_iff
    refine ⟨fun hc => ?_, fun hc he hf => ?_, fun hc he hf => ?_, fun hc hne => ?_⟩
    · exact exec_accepts_same (k := .defineReference) (a := refuse .conflict) hacc rfl
        (handleDefineReference_of_conflict hbody (hconf.2 hc))
    · refine exec_accepts_same (k := .defineReference) (a := done []) hacc rfl ?_
      refine (handleDefineReference_of_equal hbody (mt hconf.1 hc) (by rwa [hshelf])).trans ?_
      rw [hshelf, if_neg hf]
    · refine ⟨timingEvent (clearForceOn r) s.shelf, ?_, ?_, timingEvent_frame (clearForceOn_frame r s.shelf)⟩
      · refine exec_accepts_shelf (k := .defineReference) (a := done []) hacc rfl ?_
        refine (handleDefineReference_of_equal hbody (mt hconf.1 hc) (by rwa [hshelf])).trans ?_
        rw [hshelf, if_pos hf]
        cases l <;> rfl
      · refine timingEvent_no_force ?_
        rw [clearForceOn, if_pos hf]
        rfl
    · obtain ⟨hdefn, hothers, hforced, hframe⟩ := changeReference_spec r d (editing (.refDef r d) s.shelf)
      refine ⟨changeReference r d (editing (.refDef r d) s.shelf), ?_, hdefn, hothers, hforced, hframe⟩
      have hne' : d ≠ (refOf (holding l .defineReference tag s).shelf r).defn := hshelf.symm ▸ hne
      exact heldChange_busShelf (k := .defineReference) (f := changeReference r d) hacc
        (handleDefineReference_of_change hbody (mt hconf.1 hc) hne')
  · intro refused inRange o
    have hold : (holding l .setTimingOptions tag s).shelf.tim.opts = s.shelf.tim.opts := by rw [holding_shelf]
    refine ⟨fun hbad => ?_, fun hin heq => ?_, fun hin hne => ?_⟩
    · exact exec_accepts_same (k := .setTimingOptions) (a := refuse .badValue) hacc rfl
        (handleSetTimingOptions_of_bad (timingOptionsOf_bad hbad))
    · exact exec_accepts_same (k := .setTimingOptions) (a := done []) hacc rfl
        (handleSetTimingOptions_of_equal ((timingOptionsOf_good hin).trans (congrArg some (heq.trans hold.symm))))
    · obtain ⟨hopts, hdefns, hframe⟩ := changeTimingOptions_spec o (editing (.timing o) s.shelf)
      refine ⟨changeTimingOptions o (editing (.timing o) s.shelf), ?_, hopts, hdefns, hframe⟩
      exact heldChange_busShelf (k := .setTimingOptions) hacc
        (handleSetTimingOptions_of_change (timingOptionsOf_good hin) (by rwa [hold]))

/-! ### Lock Out Reference and Force Reference (R127, R137) -/

section LockOut
variable {b : List Byte} {s : State} {r : RefNo} {on : Bool}

theorem handleLockOutReference_of_bad (h : 5 ≤ byteAt b 0 ∨ 1 < byteAt b 1) :
    handleLockOutReference b s = (s, refuse .badValue) := by
  rcases h with h | h
  · simp [handleLockOutReference, finOf_ge h, turnAway]
  · simp [handleLockOutReference, flag_none (Nat.not_le.2 h), turnAway]

theorem finOf_five (hr : r.val ≤ 4) (h : r.val = byteAt b 0) :
    finOf 5 (byteAt b 0) = some ⟨r.val, Nat.lt_succ_of_le hr⟩ := by
  rw [← h]
  exact finOf_lt _

theorem handleLockOutReference_eq (hr : r.val ≤ 4) (h : r.val = byteAt b 0) (hon : byteAt b 1 = on.toNat) :
    handleLockOutReference b s = (if !on && !(refOf s.shelf r).locked then s else busShelf (lockOut r on) s,
        done []) := by
  simp only [handleLockOutReference, finOf_five hr h, flagAt_eq_some.2 hon]
  split <;> rfl

/-- The change that a lock-out makes before the selector evaluates. -/
def lockedOut (r : RefNo) (on : Bool) (s : Shelf) : Shelf :=
  if on then clearForceOn r (setRef r (fun x => { x with locked := on }) s)
  else setRef r (fun x => { x with locked := on }) s

theorem lockOut_eq (r : RefNo) (on : Bool) (s : Shelf) : lockOut r on s = timingEvent (lockedOut r on) s := rfl

theorem lockedOut_ref (r : RefNo) (on : Bool) (s : Shelf) (q : RefNo) :
    refOf (lockedOut r on s) q = refOf (setRef r (fun x => { x with locked := on }) s) q := by
  unfold lockedOut
  split
  · exact clearForceOn_ref ..
  · rfl

theorem lockedOut_frame (r : RefNo) (on : Bool) (s : Shelf) : SameButTiming s (lockedOut r on s) := by
  have hset : SameButTiming s (setRef r (fun x => { x with locked := on }) s) := rfl
  unfold lockedOut
  split
  · exact hset.trans' (clearForceOn_frame _ _)
  · exact hset

theorem lockOut_spec (r : RefNo) (on : Bool) (s : Shelf) : (refOf (lockOut r on s) r).locked = on
    ∧ (∀ q, q ≠ r → (refOf (lockOut r on s) q).locked = (refOf s q).locked)
    ∧ (∀ q, (refOf (lockOut r on s) q).defn = (refOf s q).defn)
    ∧ (on = true → (lockOut r on s).tim.forced ≠ some r ∧ (refOf (lockOut r on s) r).state ≠ .usable)
    ∧ SameButTiming s (lockOut r on s) := by
  rw [lockOut_eq]
  refine ⟨?_, fun q hq => ?_, fun q => ?_, fun hon => ⟨timingEvent_not_forced ?_, ?_⟩,
    timingEvent_frame (lockedOut_frame r on s)⟩
  · rw [(timingEvent_defn ..).2, lockedOut_ref, refOf_setRef_same]
  · rw [(timingEvent_defn ..).2, lockedOut_ref, refOf_setRef_ne _ _ hq]
  · rw [(timingEvent_defn ..).1, lockedOut_ref]
    by_cases hq : q = r
    · rw [hq, refOf_setRef_same]
    · rw [refOf_setRef_ne _ _ hq]
  · rw [lockedOut, if_pos hon]
    exact clearForceOn_forced _ _
  · rw [timingEvent_ref]
    refine rederiveAll_locked ?_
    rw [lockedOut_ref, refOf_setRef_same, hon]

theorem handleForceReference_of_none (h : byteAt b 0 = 0xFF) :
    handleForceReference b s = (busShelf (timingEvent (setForce none)) s, done []) := by
  simp only [handleForceReference, if_pos h]

theorem handleForceReference_of_bad (h : 5 ≤ byteAt b 0) (hn : byteAt b 0 ≠ 0xFF) :
    handleForceReference b s = (s, refuse .badValue) := by
  simp only [handleForceReference, if_neg hn, finOf_ge h, turnAway]

theorem handleForceReference_of_ref (hr : r.val ≤ 4) (h : r.val = byteAt b 0) : handleForceReference b s
    = if isUsable s.shelf r then (busShelf (timingEvent (setForce (some r))) s, done []) else
        (s, refuse .conflict) := by
  have hn : byteAt b 0 ≠ 0xFF := by omega
  simp only [handleForceReference, if_neg hn, finOf_five hr h]
  rfl

end LockOut

/-- Settles O53: both requests by their bodies, and the event that each makes of the selector. -/
theorem lockOutAndForce : Obligations.LockOutAndForce := by
  intro l tag body s
  refine ⟨fun hacc => ?_, fun hacc => ?_⟩
  · intro answers
    have hshelf : (holding l .lockOutReference tag s).shelf = s.shelf := holding_shelf ..
    refine ⟨fun hbad => ?_, fun r on hr h hon => ⟨fun hoff hl => ?_, fun hlocks => ?_⟩⟩
    · exact exec_accepts_same (k := .lockOutReference) (a := refuse .badValue) hacc rfl
        (handleLockOutReference_of_bad hbad)
    · refine exec_accepts_same (k := .lockOutReference) (a := done []) hacc rfl
        ((handleLockOutReference_eq hr h hon).trans ?_)
      rw [hshelf, hoff, hl]
      rfl
    · have hchange : ¬ (!on && !(refOf s.shelf r).locked) = true := by
        rcases hlocks with hlocks | hlocks <;> simp [hlocks]
      refine ⟨lockOut r on s.shelf, ?_, lockOut_spec r on s.shelf⟩
      refine exec_accepts_shelf (k := .lockOutReference) (a := done []) hacc rfl
        ((handleLockOutReference_eq hr h hon).trans ?_)
      rw [hshelf, if_neg hchange]
      cases l <;> rfl
  · intro answers
    have hshelf : (holding l .forceReference tag s).shelf = s.shelf := holding_shelf ..
    refine ⟨fun hnone => ⟨timingEvent (setForce none) s.shelf, ?_, timingEvent_no_force rfl, timingEvent_frame rfl⟩,
      fun hbad hn => ?_, fun r hr h => ⟨fun hu => ?_, fun hu => ⟨timingEvent (setForce (some r)) s.shelf, ?_,
        timingEvent_frame rfl, rfl, fun hx => ?_⟩⟩⟩
    · exact exec_accepts_shelf (k := .forceReference) (a := done []) hacc rfl
        ((handleForceReference_of_none hnone).trans (by cases l <;> rfl))
    · exact exec_accepts_same (k := .forceReference) (a := refuse .badValue) hacc rfl
        (handleForceReference_of_bad hbad hn)
    · refine exec_accepts_same (k := .forceReference) (a := refuse .conflict) hacc rfl
        ((handleForceReference_of_ref hr h).trans (if_neg ?_))
      rw [hshelf, isUsable, decide_eq_true_iff]
      exact hu
    · refine exec_accepts_shelf (k := .forceReference) (a := done []) hacc rfl
        ((handleForceReference_of_ref hr h).trans ((if_pos ?_).trans (by cases l <;> rfl)))
      rw [hshelf, isUsable, decide_eq_true_iff]
      exact hu
    · rw [timingEvent_ref] at hx
      exact timingEvent_force rfl hx

end Sys2Proof.Machine

/-! Building inputs, the timers of the timing selector, and what its evaluation selects (R125, R127 to R131). -/

namespace Sys2Proof.Machine

/-! ### The evaluation of an event (R127 to R129) -/

/-- The references judged and the force settled, before the selection of an event. -/
def judged (f : Shelf → Shelf) (s : Shelf) : Shelf := settleForce (rederiveAll (f s))

section Event
variable {f : Shelf → Shelf} {s : Shelf}

theorem timingEvent_selector (f : Shelf → Shelf) (s : Shelf) :
    SameSelector (selectReference (judged f s)) (timingEvent f s) := (timingEvent_spec f s).2.1

/-- Judging leaves what is selected, and the states of the selector. -/
theorem judged_selector (f : Shelf → Shelf) (s : Shelf) : (judged f s).tim.st = (f s).tim.st
    ∧ (judged f s).tim.sel = (f s).tim.sel ∧ (judged f s).tim.valid = (f s).tim.valid
    ∧ (judged f s).tim.acquire = (f s).tim.acquire ∧ (judged f s).tim.lockedFor = (f s).tim.lockedFor
    ∧ (judged f s).tim.holdFor = (f s).tim.holdFor := by
  obtain ⟨-, -, -, hst, hsel, hvalid, hacquire, hlocked, hhold, -⟩ := settleForce_frame (rederiveAll (f s))
  obtain ⟨v, hv, -⟩ := rederiveAll_refs (f s)
  unfold judged
  rw [hst, hsel, hvalid, hacquire, hlocked, hhold, hv]
  exact ⟨rfl, rfl, rfl, rfl, rfl, rfl⟩

theorem judged_frame (f : Shelf → Shelf) (s : Shelf) : SameButTiming (f s) (judged f s) :=
  (rederiveAll_frame (f s)).trans' (settleForce_frame _).1

theorem timingEvent_refOf (f : Shelf → Shelf) (s : Shelf) (r : RefNo) :
    refOf (timingEvent f s) r = refOf (judged f s) r := by
  rw [timingEvent_ref, judged]
  exact congrArg (at' · r) (settleForce_frame _).2.1.symm

theorem timingEvent_grade (f : Shelf → Shelf) (s : Shelf) (r : RefNo) :
    gradeInUse (timingEvent f s) r = gradeInUse (judged f s) r := by
  have hscan : (timingEvent f s).scan = (judged f s).scan := by rw [(timingEvent_spec f s).1, judged_frame f s]
  unfold gradeInUse
  rw [timingEvent_refOf, hscan]

theorem timingEvent_ranks (f : Shelf → Shelf) (s : Shelf) (a b : RefNo) :
    ranksAbove (timingEvent f s) a b = ranksAbove (judged f s) a b := by
  simp only [ranksAbove, timingEvent_grade, timingEvent_refOf]

theorem timingEvent_usable (f : Shelf → Shelf) (s : Shelf) (r : RefNo) :
    (refOf (timingEvent f s) r).state = .usable ↔ isUsable (judged f s) r = true := by
  rw [timingEvent_refOf, isUsable, decide_eq_true_iff]

theorem timingEvent_forced_eq (f : Shelf → Shelf) (s : Shelf) :
    (timingEvent f s).tim.forced = (judged f s).tim.forced := by
  obtain ⟨-, -, -, hforced, -⟩ := timingEvent_selector f s
  exact hforced.trans (selectReference_frame _).2.2.2.1

theorem timingEvent_revertive (f : Shelf → Shelf) (s : Shelf) :
    (timingEvent f s).tim.opts = (judged f s).tim.opts := by
  obtain ⟨-, -, -, -, -, -, -, -, -, hopts, -⟩ := timingEvent_selector f s
  exact hopts.trans (selectReference_frame _).2.2.1

end Event

section Selection
variable {w : Shelf}

/-- R128: the selector switches to its choice. -/
theorem selectReference_sel (w : Shelf) : (selectReference w).tim.sel = timingChoice w := by
  unfold selectReference
  cases timingChoice w with
  | some c =>
    dsimp only
    split
    · assumption
    · rfl
  | none =>
    dsimp only
    cases hs : w.tim.sel with
    | none => simp [hs]
    | some r => cases hv : w.tim.valid <;> simp [hv, enterHoldover, enterFreeRun]

/-- R128: a selector whose choice stands already stays as it is. -/
theorem selectReference_self (h : timingChoice w = w.tim.sel) : selectReference w = w := by
  unfold selectReference
  rw [h]
  cases hs : w.tim.sel <;> simp

/-- R129: the state that a change of selection enters. -/
theorem selectReference_some {c : RefNo} (h : timingChoice w = some c) (hn : w.tim.sel ≠ some c) :
    (selectReference w).tim = enterAcquiring c w.tim := by
  simp only [selectReference, h, if_neg hn]

theorem selectReference_none (h : timingChoice w = none) (hn : w.tim.sel ≠ none) :
    (selectReference w).tim = if w.tim.valid then enterHoldover w.tim else enterFreeRun w.tim := by
  simp only [selectReference, h, if_pos (Option.isSome_iff_ne_none.2 hn)]

theorem timingChoice_of_forced {r : RefNo} (h : w.tim.forced = some r) (hu : isUsable w r = true) :
    timingChoice w = some r := by simp [timingChoice, h, Option.filter, hu]

/-- R127: no force holds. -/
def ForceIdle (w : Shelf) : Prop := ∀ r, w.tim.forced = some r → ¬ isUsable w r = true

theorem filter_of_forceIdle (h : ForceIdle w) : w.tim.forced.filter (isUsable w) = none := by
  cases hf : w.tim.forced with
  | none => rfl
  | some r => simpa using h r hf

/-- R128: without a USABLE selected reference the candidate is chosen. -/
theorem timingChoice_of_unusable (h : ForceIdle w) (hs : ∀ r, w.tim.sel = some r → ¬ isUsable w r = true) :
    timingChoice w = candidate w := by
  unfold timingChoice
  rw [filter_of_forceIdle h]
  dsimp only
  cases hsel : w.tim.sel with
  | none => rfl
  | some r => simp only [if_neg (hs r hsel)]

/-- R128: a USABLE selected reference gives way to a better grade, or with the revertive option to a better rank. -/
theorem timingChoice_of_usable {r c : RefNo} (h : ForceIdle w) (hs : w.tim.sel = some r) (hu : isUsable w r = true)
    (hc : candidate w = some c) : timingChoice w
      = if (gradeInUse w c).code < (gradeInUse w r).code ∨ w.tim.opts.revertive = true ∧ ranksAbove w c r = true
        then some c else some r := by
  unfold timingChoice
  rw [filter_of_forceIdle h]
  simp only [hs, hu, hc, if_true, Bool.and_eq_true]
  by_cases hg : (gradeInUse w c).code < (gradeInUse w r).code
  · simp only [if_pos hg, if_pos (Or.inl hg)]
  · simp only [hg, false_or, if_false]

theorem candidate_eq_none (h : ∀ r, ¬ isUsable w r = true) : candidate w = none := by
  obtain ⟨hsome, -⟩ := candidate_spec w
  cases hc : candidate w with
  | none => rfl
  | some c => exact absurd (decide_eq_true (hsome c hc).1) (h c)

end Selection

/-- An event that leaves the selection leaves the selector's state and timers as its change made them. -/
theorem timingEvent_stays {f : Shelf → Shelf} {s : Shelf} (h : (timingEvent f s).tim.sel = (f s).tim.sel) :
    SameSelector (judged f s) (timingEvent f s) := by
  have hsame := timingEvent_selector f s
  have hsel := hsame.2.2.1
  rw [selectReference_self] at hsame
  · exact hsame
  · rw [← selectReference_sel, ← hsel, h, (judged_selector f s).2.1]

/-! ### The judging of a reference (R125) -/

section Judging
variable {m : Bool} {r : RefNo} {s : Shelf}

theorem judgeRef_of_disabled (h : refEnabled s r = false) :
    refOf (judgeRef m r s) r = { refOf s r with state := .disabled, qual := none } := by
  simp [judgeRef, h]

theorem judgeRef_of_cause (h : refEnabled s r = true) (hc : hasCause s r = true) :
    refOf (judgeRef m r s) r = { refOf s r with state := .unusable, qual := none } := by
  simp [judgeRef, h, hc]

theorem judgeRef_qualifies (h : refEnabled s r = true) (hc : hasCause s r = false)
    (hs : (refOf s r).state = .disabled ∨ (refOf s r).state = .unusable) :
    refOf (judgeRef m r s) r = { refOf s r with state := .qualifying, qual := some 0 } := by
  rcases hs with hs | hs <;> simp [judgeRef, h, hc, hs]

theorem judgeRef_stays (h : refEnabled s r = true) (hc : hasCause s r = false)
    (hs : (refOf s r).state = .qualifying ∨ (refOf s r).state = .usable) : refOf (judgeRef false r s) r
        = refOf s r := by
  rcases hs with hs | hs <;> simp [judgeRef, h, hc, hs]

theorem refEnabled_iff (hr : r.val ≤ 4) : refEnabled s r = true ↔ (refOf s r).defn.priority ≠ 0 := by
  simp [refEnabled, hr]

/-- R125: the level of a building input. -/
def buildingPin (s : Shelf) (r : RefNo) : Bool := if r.val = 0 then s.pins.bc1 else s.pins.bc2

/-- R125: what is against a building reference. -/
theorem hasCause_building (hr : r.val < 2) (hd : (refOf s r).deriv = none) : hasCause s r = true
    ↔ buildingPin s r = false ∨ (refOf s r).defn.override = some .gx ∨ (refOf s r).locked = true := by
  have hlost : inputLost s r = !buildingPin s r := if_pos (decide_eq_true hr)
  have hgrade : gradeInUse s r = .gx ↔ (refOf s r).defn.override = some .gx := by
    have hbuilding : isBuilding r = true := decide_eq_true hr
    rw [gradeInUse, if_pos hbuilding]
    cases (refOf s r).defn.override <;> simp
  simp [hasCause, hlost, hgrade, hd, or_assoc]

/-- A building reference is judged without a derivation port. -/
theorem timingRun_building (hr : r.val < 2) (hd : (refOf s r).deriv = none) :
    refOf (timingEvent id s) r = refOf (judgeRef false r s) r := by
  have hport : derivationPort s r = (refOf s r).deriv := by
    have hline : ¬ isLine r = true := by
      rw [isLine_iff]
      omega
    rw [derivationPort, if_neg hline, hd]
  rw [timingEvent_ref, id, refOf_rederiveAll, rederiveRef, if_pos hport]

/-- R125: what a building input's level makes of its reference. -/
theorem timingRun_building_spec (hr : r.val < 2) (hd : (refOf s r).deriv = none) :
    let old := refOf s r
    let is := fun (st : RefState) (qual : Option Nat) => refOf (timingEvent id s) r
        = { old with state := st, qual := qual }
    (old.defn.priority = 0 → is .disabled none)
    ∧ (old.defn.priority ≠ 0 → (buildingPin s r = false ∨ old.defn.override = some .gx ∨ old.locked = true) →
        is .unusable none)
    ∧ (old.defn.priority ≠ 0 → buildingPin s r = true → old.defn.override ≠ some .gx → old.locked = false →
        (old.state = .disabled ∨ old.state = .unusable → is .qualifying (some 0))
        ∧ (old.state = .qualifying ∨ old.state = .usable → is old.state old.qual)) := by
  intro old is
  have henabled := refEnabled_iff (s := s) (show r.val ≤ 4 by omega)
  have hcause := hasCause_building hr hd
  refine ⟨fun h => ?_, fun h hc => ?_, fun h hb hx hl => ?_⟩
  · have hoff : refEnabled s r = false := Bool.eq_false_iff.2 fun he => henabled.1 he h
    exact (timingRun_building hr hd).trans (judgeRef_of_disabled hoff)
  · exact (timingRun_building hr hd).trans (judgeRef_of_cause (henabled.2 h) (hcause.2 hc))
  · have hnone : hasCause s r = false := by
      rw [Bool.eq_false_iff, Ne, hcause]
      rintro (hlost | hgx | hlocked)
      · exact absurd (hlost.symm.trans hb) Bool.false_ne_true
      · exact hx hgx
      · exact absurd (hl.symm.trans hlocked) Bool.false_ne_true
    exact ⟨fun hs => (timingRun_building hr hd).trans (judgeRef_qualifies (henabled.2 h) hnone hs),
      fun hs => (timingRun_building hr hd).trans (judgeRef_stays (henabled.2 h) hnone hs)⟩

theorem timingRun_pins (s : Shelf) : SameButTiming s (timingEvent id s) ∧ (timingEvent id s).pins = s.pins := by
  have hframe : SameButTiming s (timingEvent id s) := (timingEvent_spec id s).1
  refine ⟨hframe, ?_⟩
  rw [hframe]

/-- R125: a reference that has qualified stays USABLE with nothing against it. -/
theorem timingEvent_qualified (he : refEnabled s r = true) (hc : hasCause s r = false)
    (hd : derivationPort s r = (refOf s r).deriv) :
    let x := timingEvent (setRef r (fun v => { v with state := .usable, qual := none })) s
    (refOf x r).state = .usable ∧ (refOf x r).qual = none := by
  intro x
  obtain ⟨q, hq⟩ : ∃ q, q = setRef r (fun v => { v with state := .usable, qual := none }) s := ⟨_, rfl⟩
  have hself : refOf q r = { refOf s r with state := .usable, qual := none } := by rw [hq, refOf_setRef_same]
  have henabled : refEnabled q r = true := by
    rw [← he, refEnabled, refEnabled, hself]
  have hcause : hasCause q r = false := by
    rw [← hc]
    unfold hasCause inputLost gradeInUse
    rw [hself, hq]
    rfl
  have hport : derivationPort q r = (refOf q r).deriv := by
    rw [hself]
    refine Eq.trans ?_ hd
    unfold derivationPort
    rw [hself, hq]
    rfl
  have hx : refOf x r = refOf q r := by
    rw [timingEvent_ref, ← hq]
    exact rederiveAll_usable (congrArg Ref.state hself) henabled hcause hport
  rw [hx, hself]
  exact ⟨rfl, rfl⟩

end Judging

/-! ### The selector's timers (R129 to R131) -/

/-- R129: the change that the acquire timer's end makes before the selector evaluates. -/
def lockedNow (s : Shelf) : Shelf := { s with tim := enterLocked s.tim }

/-- R131: the change that the holdover timer's end makes before the selector evaluates. -/
def freeRunNow (s : Shelf) : Shelf := { s with tim := enterFreeRun s.tim }

theorem timingEvent_lockedNow {s : Shelf} (h : (timingEvent lockedNow s).tim.sel = s.tim.sel) :
    (timingEvent lockedNow s).tim.st = .locked ∧ (timingEvent lockedNow s).tim.acquire = none
    ∧ (timingEvent lockedNow s).tim.lockedFor = some 0 := by
  obtain ⟨-, hst, -, -, -, hacquire, hlocked, -⟩ := timingEvent_stays (f := lockedNow) (s := s) h
  obtain ⟨kst, -, -, kacquire, klocked, -⟩ := judged_selector lockedNow s
  exact ⟨hst.trans kst, hacquire.trans kacquire, hlocked.trans klocked⟩

theorem timingEvent_freeRunNow (s : Shelf) : (timingEvent freeRunNow s).tim.valid = false
    ∧ ((timingEvent freeRunNow s).tim.sel = none →
      (timingEvent freeRunNow s).tim.st = .freeRun ∧ (timingEvent freeRunNow s).tim.holdFor = none) := by
  obtain ⟨kst, -, kvalid, -, -, khold⟩ := judged_selector freeRunNow s
  refine ⟨?_, fun hsel => ?_⟩
  · obtain ⟨-, -, -, -, -, -, -, -, hvalid, -⟩ := timingEvent_selector freeRunNow s
    exact hvalid.trans ((selectReference_frame _).2.2.2.2.2 kvalid)
  · obtain ⟨-, hst, -, -, -, -, -, hhold, -⟩ := timingEvent_stays (f := freeRunNow) (s := s) hsel
    exact ⟨hst.trans kst, hhold.trans khold⟩

theorem qualified_eq {r : RefNo} {s : Shelf} (h : (refOf s r).state = .qualifying) :
    qualified r s = timingEvent (setRef r (fun x => { x with state := .usable, qual := none })) s := if_pos h
theorem acquired_eq {s : Shelf} (h : s.tim.st = .acquiring) :
    acquired s = timingEvent lockedNow s := if_pos h
theorem lockedLong_eq {s : Shelf} (h : s.tim.lockedFor ≠ none) :
    lockedLong s = { s with tim := { s.tim with valid := true } } := if_pos (Option.isSome_iff_ne_none.2 h)
theorem holdoverOver_eq {s : Shelf} (h : s.tim.st = .holdover) :
    holdoverOver s = timingEvent freeRunNow s := if_pos h

/-- R129: what a change of selection makes of the selector's state. -/
theorem timingEvent_switches {f : Shelf → Shelf} {s : Shelf} (h : (timingEvent f s).tim.sel ≠ (f s).tim.sel) :
    (∀ c, (timingEvent f s).tim.sel = some c →
      (timingEvent f s).tim.st = .acquiring ∧ (timingEvent f s).tim.acquire = some 0)
    ∧ ((timingEvent f s).tim.sel = none → (f s).tim.valid = true →
      (timingEvent f s).tim.st = .holdover ∧ (timingEvent f s).tim.holdFor = some 0)
    ∧ ((timingEvent f s).tim.sel = none → (f s).tim.valid = false → (timingEvent f s).tim.st = .freeRun) := by
  obtain ⟨-, hst, hsel, -, -, hacquire, -, hhold, -⟩ := timingEvent_selector f s
  obtain ⟨-, ksel, kvalid, -⟩ := judged_selector f s
  rw [hsel, selectReference_sel, ← ksel] at h
  rw [hst, hsel, hacquire, hhold, selectReference_sel, ← kvalid]
  refine ⟨fun c hc => ?_, fun hn hv => ?_, fun hn hv => ?_⟩
  · rw [selectReference_some hc (hc ▸ h.symm)]
    exact ⟨rfl, rfl⟩
  · rw [selectReference_none hn (hn ▸ h.symm), if_pos hv]
    exact ⟨rfl, rfl⟩
  · rw [selectReference_none hn (hn ▸ h.symm), if_neg (Bool.eq_false_iff.1 hv)]
    rfl

/-- R127, R128: the selection of an event without a force that holds. -/
theorem timingEvent_choice {f : Shelf → Shelf} {s : Shelf} (h : ForceIdle (judged f s)) :
    ((∀ r, ¬ isUsable (judged f s) r = true) → timingChoice (judged f s) = none)
    ∧ ∀ c, candidate (judged f s) = some c →
      ((∀ r, (f s).tim.sel = some r → ¬ isUsable (judged f s) r = true) → timingChoice (judged f s) = some c)
      ∧ ∀ r, (f s).tim.sel = some r → isUsable (judged f s) r = true → timingChoice (judged f s)
        = if (gradeInUse (judged f s) c).code < (gradeInUse (judged f s) r).code
            ∨ (judged f s).tim.opts.revertive = true ∧ ranksAbove (judged f s) c r = true then some c else some r := by
  obtain ⟨-, ksel, -⟩ := judged_selector f s
  rw [← ksel]
  refine ⟨fun hn => ?_, fun c hc => ⟨fun hs => ?_, fun r hs hu => timingChoice_of_usable h hs hu hc⟩⟩
  · rw [timingChoice_of_unusable h fun r _ => hn r, candidate_eq_none hn]
  · rw [timingChoice_of_unusable h hs, hc]

/-- Settles O54: each timer by the event that it makes of the selector, and an event by the selector's choice. -/
theorem timingTimersEnd : Obligations.TimingTimersEnd := by
  refine ⟨fun s => ⟨fun i b => ?_, fun r hq => ?_, fun ha => ?_, fun hl => ?_, fun hh => ?_⟩, fun f s => ?_⟩
  · cases i with
    | bc1 =>
      intro y r x old is
      obtain ⟨hframe, hpins⟩ := timingRun_pins y
      exact ⟨rfl, hframe, hpins, fun hd => timingRun_building_spec (s := y) (r := 0) (by decide) hd⟩
    | bc2 =>
      intro y r x old is
      obtain ⟨hframe, hpins⟩ := timingRun_pins y
      exact ⟨rfl, hframe, hpins, fun hd => timingRun_building_spec (s := y) (r := 1) (by decide) hd⟩
  · intro x
    refine ⟨?_, timingEvent_frame rfl, timingEvent_qualified⟩
    exact congrArg (fun y => Host.Outcome.next (worked y s)) (qualified_eq hq)
  · intro x
    have hx : x = timingEvent lockedNow s.shelf := rfl
    rw [hx]
    refine ⟨?_, timingEvent_frame (f := lockedNow) rfl, fun hsel _ => timingEvent_lockedNow hsel⟩
    exact congrArg (fun y => Host.Outcome.next (worked y s)) (acquired_eq ha)
  · exact congrArg (fun y => Host.Outcome.next (settled y s)) (lockedLong_eq hl)
  · intro x
    have hx : x = timingEvent freeRunNow s.shelf := rfl
    rw [hx]
    refine ⟨?_, timingEvent_frame (f := freeRunNow) rfl, timingEvent_freeRunNow s.shelf⟩
    exact congrArg (fun y => Host.Outcome.next (worked y s)) (holdoverOver_eq hh)
  · intro y x
    have hx : x = timingEvent f s := rfl
    clear_value x
    intro usable grade above best
    have hchoice : x.tim.sel = timingChoice (judged f s) := by
      obtain ⟨-, -, hsel, -⟩ := timingEvent_selector f s
      rw [hx, hsel, selectReference_sel]
    have hforced : x.tim.forced = (judged f s).tim.forced := by rw [hx, timingEvent_forced_eq]
    have hopts : x.tim.opts = (judged f s).tim.opts := by rw [hx, timingEvent_revertive]
    have hgrade (r : RefNo) : gradeInUse x r = gradeInUse (judged f s) r := by rw [hx, timingEvent_grade]
    have husable (r : RefNo) : usable r ↔ isUsable (judged f s) r = true := by
      rw [← timingEvent_usable, ← hx]
    have habove {a b : RefNo} : above a b ↔ ranksAbove (judged f s) a b = true := by
      rw [← timingEvent_ranks, ← hx]
      exact ranksAbove_iff.symm
    rw [hchoice]
    refine ⟨fun r hr hu => ?_, fun hidle => ?_, ?_, ?_⟩
    · exact timingChoice_of_forced (hforced ▸ hr) ((husable r).1 hu)
    · have hidle' : ForceIdle (judged f s) := fun r hr hu => hidle r (hforced.trans hr) ((husable r).2 hu)
      obtain ⟨hnone, hsome⟩ := timingEvent_choice hidle'
      refine ⟨fun hn => hnone fun r => mt (husable r).2 (hn r), fun c hbest => ?_⟩
      have hcand : candidate (judged f s) = some c := by
        refine candidate_of (of_decide_eq_true ((husable c).1 hbest.1)) fun r hr hne => ?_
        exact habove.1 (hbest.2 r ((husable r).2 (decide_eq_true hr)) hne)
      obtain ⟨hunusable, hheld⟩ := hsome c hcand
      refine ⟨fun hs => hunusable fun r hr => mt (husable r).2 (hs r hr), fun r hr hu => ?_⟩
      rw [hheld r hr ((husable r).1 hu)]
      refine if_congr (or_congr ?_ (and_congr ?_ habove.symm)) rfl rfl
      · rw [← hgrade, ← hgrade]
      · rw [← hopts]
    · rw [← hchoice, hx]
      intro hs
      exact (timingEvent_stays hs).2.1.trans (judged_selector f s).1
    · rw [← hchoice, hx]
      exact timingEvent_switches

end Sys2Proof.Machine

/-! Clear Group Fault and adoptions (R114 to R116, R118). -/

namespace Sys2Proof.Machine

/-! ### Clear Group Fault (R118) -/

section ClearFault
variable {b : List Byte} {s : State} {g : GroupNo} {d : GroupDef}

theorem handleClearGroupFault_of_bad (h : groupOfByte b 0 = none) :
    handleClearGroupFault b s = (s, refuse .badValue) := by simp [handleClearGroupFault, withGroup, h, turnAway]

theorem handleClearGroupFault_of_absent (h : groupOfByte b 0 = some g) (hd : defOf s.shelf g = none) :
    handleClearGroupFault b s = (s, refuse .absent) := by simp [handleClearGroupFault, withGroup, h, hd, turnAway]

theorem handleClearGroupFault_of_defined (h : groupOfByte b 0 = some g) (hd : defOf s.shelf g ≠ none) :
    handleClearGroupFault b s = if s.shelf.rdy.phase ≠ .armed then (busShelf (startArming .request) s, done [])
      else if (runOf s.shelf g).stuck then (busShelf (askAdoption g) s, refuse .accepted) else (s, done []) := by
  obtain ⟨d, hd⟩ := Option.ne_none_iff_exists'.1 hd
  by_cases hp : s.shelf.rdy.phase = .armed <;> simp [handleClearGroupFault, withGroup, h, hd, isArmed, hp, refuse]

end ClearFault

section Ask
variable {g : GroupNo} {s : Shelf}

/-- R118: an adoption is asked for in the executor alone. -/
theorem askAdoption_exe (g : GroupNo) (s : Shelf) : askAdoption g s = { s with exe := (askAdoption g s).exe } := by
  unfold askAdoption
  dsimp only
  split
  · rfl
  · split <;> rfl

theorem askAdoption_listed (h : adoptionListed s g = true) : askAdoption g s = s := if_pos h

theorem askAdoption_joins (h : adoptionListed s g = false) (hp : (execOf s g).plan = none)
    (hs : (execOf s g).subst = none)
    (hj : (execOf s g).job = none) : (askAdoption g s).exe.tasks = s.exe.tasks ++ [.adoption g] := by
  simp [askAdoption, h, hp, hs, hj, joinAdoption, setTasks, setExec]

theorem askAdoption_waits (h : adoptionListed s g = false)
    (hw : (execOf s g).plan ≠ none ∨ (execOf s g).subst ≠ none ∨ (execOf s g).job ≠ none) :
    askAdoption g s = setExec g (fun x => { x with adoptDue := true }) s := by
  simp only [ne_eq, ← Option.isSome_iff_ne_none] at hw
  simp [askAdoption, h, or_assoc, hw]

end Ask

/-! ### The reads of an adoption (R114) -/

theorem adoptNext_present {g : GroupNo} {p : PortNo} {rest : List PortNo} {got : List (PortNo × Option Word)}
    {y : Shelf}
    (h : portPresent y p = true) : adoptNext g (p :: rest) got y
      = askExecutor (.read (slotOf p) (controlOffset p)) (setActive (some (.adoption g (p :: rest) got)) y) := if_pos h

theorem adoptNext_blank {g : GroupNo} {p : PortNo} {rest : List PortNo} {got : List (PortNo × Option Word)} {y : Shelf}
    (h : portPresent y p = false) : adoptNext g (p :: rest) got y = adoptNext g rest (got ++ [(p, none)]) y :=
  if_neg (Bool.eq_false_iff.1 h)

theorem executorEnd_adoption {g : GroupNo} {rest : List PortNo} {got : List (PortNo × Option Word)} {y : Shelf}
    (e : TxnEnd)
    (h : y.exe.active = some (.adoption g rest got)) : executorEnd e y = adoptRead g rest got e (setActive none y) := by
  simp only [executorEnd, h]

/-! ### The end of an adoption (R115, R116) -/

section AdoptionEnd
variable {d : GroupDef} {got : List (PortNo × Option Word)} {g : GroupNo} {y : Shelf}

/-- R114: the outgoing request that the adoption knows. -/
def adoptedOut (d : GroupDef) (got : List (PortNo × Option Word)) : Nat × Nat :=
  ((adoptedWord d got d.protect).map (fun w => (outClassOf w, outChanOf w))).getD (ReqClass.idle.rank, 0)

/-- R115: the inconsistent adoption, by the channels that it knows. -/
theorem inconsistent_iff : inconsistent d got = true ↔
    let c := adoptedCarry d got
    let b := adoptedBridge d got
    ∃ w, adoptedWord d got d.protect = some w ∧ (d.working.length < c ∨ (d.shared = true ∧ d.working.length < b)
      ∨ (selectFlagOf w = true ∧ c = 0) ∨ (selectFlagOf w = false ∧ c ≠ 0) ∨ (d.shared = true ∧ c ≠ 0 ∧ c ≠ b)
      ∨ ∃ p ∈ d.working, ∃ v, adoptedWord d got p = some v ∧ selectOutOf v ≠ decide (d.channelOf p = some c)) := by
  have hport (p : PortNo) (c : Nat) : (match adoptedWord d got p with
      | none => false
      | some v => decide (selectOutOf v ≠ decide (d.channelOf p = some c))) = true
      ↔ ∃ v, adoptedWord d got p = some v ∧ selectOutOf v ≠ decide (d.channelOf p = some c) := by
    cases adoptedWord d got p <;> simp
  cases hw : adoptedWord d got d.protect with
  | none => simp [inconsistent, hw]
  | some w =>
    have hc : adoptedCarry d got = carryChanOf w := by simp [adoptedCarry, hw]
    have hb : d.shared = true → adoptedBridge d got = bridgeChanOf w := fun h => by simp [adoptedBridge, hw, h]
    simp only [inconsistent, hw, Bool.or_eq_true, Bool.and_eq_true, decide_eq_true_eq, List.any_eq_true,
      Bool.not_eq_true', or_assoc, and_assoc, Option.some.injEq, exists_eq_left', hc]
    refine or_congr Iff.rfl (or_congr (and_congr_right fun h => ?_) (or_congr Iff.rfl (or_congr Iff.rfl
      (or_congr (and_congr_right fun h => ?_) (exists_congr fun p => and_congr_right fun _ => hport p _)))))
    · rw [hb h]
      rfl
    · rw [hb h]

/-- R116: the word that a member is owed after a consistent adoption, or none. -/
def adoptionOwes (d : GroupDef) (got : List (PortNo × Option Word)) (p : PortNo) : Option (PortNo × Due) :=
  let due := dueWord d p (adoptedCarry d got) (adoptedBridge d got) (adoptedOut d got).1 (adoptedOut d got).2
  match adoptedWord d got p with
  | none => some (p, due)
  | some w => if meetsDue due w then none else some (p, due)

theorem adoptionOwed_eq : adoptionOwed y d got = (d.members.filter (portPresent y)).filterMap (adoptionOwes d got) :=
    rfl

theorem adoptionOwes_iff {p q : PortNo} {due : Due} : adoptionOwes d got q = some (p, due) ↔ q = p
    ∧ due = dueWord d p (adoptedCarry d got) (adoptedBridge d got) (adoptedOut d got).1 (adoptedOut d got).2
    ∧ (adoptedWord d got p = none ∨ ∃ w, adoptedWord d got p = some w ∧ withFields w (dueFields due w) ≠ w) := by
  unfold adoptionOwes
  constructor
  · intro h
    cases hw : adoptedWord d got q with
    | none =>
      simp only [hw, Option.some.injEq, Prod.mk.injEq] at h
      obtain ⟨rfl, rfl⟩ := h
      exact ⟨rfl, rfl, .inl hw⟩
    | some w =>
      simp only [hw] at h
      split at h
      · cases h
      · rename_i hm
        simp only [Option.some.injEq, Prod.mk.injEq] at h
        obtain ⟨rfl, rfl⟩ := h
        rw [meetsDue, decide_eq_true_iff, applyDue_fields] at hm
        exact ⟨rfl, rfl, .inr ⟨w, hw, hm⟩⟩
  · rintro ⟨rfl, rfl, hw | ⟨w, hw, hm⟩⟩
    · simp only [hw]
    · rw [← applyDue_fields] at hm
      simp only [hw, meetsDue, hm, decide_false, Bool.false_eq_true, if_false]

/-- R116: the owed words after a consistent adoption. -/
theorem mem_adoptionOwed {p : PortNo} {due : Due} :
    (p, due) ∈ adoptionOwed y d got ↔ p ∈ d.members ∧ portPresent y p = true
    ∧ due = dueWord d p (adoptedCarry d got) (adoptedBridge d got) (adoptedOut d got).1 (adoptedOut d got).2
    ∧ (adoptedWord d got p = none ∨ ∃ w, adoptedWord d got p = some w ∧ withFields w (dueFields due w) ≠ w) := by
  rw [adoptionOwed_eq, List.mem_filterMap]
  simp only [adoptionOwes_iff, List.mem_filter, and_assoc]
  constructor
  · rintro ⟨q, hmem, hpres, rfl, hdue⟩
    exact ⟨hmem, hpres, hdue⟩
  · rintro ⟨hmem, hpres, hdue⟩
    exact ⟨p, hmem, hpres, rfl, hdue⟩

theorem adoptAgain_standing (g : GroupNo) (s : Shelf) : Standing s (adoptAgain g s) ∧ (adoptAgain g s).alm = s.alm
    ∧ (adoptAgain g s).out = s.out := by
  unfold adoptAgain
  split
  · exact askAdoption_standing g s
  · exact ⟨.rfl' s, rfl, rfl⟩

theorem armingEnded_of_not_arming {s : Shelf} (h : s.rdy.phase ≠ .arming) : armingEnded g s = s :=
  if_neg fun hk => h hk.1

theorem adoptionEnd_inconsistent (hd : defOf y g = some d) (hp : y.rdy.phase ≠ .arming)
    (h : inconsistent d got = true) :
    adoptionEnd g got y = groupStuck g (none, 0, false) y := by
  simp only [adoptionEnd, hd, h, if_true]
  exact armingEnded_of_not_arming (by rwa [groupStuck_rdy])

/-- R115, R116: what a consistent adoption leaves of the group. -/
theorem adoptionEnd_consistent (hd : defOf y g = some d) (hp : y.rdy.phase ≠ .arming)
    (h : ¬ inconsistent d got = true) :
    let z := adoptionEnd g got y
    (runOf z g).sel = adoptedCarry d got ∧ (runOf z g).stuck = false
    ∧ (execOf z g).bridged = some (adoptedBridge d got) ∧ (execOf z g).carried = adoptedCarry d got
    ∧ (execOf z g).prepareDue = false ∧ (execOf z g).owed = adoptionOwed y d got
    ∧ GroupTold .adopted g none z ∧ ((runOf y g).stuck = true → GroupTold .unstuck g none z)
    ∧ (Obj.group g, Cond.selectorFault) ∉ z.alm.told := by
  let q := reportChange (.group g) .selectorFault false (setExec g (fun x => { x with
    bridged := some (adoptedBridge d got), carried := adoptedCarry d got, prepareDue := false
    owed := adoptionOwed y d got }) y)
  have hframe : SameButAlarms _ q := reportChange_frame ..
  have hrdy : q.rdy = y.rdy := hframe.standing.rdy
  have hrun : (runOf q g).stuck = (runOf y g).stuck := hframe.standing.stuck g
  have hlines := hframe.standing.lines g
  rw [execOf_setExec_same] at hlines
  obtain ⟨asel, astuck, alines, ardy, aadopted, aunstuck, atold⟩ := adopted_spec g (adoptedCarry d got) q
  obtain ⟨kst, kalm, kout⟩ := adoptAgain_standing g (adopted g (adoptedCarry d got) q)
  have hz : adoptionEnd g got y = adoptAgain g (adopted g (adoptedCarry d got) q) := by
    simp only [adoptionEnd, hd, if_neg h]
    refine armingEnded_of_not_arming ?_
    rw [kst.rdy, ardy, hrdy]
    exact hp
  intro z
  have hzl : (execOf z g).lines = _ := (congrArg (fun t => (execOf t g).lines) hz).trans
    ((kst.lines g).trans (alines.trans hlines))
  obtain ⟨hbridged, hcarried, howed, hdue, -⟩ := exec_lines hzl
  have hout : ∀ n, n ∈ (adopted g (adoptedCarry d got) q).out → n ∈ z.out := fun n hn => by
    rw [show z = _ from hz, kout]
    exact hn
  refine ⟨?_, ?_, hbridged, hcarried, hdue, howed, groupTold_mono aadopted hout, fun hs => ?_, ?_⟩
  · rw [show z = _ from hz, kst.sel, asel]
  · rw [show z = _ from hz, kst.stuck, astuck]
  · exact groupTold_mono (aunstuck (hrun.trans hs)) hout
  · rw [show z = _ from hz, kalm, atold]
    exact reportChange_absent _ _ _

end AdoptionEnd

/-- Settles O49: the request by the group and the phase, the adoption's reads one by one, and its two ends. -/
theorem groupFaultIsCleared : Obligations.GroupFaultIsCleared := by
  refine ⟨fun l tag body s hacc => ?_, fun y g p rest got => ?_, fun y g d got hd hp => ?_⟩
  · intro answers
    have hshelf : (holding l .clearGroupFault tag s).shelf = s.shelf := holding_shelf ..
    refine ⟨fun hbad => ?_, fun g hg => ⟨fun ha => ?_, fun hd => ?_⟩⟩
    · exact exec_accepts_same (k := .clearGroupFault) (a := refuse .badValue) hacc rfl
        (handleClearGroupFault_of_bad (groupOfByte_bad hbad))
    · exact exec_accepts_same (k := .clearGroupFault) (a := refuse .absent) hacc rfl
        (handleClearGroupFault_of_absent (groupOfByte_of hg) (by rwa [hshelf]))
    · have hh := handleClearGroupFault_of_defined (s := holding l .clearGroupFault tag s) (groupOfByte_of hg)
        (by rwa [hshelf])
      rw [hshelf] at hh
      refine ⟨fun hp => ?_, fun hp hs => ?_, fun hp hs => ⟨askAdoption g s.shelf, ?_, askAdoption_exe g s.shelf,
        askAdoption_listed, askAdoption_joins, fun hl hw => ?_⟩⟩
      · exact exec_accepts_shelf (k := .clearGroupFault) (a := done []) hacc rfl
          (hh.trans ((if_pos hp).trans (by cases l <;> rfl)))
      · refine exec_accepts_same (k := .clearGroupFault) (a := done []) hacc rfl (hh.trans ?_)
        rw [if_neg (not_not.2 hp), if_neg (Bool.eq_false_iff.1 hs)]
      · refine exec_accepts_shelf (k := .clearGroupFault) (a := refuse .accepted) hacc rfl (hh.trans ?_)
        rw [if_neg (not_not.2 hp), if_pos hs]
        cases l <;> rfl
      · rw [askAdoption_waits hl hw]
        exact ⟨rfl, execOf_setExec_same ..⟩
  · refine ⟨fun h => ?_, adoptNext_blank, fun h => ⟨fun w => ?_, fun a n off r w => ?_⟩, rfl⟩
    · rw [adoptNext_present h]
      exact ⟨rfl, rfl⟩
    · exact executorEnd_adoption _ h
    · exact executorEnd_adoption _ h
  · intro role word prot c b out bad z
    have hword (p : PortNo) : adoptedWord d got p = word p := adoptedWord_eq d got p
    have hbad : inconsistent d got = true ↔ bad := by
      have hiff := inconsistent_iff (d := d) (got := got)
      simp only [adoptedCarry, adoptedBridge, hword] at hiff
      exact hiff
    refine ⟨fun h => ?_, fun h => ?_⟩
    · rw [show z = _ from adoptionEnd_inconsistent hd hp (hbad.2 h)]
      exact groupStuck_gone ..
    · obtain ⟨hsel, hstuck, hbridged, hcarried, hdue, howed, htold, hunstuck, hfault⟩ :=
        adoptionEnd_consistent hd hp (mt hbad.1 h)
      have hc : adoptedCarry d got = c := by
        rw [adoptedCarry, hword]
        rfl
      have hb : adoptedBridge d got = b := by
        rw [adoptedBridge, hword]
        rfl
      have hout : adoptedOut d got = out := by
        rw [adoptedOut, hword]
        rfl
      rw [hc] at hsel hcarried
      rw [hb] at hbridged
      refine ⟨hsel, hstuck, hbridged, hcarried, hdue, fun p due => ?_, htold, hunstuck, hfault⟩
      rw [howed, mem_adoptionOwed, hc, hb, hout, hword]

end Sys2Proof.Machine

/-! The executor's timers and the exchanges that it takes (R108, R110, R111, R120). -/

namespace Sys2Proof.Machine

/-! ### The timers -/

section Timers
variable {g : GroupNo} {s : Shelf}

theorem confirmOver_running (h : (execOf s g).confirm ≠ none) :
    confirmOver g s = reportChange (.group g) .farEndSilent true s := if_pos (Option.isSome_iff_ne_none.2 h)

theorem retryOver_running (h : (execOf s g).retry ≠ none) (hs : (execOf s g).step = .retryWait) : retryOver g s
    = setTasks (fun t => t ++ [.exchange g]) (setExec g (fun x => { x with retry := none, step := .queued }) s) := by
  simp [retryOver, Option.isSome_iff_ne_none, h, hs]

theorem clearRetryOver_running (h : s.exe.clearWait ≠ none) :
    clearRetryOver s = syncClear { s with exe := { s.exe with clearWait := none } } :=
  if_pos (Option.isSome_iff_ne_none.2 h)

theorem syncClear_frame (s : Shelf) :
    syncClear s = { s with exe := { s.exe with tasks := (syncClear s).exe.tasks } } := by
  unfold syncClear
  split <;> rfl

theorem clearPorts_ne_nil (h : ∃ p ∈ s.exe.clearList, portPresent s p = true) : (clearPorts s).isEmpty = false := by
  obtain ⟨p, hp, hpresent⟩ := h
  have hmem : p ∈ s.exe.clearList.filter (portPresent s) := List.mem_filter.2 ⟨hp, hpresent⟩
  rw [clearPorts, List.isEmpty_eq_false_iff, Ne, List.take_eq_nil_iff, not_or]
  exact ⟨by decide, List.ne_nil_of_mem hmem⟩

/-- R120: in ARMED a clear task stands for a port on a PRESENT slot. -/
theorem syncClear_stands (ha : s.rdy.phase = .armed) (hp : ∃ p ∈ s.exe.clearList, portPresent s p = true)
    (hw : s.exe.clearWait = none) : Task.clear ∈ (syncClear s).exe.tasks ∨ clearListed s = true := by
  cases hl : clearListed s with
  | true => exact .inr rfl
  | false =>
    have hjoins : syncClear s = setTasks (fun t => t ++ [.clear]) s := by
      simp [syncClear, isArmed, ha, clearPorts_ne_nil hp, hw, hl]
    rw [hjoins]
    exact .inl (List.mem_append_right _ (List.mem_singleton.2 rfl))

end Timers

/-! ### The words that an exchange names (R108) -/

section Taken
variable {y : Shelf} {g : GroupNo} {d : GroupDef} {j : XJob} {pl : XPlan}

/-- The bus names of a list of channels' control words. -/
def channelWords (d : GroupDef) (l : List Nat) : List (SlotNo × Nat) :=
  (l.filterMap d.portOf).map (fun p => (slotOf p, controlOffset p))

theorem portsOfChannels_words (d : GroupDef) (l : List Nat) :
    (portsOfChannels d l).map (fun x => controlWord x.1) = channelWords d l := by
  simp only [portsOfChannels, channelWords, List.map_filterMap, Option.map_map]
  rfl

/-- R40: channel 0 names a port, so a list that begins with it names one. -/
theorem portsOfChannels_zero (d : GroupDef) (l : List Nat) : (portsOfChannels d ([0] ++ l)).isEmpty = false := by
  simp [portsOfChannels, GroupDef.portOf]

theorem clearSource_bp (x : GroupExec) (a b : XJob) (s : Shelf) : (clearSource x a b s).bp = s.bp := by
  unfold clearSource
  split
  · split <;> rfl
  · rfl

/-- R107: an exchange that names words is taken to the bus. -/
theorem takeExchange_names (hd : defOf y g = some d) (hj : (execOf y g).job = some j)
    (hs : (execOf y g).step ≠ .recovery)
    (hp : (formJob y d (execOf y g) j).ports.isEmpty = false) : takeExchange g y
      = askExecutor (.exchange ((formJob y d (execOf y g) j).ports.map (fun x => controlWord x.1)))
          (setActive (some (.exchange g)) (clearSource (execOf y g) j (formJob y d (execOf y g) j)
            (setExec g (fun x => { x with
              job := some (formJob y d (execOf y g) j), step := .atBus, saved := [] }) y))) := by
  simp only [takeExchange, hd, hj, if_neg hs, hp, Bool.false_eq_true, if_false]

theorem formJob_plan (hp : j.ports = []) (hpl : (execOf y g).plan = some pl)
    (hk : j.kind = .bridge ∨ j.kind = .select ∨ j.kind = .release) :
    formJob y d (execOf y g) j = { j with ports := planPorts d (execOf y g) pl j.kind } := by
  rcases hk with hk | hk | hk <;> simp [formJob, hp, formExchange, hk, hpl]

/-- R108: a plan's exchange names the words of its channels, of which channel 0 is the first. -/
theorem takeTask_plan {l : List Nat} (hd : defOf y g = some d) (hj : (execOf y g).job = some j) (hp : j.ports = [])
    (hpl : (execOf y g).plan = some pl) (hs : (execOf y g).step ≠ .recovery)
    (hk : j.kind = .bridge ∨ j.kind = .select ∨ j.kind = .release)
    (hports : planPorts d (execOf y g) pl j.kind = portsOfChannels d ([0] ++ l)) :
    (takeTask (.exchange g) y).exe.active = some (.exchange g)
    ∧ (takeTask (.exchange g) y).bp.waitExecutor = some (.exchange (channelWords d ([0] ++ l))) := by
  have hform : (formJob y d (execOf y g) j).ports = portsOfChannels d ([0] ++ l) := by
    rw [formJob_plan hp hpl hk, hports]
  rw [takeTask, takeExchange_names hd hj hs (by rw [hform]; exact portsOfChannels_zero d l), hform,
    portsOfChannels_words]
  exact ⟨rfl, rfl⟩

theorem formJob_again (hp : j.ports ≠ []) : formJob y d (execOf y g) j = j := by
  simp [formJob, hp]

/-- R111: a later attempt names the same words. -/
theorem takeTask_again (hd : defOf y g = some d) (hj : (execOf y g).job = some j) (hp : j.ports ≠ [])
    (hs : (execOf y g).step ≠ .recovery) : takeTask (.exchange g) y = { y with
      exe := { y.exe with
        active := some (.exchange g)
        groups := put y.exe.groups g { execOf y g with step := .atBus, saved := [] } }
      bp := { y.bp with waitExecutor := some (.exchange
          (j.ports.map (fun p => (slotOf p.1, controlOffset p.1)))) } } := by
  have hempty : j.ports.isEmpty = false := List.isEmpty_eq_false_iff.2 hp
  have hsource : ∀ s, clearSource (execOf y g) j j s = s := fun s => by
    unfold clearSource
    rw [hempty]
    split <;> rfl
  have hform := formJob_again (y := y) (g := g) (d := d) hp
  rw [takeTask, takeExchange_names hd hj hs (by rw [hform]; exact hempty), hform, hsource]
  have hself : ({ execOf y g with job := some j, step := .atBus, saved := [] } : GroupExec)
      = { execOf y g with step := .atBus, saved := [] } := by rw [← hj]
  show ({ y with exe := _, bp := _ } : Shelf) = _
  rw [← hself]
  rfl

end Taken

end Sys2Proof.Machine

/-! The ends of exchanges (R109 to R113, R116, R117, R119). -/

namespace Sys2Proof.Machine

section Ends
variable {y : Shelf} {g : GroupNo} {d : GroupDef} {j : XJob} {pl : XPlan}

/-! ### What reaches the executor (R107) -/

theorem executorEnd_done (ha : y.exe.active = some (.exchange g)) (hj : (execOf y g).job = some j)
    (hs : (execOf y g).step ≠ .recovery) (words : List Word) :
    executorEnd (.done words) y = exchangeDone g j (setActive none y) := by
  have hj' : (execOf (setActive none y) g).job = some j := hj
  have hs' : (execOf (setActive none y) g).step ≠ .recovery := hs
  simp only [executorEnd, ha, groupExchangeEnd, hj', if_neg hs']

theorem executorEnd_fault (ha : y.exe.active = some (.exchange g)) (hj : (execOf y g).job = some j)
    (hs : (execOf y g).step ≠ .recovery) (a : BusAnswer) (n : SlotNo) (off reads w : Nat) :
    executorEnd (.fault a n off reads w) y = exchangeFaulted g j a w (setActive none y) := by
  have hj' : (execOf (setActive none y) g).job = some j := hj
  have hs' : (execOf (setActive none y) g).step ≠ .recovery := hs
  simp only [executorEnd, ha, groupExchangeEnd, hj', if_neg hs']

theorem executorEnd_recovered (ha : y.exe.active = some (.exchange g)) (hj : (execOf y g).job = some j)
    (hs : (execOf y g).step = .recovery) (words : List Word) :
    executorEnd (.done words) y = retryLater g j (j.fault, j.attempt, true) (setActive none y) := by
  have hj' : (execOf (setActive none y) g).job = some j := hj
  have hs' : (execOf (setActive none y) g).step = .recovery := hs
  simp only [executorEnd, ha, groupExchangeEnd, hj', if_pos hs']

theorem executorEnd_lost (ha : y.exe.active = some (.exchange g)) (hj : (execOf y g).job = some j)
    (hs : (execOf y g).step = .recovery) (a : BusAnswer) (n : SlotNo) (off reads w : Nat) :
    executorEnd (.fault a n off reads w) y = groupStuck g (some a, j.attempt, true) (setActive none y) := by
  have hj' : (execOf (setActive none y) g).job = some j := hj
  have hs' : (execOf (setActive none y) g).step = .recovery := hs
  simp only [executorEnd, ha, groupExchangeEnd, hj', if_pos hs']

/-! ### Retries and STUCK groups (R111 to R113) -/

/-- R111: the task waits for its next attempt. -/
theorem retryLater_waits {f : Option BusAnswer × Nat × Bool} (h : j.attempt < 3) :
    runOf (retryLater g j f y) g = runOf y g ∧ (retryLater g j f y).exe.tasks = y.exe.tasks
    ∧ execOf (retryLater g j f y) g = { execOf y g with
        job := some { j with attempt := j.attempt + 1, fault := none }, saved := [], step := .retryWait,
        retry := some 0 } := by
  rw [retryLater, if_pos h]
  exact ⟨rfl, rfl, execOf_setExec_same ..⟩

theorem retryLater_stuck {f : Option BusAnswer × Nat × Bool} (h : 3 ≤ j.attempt) :
    retryLater g j f y = groupStuck g f y := if_neg (Nat.not_lt.2 h)

/-- R113: a group becomes STUCK from the shelf with its task at the bus. -/
theorem groupStuck_from (g : GroupNo) (f : Option BusAnswer × Nat × Bool) {s : Shelf} (hx : execOf s g = execOf y g)
    (hr : runOf s g = runOf y g) (ho : s.ords = y.ords) (hrecs : s.recs = y.recs) (hw : Wide y s) (hc : SameCards y s) :
    GoneStuck g f y (groupStuck g f s) :=
  goneStuck_from (groupStuck_gone g f s) hx hr ho hrecs (wide_settings hw).1 hc

theorem groupStuck_idle (g : GroupNo) (f : Option BusAnswer × Nat × Bool) (y : Shelf) :
    GoneStuck g f y (groupStuck g f (setActive none y)) :=
  groupStuck_from g f rfl rfl rfl rfl (wide_rfl y) ⟨rfl, rfl, rfl, rfl⟩

theorem groupStuck_told_fault (g : GroupNo) (e : GroupEvent) (n : Option (Option BusAnswer × Nat × Bool))
    (f : Option BusAnswer × Nat × Bool) (y : Shelf) :
    GoneStuck g f y (groupStuck g f (groupNotice e g n (setActive none y))) :=
  groupStuck_from g f rfl rfl rfl rfl (wide_rfl y) ⟨rfl, rfl, rfl, rfl⟩

/-- R111: a fault with no write done. -/
theorem exchangeFaulted_unwritten (a : BusAnswer) : exchangeFaulted g j a 0 y
    = retryLater g j (some a, j.attempt, false) (groupNotice .fault g (some (some a, j.attempt, false)) y) := rfl

theorem exchangeFaulted_unwritten_told (a : BusAnswer) :
    GroupTold .fault g (some (some a, j.attempt, false)) (exchangeFaulted g j a 0 y) := by
  rw [exchangeFaulted_unwritten]
  exact groupTold_mono (groupNotice_told ..) fun n hn => free_retryLater (made_free n) hn

/-- R112: a fault with some writes done leads to a recovery, at the head of the task list. -/
theorem exchangeFaulted_written {w : Nat} (h : 0 < w) (a : BusAnswer) :
    let z := exchangeFaulted g j a w y
    GroupTold .fault g (some (some a, j.attempt, true)) z ∧ runOf z g = runOf y g
    ∧ z.exe.tasks = .exchange g :: y.exe.tasks
    ∧ execOf z g = { execOf y g with job := some { j with fault := some a }
                                     saved := recoveryWords (execOf y g).saved w, step := .recovery } := by
  have hw : ¬ w = 0 := Nat.pos_iff_ne_zero.1 h
  simp only [exchangeFaulted, if_neg hw, decide_eq_true h]
  refine ⟨?_, rfl, rfl, execOf_setExec_same ..⟩
  exact groupTold_mono (groupNotice_told .fault g (some (some a, j.attempt, true)) y) fun _ hn => hn

/-! ### The next work of a group -/

theorem scheduleGroup_exe (g : GroupNo) (s : Shelf) : scheduleGroup g s
    = { s with exe := (scheduleGroup g s).exe } := by
  unfold scheduleGroup
  dsimp only
  split
  · rfl
  · split
    · rfl
    · split <;> rfl

theorem scheduleGroup_runOf (g k : GroupNo) (s : Shelf) : runOf (scheduleGroup g s) k = runOf s k := by
  rw [scheduleGroup_exe]
  rfl

/-- R107: the next work joins the task list. -/
theorem scheduleGroup_joins {kind : XKind} {s : Shelf} (hd : defOf s g = some d) (ha : s.rdy.phase = .armed)
    (hr : (runOf s g).stuck = false) (hj : (execOf s g).job = none) (hs : (execOf s g).step ≠ .confirmWait)
    (hl : adoptionListed s g = false) (hn : nextWork (execOf s g) = some kind) :
    scheduleGroup g s = joinExchange g kind s := by
  simp [scheduleGroup, hd, isArmed, ha, hr, hj, hs, hl, hn]

/-! ### A completed bridge (R109, R110) -/

theorem endConfirm_exec (g : GroupNo) (s : Shelf) : execOf (endConfirm g s) g
    = { execOf s g with
        confirm := none
        step := if (execOf s g).step = .confirmWait then .queued else (execOf s g).step } := by
  have hexe : (endConfirm g s).exe = _ := (reportChange_frame ..).2.2.2.2.2.1
  exact (congrArg (fun e : Executor => at' e.groups g) hexe).trans (execOf_setExec_same ..)

theorem endConfirm_frame (g : GroupNo) (s : Shelf) : (endConfirm g s).eng = s.eng ∧ (endConfirm g s).rdy = s.rdy
    ∧ (endConfirm g s).exe.tasks = s.exe.tasks ∧ (endConfirm g s).exe.active = s.exe.active := by
  have hframe : SameButAlarms _ (endConfirm g s) := reportChange_frame ..
  obtain ⟨-, -, -, -, heng, hexe, -, -, hrdy, -⟩ := hframe
  exact ⟨heng, hrdy, (congrArg Executor.tasks hexe :), (congrArg Executor.active hexe :)⟩

/-- R109: the group's record after a completed bridge exchange, while the far end is awaited. -/
def bridgeDone (pl : XPlan) (x : GroupExec) : GroupExec := { x with
  job := none, saved := [], bridged := some pl.target, carried := 0, step := .confirmWait, confirm := some 0 }

/-- R110: the record once the far end has followed: the select exchange is next. -/
def bridgeConfirmed (pl : XPlan) (x : GroupExec) : GroupExec :=
  { bridgeDone pl x with plan := some { pl with next := .select }, confirm := none, step := .queued }

theorem exchangeDone_bridge (hk : j.kind = .bridge) (hp : (execOf y g).plan = some pl) :
    exchangeDone g j y = judgeConfirm g (setExec g (bridgeDone pl) y) := by
  simp only [exchangeDone, hk, hp, Option.map_some, Option.getD_some]
  rfl

section Bridge

theorem judgeConfirm_waits (hd : defOf y g = some d) (hf : farBridged y d ≠ some pl.target)
    (hp : (execOf y g).plan = some pl) : judgeConfirm g (setExec g (bridgeDone pl) y)
        = setExec g (bridgeDone pl) y := by
  have hd' : defOf (setExec g (bridgeDone pl) y) g = some d := hd
  have hf' : farBridged (setExec g (bridgeDone pl) y) d ≠ some pl.target := hf
  simp [judgeConfirm, hd', bridgeDone, hp, hf']

theorem judgeConfirm_found (hd : defOf y g = some d) (hf : farBridged y d = some pl.target)
    (hp : (execOf y g).plan = some pl) : judgeConfirm g (setExec g (bridgeDone pl) y)
      = scheduleGroup g (endConfirm g (setExec g (fun x => { x with plan := some { pl with next := .select } })
          (setExec g (bridgeDone pl) y))) := by
  have hd' : defOf (setExec g (bridgeDone pl) y) g = some d := hd
  have hf' : farBridged (setExec g (bridgeDone pl) y) d = some pl.target := hf
  simp [judgeConfirm, hd', bridgeDone, hp, hf']

/-- R110: the shelf with the far end's confirm found, before the group's next work joins. -/
def confirmFound (g : GroupNo) (pl : XPlan) (y : Shelf) : Shelf :=
  endConfirm g (setExec g (fun x => { x with plan := some { pl with next := .select } }) (setExec g (bridgeDone pl) y))

theorem confirmFound_exec (g : GroupNo) (pl : XPlan) (y : Shelf) :
    execOf (confirmFound g pl y) g = bridgeConfirmed pl (execOf y g) := by
  rw [confirmFound, endConfirm_exec, execOf_setExec_same, execOf_setExec_same]
  rfl

theorem confirmFound_frame (g : GroupNo) (pl : XPlan) (y : Shelf) : (confirmFound g pl y).eng = y.eng
    ∧ (confirmFound g pl y).rdy = y.rdy ∧ (confirmFound g pl y).exe.tasks = y.exe.tasks
    ∧ (confirmFound g pl y).exe.active = y.exe.active := by
  obtain ⟨heng, hrdy, htasks, hactive⟩ := endConfirm_frame g
    (setExec g (fun x => { x with plan := some { pl with next := .select } }) (setExec g (bridgeDone pl) y))
  exact ⟨heng, hrdy, htasks, hactive⟩

theorem confirmFound_told (g : GroupNo) (pl : XPlan) (y : Shelf) :
    (Obj.group g, Cond.farEndSilent) ∉ (confirmFound g pl y).alm.told := reportChange_absent _ _ _

theorem nextWork_confirmed {x : GroupExec} (ho : x.owed = []) (hs : x.subst = none) :
    nextWork (bridgeConfirmed pl x) = some .select := by
  simp [nextWork, bridgeConfirmed, bridgeDone, ho, hs]

/-- R110: the select exchange joins once the far end has followed, where the group has no other work. -/
theorem confirmFound_joins (hd : defOf y g = some d) (ha : y.rdy.phase = .armed) (hr : (runOf y g).stuck = false)
    (ho : (execOf y g).owed = []) (hs : (execOf y g).subst = none) (hl : Task.adoption g ∉ y.exe.tasks)
    (hactive : y.exe.active = none) :
    scheduleGroup g (confirmFound g pl y) = joinExchange g .select (confirmFound g pl y) := by
  obtain ⟨heng, hrdy, htasks, hact⟩ := confirmFound_frame g pl y
  have hexec := confirmFound_exec g pl y
  refine scheduleGroup_joins (d := d) ?_ ?_ ?_ ?_ ?_ ?_ ?_
  · rw [defOf, heng]
    exact hd
  · rw [hrdy, ha]
  · rw [runOf, heng]
    exact hr
  · rw [hexec]
    rfl
  · rw [hexec]
    exact XStep.noConfusion
  · simp [adoptionListed, htasks, hl, hact, hactive]
  · rw [hexec]
    exact nextWork_confirmed ho hs

end Bridge

/-! ### Completed exchanges (R109, R116, R117, R119) -/

theorem exchangeDone_select (hk : j.kind = .select) (hp : (execOf y g).plan = some pl) :
    exchangeDone g j y = planCompleted g pl.target y := by
  simp [exchangeDone, hk, hp]

theorem exchangeDone_release (hk : j.kind = .release) (hd : defOf y g = some d) :
    exchangeDone g j y = planCompleted g 0
      (if d.shared then setExec g (fun x => { x with bridged := some 0 }) y else y) := by
  simp [exchangeDone, hk, hd]

/-- R109, R110: what a completed bridge exchange leaves. -/
theorem exchangeDone_bridge_spec (hk : j.kind = .bridge) (hp : (execOf y g).plan = some pl) (hd : defOf y g = some d)
    (hactive : y.exe.active = none) :
    let x := execOf y g
    let z := exchangeDone g j y
    (execOf z g).bridged = some pl.target ∧ (execOf z g).carried = 0 ∧ runOf z g = runOf y g
    ∧ (farBridged y d ≠ some pl.target → z.exe.tasks = y.exe.tasks ∧ execOf z g = bridgeDone pl x)
    ∧ (farBridged y d = some pl.target → (execOf z g).confirm = none ∧ (Obj.group g, Cond.farEndSilent) ∉ z.alm.told
      ∧ (y.rdy.phase = .armed → (runOf y g).stuck = false → x.owed = [] → x.subst = none →
          Task.adoption g ∉ y.exe.tasks →
          (execOf z g).job = some ⟨.select, [], 1, none⟩ ∧ z.exe.tasks = y.exe.tasks ++ [.exchange g])) := by
  intro x z
  have hz : z = judgeConfirm g (setExec g (bridgeDone pl) y) := exchangeDone_bridge hk hp
  by_cases hf : farBridged y d = some pl.target
  · have hfound : z = scheduleGroup g (confirmFound g pl y) := hz.trans (judgeConfirm_found hd hf hp)
    have hexec := confirmFound_exec g pl y
    obtain ⟨heng, -, htasks, -⟩ := confirmFound_frame g pl y
    obtain ⟨-, hconfirm, -⟩ := scheduleGroup_own g (confirmFound g pl y)
    obtain ⟨hbridged, hcarried, -⟩ := exec_lines ((scheduleGroup_standing g (confirmFound g pl y)).lines g)
    rw [hexec] at hconfirm hbridged hcarried
    rw [hfound]
    refine ⟨hbridged, hcarried, ?_, fun hn => absurd hf hn, fun _ => ⟨hconfirm, ?_, fun ha hr ho hs hl => ?_⟩⟩
    · rw [scheduleGroup_runOf, runOf, heng]
      rfl
    · rw [scheduleGroup_alm]
      exact confirmFound_told g pl y
    · rw [confirmFound_joins hd ha hr ho hs hl hactive]
      refine ⟨?_, ?_⟩
      · exact congrArg GroupExec.job (execOf_setExec_same g _ (confirmFound g pl y))
      · exact congrArg (· ++ [Task.exchange g]) htasks
  · have hwaits : z = setExec g (bridgeDone pl) y := hz.trans (judgeConfirm_waits hd hf hp)
    have hexec : execOf z g = bridgeDone pl x := by rw [hwaits, execOf_setExec_same]
    refine ⟨?_, ?_, ?_, fun _ => ⟨?_, hexec⟩, fun hn => absurd hn hf⟩
    · rw [hexec]
      rfl
    · rw [hexec]
      rfl
    · rw [hwaits]
      rfl
    · rw [hwaits]
      rfl

/-- R109: what a completed release exchange leaves. -/
theorem exchangeDone_release_spec (hk : j.kind = .release) (hd : defOf y g = some d) :
    let z := exchangeDone g j y
    (runOf z g).sel = 0 ∧ (execOf z g).carried = 0
    ∧ (execOf z g).bridged = (if d.shared then some 0 else (execOf y g).bridged)
    ∧ ((runOf y g).sel ≠ 0 → GroupTold .switched g none z) := by
  intro z
  have hz : z = _ := exchangeDone_release hk hd
  cases hsh : d.shared with
  | false =>
    obtain ⟨hsel, -, hlines, htold⟩ := planCompleted_spec g 0 y
    obtain ⟨hbridged, hcarried, -⟩ := exec_lines hlines
    rw [hz, hsh]
    exact ⟨hsel, hcarried, hbridged, htold⟩
  | true =>
    obtain ⟨hsel, -, hlines, htold⟩ := planCompleted_spec g 0 (setExec g (fun x => { x with bridged := some 0 }) y)
    rw [execOf_setExec_same] at hlines
    obtain ⟨hbridged, hcarried, -⟩ := exec_lines hlines
    rw [hz, hsh]
    exact ⟨hsel, hcarried, hbridged, htold⟩

/-- R117: the shelf with the restored words no longer owed. -/
def restored (g : GroupNo) (j : XJob) (y : Shelf) : Shelf :=
  setExec g (fun x => { x with owed := x.owed.filter (fun w => decide (w.1 ∉ j.ports.map Prod.fst)) }) (endJob g y)

theorem exchangeDone_restore (hk : j.kind = .restore) :
    exchangeDone g j y = scheduleGroup g (finishPreparation g (restored g j y)) := by
  simp only [exchangeDone, hk]
  rfl

theorem restored_exec (g : GroupNo) (j : XJob) (y : Shelf) : execOf (restored g j y) g = { execOf y g with
    job := none, saved := [], step := .queued
    owed := (execOf y g).owed.filter (fun w => decide (w.1 ∉ j.ports.map Prod.fst)) } := by
  rw [restored, execOf_setExec_same, endJob, execOf_setExec_same]

/-- R116, R117: what a completed restore leaves of the group, whose preparation may have ended with it. -/
theorem exchangeDone_restore_spec (hk : j.kind = .restore) (hd : defOf y g = some d) :
    let x := execOf y g
    let owed := x.owed.filter (fun w => decide (w.1 ∉ j.ports.map Prod.fst))
    let finished := x.prepareDue = true ∧ owed = [] ∧ y.rdy.phase = .armed ∧ (runOf y g).stuck = false
    let z := exchangeDone g j y
    (execOf z g).owed = owed ∧ (runOf z g).sel = (runOf y g).sel ∧ (runOf z g).stuck = (runOf y g).stuck
    ∧ (finished → (execOf z g).prepareDue = false ∧ (execOf z g).carried = 0
      ∧ (execOf z g).bridged = some (if d.shared then 0 else 1))
    ∧ (¬ finished → (execOf z g).prepareDue = x.prepareDue ∧ (execOf z g).bridged = x.bridged
      ∧ (execOf z g).carried = x.carried) := by
  intro x owed finished z
  have hexec := restored_exec g j y
  obtain ⟨fsel, fstuck, flines⟩ := finish_spec g d (restored g j y) hd (congrArg GroupExec.job hexec)
  have hst := scheduleGroup_standing g (finishPreparation g (restored g j y))
  have hlines := (hst.lines g).trans flines
  have hz : z = scheduleGroup g (finishPreparation g (restored g j y)) := exchangeDone_restore hk
  have hfinished : ((execOf (restored g j y) g).prepareDue = true ∧ (execOf (restored g j y) g).owed = []
      ∧ (restored g j y).rdy.phase = .armed ∧ (runOf (restored g j y) g).stuck = false) ↔ finished := by
    rw [hexec]
    exact Iff.rfl
  rw [hz]
  by_cases hf : finished
  · rw [if_pos (hfinished.2 hf), hexec] at hlines
    obtain ⟨hbridged, hcarried, howed, hdue, -⟩ := exec_lines hlines
    exact ⟨howed, (hst.sel g).trans fsel, (hst.stuck g).trans fstuck, fun _ => ⟨hdue, hcarried, hbridged⟩,
      fun hn => absurd hf hn⟩
  · rw [if_neg (mt hfinished.1 hf), hexec] at hlines
    obtain ⟨hbridged, hcarried, howed, hdue, -⟩ := exec_lines hlines
    exact ⟨howed, (hst.sel g).trans fsel, (hst.stuck g).trans fstuck, fun hy => absurd hy hf,
      fun _ => ⟨hdue, hbridged, hcarried⟩⟩

/-- R119: the shelf with no substitution pending. -/
def substitutionDone (g : GroupNo) (y : Shelf) : Shelf := setExec g (fun x => { x with subst := none }) (endJob g y)

theorem exchangeDone_subst (hk : j.kind = .subst ∨ j.kind = .substDest) :
    exchangeDone g j y = scheduleGroup g (substitutionEnded g .completed (substitutionDone g y)) := by
  rcases hk with hk | hk <;> simp only [exchangeDone, hk] <;> rfl

theorem substitutionDone_exec (g : GroupNo) (y : Shelf) : execOf (substitutionDone g y) g
    = { execOf y g with job := none, saved := [], step := .queued, subst := none } := by
  rw [substitutionDone, execOf_setExec_same, endJob, execOf_setExec_same]

/-- What joins the task list makes no difference to an order's leaving. -/
theorem orderLeaves_scheduleGroup {e : OrderEvent} {o : Order} {s x : Shelf} (h : OrderLeaves e o s x) :
    OrderLeaves e o s (scheduleGroup g x) := by
  rw [scheduleGroup_exe]
  exact h

/-- R119: what a completed substitution leaves of the group and of its order. -/
theorem exchangeDone_subst_spec (hk : j.kind = .subst ∨ j.kind = .substDest) :
    let z := exchangeDone g j y
    (execOf z g).lines = { execOf y g with subst := none }.lines ∧ (runOf z g).sel = (runOf y g).sel
    ∧ (runOf z g).stuck = (runOf y g).stuck
    ∧ ∀ o, y.ords.list.find? (fun o => decide (o.stage = .completing) && decide (o.circuit.map Prod.fst = some g))
        = some o →
        orderOf y o.num = some o → OrderLeaves .completed o y z := by
  intro z
  obtain ⟨est, -, eleaves⟩ := substitutionEnded_spec g .completed (substitutionDone g y)
  have hst := est.trans' (scheduleGroup_standing g _)
  have hz : z = scheduleGroup g (substitutionEnded g .completed (substitutionDone g y)) := exchangeDone_subst hk
  rw [hz]
  refine ⟨(hst.lines g).trans ?_, hst.sel g, hst.stuck g, fun o hf ho => orderLeaves_scheduleGroup ?_⟩
  · rw [substitutionDone_exec]
    rfl
  · exact eleaves y o rfl rfl (wide_rfl y) ⟨rfl, rfl, rfl, rfl⟩ hf ho

end Ends

/-! ### The obligation -/

/-- R110, R111, R120: the three timers. -/
theorem executorTimers (s : State) (g : GroupNo) :
    ((execOf s.shelf g).confirm ≠ none → ∃ x : Shelf, exec (.confirmTimerExpiry g) s = .next (settled x s)
      ∧ SameButAlarms s.shelf x ∧ (Obj.group g, Cond.farEndSilent) ∈ x.alm.told)
    ∧ ((execOf s.shelf g).retry ≠ none → (execOf s.shelf g).step = .retryWait → ∃ x : Shelf,
        exec (.retryWaitExpiry g) s = .next (worked x s)
        ∧ x.exe.tasks = s.shelf.exe.tasks ++ [.exchange g]
        ∧ execOf x g = { execOf s.shelf g with retry := none, step := .queued }
        ∧ (∀ h, h ≠ g → execOf x h = execOf s.shelf h)
        ∧ x = { s.shelf with exe := { s.shelf.exe with groups := x.exe.groups, tasks := x.exe.tasks } })
    ∧ (s.shelf.exe.clearWait ≠ none → ∃ x : Shelf, exec .clearRetryExpiry s = .next (worked x s)
        ∧ x = { s.shelf with exe := { s.shelf.exe with clearWait := none, tasks := x.exe.tasks } }
        ∧ (s.shelf.rdy.phase = .armed → (∃ p ∈ s.shelf.exe.clearList, portPresent s.shelf p = true) →
            Task.clear ∈ x.exe.tasks ∨ clearListed s.shelf = true)) := by
  refine ⟨fun hc => ⟨_, ?_, reportChange_frame (.group g) .farEndSilent true s.shelf, reportChange_present _ _ _⟩,
    fun hr hs => ⟨setTasks (fun t => t ++ [.exchange g]) (setExec g (fun x => { x with
      retry := none, step := .queued }) s.shelf), ?_, rfl, execOf_setExec_same ..,
          fun h hne => execOf_setExec_ne _ _ hne, rfl⟩,
    fun hw => ⟨_, ?_, syncClear_frame _, fun ha hp =>
      syncClear_stands (s := { s.shelf with exe := { s.shelf.exe with clearWait := none } }) ha hp rfl⟩⟩
  · exact congrArg (fun y => Host.Outcome.next (settled y s)) (confirmOver_running hc)
  · exact congrArg (fun y => Host.Outcome.next (worked y s)) (retryOver_running hr hs)
  · exact congrArg (fun y => Host.Outcome.next (worked y s)) (clearRetryOver_running hw)

/-- Settles O51: the timers, the exchanges taken, and the ends of an exchange by its kind and outcome. -/
theorem executorTimersEnd : Obligations.ExecutorTimersEnd := by
  refine ⟨executorTimers, fun y g d j pl hd hj hp hpl hs => ?_, fun y g d j hd hj hp hs => ?_,
      fun y g d j ha hd hj => ?_⟩
  · intro b names
    have named {l : List Nat} := takeTask_plan (l := l) hd hj hp hpl hs
    refine ⟨fun hk => ?_, fun hk => ?_, fun hk => ?_⟩
    · exact named (.inl hk) (by rw [hk]; rfl)
    · exact named (.inr (.inl hk)) (by rw [hk]; rfl)
    · cases hsh : d.shared
      · exact named (.inr (.inr hk)) (by rw [hk, planPorts, hsh]; rfl)
      · exact named (.inr (.inr hk)) (by rw [hk, planPorts, hsh]; rfl)
  · exact takeTask_again hd hj hp hs
  · intro x r sameLines waits
    refine ⟨fun hs => ⟨fun words => ?_, fun a n off reads => ?_, fun a n off reads w hw => ?_⟩,
      fun hs => ⟨fun words => ?_, fun a n off reads w => ?_⟩⟩
    · intro z
      have hz : z = exchangeDone g j (setActive none y) := executorEnd_done ha hj hs words
      rw [hz]
      refine ⟨fun pl hpl => ⟨fun hk => ?_, fun hk => ?_, fun hk => ?_⟩, fun hk => ?_, fun hk => ?_⟩
      · exact exchangeDone_bridge_spec (y := setActive none y) hk hpl hd rfl
      · obtain ⟨hsel, -, hlines, htold⟩ := planCompleted_spec g pl.target (setActive none y)
        obtain ⟨hbridged, hcarried, -⟩ := exec_lines hlines
        rw [exchangeDone_select (y := setActive none y) hk hpl]
        exact ⟨hsel, hcarried, hbridged, htold⟩
      · have hrelease := exchangeDone_release_spec (y := setActive none y) hk hd
        exact hrelease
      · obtain ⟨howed, hsel, hstuck, hends, hgoes⟩ := exchangeDone_restore_spec (y := setActive none y) hk hd
        refine ⟨howed, hsel, fun hdue hnil ha hr => hends ⟨hdue, hnil, ha, hr⟩, fun hn => ?_⟩
        obtain ⟨kdue, kbridged, kcarried⟩ := hgoes fun ⟨hdue, hnil, _⟩ =>
          hn.elim (fun hf => absurd (hf.symm.trans hdue) Bool.false_ne_true) fun hne => hne hnil
        exact ⟨kdue, hsel, hstuck, kbridged, kcarried⟩
      · obtain ⟨hlines, hsel, hstuck, hleaves⟩ := exchangeDone_subst_spec (y := setActive none y) hk
        obtain ⟨hbridged, hcarried, -, -, hsubst⟩ := exec_lines hlines
        exact ⟨hsubst, ⟨hsel, hstuck, hbridged, hcarried⟩, hleaves⟩
    · intro z
      have hz : z = _ := executorEnd_fault ha hj hs a n off reads 0
      rw [hz]
      refine ⟨exchangeFaulted_unwritten_told a, fun hlt => ?_, fun hge => ?_⟩
      · exact retryLater_waits hlt
      · rw [exchangeFaulted_unwritten, retryLater_stuck hge]
        exact groupStuck_told_fault ..
    · intro z
      have hz : z = _ := executorEnd_fault ha hj hs a n off reads w
      rw [hz]
      exact exchangeFaulted_written hw a
    · intro z
      have hz : z = _ := executorEnd_recovered ha hj hs words
      rw [hz]
      refine ⟨fun hlt => retryLater_waits hlt, fun hge => ?_⟩
      rw [retryLater_stuck hge]
      exact groupStuck_idle ..
    · rw [executorEnd_lost ha hj hs]
      exact groupStuck_idle ..

end Sys2Proof.Machine

/-! The soaks, the newcomers and the removals of the alarm table (R145, R147 to R153). -/

namespace Sys2Proof.Machine

/-! ### Records and their notices -/

/-- The next record of the one shelf has the number and the time of the other's. -/
def SameClock (s x : Shelf) : Prop := x.alm.nextSeq = s.alm.nextSeq ∧ shelfTime x = shelfTime s

section Offers
variable {o : Obj} {c : Cond} {sev : Severity} {tr : Transition} {x y z : Shelf}

theorem AlarmOffered.grows (h : AlarmOffered o c sev tr x y) (g : Grows y z) : AlarmOffered o c sev tr x z := by
  obtain ⟨entry, outs, used, full, hm⟩ := h
  exact ⟨entry, outs, used, full, g.subset hm⟩

theorem AlarmOffered.of_clock (k : SameClock x y) (h : AlarmOffered o c sev tr y z) : AlarmOffered o c sev tr x z := by
  rw [AlarmOffered, ← k.1, ← k.2]
  exact h

end Offers

theorem recordEntry_offers (e : AlarmEntry) (t : Transition) (s : Shelf) :
    AlarmOffered e.obj e.cond e.sev t s (recordEntry e t s) :=
  ⟨some (e.acked, e.count), _, _, _, List.mem_append_right _ (List.mem_singleton_self _)⟩

theorem removeEntry_offers (e : AlarmEntry) (t : Transition) (s : Shelf) :
    AlarmOffered e.obj e.cond e.sev t s (removeEntry e (some t) s) := by
  have hrecord := (recordEntry_offers e t (dropEntry e.obj e.cond s)).of_clock (x := s) ⟨rfl, rfl⟩
  exact hrecord.grows ((clearTableFull_grows _).trans' (reoffer_grows _))

theorem sounds_iff {v : Severity} : v.sounds = true ↔ v = .critical ∨ v = .major := by
  cases v <;> simp [Severity.sounds]

theorem clearCutOff_cutOff (v : Severity) (s : Shelf) :
    (clearCutOff v s).alm.cutOff = if v = .critical ∨ v = .major then false else s.alm.cutOff := by
  simp only [clearCutOff, sounds_iff]
  split <;> rfl

theorem clearCutOff_clock (v : Severity) (s : Shelf) : SameClock s (clearCutOff v s) := by
  unfold clearCutOff
  split <;> exact ⟨rfl, rfl⟩

/-- R153, R155: a raise is the newest record, its notice is on offer, and it ends the cut-off if it sounds. -/
def Raised (o : Obj) (c : Cond) (sev : Severity) (x y : Shelf) : Prop :=
  y.alm.history.getLast? = some ⟨x.alm.nextSeq, shelfTime x, some o, some c, some sev, .raised⟩
  ∧ y.alm.cutOff = (if sev = .critical ∨ sev = .major then false else x.alm.cutOff)
  ∧ AlarmOffered o c sev .raised x y

theorem recordRaised_spec (e : AlarmEntry) (f : List AlarmEntry → List AlarmEntry) (s : Shelf) :
    Raised e.obj e.cond e.sev s (recordEntry e .raised (clearCutOff e.sev (setTable f s))) := by
  have hclock : SameClock s (clearCutOff e.sev (setTable f s)) := clearCutOff_clock e.sev (setTable f s)
  refine ⟨?_, clearCutOff_cutOff e.sev (setTable f s), (recordEntry_offers e .raised _).of_clock hclock⟩
  rw [← hclock.1, ← hclock.2]
  exact makeRecord_last ..

theorem raiseEntry_spec (e : AlarmEntry) (s : Shelf) : Raised e.obj e.cond e.sev s (raiseEntry e s) :=
  recordRaised_spec (raisedEntry e s) _ s

/-! ### A newcomer -/

section Newcomer
variable {o : Obj} {c : Cond} {s : Shelf}

/-- R147, R148: the entry made for a condition that becomes present. -/
def newEntry (o : Obj) (c : Cond) (s : Shelf) : AlarmEntry :=
  if (settingOf s c).raise = 0 then ⟨o, c, (settingOf s c).sev, .raised, false, some (shelfTime s), 1, none⟩
  else ⟨o, c, (settingOf s c).sev, .rising, false, none, 0, some 0⟩

/-- An entry that has just joined the tail is the one its successor replaces. -/
theorem putEntry_push {e f : AlarmEntry} (hkey : e.key = f.key) (h : entryOf s f.obj f.cond = none) :
    (putEntry f (setTable (fun t => t ++ [e]) s)).alm.table = s.alm.table ++ [f] := by
  obtain ⟨hobj, hcond⟩ := Prod.mk.inj hkey
  have hold : s.alm.table.map (fun x => if x.obj = f.obj ∧ x.cond = f.cond then f else x) = s.alm.table := by
    refine (List.map_congr_left fun x hx => if_neg fun ⟨ho, hc⟩ => ?_).trans (List.map_id' _)
    exact entryOf_none h (List.mem_map.2 ⟨x, hx, Prod.ext ho hc⟩)
  simp only [putEntry, setTable, List.map_append, hold, List.map_cons, List.map_nil, hobj, hcond, and_self, if_true]

theorem enterRising_raised (h : (settingOf s c).raise = 0) : enterRising o c s
    = raiseEntry ⟨o, c, (settingOf s c).sev, .rising, false, none, 0, some 0⟩
        (setTable (fun t => t ++ [⟨o, c, (settingOf s c).sev, .rising, false, none, 0, some 0⟩]) s) := if_pos h

theorem enterRising_rising (h : (settingOf s c).raise ≠ 0) : enterRising o c s
    = setTable (fun t => t ++ [⟨o, c, (settingOf s c).sev, .rising, false, none, 0, some 0⟩]) s := if_neg h

theorem enterRising_table (h : entryOf s o c = none) :
    (enterRising o c s).alm.table = s.alm.table ++ [newEntry o c s] := by
  by_cases hr : (settingOf s c).raise = 0
  · rw [enterRising_raised hr, raiseEntry_table, newEntry, if_pos hr]
    exact putEntry_push rfl h
  · rw [enterRising_rising hr, newEntry, if_neg hr]
    rfl

theorem enterRising_spec (h : (settingOf s c).raise = 0) :
    Raised o c (settingOf s c).sev s (enterRising o c s) := by
  rw [enterRising_raised h]
  exact raiseEntry_spec ..

/-- R150: the table once TABLE-FULL stands in it. -/
def fullTable (s : Shelf) : List AlarmEntry :=
  if ∃ e ∈ s.alm.table, e.cond = .tableFull then s.alm.table else s.alm.table
    ++ [⟨.shelf, .tableFull, (settingOf s .tableFull).sev, .raised, false, some (shelfTime s), 1, none⟩]

theorem tableFullStands_iff {t : List AlarmEntry} : tableFullStands t = true ↔ ∃ e ∈ t, e.cond = .tableFull := by
  simp [tableFullStands]

theorem raiseTableFull_stands (h : ∃ e ∈ s.alm.table, e.cond = .tableFull) : raiseTableFull s = s :=
  if_pos (tableFullStands_iff.2 h)

theorem raiseTableFull_raises (h : ¬ ∃ e ∈ s.alm.table, e.cond = .tableFull) : raiseTableFull s
    = recordEntry ⟨.shelf, .tableFull, (settingOf s .tableFull).sev, .raised, false, some (shelfTime s), 1, none⟩
        .raised (clearCutOff (settingOf s .tableFull).sev (setTable (fun t => t
          ++ [⟨.shelf, .tableFull, (settingOf s .tableFull).sev, .raised, false, some (shelfTime s), 1, none⟩]) s)) :=
  if_neg (mt tableFullStands_iff.1 h)

theorem raiseTableFull_full (s : Shelf) : (raiseTableFull s).alm.table = fullTable s := by
  by_cases h : ∃ e ∈ s.alm.table, e.cond = .tableFull
  · rw [raiseTableFull_stands h, fullTable, if_pos h]
  · rw [raiseTableFull_raises h, fullTable, if_neg h]
    exact pushRaised_table ..

theorem raiseTableFull_spec (h : ¬ ∃ e ∈ s.alm.table, e.cond = .tableFull) :
    Raised .shelf .tableFull (settingOf s .tableFull).sev s (raiseTableFull s) := by
  rw [raiseTableFull_raises h]
  exact recordRaised_spec ..

theorem settingOf_same {x : Shelf} (h : SameButAlarms s x) (c : Cond) : settingOf x c = settingOf s c := by
  obtain ⟨-, -, -, -, -, -, -, -, -, -, hset⟩ := h
  rw [settingOf, settingOf, hset]

theorem shelfTime_same {x : Shelf} (h : SameButAlarms s x) : shelfTime x = shelfTime s := by
  obtain ⟨-, -, -, -, -, -, -, -, hrdy, -⟩ := h
  rw [shelfTime_eq, shelfTime_eq, hrdy]

theorem evictable_iff {e : AlarmEntry} : evictable e = true ↔ e.state = .raised ∧ e.acked = true
    ∧ ¬ (e.sev = .critical ∨ e.sev = .major) ∧ e.cond ≠ .tableFull := by
  simp only [evictable, Bool.and_eq_true, decide_eq_true_iff, Bool.not_eq_true', ← Bool.not_eq_true, sounds_iff,
    and_assoc]

theorem newcomer_room (h : usedCount s.alm.table < 95) : newcomer o c s = enterRising o c s := if_pos h

/-- R149: with all places in use and nothing to evict, the condition is left out. -/
theorem newcomer_left (h : 95 ≤ usedCount s.alm.table) (hno : ¬ (settingOf s c).sev.sounds = true
    ∨ ∀ e ∈ fullTable s, ¬ evictable e = true) : newcomer o c s = raiseTableFull s := by
  rw [newcomer, if_neg (show ¬ usedCount s.alm.table < Config.ordinaryMax from Nat.not_lt.2 h)]
  dsimp only
  rw [settingOf_same (raiseTableFull_frame s) c]
  by_cases hs : (settingOf s c).sev.sounds = true
  · rw [if_pos hs, raiseTableFull_full, List.find?_eq_none.2 (hno.resolve_left (not_not.2 hs))]
  · rw [if_neg hs]

/-- R149: the oldest entry that may be evicted gives up its place. -/
theorem newcomer_evicts {e : AlarmEntry} {older newer : List AlarmEntry} (h : 95 ≤ usedCount s.alm.table)
    (hs : (settingOf s c).sev.sounds = true) (hfull : fullTable s = older ++ e :: newer) (he : evictable e = true)
    (hold : ∀ f ∈ older, ¬ evictable f = true) : newcomer o c s
    = enterRising o c (recordEntry e .evicted (dropEntry e.obj e.cond (raiseTableFull s))) := by
  have hfind : (raiseTableFull s).alm.table.find? evictable = some e := by
    rw [raiseTableFull_full]
    exact List.find?_eq_some_iff_append.2 ⟨he, older, newer, hfull, fun f hf => by simpa using hold f hf⟩
  rw [newcomer, if_neg (show ¬ usedCount s.alm.table < Config.ordinaryMax from Nat.not_lt.2 h)]
  dsimp only
  rw [settingOf_same (raiseTableFull_frame s) c, if_pos hs, hfind]

end Newcomer

/-! ### A report -/

section Report
variable {o : Obj} {c : Cond} {b : Bool} {x : Shelf}

/-- R143: what is told and what is effectively present, once a report has been heard. -/
def heard (o : Obj) (c : Cond) (b : Bool) (x : Shelf) : Shelf :=
  { x with alm := { x.alm with
      told := if b then joinTail (o, c) x.alm.told else leave (o, c) x.alm.told
      eff := if b && !masked x o c then joinTail (o, c) x.alm.eff else leave (o, c) x.alm.eff } }

theorem setTold_isTold (o : Obj) (c : Cond) (b : Bool) (x : Shelf) : isTold (setTold o c b x) o c = b := by
  cases b
  · exact decide_eq_false (leave_self (o, c) x.alm.told)
  · exact decide_eq_true (joinTail_self (o, c) x.alm.told)

theorem setTold_isTold_other {p : Obj} {d : Cond} (h : d ≠ c) : isTold (setTold o c b x) p d = isTold x p d := by
  have hne : (p, d) ≠ (o, c) := fun he => h (congrArg Prod.snd he)
  refine decide_eq_decide.2 ?_
  cases b
  · simp [setTold, leave, hne]
  · by_cases hm : (o, c) ∈ x.alm.told <;> simp [setTold, joinTail, hm, hne]

/-- R144: what is told of a condition masks others, not itself. -/
theorem setTold_masked (o : Obj) (c : Cond) (b : Bool) (x : Shelf) : masked (setTold o c b x) o c = masked x o c := by
  cases o with
  | port p =>
    by_cases hc : c = .lossOfLight
    · rw [hc]
      rfl
    · simp only [masked, setTold_isTold_other (Ne.symm hc)]
      rfl
  | shelf | slot _ | group _ | ref _ => rfl

theorem report_follows (o : Obj) (c : Cond) (b : Bool) (x : Shelf) : report o c b x
    = match entryOf x o c with
      | some e => followEntry e b (masked x o c) (heard o c b x)
      | none => if (b && !masked x o c) && !decide ((o, c) ∈ x.alm.eff) then newcomer o c (heard o c b x)
          else heard o c b x := by
  unfold report follow
  rw [setTold_isTold, setTold_masked]
  rfl

theorem report_of_entry {e : AlarmEntry} (he : entryOf x o c = some e) :
    report o c b x = followEntry e b (masked x o c) (heard o c b x) := by rw [report_follows, he]

theorem report_newcomer (he : entryOf x o c = none) (hm : masked x o c = false) (hn : (o, c) ∉ x.alm.eff) :
    report o c true x = newcomer o c (heard o c true x) := by
  rw [report_follows, he]
  simp [hm, hn]

theorem report_masked (he : entryOf x o c = none) (hm : masked x o c = true) : report o c b x = heard o c b x := by
  rw [report_follows, he]
  simp [hm]

theorem report_eff (o : Obj) (c : Cond) (b : Bool) (x : Shelf) : (report o c b x).alm.eff
    = if b && !masked x o c then joinTail (o, c) x.alm.eff else leave (o, c) x.alm.eff := by
  rw [report_follows]
  split
  · exact (followEntry_told _ _ _ _).2
  · split
    · exact (newcomer_told _ _ _).2
    · rfl

theorem report_eff_absent (h : b = false ∨ masked x o c = true) : (o, c) ∉ (report o c b x).alm.eff := by
  have hcond : (b && !masked x o c) = false := by
    rcases h with h | h <;> simp [h]
  rw [report_eff, hcond]
  exact leave_self (o, c) x.alm.eff

theorem report_eff_present (h : masked x o c = false) : (o, c) ∈ (report o c true x).alm.eff := by
  rw [report_eff, h]
  exact joinTail_self (o, c) x.alm.eff

end Report

/-! ### An entry that leaves -/

section Leaves
variable {o : Obj} {c : Cond} {b : Bool} {x y z : Shelf}

/-- What leaves the one table leaves the other, if they differ in its entry alone. -/
theorem EntryLeaves.of_table (hkeys : keysOf y = keysOf x)
    (hrest : y.alm.table.filter (fun f => decide (f.key ≠ (o, c)))
      = x.alm.table.filter (fun f => decide (f.key ≠ (o, c))))
    (h : EntryLeaves o c y z) : EntryLeaves o c x z := by
  have hnone (q : Obj × Cond) : entryOf x q.1 q.2 = none ↔ entryOf y q.1 q.2 = none := by
    rw [entryOf_none_iff, entryOf_none_iff, hkeys]
  obtain ⟨hgone, htaken, hfirst, htable⟩ := h
  simp only [EntryLeaves, ne_eq, hnone, ← hrest]
  exact ⟨hgone, htaken, hfirst, htable⟩

theorem putEntry_rest {e : AlarmEntry} (he : e.key = (o, c)) (s : Shelf) :
    (putEntry e s).alm.table.filter (fun f => decide (f.key ≠ (o, c)))
      = s.alm.table.filter (fun f => decide (f.key ≠ (o, c))) := by
  rw [← he]
  simp only [putEntry, setTable]
  induction s.alm.table with
  | nil => rfl
  | cons a t ih =>
    rw [List.map_cons, List.filter_cons, List.filter_cons, ih]
    by_cases ha : a.obj = e.obj ∧ a.cond = e.cond
    · have hkey : a.key = e.key := Prod.ext ha.1 ha.2
      simp [ha, hkey]
    · rw [if_neg ha]

/-- The table in which an entry has been replaced, as the statement writes it. -/
theorem putEntry_table {e : AlarmEntry} (he : e.key = (o, c)) (s : Shelf) :
    (putEntry e s).alm.table = s.alm.table.map (fun f => if f.key = (o, c) then e else f) := by
  rw [← he]
  refine List.map_congr_left fun f _ => ?_
  simp only [AlarmEntry.key, Prod.mk.injEq]

theorem heard_ok (h : AlarmsOk x.alm) (hc : c ≠ .tableFull) : AlarmsOk (heard o c b x).alm := by
  obtain ⟨hused, hfull, hkeys, hhist, heff⟩ := h
  refine ⟨hused, hfull, hkeys, hhist, fun q hq => ?_⟩
  by_cases hcond : (b && !masked x o c) = true
  · simp only [heard, hcond, if_true, joinTail] at hq
    split at hq
    · exact heff q hq
    · rcases List.mem_append.1 hq with hq | hq
      · exact heff q hq
      · rw [List.mem_singleton.1 hq]
        exact hc
  · simp only [heard, if_neg hcond] at hq
    exact heff q (List.mem_of_mem_filter hq)

/-- R148, R150, R151: the removal that a report brings about. -/
theorem heard_removes {e : AlarmEntry} {t : Option Transition} (he : entryOf x o c = some e)
    (hn : (o, c) ∉ (heard o c b x).alm.eff) (hk : AlarmsOk x.alm) (hc : c ≠ .tableFull) :
    EntryLeaves o c x (removeEntry e t (heard o c b x)) := by
  obtain ⟨-, hobj, hcond⟩ := entryOf_key he
  have h := removeEntry_leaves (t := t) (e := e) (f := e) (heard_ok (b := b) hk hc) (by rw [hobj, hcond]; exact he)
    (by rw [hcond]; exact hc) (by rw [hobj, hcond]; exact hn)
  rw [hobj, hcond] at h
  exact h.of_table rfl rfl

end Leaves

end Sys2Proof.Machine

/-! SoaksEnd: the ends of the soaks, the reports with and without an entry, and the outputs. -/

namespace Sys2Proof.Machine

/-! ### The soaks -/

section Soaks
variable {o : Obj} {c : Cond} {e : AlarmEntry} {x : Shelf}

theorem endRaiseSoak_rising (he : entryOf x o c = some e) (hr : e.state = .rising) :
    endRaiseSoak o c x = raiseEntry e x := by simp only [endRaiseSoak, he, hr, if_true]

theorem endClearSoak_falling (he : entryOf x o c = some e) (hf : e.state = .falling) :
    endClearSoak o c x = removeEntry e (some .cleared) x := by simp only [endClearSoak, he, hf, if_true]

theorem entryOf_raiseEntry (he : entryOf x o c = some e) :
    entryOf (raiseEntry e x) o c = some (raisedEntry e x) := by
  obtain ⟨-, rfl, rfl⟩ := entryOf_key he
  rw [entryOf_eq (raiseEntry_table e x)]
  exact entryOf_put (e := e) (f := raisedEntry e x) he

/-- R148: the end of a clear soak removes the entry. -/
theorem endClearSoak_spec (he : entryOf x o c = some e) (hf : e.state = .falling) (hn : (o, c) ∉ x.alm.eff) :
    entryOf (endClearSoak o c x) o c = none ∧ AlarmOffered o c e.sev .cleared x (endClearSoak o c x)
    ∧ (AlarmsOk x.alm → c ≠ .tableFull → EntryLeaves o c x (endClearSoak o c x)) := by
  rw [endClearSoak_falling he hf]
  obtain ⟨-, rfl, rfl⟩ := entryOf_key he
  exact ⟨entryOf_remove hn, removeEntry_offers e .cleared x, fun hk hc => removeEntry_leaves hk he hc hn⟩

end Soaks

/-! ### A newcomer -/

section Newcomer
variable {o : Obj} {c : Cond} {x : Shelf}

theorem entryOf_evicted {e : AlarmEntry} (hc : c ≠ .tableFull) (h : entryOf x o c = none) :
    entryOf (recordEntry e .evicted (dropEntry e.obj e.cond (raiseTableFull x))) o c = none := by
  rw [entryOf_eq (recordEntry_table ..), entryOf_none_iff _ (o, c)]
  intro hm
  obtain ⟨f, hf, hkey⟩ := List.mem_map.1 hm
  rw [dropEntry_table] at hf
  rcases mem_raiseTableFull (List.mem_of_mem_filter hf) with hold | hfull
  · exact entryOf_none h (List.mem_map.2 ⟨f, hold, hkey⟩)
  · exact hc ((congrArg Prod.snd hkey).symm.trans hfull)

/-- R147, R148: a newcomer that finds room. -/
theorem newcomer_room_spec (hnone : entryOf x o c = none) (hu : usedCount x.alm.table < 95) :
    (newcomer o c x).alm.table = x.alm.table ++ [newEntry o c x]
    ∧ ((settingOf x c).raise ≠ 0 → (newcomer o c x).alm.history = x.alm.history
        ∧ (newcomer o c x).alm.cutOff = x.alm.cutOff ∧ (newcomer o c x).out = x.out)
    ∧ ((settingOf x c).raise = 0 → Raised o c (settingOf x c).sev x (newcomer o c x)) := by
  rw [newcomer_room hu]
  refine ⟨enterRising_table hnone, fun hr => ?_, enterRising_spec⟩
  rw [enterRising_rising hr]
  exact ⟨rfl, rfl, rfl⟩

/-- R149, R150: the eviction of the oldest entry that may be evicted. -/
theorem newcomer_evicts_spec {e : AlarmEntry} {older newer : List AlarmEntry} (hc : c ≠ .tableFull)
    (hnone : entryOf x o c = none) (hu : 95 ≤ usedCount x.alm.table) (hs : (settingOf x c).sev.sounds = true)
    (hfull : fullTable x = older ++ e :: newer) (he : evictable e = true) (hold : ∀ f ∈ older, ¬ evictable f = true) :
    (newcomer o c x).alm.table = (fullTable x).filter (fun f => decide (f.key ≠ e.key)) ++ [newEntry o c x]
    ∧ ((∃ f ∈ x.alm.table, f.cond = .tableFull) → AlarmOffered e.obj e.cond e.sev .evicted x (newcomer o c x))
    ∧ ((¬ ∃ f ∈ x.alm.table, f.cond = .tableFull) →
        AlarmOffered .shelf .tableFull (settingOf x .tableFull).sev .raised x (newcomer o c x)) := by
  have hgrows := enterRising_grows o c (recordEntry e .evicted (dropEntry e.obj e.cond (raiseTableFull x)))
  rw [newcomer_evicts hu hs hfull he hold]
  refine ⟨?_, fun hstands => ?_, fun hstands => ?_⟩
  · have hframe : SameButAlarms x (recordEntry e .evicted (dropEntry e.obj e.cond (raiseTableFull x))) :=
      (raiseTableFull_frame x).trans' ((setTable_frame _ _).trans' (recordEntry_frame _ _ _))
    rw [enterRising_table (entryOf_evicted hc hnone), recordEntry_table, dropEntry_table, raiseTableFull_full,
      newEntry, settingOf_same hframe, shelfTime_same hframe]
    rfl
  · have hrecord := recordEntry_offers e .evicted (dropEntry e.obj e.cond (raiseTableFull x))
    rw [raiseTableFull_stands hstands] at hrecord hgrows ⊢
    exact (hrecord.of_clock (x := x) ⟨rfl, rfl⟩).grows hgrows
  · obtain ⟨-, -, hoffer⟩ := raiseTableFull_spec hstands
    exact hoffer.grows (((setTable_grows _ _).trans' (recordEntry_grows _ _ _)).trans' hgrows)

end Newcomer

/-! ### A report of a condition with an entry -/

section Follow
variable {o : Obj} {c : Cond} {b : Bool} {e : AlarmEntry} {x : Shelf}

/-- Nothing but the alarm unit's states and table has changed. -/
def Quiet (x y : Shelf) : Prop :=
  SameButAlarms x y ∧ y.alm.history = x.alm.history ∧ y.alm.cutOff = x.alm.cutOff ∧ y.out = x.out

theorem heard_quiet (o : Obj) (c : Cond) (b : Bool) (x : Shelf) : Quiet x (heard o c b x) :=
  ⟨.alm rfl, rfl, rfl, rfl⟩

theorem heard_put_quiet (e : AlarmEntry) : Quiet x (putEntry e (heard o c b x)) := ⟨.alm rfl, rfl, rfl, rfl⟩

theorem heard_put_table {f : AlarmEntry} (hf : f.key = (o, c)) : (putEntry f (heard o c b x)).alm.table
    = x.alm.table.map (fun g => if g.key = (o, c) then f else g) := putEntry_table hf (heard o c b x)

theorem heard_absent (o : Obj) (c : Cond) (x : Shelf) : (o, c) ∉ (heard o c false x).alm.eff :=
  leave_self (o, c) x.alm.eff

theorem heard_masked (h : masked x o c = true) : (o, c) ∉ (heard o c b x).alm.eff := by
  simp only [heard, h, Bool.not_true, Bool.and_false, Bool.false_eq_true, if_false]
  exact leave_self (o, c) x.alm.eff

/-- R147: a RISING entry whose condition is absent leaves without a record. -/
theorem report_rising_absent (he : entryOf x o c = some e) (hr : e.state = .rising) :
    report o c false x = removeEntry e none (heard o c false x) := by
  simp [report_of_entry he, followEntry, hr]

theorem report_present (he : entryOf x o c = some e) (hm : masked x o c = false) (hf : e.state ≠ .falling) :
    report o c true x = heard o c true x := by
  rw [report_of_entry he, hm]
  cases hs : e.state with
  | rising | raised => simp [followEntry, hs]
  | falling => exact absurd hs hf

theorem report_raised_absent (he : entryOf x o c = some e) (hm : masked x o c = false) (hr : e.state = .raised) :
    report o c false x = beginFalling e (heard o c false x) := by
  simp [report_of_entry he, followEntry, hr, hm]

theorem report_falling_absent (he : entryOf x o c = some e) (hm : masked x o c = false) (hf : e.state = .falling) :
    report o c false x = heard o c false x := by
  simp [report_of_entry he, followEntry, hf, hm]

theorem report_falling_present (he : entryOf x o c = some e) (hm : masked x o c = false) (hf : e.state = .falling) :
    report o c true x = returnToRaised e (heard o c true x) := by
  simp [report_of_entry he, followEntry, hf, hm]

/-- R145: a masked condition's entry leaves, with a record unless it was RISING. -/
theorem report_masked_entry (he : entryOf x o c = some e) (hm : masked x o c = true) : report o c b x
    = removeEntry e (if e.state = .rising then none else some .masked) (heard o c b x) := by
  rw [report_of_entry he, hm]
  cases hs : e.state <;> simp [followEntry, hs]

/-- R147, R148: with a clear soak of 0 a RAISED entry leaves as soon as its condition is absent. -/
theorem beginFalling_clears (he : entryOf x o c = some e) (h : (settingOf x c).clear = 0) :
    (AlarmsOk x.alm → c ≠ .tableFull → EntryLeaves o c x (beginFalling e (heard o c false x)))
    ∧ AlarmOffered o c e.sev .cleared x (beginFalling e (heard o c false x)) := by
  obtain ⟨-, rfl, rfl⟩ := entryOf_key he
  let f : AlarmEntry := { e with state := .falling, soak := some 0 }
  let y := putEntry f (heard e.obj e.cond false x)
  have hgone : beginFalling e (heard e.obj e.cond false x) = removeEntry f (some .cleared) y := if_pos h
  have hf : entryOf y f.obj f.cond = some f := entryOf_put (e := e) (f := f) he
  rw [hgone]
  refine ⟨fun hk hc => ?_, ?_⟩
  · have hleaves := removeEntry_leaves (s := y) (e := f) (f := f) (t := some .cleared)
      (putEntry_ok (heard_ok hk hc)) hf hc
      (heard_absent e.obj e.cond x)
    exact hleaves.of_table (putEntry_keys f (heard e.obj e.cond false x)) (putEntry_rest (e := f) rfl _)
  · exact (removeEntry_offers f .cleared y).of_clock (x := x) ⟨rfl, rfl⟩

theorem beginFalling_soaks (he : entryOf x o c = some e) (h : (settingOf x c).clear ≠ 0) :
    beginFalling e (heard o c b x) = putEntry { e with state := .falling, soak := some 0 } (heard o c b x) := by
  obtain ⟨-, -, hcond⟩ := entryOf_key he
  exact if_neg (by rw [hcond]; exact h)

theorem entry_key (he : entryOf x o c = some e) : e.key = (o, c) := by
  obtain ⟨-, hobj, hcond⟩ := entryOf_key he
  exact Prod.ext hobj hcond

end Follow

/-! ### The outputs -/

theorem lampOn_iff {t : List AlarmEntry} {sev : Severity} : lampOn t sev = true
    ↔ ∃ e ∈ t, e.sev = sev ∧ (e.state = .raised ∨ e.state = .falling) := by
  have hstate (e : AlarmEntry) : e.state ≠ .rising ↔ e.state = .raised ∨ e.state = .falling := by
    cases e.state <;> simp
  simp only [lampOn, List.any_eq_true, Bool.and_eq_true, decide_eq_true_iff, hstate]

theorem audibleOn_iff {t : List AlarmEntry} {cutOff : Bool} : audibleOn t cutOff = true ↔ cutOff = false
    ∧ ∃ e ∈ t, e.state = .raised ∧ e.acked = false ∧ (e.sev = .critical ∨ e.sev = .major) := by
  simp only [audibleOn, List.any_eq_true, Bool.and_eq_true, decide_eq_true_iff, Bool.not_eq_true', sounds_iff,
    and_assoc]

/-- Settles O57: the soaks' ends, the reports and the outputs. -/
theorem soaksEnd : Obligations.SoaksEnd := by
  refine ⟨fun s o c e he => ⟨fun hr => ?_, fun hf hn => ?_⟩, fun x o c hc hm hn hnone => ?_, fun x o c e he hm => ?_,
    fun x o c b hm => ?_, fun a => ?_⟩
  · refine ⟨endRaiseSoak o c s.shelf, rfl, endRaiseSoak_frame o c _, ?_⟩
    rw [endRaiseSoak_rising he hr]
    obtain ⟨hlast, hcut, -⟩ := raiseEntry_spec e s.shelf
    obtain ⟨-, hobj, hcond⟩ := entryOf_key he
    rw [hobj, hcond] at hlast
    exact ⟨entryOf_raiseEntry he, hlast, hcut⟩
  · exact ⟨endClearSoak o c s.shelf, rfl, endClearSoak_frame o c _, endClearSoak_spec he hf hn⟩
  · intro y v sounds record entered full due
    have hdue (e : AlarmEntry) : due e ↔ evictable e = true := evictable_iff.symm
    have hy : y = newcomer o c (heard o c true x) := report_newcomer hnone hm hn
    refine ⟨report_frame o c true x, of_decide_eq_true (report_isTold o c true x), report_eff_present hm, fun hu => ?_,
      fun hu => ⟨fun hno => ?_, fun hs older e newer hfull he hold => ?_⟩⟩
    · obtain ⟨htable, hquiet, hraised⟩ := newcomer_room_spec (x := heard o c true x) hnone hu
      rw [hy]
      refine ⟨htable, hquiet, fun hr => ?_⟩
      obtain ⟨hlast, hcut, -⟩ := hraised hr
      exact ⟨hlast, hcut⟩
    · have hleft : newcomer o c (heard o c true x) = raiseTableFull (heard o c true x) :=
        newcomer_left (s := heard o c true x) hu
          (hno.imp (mt sounds_iff.1) fun h e he hev => h e he ((hdue e).2 hev))
      rw [hy, hleft]
      refine ⟨raiseTableFull_full (heard o c true x), fun hstands => ?_, fun hstands => ?_⟩
      · rw [raiseTableFull_stands (s := heard o c true x) hstands]
        exact ⟨rfl, rfl⟩
      · obtain ⟨hlast, hcut, -⟩ := raiseTableFull_spec (s := heard o c true x) fun ⟨e, he, h⟩ => hstands e he h
        exact ⟨hlast, hcut⟩
    · obtain ⟨htable, hevicted, hraised⟩ := newcomer_evicts_spec (x := heard o c true x) hc hnone hu (sounds_iff.2 hs)
        hfull ((hdue e).1 he) fun f hf hev => hold f hf ((hdue f).2 hev)
      rw [hy]
      exact ⟨htable, hevicted, fun hno => hraised fun ⟨f, hf, h⟩ => hno f hf h⟩
  · intro gone back becomes quiet leaves
    have hkey : e.key = (o, c) := entry_key he
    refine ⟨report_eff_absent (.inl rfl), report_eff_present hm, fun hr => ?_, fun hr => ?_, fun hf => ?_⟩
    · have hback : back = heard o c true x := report_present he hm (by rw [hr]; decide)
      refine ⟨fun hk hc => ?_, hback ▸ heard_quiet o c true x, hback ▸ rfl⟩
      have hgone : gone = _ := report_rising_absent he hr
      rw [hgone]
      exact heard_removes he (heard_absent o c x) hk hc
    · have hback : back = heard o c true x := report_present he hm (by rw [hr]; decide)
      have hgone : gone = _ := report_raised_absent he hm hr
      refine ⟨hback ▸ heard_quiet o c true x, hback ▸ rfl, fun hs => ?_, fun hs => ?_⟩
      · rw [hgone, beginFalling_soaks he hs]
        exact ⟨heard_put_quiet _, heard_put_table (f := { e with state := .falling, soak := some 0 }) hkey⟩
      · obtain ⟨hleaves, hoffer⟩ := beginFalling_clears he hs
        rw [← hgone] at hleaves hoffer
        exact ⟨hleaves, hoffer⟩
    · have hgone : gone = heard o c false x := report_falling_absent he hm hf
      have hback : back = _ := report_falling_present he hm hf
      refine ⟨hgone ▸ heard_quiet o c false x, hgone ▸ rfl, ?_⟩
      rw [hback]
      exact ⟨heard_put_quiet _, heard_put_table
        (f := { e with state := .raised, soak := none, count := bump 255 e.count }) hkey⟩
  · intro y
    refine ⟨report_eff_absent (.inr hm), fun hnone => ?_, fun e he => ?_⟩
    · have hy : y = heard o c b x := report_masked hnone hm
      rw [hy]
      exact ⟨rfl, rfl, rfl⟩
    · have hy : y = _ := report_masked_entry he hm
      rw [hy]
      refine ⟨fun hk hc => heard_removes he (heard_masked hm) hk hc, fun hr => ?_⟩
      obtain ⟨-, rfl, rfl⟩ := entryOf_key he
      rw [if_neg hr]
      exact (removeEntry_offers e .masked _).of_clock (x := x) ⟨rfl, rfl⟩
  · exact ⟨lampOn_iff, lampOn_iff, lampOn_iff, rfl, audibleOn_iff⟩

end Sys2Proof.Machine
